-- ==== Sys2Proof/Word.lean ====
section
/-! DEFINITION. The byte type and the plainest arithmetic of the manual ("clamp", "saturate"; 00_scope.md, Units and number conventions). -/

namespace Sys2Proof

/-- One byte as sent on the line, on the coach link or stored in the configuration memory (13). -/
abbrev Byte := BitVec 8

/-- "To clamp a value is to replace a value below a range with the lower limit and a value above it with the upper limit." -/
def clampNat (lo hi x : Nat) : Nat := if x < lo then lo else if hi < x then hi else x

/-- Clamping of a signed value. -/
def clampInt (lo hi x : Int) : Int := if x < lo then lo else if hi < x then hi else x

/-- Ceiling of a quotient with a positive divisor. -/
def ceilDiv (a b : Nat) : Nat := (a + (b - 1)) / b

end Sys2Proof
end

