-- ==== Sys2Proof/Syntax.lean ====
section
/-! DEFINITION. The commands of the BC-416: one constructor per row of spec/opcode_table.json, in the table's order. -/

namespace Sys2Proof

/-- The five digital inputs of the bay (R154). -/
inductive Input where
  | coachPresent | plugInserted | plugLatched | departRequest | heaterProving
deriving DecidableEq, Repr

/-- A command or event the station takes. Received notices carry sender, target and payload bytes (13.1, 13.2). -/
inductive Instr where
  /-- R177. -/
  | powerOnReset
  /-- R177, R185: the bytes read from the configuration memory; none when the memory does not answer. -/
  | configReadDone (image : List Byte)
  /-- R178. -/
  | listenInEnd
  /-- R179. -/
  | staggerTimerEnd
  /-- R17, R18. -/
  | secondEvent
  /-- R22. -/
  | clockStale
  /-- R20. -/
  | timeNotice (sender target : Byte) (payload : List Byte)
  /-- R28. -/
  | laneNotice (sender target : Byte) (payload : List Byte)
  /-- R27. -/
  | demandNotice (sender target : Byte) (payload : List Byte)
  /-- R69. -/
  | supplyNotice (sender target : Byte) (payload : List Byte)
  /-- R4. -/
  | planNotice (sender target : Byte) (payload : List Byte)
  /-- R129. -/
  | faultClearNotice (sender target : Byte) (payload : List Byte)
  /-- R37. -/
  | queryNotice (sender target : Byte) (payload : List Byte)
  /-- R179. -/
  | helloNotice (sender target : Byte) (payload : List Byte)
  /-- R180. -/
  | restartNotice (sender target : Byte) (payload : List Byte)
  /-- R165: kind 0-15. -/
  | noticeNotDispatched (kind : Nat) (sender target : Byte) (payload : List Byte)
  /-- R171: the bytes heard, header to check. -/
  | receiveFault (frame : List Byte)
  /-- R169. -/
  | presentItem
  /-- R170. -/
  | noticeSent
  /-- R166. -/
  | arbitrationLost
  /-- R170. -/
  | transmissionFailure
  /-- R168. -/
  | statusRefresh
  /-- R31: the peer whose demand record ages out. -/
  | demandRecordAged (peer : Nat)
  /-- R31: the peer whose lane record ages out. -/
  | laneRecordAged (peer : Nat)
  /-- R32: the peer whose entry is removed. -/
  | entryAged (peer : Nat)
  /-- R34. -/
  | viewFullClear
  /-- R35. -/
  | unseenDemandClear
  /-- R36: the lane whose mark runs out. -/
  | contestedMarkExpiry (lane : Nat)
  /-- R79. -/
  | demandRefresh
  /-- R44. -/
  | cabinPollDue
  /-- R55. -/
  | stageRise
  /-- R58. -/
  | blindEntry
  /-- R58. -/
  | blindTimeout
  /-- R89. -/
  | exchangeStart
  /-- R90: whether every character had good parity, and the frame bytes (R184). -/
  | coachResponse (parityGood : Bool) (frame : List Byte)
  /-- R90. -/
  | responseTimeout
  /-- R91. -/
  | tryRetry
  /-- R84. -/
  | wakeDue
  /-- R122. -/
  | periodicDue
  /-- R131. -/
  | faultSummaryRefresh
  /-- R104, R105. -/
  | windowSkipEnd
  /-- R104: rail samples in mA since the skip or the last such command. -/
  | baselineWindowClose (samples : List Nat)
  /-- R105: as for the baseline window. -/
  | groupWindowClose (samples : List Nat)
  /-- R154. -/
  | rawInputChange (input : Input) (level : Bool)
  /-- R150. -/
  | coachPresentChange
  /-- R97. -/
  | plugInsertedChange
  /-- R161. -/
  | plugLatchedChange
  /-- R137. -/
  | departRequestPress
  /-- R159. -/
  | heaterProvingChange
  /-- R159. -/
  | provingWindowEnd
  /-- R160. -/
  | latchCloseDelayEnd
  /-- R161. -/
  | latchCheckTimeout
  /-- R156: the sample in half-degrees, or none when the front end cannot convert it. -/
  | probeSample (sample : Option Int)
  /-- R141. -/
  | claimRetryDelayEnd
  /-- R142. -/
  | holdOffExpiry
  /-- R143. -/
  | heldRefresh
  /-- R144. -/
  | unlatchWaitExpiry
  /-- R145. -/
  | clearanceTimeout
  /-- R146. -/
  | laneTransitExpiry
  /-- R137. -/
  | refusalIndicationEnd
  /-- R154. -/
  | departRequestRelease
deriving DecidableEq, Repr

end Sys2Proof
end

