-- ==== Sys2Proof/Config.lean ====
section
/-! DEFINITION. What the part fixes for every station (capacities and durations of the rules), and the free values of the model. -/

namespace Sys2Proof.Config

/-- Milliseconds in a second of station seconds (R17). -/
abbrev second : Nat := 1000
/-- The upper limit of the seconds count (R17). -/
abbrev maxSeconds : Nat := 4294967295
/-- Listen-in after acceptance (R177). -/
abbrev listenIn : Nat := 20 * second
/-- Listen-in after RESTART (R180). -/
abbrev listenInRestart : Nat := 5 * second
/-- Staleness of depot time (R22). -/
abbrev staleAfter : Nat := 600 * second
/-- Age of a demand record (R31). -/
abbrev demandAge : Nat := 60 * second
/-- Age of a lane record (R31). -/
abbrev laneAge : Nat := 40 * second
/-- Age of an entry without a record (R32). -/
abbrev entryAge : Nat := 180 * second
/-- View-full and unseen-demand (R34, R35). -/
abbrev refusalAge : Nat := 60 * second
/-- Contested mark (R36). -/
abbrev contestedAge : Nat := 40 * second
/-- Entries of the peer view (R26). -/
abbrev viewSize : Nat := 48
/-- Entries of the answer queue (R37). -/
abbrev answerQueue : Nat := 4
/-- Plan records (R2). -/
abbrev planSlots : Nat := 4
/-- A new plan further in the past than this many minutes is stale (R5). -/
abbrev staleMinutes : Nat := 60
/-- Cabin poll period (R44). -/
abbrev cabinPoll : Nat := 30 * second
/-- Age at which a cabin reading stops being valid (R44). -/
abbrev readingAge : Nat := 120 * second
/-- Least time between a change of the stage count and a rise (R55). -/
abbrev riseGap : Nat := 10 * second
/-- BLIND's first part (R58). -/
abbrev blindSpan : Nat := 600 * second
/-- Entries of the learned capacity table (R65). -/
abbrev learnedSize : Nat := 16
/-- DEMAND refresh (R79). -/
abbrev demandRefresh : Nat := 20 * second
/-- Wait before the next IDENTIFY (R84, R94). -/
abbrev wakeWait : Nat := 5 * second
/-- Consecutive failures that lose the coach (R94). -/
abbrev lostAfter : Nat := 3
/-- Skip of the baseline window (R104). -/
abbrev baselineSkip : Nat := 20
/-- Rail saturation in mA (R157). -/
abbrev saturation : Nat := 30000
/-- Retries of an unstable group (R109). -/
abbrev retryLimit : Nat := 2
/-- Spoils that end a group (R110). -/
abbrev spoilLimit : Nat := 4
/-- Records of the fault table (R118). -/
abbrev tableSize : Nat := 32
/-- Restarts of a read (R125). -/
abbrev restartLimit : Nat := 3
/-- Periodic read (R122, R125). -/
abbrev periodic : Nat := 600 * second
/-- FAULT SUMMARY refresh (R131). -/
abbrev summaryRefresh : Nat := 60 * second
/-- Hold-off of a claim (R142). -/
abbrev holdOff : Nat := 3 * second
/-- HELD refresh (R143). -/
abbrev heldRefresh : Nat := 10 * second
/-- Unlatch wait (R144). -/
abbrev unlatchWait : Nat := 20 * second
/-- Refusal indication (R137). -/
abbrev refusalShow : Nat := 10 * second
/-- Debounce in CONFIG FAULT (R154). -/
abbrev faultDebounce : Nat := 500
/-- Proving window (R159). -/
abbrev provingWindow : Nat := 2 * second
/-- Delay before AUTOMATIC closes the latch (R160). -/
abbrev latchDelay : Nat := second
/-- Latch check (R161). -/
abbrev latchCheck : Nat := 2 * second
/-- STATUS refresh (R168). -/
abbrev statusRefresh : Nat := 30 * second
/-- Valid notices that end DETACHED (R175). -/
abbrev recoveryRun : Nat := 32
/-- Counter after the recovery run (R175). -/
abbrev recovered : Nat := 127
/-- Bytes of the configuration image (13.5). -/
abbrev imageSize : Nat := 738
/-- Grant recomputations in one command after which the model takes the open value (DESIGN CHOICE, log entry 8). -/
abbrev grantRounds : Nat := 16
/-- Judgements of watched conditions in one command (DESIGN CHOICE, log entry 7). -/
abbrev settleFuel : Nat := 128

/-- FREE VALUE (log entry 8). R74 says the rounds between grant and slack end for a drawing station whose key moves only
toward the front; in HOLDING the key moves both ways and the manual does not say where endless rounds stop. Whether the
recomputed grant (true) or the grant in force (false) stays is this constant at a counter: it has no body. -/
opaque unsettledGrant : Nat → Bool

/-- FREE VALUE (log entry 9). Where the station stops transmitting with an item presented, R169 and R180 withdraw it if
arbitration has not yet been won, and let it be sent to its end if it has. No rule gives the moment within the line's
timing at which that is judged: whether it has been won is this constant at the counter of free values used. -/
opaque wonArbitration : Nat → Bool

end Sys2Proof.Config
end

