-- ==== Sys2Proof/Machine/State.lean ====
section
/-! DEFINITION. The state of the BC-416 as plain data, block by block (00_scope.md, Overview of the blocks), and its value after reset. Times are milliseconds of station seconds (R17); a timer is its expiry or absent. -/

namespace Sys2Proof.Machine

/-- No command stops the machine with a fault: this type has no constructor. Safe: nothing raises one. -/
inductive Fault where
deriving DecidableEq, Repr

/-- Why a command has no meaning. -/
inductive Refusal where
  /-- Raised only by an arm of `exec` without a meaning; there is none. Safe. -/
  | notModelled (mnemonic : String)
deriving DecidableEq, Repr

/-! ### Configuration (13.5) -/

/-- Lamp class of a group (R100). -/
inductive LampClass where
  | safety | other | interior
deriving DecidableEq, Repr

/-- One group of a class lamp table (R100). -/
structure LampGroup where
  /-- E in mA. -/
  expected : Nat
  /-- n. -/
  lamps : Nat
  cls : LampClass
  /-- K in ms. -/
  skip : Nat
deriving DecidableEq, Repr

/-- The class record of 13.5. -/
structure ClassCfg where
  profile : Nat
  heaterMax : Nat
  /-- S in 0.5 kW. -/
  stageSize : Nat
  /-- H in kJ/°C. -/
  capacity : Nat
  /-- U in W/°C. -/
  loss : Nat
  /-- M in min. -/
  margin : Nat
  lampLead : Nat
  avgExp : Nat
  spreadPct : Nat
  overPct : Nat
  groupCount : Nat
  groups : List LampGroup
deriving DecidableEq, Repr

/-- Parity of a link profile (R87). -/
inductive Parity where
  | none | even | odd
deriving DecidableEq, Repr

/-- One link profile (R87). -/
structure Profile where
  /-- bit/s. -/
  rate : Nat
  parity : Parity
  timeout : Nat
  gap : Nat
  retries : Nat
deriving DecidableEq, Repr

/-- The accepted configuration image (R185). -/
structure Configuration where
  station : Nat
  group : Nat
  lanes : List Nat
  allowance : Nat
  reserve : Nat
  silentFloor : Nat
  overdueLimit : Nat
  earlyWindow : Nat
  clearance : Nat
  transit : List Nat
  tmin : Int
  tolerance : Nat
  designTo : Int
  display : Bool
  /-- ms, in the order of R154's inputs. -/
  debounce : List Nat
  wakeProfile : Nat
  blockThreshold : Nat
  adviseThreshold : Nat
  blockList : List Nat
  profiles : List Profile
  classes : List ClassCfg
deriving DecidableEq, Repr

/-! ### START and CLOCK -/

/-- Station state (12). -/
inductive StationState where
  | readingConfig | configFault | listenIn | joining | operating
deriving DecidableEq, Repr

/-- START (R177). -/
structure Start where
  station : StationState
  listenIn : Option Nat
  stagger : Option Nat
  /-- START has yet to order the wake that follows the halt of RESTART (R96). -/
  wakeAfterHalt : Bool
deriving DecidableEq, Repr

/-- Clock state (2.2). -/
inductive ClockState where
  | unset | set | stale
deriving DecidableEq, Repr

/-- Depot day and second of day (2.2). -/
structure DepotTime where
  day : Nat
  second : Nat
deriving DecidableEq, Repr

/-- CLOCK (R17, 2.2). -/
structure Clock where
  seconds : Nat
  millis : Nat
  state : ClockState
  time : Option DepotTime
  /-- Arrival stamp of the last TIME taken. -/
  lastTime : Option Nat
deriving DecidableEq, Repr

/-! ### Plans -/

/-- Departure phase (R1). -/
inductive Phase where
  | waitingCoach | wrongCoach | preparing | ready | requested | finalRead | claiming | releasing | cleared | gone
deriving DecidableEq, Repr

/-- The notice-set fields of a plan record, normalised (R1, R4). -/
structure PlanData where
  id : Nat
  coach : Nat
  day : Nat
  minute : Nat
  target : Int
  cls : Nat
  lanes : List Nat
  heatNow : Bool
  skipLamps : Bool
deriving DecidableEq, Repr

/-- A held change (R9). -/
inductive HeldChange where
  | revision (d : PlanData)
  | cancel
deriving DecidableEq, Repr

/-- A plan record (R1). -/
structure Plan where
  data : PlanData
  phase : Phase
  held : Option HeldChange
  overdue : Bool
deriving DecidableEq, Repr

/-- PLANS (R2, R5, R6). -/
structure Plans where
  list : List Plan
  stale : Bool
  full : Bool
  /-- Plan-dropped indication, 0 when none. -/
  dropped : Nat
deriving DecidableEq, Repr

/-! ### The fault table -/

/-- Source kind of a fault (R117). -/
inductive Source where
  | coach (unit : Nat)
  | lamp (group : Nat)
  | preheat | bay | link | plan | lane
deriving DecidableEq, Repr

/-- The key of a record (R117). -/
structure Key where
  source : Source
  code : Nat
deriving DecidableEq, Repr

/-- Severity (R117). -/
inductive Severity where
  | blocking | advisory | info
deriving DecidableEq, Repr

/-- Coach state of a COACH record (R117). -/
inductive CoachState where
  | active | stored
deriving DecidableEq, Repr

/-- A fault record (R117). -/
structure Record where
  key : Key
  severity : Severity
  coach : Option CoachState
  count : Nat
  first : Option DepotTime
  last : Option DepotTime
  present : Bool
deriving DecidableEq, Repr

/-- A coach fault as read (R121). -/
structure CoachFault where
  unit : Nat
  code : Nat
  level : Nat
  state : CoachState
deriving DecidableEq, Repr

/-- Reader state (8.3). -/
inductive ReaderState where
  | idle | counting | reading | complete | failed
deriving DecidableEq, Repr

/-- Read kind (8.3). -/
inductive ReadKind where
  | identification | periodic | final
deriving DecidableEq, Repr

/-- Content of FAULT SUMMARY (R131). -/
structure Summary where
  blocking : Nat
  advisory : Nat
  info : Nat
  overflow : Bool
  reader : ReaderState
  key1 : Option Key
  key2 : Option Key
deriving DecidableEq, Repr

/-- The verdict (R128). -/
inductive Verdict where
  | clear | incomplete | blocked
deriving DecidableEq, Repr

/-- FAULTS (R117, 8.3, R131). -/
structure Faults where
  table : List Record
  overflow : Bool
  reader : ReaderState
  kind : ReadKind
  toRead : Nat
  next : Nat
  pass : List CoachFault
  spoilt : Bool
  restarts : Nat
  complete : Bool
  periodicDue : Option Nat
  lastId : Option Nat
  refresh : Option Nat
  /-- Content last announced, to see each change of it (R131). -/
  shown : Summary
  /-- A final-read report on its way to DEPART within the present command (R126): true for "complete". -/
  report : Option Bool
deriving DecidableEq, Repr

/-! ### HEAT and SHARE -/

/-- Controller state (R43). -/
inductive HeatState where
  | off | scheduled | announced | heating | holding | blind | stopped
deriving DecidableEq, Repr

/-- Cabin reading (R44). -/
structure Reading where
  temp : Int
  time : Nat
  /-- The identified coach it was taken from. -/
  coach : Option Nat
deriving DecidableEq, Repr

/-- A heat run (R63). -/
structure HeatRun where
  tc0 : Int
  to0 : Int
  start : Nat
  /-- Stage-milliseconds up to `mark`. -/
  acc : Nat
  mark : Nat
  coach : Nat
deriving DecidableEq, Repr

/-- An entry of the learned capacity table (R65). -/
structure Learned where
  coach : Nat
  capacity : Nat
  runs : Nat
  lastUsed : Nat
deriving DecidableEq, Repr

/-- A rise held back by a lamp window (R54): the first stage of a drawing state (R49) or a rise of HOLDING (R57). -/
inductive WaitingRise where
  | first | regulation
deriving DecidableEq, Repr

/-- Kinds of coach request (R88). -/
inductive ReqKind where
  | identify | cabinTemperature | heaterEnable | heaterDisable | lampsOff | lampGroupOn | faultCount | faultRecord
deriving DecidableEq, Repr

/-- HEAT (R43). -/
structure Heat where
  state : HeatState
  count : Nat
  stageMax : Nat
  stageSize : Nat
  /-- Heater maximum last reported by a coach (R85). -/
  coachMax : Option Nat
  enableHeld : Bool
  reading : Option Reading
  pollDue : Option Nat
  lead : Nat
  startMin : Option Int
  slack : Int
  unreachable : Bool
  longHeat : Bool
  holdRequest : Nat
  blindCount : Nat
  blindEnd : Option Nat
  /-- BLIND was entered from HEATING (true) or HOLDING (R58). -/
  blindFromHeating : Bool
  drawingSince : Option Nat
  lastChange : Option Nat
  waiting : Option WaitingRise
  unreachableRecorded : Bool
  run : Option HeatRun
  learned : List Learned
  /-- Requests told "at quota" (R88). -/
  kept : List ReqKind
  /-- A computation of R51 is called for within the present command. -/
  compute : Bool
deriving DecidableEq, Repr

/-- SHARE (R67). -/
structure Share where
  live : Nat
  grant : Nat
  ranking : Option Int
  /-- The next computation sets the ranking slack whatever the state (R71). -/
  fresh : Bool
  announced : Bool
  demandSent : Bool
  refresh : Option Nat
  /-- Recomputations of the grant taken in the present judging of conditions (log entry 8). -/
  rounds : Nat
deriving DecidableEq, Repr

/-! ### LINE -/

/-- Slot state (R167). -/
inductive SlotState where
  | empty | pending | held | sent
deriving DecidableEq, Repr

/-- A transmit slot (R167). -/
structure Slot (α : Type) where
  state : SlotState
  content : Option α
  /-- Written since its item was last presented (R170). -/
  written : Bool
deriving DecidableEq, Repr

/-- Action of a LANE notice (13.2). -/
inductive LaneAction where
  | claim | held | release
deriving DecidableEq, Repr

/-- LANE content (9.5) with its single-try mark (R167). -/
structure LaneContent where
  action : LaneAction
  lane : Nat
  key : Nat
  inTransit : Bool
  singleTry : Bool
deriving DecidableEq, Repr

/-- DEMAND content (R78). -/
structure DemandContent where
  group : Nat
  requested : Nat
  stageSize : Nat
  slack : Int
  drawing : Bool
  stagesOn : Nat
deriving DecidableEq, Repr

/-- HELLO content (R178). -/
structure HelloContent where
  station : Nat
  group : Nat
  lanes : List Nat
deriving DecidableEq, Repr

/-- Own lane state (9.5). -/
inductive OwnLane where
  | free | listening | claiming | held | yielded
deriving DecidableEq, Repr

/-- Last refusal reason (R133). -/
inductive RefusalReason where
  | none | noPlan | notReady | blocked | tooEarly
deriving DecidableEq, Repr

/-- Link state (6.2). -/
inductive LinkState where
  | down | waking | up | halting | halted
deriving DecidableEq, Repr

/-- Lamp check state (7.2). -/
inductive LampState where
  | idle | waiting | baseline | measuring | suspended | done | abandoned
deriving DecidableEq, Repr

/-- Line state (R173). -/
inductive LineState where
  | active | warned | muted | detached
deriving DecidableEq, Repr

/-- What a plan record gives to a PLAN LIST answer (R16). -/
structure PlanShown where
  id : Nat
  day : Nat
  minute : Nat
  phase : Phase
deriving DecidableEq, Repr

/-- STATUS content (R168, 13.2), with the items of the PLAN LIST answer: no page carries them, but their change is a
change of STATUS content (R16). -/
structure StatusContent where
  station : StationState
  clock : ClockState
  twin : Bool
  trouble : Bool
  floor : Bool
  counter : Nat
  headId : Nat
  headPhase : Option Phase
  planCount : Nat
  stagesOn : Nat
  grant : Nat
  verdict : Verdict
  lane : Nat
  ownLane : OwnLane
  inTransit : Bool
  link : LinkState
  refusal : RefusalReason
  overflow : Bool
  heat : HeatState
  unreachable : Bool
  longHeat : Bool
  lamp : LampState
  lampGroup : Nat
  overdue : Bool
  /-- 0 none, 1 revision, 2 cancel. -/
  heldChange : Nat
  stalePlan : Bool
  planFull : Bool
  viewFull : Bool
  unseen : Bool
  line : LineState
  contested2 : Bool
  contested1 : Bool
  dropped : Nat
  plans : List PlanShown
deriving DecidableEq, Repr

/-- Asked kinds (R37). -/
inductive AskedKind where
  | status | demand | lane | faultSummary | planList | faultRecord
deriving DecidableEq, Repr

/-- An answer entry (R37). -/
structure Answer where
  asker : Nat
  kind : AskedKind
  index : Nat
deriving DecidableEq, Repr

/-- What is in transmission (R169). -/
inductive TxItem where
  | lane (c : LaneContent)
  | demand (c : DemandContent)
  | answer (a : Answer)
  | status
  | summary
  | hello
deriving DecidableEq, Repr

/-- The item in transmission (R169, R183). -/
structure Tx where
  item : TxItem
  /-- The notice on the line: header, payload of the part and check (R181). -/
  frame : List Byte
  /-- Payloads of the parts still to follow. -/
  rest : List (List Byte)
  /-- RESTART emptied its queue entry or slot while it had won: neither is looked for at its outcome (R176, R180, R183). -/
  orphan : Bool
  /-- Its claim was dropped under R149. -/
  dropped : Bool
  /-- The station stopped transmitting after this item had won arbitration (R169, log entry 9). -/
  won : Bool
deriving DecidableEq, Repr

/-- LINE (R167 to R175). -/
structure Line where
  lane : Slot LaneContent
  demand : Slot DemandContent
  status : Slot StatusContent
  summary : Slot Summary
  hello : Slot HelloContent
  answers : List Answer
  tx : Option Tx
  statusSeries : Option (List (List Byte))
  answerSeries : Option (List (List Byte))
  counter : Nat
  recovery : Nat
  twin : Bool
  statusRefresh : Option Nat
deriving DecidableEq, Repr

/-! ### VIEW -/

/-- A demand record (R26). -/
structure DemandRec where
  group : Nat
  requested : Nat
  stageSize : Nat
  slack : Int
  stamp : Nat
deriving DecidableEq, Repr

/-- A lane record (R26): `held` is action HELD, otherwise CLAIM. -/
structure LaneRec where
  lane : Nat
  held : Bool
  key : Nat
  stamp : Nat
deriving DecidableEq, Repr

/-- A peer entry (R26). -/
structure Entry where
  station : Nat
  lastHeard : Nat
  demand : Option DemandRec
  lane : Option LaneRec
deriving DecidableEq, Repr

/-- A contested mark and when it runs out (R36). -/
structure Mark where
  lane : Nat
  expiry : Nat
deriving DecidableEq, Repr

/-- VIEW (R26, R34 to R36): a flag is set while its 60 s run. -/
structure View where
  entries : List Entry
  full : Option Nat
  unseen : Option Nat
  contested : List Mark
deriving DecidableEq, Repr

/-! ### LINK -/

/-- The four jobs (R88). -/
inductive Job where
  | ident | heat | lamp | fault
deriving DecidableEq, Repr

/-- A request in the queue (R88). -/
structure Request where
  job : Job
  kind : ReqKind
  arg : Nat
  /-- LAMP's closing request (R111). -/
  closing : Bool
deriving DecidableEq, Repr

/-- Cause of a failed try (R90; the last one for R84's unacceptable content). -/
inductive Cause where
  | checkError | wrongEcho | timeout | notAcceptable
deriving DecidableEq, Repr

/-- The exchange in flight (R89): `timeoutAt` absent while it waits for a retry. -/
structure Exchange where
  req : Request
  number : Nat
  tries : Nat
  withdrawn : Bool
  profile : Nat
  timeoutAt : Option Nat
  cause : Option Cause
  /-- The 6 bytes of the request that each try sends (R89, R91, R184). -/
  frame : List Byte
deriving DecidableEq, Repr

/-- The identified coach (R85). -/
structure Coach where
  id : Nat
  cls : Nat
  heaterMax : Nat
  lampGroups : Nat
deriving DecidableEq, Repr

/-- LINK (R83). -/
structure Link where
  state : LinkState
  profile : Nat
  queue : List Request
  exchange : Option Exchange
  number : Nat
  failures : Nat
  coach : Option Coach
  cls : Option Nat
  wakeDue : Option Nat
  resume : Bool
  lastEnd : Option Nat
  /-- An identification has completed since the last debounced insertion (R85). -/
  identified : Bool
deriving DecidableEq, Repr

/-! ### LAMP -/

/-- Result of a group (R99). -/
inductive LampResult where
  | ok | partialOut (out : Nat) | opened | overload | unstable | notChecked | skipped
deriving DecidableEq, Repr

/-- An entry of the result list (R99). -/
structure LampEntry where
  group : Nat
  result : LampResult
  rise : Option Int
deriving DecidableEq, Repr

/-- An open measurement window (R104, R105): `isBaseline` tells the baseline window from a group window. -/
structure Window where
  isBaseline : Bool
  opened : Nat
  skip : Nat
  sampling : Bool
  samples : List Nat
deriving DecidableEq, Repr

/-- LAMP (R99). -/
structure Lamp where
  state : LampState
  checked : Option Nat
  groups : Nat
  current : Option Nat
  baseline : Option Nat
  newBaseline : Bool
  retry : Nat
  spoil : Nat
  window : Option Window
  outstanding : Option (ReqKind × Nat)
  restart : Bool
  closing : Bool
  recheck : Bool
  doneBySkip : Bool
  results : List LampEntry
  /-- A group has been switched on and not switched off since (R113). -/
  lit : Bool
  /-- The current group has been switched on in this check (R111). -/
  switched : Bool
deriving DecidableEq, Repr

/-! ### DEPART -/

/-- DEPART (R133). -/
structure Depart where
  inCharge : Bool
  key : Option Nat
  lanes : List Nat
  own : OwnLane
  current : Option Nat
  yielded : List Nat
  claimSent : Bool
  releaseBegun : Bool
  holdOff : Option Nat
  claimRetry : Option Nat
  heldRefresh : Option Nat
  unlatchWait : Option Nat
  clearance : Option Nat
  transit : Option Nat
  refusal : Option Nat
  lastRefusal : RefusalReason
  /-- The verdict at the close of the last command, to see it become INCOMPLETE (R138, log entry 53). -/
  verdictSeen : Verdict
deriving DecidableEq, Repr

/-! ### BAY -/

/-- One digital input (R154): `due` is when its running debounce ends. -/
structure Pin where
  raw : Bool
  level : Bool
  due : Option Nat
deriving DecidableEq, Repr

/-- A watch set (R155). -/
structure Watch where
  pairs : List (Input × Bool)
  armed : Bool
deriving DecidableEq, Repr

/-- The latest probe sample (R156). -/
inductive Probe where
  | absent | inRange (temp : Int) | outOfRange
deriving DecidableEq, Repr

/-- Latch mode (R160). -/
inductive LatchMode where
  | automatic | openByDepart
deriving DecidableEq, Repr

/-- Signal lamp patterns (R162, R163). -/
inductive Pattern where
  | dark | redFast | redSlow | redSteady | greenSteady | greenBlink | amberBlink | amberSteady | amberFlash
deriving DecidableEq, Repr

/-- BAY (10). -/
structure Bay where
  debouncing : Bool
  coach : Pin
  inserted : Pin
  latched : Pin
  request : Pin
  proving : Pin
  heatWatch : Option Watch
  lampWatch : Option Watch
  departWatch : Option Watch
  probe : Probe
  /-- Contactors 1 to this number are commanded closed (R158). -/
  contactors : Nat
  provingWindow : Option Nat
  provingFailed : Bool
  latchClosed : Bool
  latchMode : LatchMode
  closeAt : Option Nat
  heldOpen : Bool
  latchCheck : Option Nat
  signal : Pattern
  signalSince : Nat
  trouble : Bool
deriving DecidableEq, Repr

/-- The whole station and the commands waiting for it, first in first out. -/
structure State where
  pending : List Instr
  start : Start
  cfg : Option Configuration
  clock : Clock
  line : Line
  view : View
  plans : Plans
  heat : Heat
  share : Share
  link : Link
  lamp : Lamp
  faults : Faults
  depart : Depart
  bay : Bay
  /-- How many free values have been used (log entries 8 and 9). -/
  freeCount : Nat
deriving DecidableEq, Repr

/-- An EMPTY slot (R167). -/
def Slot.blank {α : Type} : Slot α := { state := .empty, content := none, written := false }

/-- An inactive input with no debounce running (R164). -/
def Pin.inactive : Pin := { raw := false, level := false, due := none }

/-- The content of FAULT SUMMARY over an empty table (R132). -/
def Summary.blank : Summary :=
  { blocking := 0, advisory := 0, info := 0, overflow := false, reader := .idle, key1 := none, key2 := none }

/-- The station after power-on or the reset pin (12.4 and each block's "Power-on and reset pin"). Values no rule gives
are named in log entry 22. -/
def State.reset : State where
  pending := []
  start := { station := .readingConfig, listenIn := none, stagger := none, wakeAfterHalt := false }
  cfg := none
  clock := { seconds := 0, millis := 0, state := .unset, time := none, lastTime := none }
  line :=
    { lane := Slot.blank, demand := Slot.blank, status := Slot.blank, summary := Slot.blank, hello := Slot.blank,
      answers := [], tx := none, statusSeries := none, answerSeries := none, counter := 0, recovery := 0,
      twin := false, statusRefresh := none }
  view := { entries := [], full := none, unseen := none, contested := [] }
  plans := { list := [], stale := false, full := false, dropped := 0 }
  heat :=
    { state := .off, count := 0, stageMax := 0, stageSize := 0, coachMax := none, enableHeld := false,
      reading := none, pollDue := none, lead := 0, startMin := none, slack := 0, unreachable := false,
      longHeat := false, holdRequest := 1, blindCount := 1, blindEnd := none, blindFromHeating := true,
      drawingSince := none, lastChange := none, waiting := none, unreachableRecorded := false, run := none,
      learned := [], kept := [], compute := false }
  share :=
    { live := 0, grant := 0, ranking := none, fresh := false, announced := false, demandSent := false,
      refresh := none, rounds := 0 }
  link :=
    { state := .down, profile := 0, queue := [], exchange := none, number := 0, failures := 0, coach := none,
      cls := none, wakeDue := none, resume := false, lastEnd := none, identified := false }
  lamp :=
    { state := .idle, checked := none, groups := 0, current := none, baseline := none, newBaseline := false,
      retry := 0, spoil := 0, window := none, outstanding := none, restart := false, closing := false,
      recheck := false, doneBySkip := false, results := [], lit := false, switched := false }
  faults :=
    { table := [], overflow := false, reader := .idle, kind := .identification, toRead := 0, next := 1, pass := [],
      spoilt := false, restarts := 0, complete := false, periodicDue := none, lastId := none, refresh := none,
      shown := Summary.blank, report := none }
  depart :=
    { inCharge := false, key := none, lanes := [], own := .free, current := none, yielded := [], claimSent := false,
      releaseBegun := false, holdOff := none, claimRetry := none, heldRefresh := none, unlatchWait := none,
      clearance := none, transit := none, refusal := none, lastRefusal := .none,
      verdictSeen := .incomplete }
  bay :=
    { debouncing := false, coach := Pin.inactive, inserted := Pin.inactive, latched := Pin.inactive,
      request := Pin.inactive, proving := Pin.inactive, heatWatch := none, lampWatch := none, departWatch := none,
      probe := .absent, contactors := 0, provingWindow := none, provingFailed := false, latchClosed := false,
      latchMode := .automatic, closeAt := none, heldOpen := false, latchCheck := none, signal := .dark,
      signalSince := 0, trouble := false }
  freeCount := 0

end Sys2Proof.Machine
end

