-- ==== Sys2Proof/Machine/Ops.lean ====
section
/-! DEFINITION. Block updates, time and timers (R17), and what every block reads: configuration, head, inputs. -/

namespace Sys2Proof.Machine

/-- START changed by `f`, every other block as it was. -/
def State.updStart (s : State) (f : Start → Start) : State := { s with start := f s.start }

/-- CLOCK changed by `f`, every other block as it was. -/
def State.updClock (s : State) (f : Clock → Clock) : State := { s with clock := f s.clock }

/-- LINE changed by `f`, every other block as it was. -/
def State.updLine (s : State) (f : Line → Line) : State := { s with line := f s.line }

/-- VIEW changed by `f`, every other block as it was. -/
def State.updView (s : State) (f : View → View) : State := { s with view := f s.view }

/-- PLANS changed by `f`, every other block as it was. -/
def State.updPlans (s : State) (f : Plans → Plans) : State := { s with plans := f s.plans }

/-- HEAT changed by `f`, every other block as it was. -/
def State.updHeat (s : State) (f : Heat → Heat) : State := { s with heat := f s.heat }

/-- SHARE changed by `f`, every other block as it was. -/
def State.updShare (s : State) (f : Share → Share) : State := { s with share := f s.share }

/-- LINK changed by `f`, every other block as it was. -/
def State.updLink (s : State) (f : Link → Link) : State := { s with link := f s.link }

/-- LAMP changed by `f`, every other block as it was. -/
def State.updLamp (s : State) (f : Lamp → Lamp) : State := { s with lamp := f s.lamp }

/-- FAULTS changed by `f`, every other block as it was. -/
def State.updFaults (s : State) (f : Faults → Faults) : State := { s with faults := f s.faults }

/-- DEPART changed by `f`, every other block as it was. -/
def State.updDepart (s : State) (f : Depart → Depart) : State := { s with depart := f s.depart }

/-- BAY changed by `f`, every other block as it was. -/
def State.updBay (s : State) (f : Bay → Bay) : State := { s with bay := f s.bay }
/-! ### Time (R17) -/

/-- Station seconds with the millisecond part, in ms. -/
def State.now (s : State) : Nat := s.clock.seconds * Config.second + s.clock.millis

/-- A timer that runs out `d` ms from now. -/
def State.after (s : State) (d : Nat) : Option Nat := some (s.now + d)

/-- "The timer expires when station seconds reaches that value." -/
def State.expired (s : State) (t : Option Nat) : Bool :=
  match t with
  | some e => decide (e ≤ s.now)
  | none => false

/-- The present absolute minute (2.2): absent while UNSET. -/
def State.absMinute (s : State) : Option Nat :=
  match s.clock.state, s.clock.time with
  | .unset, _ => none
  | _, some t => some (t.day * 1440 + t.second / 60)
  | _, none => none

/-- Depot time as fault records keep it: absent while UNSET (R23, R118). -/
def State.depotTime (s : State) : Option DepotTime :=
  if s.clock.state = .unset then none else s.clock.time

/-! ### Configuration -/

/-- Stands for a class record that is not there. -/
def ClassCfg.blank : ClassCfg :=
  { profile := 0, heaterMax := 0, stageSize := 0, capacity := 0, loss := 0, margin := 0, lampLead := 0, avgExp := 0,
    spreadPct := 0, overPct := 0, groupCount := 0, groups := [] }

/-- Stands for a link profile that is not there. -/
def Profile.blank : Profile := { rate := 9600, parity := .none, timeout := 0, gap := 0, retries := 0 }

/-- Stands for a lamp group that is not there. -/
def LampGroup.blank : LampGroup := { expected := 0, lamps := 1, cls := .interior, skip := 0 }

/-- Stands for the configuration before acceptance. -/
def Configuration.blank : Configuration :=
  { station := 0, group := 0, lanes := [], allowance := 0, reserve := 0, silentFloor := 0, overdueLimit := 0,
    earlyWindow := 0, clearance := 0, transit := [], tmin := 0, tolerance := 0, designTo := 0, display := false,
    debounce := [], wakeProfile := 0, blockThreshold := 4, adviseThreshold := 4, blockList := [], profiles := [],
    classes := [] }

/-- The configured values in force. -/
def State.conf (s : State) : Configuration := s.cfg.getD Configuration.blank

/-- The record of a coach class. -/
def State.classCfg (s : State) (c : Nat) : ClassCfg := s.conf.classes.getD c ClassCfg.blank

/-- A link profile by index. -/
def State.profileCfg (s : State) (i : Nat) : Profile := s.conf.profiles.getD i Profile.blank

/-- LISTEN-IN, JOINING or OPERATING: the station states in which the blocks work (12). -/
def State.running (s : State) : Bool :=
  match s.start.station with
  | .listenIn | .joining | .operating => true
  | .readingConfig | .configFault => false

/-- The station state is OPERATING. -/
def State.operating (s : State) : Bool := s.start.station == .operating

/-! ### The head (R2) -/

/-- The first record of the plan list. -/
def State.head (s : State) : Option Plan := s.plans.list.head?

/-- The departure phase of the head. -/
def State.phase (s : State) : Option Phase := s.head.map Plan.phase

/-- The departure id of the head. -/
def State.headId (s : State) : Option Nat := s.head.map (·.data.id)

/-- The head is in the given phase. -/
def State.inPhase (s : State) (p : Phase) : Bool := s.phase == some p

/-- The departure's absolute minute (R1). -/
def PlanData.absMinute (d : PlanData) : Nat := d.day * 1440 + d.minute

/-- A head is pinned from PREPARING until it returns to WAITING COACH (R3). -/
def Phase.pinned (p : Phase) : Bool :=
  match p with
  | .waitingCoach | .wrongCoach => false
  | _ => true

/-- "REQUESTED or later" (R9). -/
def Phase.underWay (p : Phase) : Bool :=
  match p with
  | .waitingCoach | .wrongCoach | .preparing | .ready => false
  | _ => true

/-- The phases a departure falls back from (R148). -/
def Phase.departing (p : Phase) : Bool :=
  match p with
  | .requested | .finalRead | .claiming | .releasing | .cleared => true
  | _ => false

/-- PREPARING or READY. -/
def Phase.matched (p : Phase) : Bool :=
  match p with
  | .preparing | .ready => true
  | _ => false

/-- A test of the head's phase, false without a head. -/
def State.phaseIs (s : State) (f : Phase → Bool) : Bool :=
  match s.phase with
  | some p => f p
  | none => false

/-- The first record changed by `f`. -/
def State.mapHead (s : State) (f : Plan → Plan) : State :=
  s.updPlans fun p =>
    { p with list := match p.list with
                     | [] => []
                     | h :: t => f h :: t }

/-- The class record of the head's class (R43, R99). -/
def State.headClass (s : State) : ClassCfg :=
  match s.head with
  | some h => s.classCfg h.data.cls
  | none => ClassCfg.blank

/-! ### Inputs (R154) -/

/-- The pin of an input. -/
def Bay.pin (b : Bay) (i : Input) : Pin :=
  match i with
  | .coachPresent => b.coach
  | .plugInserted => b.inserted
  | .plugLatched => b.latched
  | .departRequest => b.request
  | .heaterProving => b.proving

/-- The pin of an input changed by `f`. -/
def Bay.setPin (b : Bay) (i : Input) (p : Pin) : Bay :=
  match i with
  | .coachPresent => { b with coach := p }
  | .plugInserted => { b with inserted := p }
  | .plugLatched => { b with latched := p }
  | .departRequest => { b with request := p }
  | .heaterProving => { b with proving := p }

/-- The debounced level of an input. -/
def State.level (s : State) (i : Input) : Bool := (s.bay.pin i).level

/-- The debounce time of an input: configured, or 500 ms in CONFIG FAULT (R154). -/
def State.debounceTime (s : State) (i : Input) : Nat :=
  match s.cfg with
  | none => Config.faultDebounce
  | some c =>
    match i with
    | .coachPresent => c.debounce.getD 0 0
    | .plugInserted => c.debounce.getD 1 0
    | .plugLatched => c.debounce.getD 2 0
    | .departRequest => c.debounce.getD 3 0
    | .heaterProving => c.debounce.getD 4 0

/-- The outside temperature To as BAY supplies it (R45, R156). -/
def State.outside (s : State) : Int :=
  match s.bay.probe with
  | .inRange t => t
  | .absent | .outOfRange => s.conf.designTo

/-- The coach LINK holds as identified (R12). -/
def State.coachId (s : State) : Option Nat := s.link.coach.map (·.id)

/-- The link is UP. -/
def State.linkUp (s : State) : Bool := s.link.state == .up

end Sys2Proof.Machine
end

