-- ==== Sys2Proof/Machine/Flags.lean ====
section
/-! DEFINITION. The values other blocks read that follow from State: line state, verdict, floor, own request and key, grant, readiness, signal. -/

namespace Sys2Proof.Machine

/-! ### Line (R173) -/

/-- The line state a counter selects. -/
def lineState (counter : Nat) : LineState :=
  if counter < 64 then .active else if counter < 128 then .warned else if counter < 224 then .muted else .detached

/-- The line state in force. -/
def State.line' (s : State) : LineState := lineState s.line.counter

/-- ACTIVE or WARNED. -/
def State.lineGood (s : State) : Bool := decide (s.line.counter < 128)

/-- "The station transmits nothing while …" (R169), negated. -/
def State.mayTransmit (s : State) : Bool :=
  s.lineGood && !s.line.twin && (s.start.station == .joining || s.start.station == .operating)

/-! ### The fault table (R128, R131) -/

/-- BLOCKING with its present mark set. -/
def Record.blocks (r : Record) : Bool := r.severity == .blocking && r.present

/-- A LAMP record. -/
def Source.isLamp (x : Source) : Bool :=
  match x with
  | .lamp _ => true
  | _ => false

/-- A COACH record. -/
def Source.isCoach (x : Source) : Bool :=
  match x with
  | .coach _ => true
  | _ => false

/-- The verdict (R128). A new read that leaves FAILED with a complete read before it, LINK-01 cleared, gives the table's
CLEAR (log entry 50). -/
def Faults.verdict (f : Faults) : Verdict :=
  if f.table.any Record.blocks || f.overflow then .blocked
  else if !f.complete || f.reader == .failed then .incomplete
  else .clear

/-- The verdict in force. -/
def State.verdict (s : State) : Verdict := s.faults.verdict

/-- Records of a severity with the present mark set. -/
def Faults.presentCount (f : Faults) (v : Severity) : Nat :=
  (f.table.filter fun r => r.severity == v && r.present).length

/-- FAULT SUMMARY content (R131). -/
def Faults.summary (f : Faults) : Summary :=
  let keys := (f.table.filter Record.blocks).map (·.key)
  { blocking := f.presentCount .blocking, advisory := f.presentCount .advisory, info := f.presentCount .info,
    overflow := f.overflow, reader := f.reader, key1 := keys[0]?, key2 := keys[1]? }

/-- The reader is COUNTING or READING. -/
def Faults.busy (f : Faults) : Bool := f.reader == .counting || f.reader == .reading

/-! ### Lamp results (R114, R136) -/

/-- A BLOCKING lamp record is present. -/
def State.lampBlocked (s : State) : Bool := s.faults.table.any fun r => r.key.source.isLamp && r.blocks

/-- The lamp condition of R136 and R139: DONE with no BLOCKING lamp record present, or SKIP LAMPS. -/
def State.lampFit (s : State) : Bool :=
  (s.lamp.state == .done && !s.lampBlocked) || (s.head.map (·.data.skipLamps)).getD false

/-- BASELINE, MEASURING or SUSPENDED (7.2). -/
def LampState.running (l : LampState) : Bool :=
  match l with
  | .baseline | .measuring | .suspended => true
  | _ => false

/-! ### HEAT and SHARE -/

/-- HEATING, HOLDING or BLIND (4.3). -/
def HeatState.drawing (h : HeatState) : Bool :=
  match h with
  | .heating | .holding | .blind => true
  | _ => false

/-- SCHEDULED, ANNOUNCED or a drawing state: the states with a computation (R51) and a ranking key (R72). -/
def HeatState.computing (h : HeatState) : Bool :=
  match h with
  | .off | .stopped => false
  | _ => true

/-- The own request (R70), never above the stage maximum (R43). -/
def State.ownRequest (s : State) : Nat :=
  match s.heat.state with
  | .off | .scheduled | .stopped => 0
  | .announced | .heating => s.heat.stageMax
  | .holding => min s.heat.holdRequest s.heat.stageMax
  | .blind => min s.heat.blindCount s.heat.stageMax

/-- The count HEAT moves toward in a drawing state (4.3, R55, R57, R58). -/
def State.stageTarget (s : State) : Nat := if s.heat.state.drawing then min s.share.grant s.ownRequest else 0

/-- A ranking key: slack and station number (R72). -/
abbrev RankKey := Int × Nat

/-- "Lower slack ahead. For equal slack … lower number ahead" (R72). -/
def RankKey.ahead (a b : RankKey) : Bool := decide (a.1 < b.1) || (decide (a.1 = b.1) && decide (a.2 < b.2))

/-- The own ranking key, absent for +∞ (R72). -/
def State.ownKey (s : State) : Option RankKey :=
  if s.heat.state.computing && s.head.isSome then s.share.ranking.map fun k => (k, s.conf.station) else none

/-- A peer's ranking key (R26, R72). -/
def Entry.key (e : Entry) : Option RankKey := e.demand.map fun d => (d.slack, e.station)

/-- Whether a peer's key is ahead of the own key; every key is ahead of +∞ (R72). -/
def aheadOfOwn (own : Option RankKey) (k : RankKey) : Bool :=
  match own with
  | none => true
  | some o => k.ahead o

/-- The power ranked ahead, in 0.5 kW (R73 step 3). -/
def powerAhead (own : Option RankKey) (es : List Entry) : Nat :=
  (es.map fun e =>
    match e.demand with
    | some d => if aheadOfOwn own (d.slack, e.station) then d.requested * d.stageSize else 0
    | none => 0).sum

/-- Gavail (R67). -/
def State.available (s : State) : Nat := s.share.live - s.conf.reserve

/-- The floor is in force (R76). -/
def State.floor (s : State) : Bool :=
  !s.lineGood || s.line.twin || s.view.unseen.isSome || !s.operating

/-- The computed grant before the floor (R73 steps 1 to 5). -/
def computeGrant (request size available ahead : Nat) : Nat :=
  if request = 0 then 0
  else if 2 * available > ahead then min request ((2 * available - ahead) / size) else 0

/-- The grant R73 gives in this state. -/
def State.computedGrant (s : State) : Nat :=
  let g := computeGrant s.ownRequest s.heat.stageSize s.available (powerAhead s.ownKey s.view.entries)
  if s.floor then min g s.conf.silentFloor else g

/-- The content of a withdrawal (R80): requested stages 0, drawing clear, stages on 0, the last ranking slack or 0. -/
def State.withdrawalContent (s : State) : DemandContent :=
  { group := s.conf.group, requested := 0, stageSize := s.heat.stageSize, slack := s.share.ranking.getD 0,
    drawing := false, stagesOn := 0 }

/-- The DEMAND content as it stands (R78). -/
def State.demandContent (s : State) : DemandContent :=
  { group := s.conf.group, requested := s.ownRequest, stageSize := s.heat.stageSize,
    slack := s.share.ranking.getD 0, drawing := s.heat.state.drawing, stagesOn := s.heat.count }

/-! ### Readiness (R136) -/

/-- The cabin reading is valid: younger than 120 s (R44). -/
def State.readingValid (s : State) : Bool :=
  match s.heat.reading with
  | some r => decide (s.now < r.time + Config.readingAge)
  | none => false

/-- A valid reading at or above a limit. -/
def State.cabinAtLeast (s : State) (limit : Int) : Bool :=
  match s.heat.reading with
  | some r => s.readingValid && decide (limit ≤ r.temp)
  | none => false

/-- Conditions 2 to 4 and 6 to 8 of R136. -/
def State.readyApart (s : State) : Bool :=
  s.level .plugInserted && s.level .plugLatched && s.verdict == .clear && s.lampFit && s.operating && s.lineGood &&
    !s.line.twin

/-- Every condition of R136 on entry to READY. -/
def State.readyEntry (s : State) : Bool := s.readyApart && s.cabinAtLeast s.conf.tmin

/-- Every condition of R136 while in READY: Tmin less the tolerance. -/
def State.readyStay (s : State) : Bool := s.readyApart && s.cabinAtLeast (s.conf.tmin - s.conf.tolerance)

/-! ### STATUS content (R168) and signal (R162) -/

/-- In transit: HELD in GONE (9.5). -/
def State.inTransit (s : State) : Bool := s.depart.own == .held && s.inPhase .gone

/-- VIEW marks the lane contested (R36). -/
def State.isContested (s : State) (lane : Nat) : Bool := s.view.contested.any (·.lane == lane)

/-- A plan record as a PLAN LIST answer shows it (R16). -/
def Plan.shown (p : Plan) : PlanShown :=
  { id := p.data.id, day := p.data.day, minute := p.data.minute, phase := p.phase }

/-- The content gathered from the blocks that own its fields (R168, R16). -/
def State.statusContent (s : State) : StatusContent :=
  { station := s.start.station, clock := s.clock.state, twin := s.line.twin, trouble := s.bay.trouble,
    floor := s.floor, counter := s.line.counter, headId := s.headId.getD 0, headPhase := s.phase,
    planCount := s.plans.list.length, stagesOn := s.heat.count, grant := s.share.grant, verdict := s.verdict,
    lane := s.depart.current.getD 0, ownLane := s.depart.own, inTransit := s.inTransit, link := s.link.state,
    refusal := s.depart.lastRefusal, overflow := s.faults.overflow, heat := s.heat.state,
    unreachable := s.heat.unreachable, longHeat := s.heat.longHeat, lamp := s.lamp.state,
    lampGroup := s.lamp.current.getD 0, overdue := (s.head.map Plan.overdue).getD false,
    heldChange := match s.head.bind Plan.held with
                  | none => 0
                  | some (.revision _) => 1
                  | some .cancel => 2,
    stalePlan := s.plans.stale, planFull := s.plans.full, viewFull := s.view.full.isSome,
    unseen := s.view.unseen.isSome, line := s.line',
    contested2 := (s.conf.lanes[1]?.map s.isContested).getD false,
    contested1 := (s.conf.lanes[0]?.map s.isContested).getD false, dropped := s.plans.dropped,
    plans := s.plans.list.map Plan.shown }

/-- The signal pattern: the first line of R162's table that holds. -/
def State.signalPattern (s : State) : Pattern :=
  let present := s.level .coachPresent
  if s.start.station = .readingConfig then .dark
  else if s.start.station = .configFault ∨ s.line.twin = true then .redFast
  else if s.depart.refusal.isSome then .redFast
  else if s.inPhase .cleared && s.depart.own == .held then .greenSteady
  else if s.inPhase .gone && s.depart.own == .held then .greenBlink
  else if s.inPhase .wrongCoach then .redSteady
  else if s.verdict == .blocked && present then .redSlow
  else if s.phaseIs (fun p => p == .ready || p == .requested || p == .finalRead || p == .claiming || p == .releasing)
    then .amberBlink
  else if s.inPhase .preparing || (s.inPhase .waitingCoach && present) then .amberSteady
  else if present && s.head.isNone then .redSteady
  else if s.conf.display && s.bay.trouble then .amberFlash
  else .dark

/-- Whether a lamp with this pattern, begun at `since`, is lit at `now` (R162): half-periods 250, 500 and 1000 ms,
the single flash 200 ms of each 4 s. -/
def Pattern.lit (p : Pattern) (since now : Nat) : Bool :=
  let t := now - since
  match p with
  | .dark => false
  | .redSteady | .greenSteady | .amberSteady => true
  | .redFast => decide (t % 500 < 250)
  | .greenBlink | .amberBlink => decide (t % 1000 < 500)
  | .redSlow => decide (t % 2000 < 1000)
  | .amberFlash => decide (t % 4000 < 200)

/-- Contactor k is commanded closed while the commanded number is k or more (R158). -/
def State.contactorClosed (s : State) (k : Nat) : Bool := decide (1 ≤ k) && decide (k ≤ s.bay.contactors)

end Sys2Proof.Machine
end

