-- ==== Sys2Proof/WellFormed.lean ====
section
/-! DEFINITION. The operands a real station can be given: the field lengths of 13.1 and 13.2 and the ranges of R26, R133, R157. The meanings are total and judge out-of-range operands by the rules themselves (R171, R182). -/

namespace Sys2Proof

/-- Payload length of a kind, 0-11 (R181). -/
def kindLength (kind : Nat) : Option Nat :=
  match kind with
  | 0 => some 5 | 1 => some 5 | 2 => some 3 | 3 => some 5 | 4 => some 0 | 5 => some 10
  | 6 => some 4 | 7 => some 2 | 8 => some 10 | 9 => some 10 | 10 => some 10 | 11 => some 3
  | _ => none

/-- The length check of R171: kinds 12-15 may have any length 0-10. -/
def lengthGood (kind : Nat) (payload : List Byte) : Bool :=
  match kindLength kind with
  | some n => payload.length == n
  | none => payload.length ≤ 10

/-- A notice that passes the sender, target and length checks of R171 and R181. -/
def noticeWellFormed (kind : Nat) (sender target : Byte) (payload : List Byte) : Bool :=
  kind ≤ 15 && sender.toNat ≤ 120 && target.toNat ≤ 127 && lengthGood kind payload

/-- Operands in range. -/
def Instr.wellFormed : Instr → Bool
  | .timeNotice s t p => noticeWellFormed 0 s t p
  | .laneNotice s t p => noticeWellFormed 1 s t p
  | .supplyNotice s t p => noticeWellFormed 2 s t p
  | .demandNotice s t p => noticeWellFormed 3 s t p
  | .restartNotice s t p => noticeWellFormed 4 s t p
  | .planNotice s t p => noticeWellFormed 5 s t p
  | .faultClearNotice s t p => noticeWellFormed 6 s t p
  | .queryNotice s t p => noticeWellFormed 7 s t p
  | .helloNotice s t p => noticeWellFormed 11 s t p
  | .noticeNotDispatched k s t p => noticeWellFormed k s t p
  | .demandRecordAged p => 1 ≤ p && p ≤ 120
  | .laneRecordAged p => 1 ≤ p && p ≤ 120
  | .entryAged p => 1 ≤ p && p ≤ 120
  | .contestedMarkExpiry l => 1 ≤ l && l ≤ 8
  | .baselineWindowClose xs => xs.length ≤ 64 && xs.all (· ≤ 30000)
  | .groupWindowClose xs => xs.length ≤ 64 && xs.all (· ≤ 30000)
  | .powerOnReset | .configReadDone _ | .listenInEnd | .staggerTimerEnd | .secondEvent | .clockStale
  | .receiveFault _ | .presentItem | .noticeSent | .arbitrationLost | .transmissionFailure | .statusRefresh
  | .viewFullClear | .unseenDemandClear | .demandRefresh | .cabinPollDue | .stageRise | .blindEntry
  | .blindTimeout | .exchangeStart | .coachResponse _ _ | .responseTimeout | .tryRetry | .wakeDue
  | .periodicDue | .faultSummaryRefresh | .windowSkipEnd | .rawInputChange _ _ | .coachPresentChange
  | .plugInsertedChange | .plugLatchedChange | .departRequestPress | .heaterProvingChange
  | .provingWindowEnd | .latchCloseDelayEnd | .latchCheckTimeout | .probeSample _ | .claimRetryDelayEnd
  | .holdOffExpiry | .heldRefresh | .unlatchWaitExpiry | .clearanceTimeout | .laneTransitExpiry
  | .refusalIndicationEnd | .departRequestRelease => true

end Sys2Proof
end

