-- ==== Sys2Proof/Machine/Operands.lean ====
section
/-! DEFINITION. The formats of 13: numbers in bytes, the check, notice payloads in and out, coach frames, the configuration image. -/

namespace Sys2Proof.Machine

/-! ### Numbers in bytes (13: most significant byte first, two's complement) -/

/-- Byte `i` of a list, 0 past its end. -/
def byteAt (p : List Byte) (i : Nat) : Nat := (p.getD i 0).toNat

/-- The 2-byte number at `i`. -/
def word16 (p : List Byte) (i : Nat) : Nat := byteAt p i * 256 + byteAt p (i + 1)

/-- The 3-byte number at `i`. -/
def word24 (p : List Byte) (i : Nat) : Nat := word16 p i * 256 + byteAt p (i + 2)

/-- The 4-byte number at `i`. -/
def word32 (p : List Byte) (i : Nat) : Nat := word24 p i * 256 + byteAt p (i + 3)

/-- The signed byte at `i`. -/
def signed8 (p : List Byte) (i : Nat) : Int := (p.getD i 0).toInt

/-- The signed 2-byte number at `i`. -/
def signed16 (p : List Byte) (i : Nat) : Int := (BitVec.ofNat 16 (word16 p i)).toInt

/-- A number as one byte. -/
def byte (n : Nat) : Byte := BitVec.ofNat 8 n

/-- A number as 2 bytes. -/
def bytes16 (n : Nat) : List Byte := [byte (n / 256), byte n]

/-- A number as 3 bytes. -/
def bytes24 (n : Nat) : List Byte := [byte (n / 65536), byte (n / 256), byte n]

/-- A number as 4 bytes. -/
def bytes32 (n : Nat) : List Byte := [byte (n / 16777216), byte (n / 65536), byte (n / 256), byte n]

/-- A signed number as 2 bytes. -/
def bytesInt16 (i : Int) : List Byte := bytes16 (BitVec.ofInt 16 i).toNat

/-! ### The check: CRC-16, generator 0x1021, initial value 0xFFFF, not reflected (13) -/

/-- One bit shifted through the generator. -/
def crcBit (c : BitVec 16) : BitVec 16 := if c.msb then (c <<< 1) ^^^ 0x1021#16 else c <<< 1

/-- One byte through the generator, most significant bit first. -/
def crcByte (c : BitVec 16) (b : Byte) : BitVec 16 :=
  crcBit (crcBit (crcBit (crcBit (crcBit (crcBit (crcBit (crcBit (c ^^^ (b.zeroExtend 16 <<< 8)))))))))

/-- The check over some bytes. -/
def crc16 (bs : List Byte) : BitVec 16 := bs.foldl crcByte 0xFFFF#16

/-- The check as its two stored or sent bytes, high byte first. -/
def checkBytes (bs : List Byte) : List Byte := bytes16 (crc16 bs).toNat

/-! ### Notice frames (R171, R181) -/

/-- A notice as it stands on the line. -/
def noticeFrame (kind sender target : Nat) (payload : List Byte) : List Byte :=
  let h := [byte kind, byte sender, byte target, byte payload.length] ++ payload
  h ++ checkBytes h

/-- The kind code of an item (11.1). -/
def TxItem.kind (i : TxItem) : Nat :=
  match i with
  | .lane _ => 1 | .demand _ => 3 | .answer _ => 8 | .status => 9 | .summary => 10 | .hello => 11

/-- The target of an item (11.1): the asker of an ANSWER, station 0 for STATUS and FAULT SUMMARY, else all stations. -/
def TxItem.target (i : TxItem) : Nat :=
  match i with
  | .lane _ | .demand _ | .hello => 127
  | .answer a => a.asker
  | .status | .summary => 0

/-- Whether the bytes heard fail a check of R171. -/
def frameFaulty (frame : List Byte) : Bool :=
  let n := byteAt frame 3 % 16
  let covered := frame.take (frame.length - 2)
  frame.length < 6 || frame.length != n + 6 || frame.drop (frame.length - 2) != checkBytes covered ||
    120 < byteAt frame 1 || !lengthGood (byteAt frame 0 % 16) (covered.drop 4)

/-! ### Payloads received (13.2) -/

/-- TIME. -/
structure TimePayload where
  day : Nat
  second : Nat
deriving DecidableEq, Repr

/-- TIME payload. -/
def timePayload (p : List Byte) : TimePayload := { day := word16 p 0, second := word24 p 2 }

/-- LANE: `action` 0 CLAIM, 1 HELD, 2 RELEASE. -/
structure LanePayload where
  lane : Nat
  action : Nat
  inTransit : Bool
  key : Nat
deriving DecidableEq, Repr

/-- LANE payload. -/
def lanePayload (p : List Byte) : LanePayload :=
  let b := byteAt p 0
  { lane := b / 16, action := b / 4 % 4, inTransit := b % 2 == 1, key := word32 p 1 }

/-- SUPPLY. -/
structure SupplyPayload where
  group : Nat
  allowance : Nat
deriving DecidableEq, Repr

/-- SUPPLY payload. -/
def supplyPayload (p : List Byte) : SupplyPayload := { group := byteAt p 0, allowance := word16 p 1 }

/-- DEMAND payload. -/
def demandPayload (p : List Byte) : DemandContent :=
  let b := byteAt p 1
  { group := byteAt p 0, requested := b / 16 % 8, stageSize := byteAt p 2, slack := signed16 p 3,
    drawing := decide (128 ≤ b), stagesOn := b % 8 }

/-- PLAN as sent: lane entries as their codes. -/
structure PlanPayload where
  id : Nat
  coach : Nat
  cls : Nat
  cancel : Bool
  day : Nat
  minute : Nat
  lane1 : Nat
  lane2 : Nat
  heatNow : Bool
  target : Nat
  skipLamps : Bool
deriving DecidableEq, Repr

/-- PLAN payload. -/
def planPayload (p : List Byte) : PlanPayload :=
  let c := word24 p 2
  let m := word16 p 7
  let t := byteAt p 9
  { id := word16 p 0, coach := c / 16, cls := c / 2 % 8, cancel := c % 2 == 1, day := word16 p 5,
    minute := m / 32, lane1 := m / 8 % 4, lane2 := m / 2 % 4, heatNow := m % 2 == 1, target := t / 4,
    skipLamps := t / 2 % 2 == 1 }

/-- FAULT CLEAR: scope 0 ALL, 1 SOURCE, 2 ONE KEY. -/
structure ClearPayload where
  recheck : Bool
  scope : Nat
  source : Nat
  code : Nat
deriving DecidableEq, Repr

/-- FAULT CLEAR payload. -/
def clearPayload (p : List Byte) : ClearPayload :=
  { recheck := decide (128 ≤ byteAt p 0), scope := byteAt p 0 % 4, source := byteAt p 1, code := word16 p 2 }

/-- HELLO: lanes 0 where none. -/
structure HelloPayload where
  station : Nat
  group : Nat
  lane1 : Nat
  lane2 : Nat
deriving DecidableEq, Repr

/-- HELLO payload. -/
def helloPayload (p : List Byte) : HelloPayload :=
  { station := byteAt p 0, group := byteAt p 1, lane1 := byteAt p 2 / 16, lane2 := byteAt p 2 % 16 }

/-- Source bytes of 13.2, with 0 and 64 as FAULT CLEAR reads them. -/
def sourceByteKnown (b : Nat) : Bool := b ≤ 80 || (96 ≤ b && b ≤ 100)

/-- The notices LINE drops (R182). -/
def payloadDropped (kind : Nat) (p : List Byte) : Bool :=
  match kind with
  | 1 => let l := lanePayload p
         l.lane == 0 || 8 < l.lane || l.action == 3
  | 2 => 15 < (supplyPayload p).group
  | 3 => let d := demandPayload p
         d.group == 0 || 15 < d.group || 6 < d.requested || 6 < d.stagesOn || d.stageSize < 2 || 16 < d.stageSize ||
           d.slack < -720 || 720 < d.slack
  | 6 => let c := clearPayload p
         c.scope == 3 || (c.scope != 0 && !sourceByteKnown c.source)
  | 11 => let h := helloPayload p
          h.group == 0 || 15 < h.group || 8 < h.lane1 || 8 < h.lane2 || h.lane1 == 0
  | _ => false

/-! ### State codes (13.2: from 0 in the order the owning chapter lists its states) -/

/-- Station state. -/
def StationState.code (x : StationState) : Nat :=
  match x with
  | .readingConfig => 0 | .configFault => 1 | .listenIn => 2 | .joining => 3 | .operating => 4

/-- Clock state. -/
def ClockState.code (x : ClockState) : Nat :=
  match x with
  | .unset => 0 | .set => 1 | .stale => 2

/-- Departure phase, 1-10. -/
def Phase.code (x : Phase) : Nat :=
  match x with
  | .waitingCoach => 1 | .wrongCoach => 2 | .preparing => 3 | .ready => 4 | .requested => 5 | .finalRead => 6
  | .claiming => 7 | .releasing => 8 | .cleared => 9 | .gone => 10

/-- Verdict: CLEAR 0, INCOMPLETE 1, BLOCKED 2. -/
def Verdict.code (x : Verdict) : Nat :=
  match x with
  | .clear => 0 | .incomplete => 1 | .blocked => 2

/-- Own lane state. -/
def OwnLane.code (x : OwnLane) : Nat :=
  match x with
  | .free => 0 | .listening => 1 | .claiming => 2 | .held => 3 | .yielded => 4

/-- Link state. -/
def LinkState.code (x : LinkState) : Nat :=
  match x with
  | .down => 0 | .waking => 1 | .up => 2 | .halting => 3 | .halted => 4

/-- Last refusal reason. -/
def RefusalReason.code (x : RefusalReason) : Nat :=
  match x with
  | .none => 0 | .noPlan => 1 | .notReady => 2 | .blocked => 3 | .tooEarly => 4

/-- Pre-heat state. -/
def HeatState.code (x : HeatState) : Nat :=
  match x with
  | .off => 0 | .scheduled => 1 | .announced => 2 | .heating => 3 | .holding => 4 | .blind => 5 | .stopped => 6

/-- Lamp check state. -/
def LampState.code (x : LampState) : Nat :=
  match x with
  | .idle => 0 | .waiting => 1 | .baseline => 2 | .measuring => 3 | .suspended => 4 | .done => 5 | .abandoned => 6

/-- Line state. -/
def LineState.code (x : LineState) : Nat :=
  match x with
  | .active => 0 | .warned => 1 | .muted => 2 | .detached => 3

/-- Read state. -/
def ReaderState.code (x : ReaderState) : Nat :=
  match x with
  | .idle => 0 | .counting => 1 | .reading => 2 | .complete => 3 | .failed => 4

/-- LANE action. -/
def LaneAction.code (x : LaneAction) : Nat :=
  match x with
  | .claim => 0 | .held => 1 | .release => 2

/-- Asked kind. -/
def AskedKind.code (x : AskedKind) : Nat :=
  match x with
  | .status => 0 | .demand => 1 | .lane => 2 | .faultSummary => 3 | .planList => 4 | .faultRecord => 5

/-- The asked kind of a QUERY's first byte, none above 5 (R37). -/
def askedKind (b : Nat) : Option AskedKind :=
  match b with
  | 0 => some .status | 1 => some .demand | 2 => some .lane | 3 => some .faultSummary | 4 => some .planList
  | 5 => some .faultRecord
  | _ => none

/-- Source byte of a fault key (13.2). -/
def Source.code (x : Source) : Nat :=
  match x with
  | .coach u => u | .lamp g => 64 + g | .preheat => 96 | .bay => 97 | .link => 98 | .plan => 99 | .lane => 100

/-! ### Payloads sent (13.2, R183) -/

/-- A flag at a bit's weight. -/
def flag (b : Bool) (w : Nat) : Nat := if b then w else 0

/-- LANE content as sent. -/
def LaneContent.payload (c : LaneContent) : List Byte :=
  byte (c.lane * 16 + c.action.code * 4 + flag c.inTransit 1) :: bytes32 c.key

/-- DEMAND content as sent. -/
def DemandContent.payload (c : DemandContent) : List Byte :=
  [byte c.group, byte (flag c.drawing 128 + c.requested * 16 + c.stagesOn), byte c.stageSize] ++ bytesInt16 c.slack

/-- HELLO content as sent. -/
def HelloContent.payload (c : HelloContent) : List Byte :=
  [byte c.station, byte c.group, byte (c.lanes.getD 0 0 * 16 + c.lanes.getD 1 0)]

/-- A fault key as sent, zero where absent. -/
def keyPayload (k : Option Key) : List Byte :=
  match k with
  | some k => byte k.source.code :: bytes16 k.code
  | none => [0, 0, 0]

/-- FAULT SUMMARY content as sent. -/
def Summary.payload (c : Summary) : List Byte :=
  [byte c.blocking, byte c.advisory, byte c.info, byte (flag c.overflow 128 + c.reader.code)] ++ keyPayload c.key1 ++
    keyPayload c.key2

/-- STATUS page 0 without its page byte. -/
def StatusContent.page0 (c : StatusContent) : List Byte :=
  [byte (c.station.code * 32 + c.clock.code * 8 + flag c.twin 4 + flag c.trouble 2 + flag c.floor 1), byte c.counter] ++
    bytes16 c.headId ++
    [byte ((c.headPhase.map Phase.code).getD 0 * 16 + c.planCount),
     byte (c.stagesOn * 32 + c.grant * 4 + c.verdict.code),
     byte (c.lane * 16 + c.ownLane.code * 2 + flag c.inTransit 1),
     byte (c.link.code * 32 + c.refusal.code * 4 + flag c.overflow 2),
     byte (c.heat.code * 32 + flag c.unreachable 16 + flag c.longHeat 8)]

/-- STATUS page 1 without its page byte. -/
def StatusContent.page1 (c : StatusContent) : List Byte :=
  [byte (c.lamp.code * 32 + c.lampGroup),
   byte (flag c.overdue 128 + c.heldChange * 32 + flag c.stalePlan 16 + flag c.planFull 8 + flag c.viewFull 4 +
     flag c.unseen 2),
   byte (c.line.code * 64 + flag c.contested2 2 + flag c.contested1 1)] ++ bytes16 c.dropped ++ [0, 0, 0, 0]

/-- The two STATUS payloads (R183). -/
def StatusContent.pages (c : StatusContent) : List (List Byte) := [0 :: c.page0, 1 :: c.page1]

/-- Content bytes filled with zeros to the 8 of an ANSWER part. -/
def pad8 (p : List Byte) : List Byte := (p ++ List.replicate 8 0).take 8

/-- One ANSWER payload. -/
def answerPart (kind : AskedKind) (part : Nat) (last empty : Bool) (index : Nat) (content : List Byte) : List Byte :=
  [byte (kind.code * 32 + part * 8 + flag last 4 + flag empty 2), byte index] ++ pad8 content

/-- An empty answer: one part, last and empty set. -/
def emptyAnswer (kind : AskedKind) (index : Nat) : List (List Byte) := [answerPart kind 0 true true index []]

/-- Several contents numbered from part `n`, the last one marked. -/
def numberParts (kind : AskedKind) (index : Nat → Nat) : Nat → List (List Byte) → List (List Byte)
  | _, [] => []
  | n, c :: cs => answerPart kind n cs.isEmpty false (index n) c :: numberParts kind index (n + 1) cs

/-- A time of a FAULT RECORD part: day and second, zeros when absent. -/
def timePart (t : Option DepotTime) : List Byte :=
  match t with
  | some t => bytes16 t.day ++ bytes24 t.second
  | none => [0, 0, 0, 0, 0]

/-- The FAULT RECORD flags byte (R183). -/
def Record.flagsByte (r : Record) : Nat :=
  (match r.severity with | .blocking => 64 | .advisory => 128 | .info => 192) +
    (match r.coach with | none => 0 | some .active => 16 | some .stored => 32) +
    flag r.first.isSome 4 + flag r.last.isSome 2 + flag r.present 1

/-- The parts of an answer to an asked kind (R38, R183), from the state as it stands. -/
def State.answerParts (s : State) (a : Answer) : List (List Byte) :=
  match a.kind with
  | .status =>
    let c := (s.line.status.content.getD s.statusContent)
    let b := c.page0 ++ c.page1
    numberParts .status (fun _ => 0) 0 [b.take 8, (b.drop 8).take 8, b.drop 16]
  | .demand =>
    match s.line.demand.content with
    | some c => numberParts .demand (fun _ => 0) 0 [c.payload]
    | none => emptyAnswer .demand 0
  | .lane =>
    match s.line.lane.content with
    | some c => numberParts .lane (fun _ => 0) 0 [c.payload]
    | none => emptyAnswer .lane 0
  | .faultSummary =>
    let b := s.faults.summary.payload
    numberParts .faultSummary (fun _ => 0) 0 [b.take 8, b.drop 8]
  | .planList =>
    match s.plans.list with
    | [] => emptyAnswer .planList 0
    | ps =>
      numberParts .planList (fun n => n + 1) 0
        ((ps.map Plan.shown).map fun p =>
          bytes16 p.id ++ bytes16 p.day ++ bytes16 (p.minute * 32 + p.phase.code) ++ [byte ps.length])
  | .faultRecord =>
    match if a.index = 0 then none else s.faults.table[a.index - 1]? with
    | some r =>
      numberParts .faultRecord (fun _ => a.index) 0
        [keyPayload (some r.key) ++ [byte r.flagsByte, byte r.count], timePart r.first, timePart r.last]
    | none => emptyAnswer .faultRecord a.index

/-! ### Coach frames (R184, R90) -/

/-- Kind code of a coach request. -/
def ReqKind.code (k : ReqKind) : Nat :=
  match k with
  | .identify => 1 | .cabinTemperature => 2 | .heaterEnable => 3 | .heaterDisable => 4 | .lampsOff => 5
  | .lampGroupOn => 6 | .faultCount => 7 | .faultRecord => 8

/-- Content length of an acceptance. -/
def ReqKind.length (k : ReqKind) : Nat :=
  match k with
  | .identify => 8 | .cabinTemperature => 1 | .faultCount => 1 | .faultRecord => 5
  | .heaterEnable | .heaterDisable | .lampsOff | .lampGroupOn => 0

/-- The 6 bytes of a request. -/
def requestFrame (k : ReqKind) (number arg : Nat) : List Byte :=
  let h := byte k.code :: bytes16 number ++ [byte arg]
  h ++ checkBytes h

/-- A response frame of the coach. -/
def responseFrame (k : ReqKind) (refusal : Bool) (number : Nat) (content : List Byte) : List Byte :=
  let h := byte (k.code + flag refusal 128) :: bytes16 number ++ [byte content.length] ++ content
  h ++ checkBytes h

/-- What a response frame is judged to be (R90). -/
inductive Judged where
  /-- Not yet complete: judged when the response timeout runs out. -/
  | incomplete
  | failed (c : Cause)
  | accepted (content : List Byte)
  | refused (code : Nat)
deriving DecidableEq, Repr

/-- R90 and R184 applied to a frame heard for a request. A frame that shows a parity error, a wrong kind (from its first byte
on) or a wrong length (from its fourth) fails at once, complete or not (log entry 11); a wrong kind is a check error whatever
its echo (log entry 56). -/
def judgeResponse (k : ReqKind) (number : Nat) (parityGood : Bool) (f : List Byte) : Judged :=
  let n := byteAt f 3
  let refusal := decide (128 ≤ byteAt f 0)
  let wrongKind := decide (1 ≤ f.length) && byteAt f 0 % 128 != k.code
  let wrongLength := decide (4 ≤ f.length) && n != (if refusal then 1 else k.length)
  if !parityGood || wrongKind || wrongLength then .failed .checkError
  else if f.length < 4 ∨ f.length < n + 6 then .incomplete
  else if f.length != n + 6 || f.drop (n + 4) != checkBytes (f.take (n + 4)) then .failed .checkError
  else if word16 f 1 != number then .failed .wrongEcho
  else if refusal then .refused (byteAt f 4)
  else .accepted ((f.drop 4).take n)

/-- Transmission time of a request in ms: six characters of start bit, 8 data bits, parity and stop bit (R87, R184),
rounded up (PRESUMED start bit, log entry 12). -/
def requestTime (p : Profile) : Nat := ceilDiv (6 * (if p.parity = .none then 10 else 11) * 1000) p.rate

/-! ### Configuration image (13.5, R185) -/

/-- A clamped byte. -/
def clamp8 (p : List Byte) (i lo hi : Nat) : Nat := clampNat lo hi (byteAt p i)

/-- A clamped 2-byte number. -/
def clamp16 (p : List Byte) (i lo hi : Nat) : Nat := clampNat lo hi (word16 p i)

/-- One link profile at its address. -/
def imageProfile (p : List Byte) (a : Nat) : Profile :=
  { rate := match clamp8 p a 0 3 with
            | 0 => 9600
            | 1 => 19200
            | 2 => 38400
            | _ => 57600,
    parity := match byteAt p (a + 1) with
              | 0 => .none
              | 1 => .even
              | _ => .odd,
    timeout := clamp16 p (a + 2) 20 500, gap := clamp8 p (a + 4) 1 50, retries := clamp8 p (a + 5) 0 3 }

/-- One lamp group at its address. -/
def imageGroup (p : List Byte) (a : Nat) : LampGroup :=
  { expected := clamp16 p a 0 20000, lamps := clamp8 p (a + 2) 1 8,
    cls := match byteAt p (a + 3) / 64 with
           | 0 => .safety
           | 1 => .other
           | _ => .interior,
    skip := byteAt p (a + 3) % 64 }

/-- One class record at its address. -/
def imageClass (p : List Byte) (a : Nat) : ClassCfg :=
  { profile := clamp8 p a 0 3, heaterMax := clamp8 p (a + 1) 1 6, stageSize := clamp8 p (a + 2) 2 16,
    capacity := clamp16 p (a + 3) 100 4000, loss := clamp16 p (a + 5) 50 2000, margin := clamp8 p (a + 7) 0 60,
    lampLead := clamp8 p (a + 8) 5 120, avgExp := clamp8 p (a + 9) 0 6, spreadPct := clamp8 p (a + 10) 5 50,
    overPct := clamp8 p (a + 11) 110 200, groupCount := clamp8 p (a + 12) 0 16,
    groups := (List.range 16).map fun g => imageGroup p (a + 16 + 4 * g) }

/-- Every field of the image, clamped (R185). -/
def imageConfig (p : List Byte) : Configuration :=
  { station := byteAt p 0, group := byteAt p 1,
    lanes := if byteAt p 3 = 0 then [byteAt p 2] else [byteAt p 2, byteAt p 3],
    allowance := clamp16 p 4 0 1000, reserve := clamp8 p 6 0 200, silentFloor := clamp8 p 7 0 1,
    overdueLimit := clamp8 p 8 30 240, earlyWindow := clamp8 p 9 0 30, clearance := clamp16 p 0x00A 60 900,
    transit := (List.range 8).map fun l => clamp16 p (0x00C + 2 * l) 20 600,
    tmin := clampInt (-20) 30 (signed8 p 0x01C), tolerance := clamp8 p 0x01D 0 10,
    designTo := clampInt (-100) 120 (signed8 p 0x01E), display := byteAt p 0x01F % 2 == 1,
    debounce := (List.range 5).map fun i => clamp8 p (0x020 + i) 1 50 * 10,
    wakeProfile := clamp8 p 0x025 0 3, blockThreshold := clamp8 p 0x026 1 4, adviseThreshold := clamp8 p 0x027 1 4,
    blockList := (List.range (clamp8 p 0x028 0 8)).map fun i => word16 p (0x029 + 2 * i),
    profiles := (List.range 4).map fun i => imageProfile p (0x040 + 8 * i),
    classes := (List.range 8).map fun c => imageClass p (0x060 + 80 * c) }

/-- The identity fields are in range (R177, R185). -/
def identityGood (p : List Byte) : Bool :=
  1 ≤ byteAt p 0 && byteAt p 0 ≤ 120 && 1 ≤ byteAt p 1 && byteAt p 1 ≤ 15 && 1 ≤ byteAt p 2 && byteAt p 2 ≤ 8 &&
    byteAt p 3 ≤ 8 && byteAt p 3 != byteAt p 2

/-- The configuration an image gives, none when R177 rejects it. A longer image is read to its 738 bytes (log entry 35). -/
def acceptImage (image : List Byte) : Option Configuration :=
  let p := image.take Config.imageSize
  if p.length = Config.imageSize ∧ p.drop 736 = checkBytes (p.take 736) ∧ identityGood p = true then
    some (imageConfig p)
  else none

end Sys2Proof.Machine
end

