-- ==== Sys2Proof/Machine/Slots.lean ====
section
/-! DEFINITION. Writing, emptying and marking LINE's transmit slots (R167, R168, R131). -/

namespace Sys2Proof.Machine

/-- A write: content replaced; HELD stays HELD, any other state becomes PENDING (R167). -/
def Slot.write {α : Type} (x : Slot α) (c : α) : Slot α :=
  { state := if x.state = .held then .held else .pending, content := some c, written := true }

/-- The owner empties the slot (R167). -/
def Slot.clear {α : Type} (_x : Slot α) : Slot α := { state := .empty, content := none, written := true }

/-- The slot is settled by a sent item: not written since its presentation it becomes SENT (R170). -/
def Slot.sent {α : Type} (x : Slot α) : Slot α :=
  if x.state = .pending ∧ x.written = false then { x with state := .sent } else x

/-- Content taken at presentation (R169). -/
def Slot.presented {α : Type} (x : Slot α) : Slot α := { x with written := false }

/-- DEPART writes the LANE slot. -/
def State.writeLane (s : State) (c : LaneContent) : State := s.updLine fun l => { l with lane := l.lane.write c }

/-- DEPART empties the LANE slot. -/
def State.emptyLane (s : State) : State := s.updLine fun l => { l with lane := l.lane.clear }

/-- SHARE writes the DEMAND slot with the present content. -/
def State.writeDemand (s : State) : State := s.updLine fun l => { l with demand := l.demand.write s.demandContent }

/-- SHARE empties the DEMAND slot; demand sent is cleared with it (R67, R80). -/
def State.emptyDemand (s : State) : State :=
  (s.updLine fun l => { l with demand := l.demand.clear }).updShare fun x => { x with demandSent := false }

/-- The announced content is in transmission (R80); a withdrawal, which requests 0 stages, is not announced content. -/
def State.demandOnLine (s : State) : Bool :=
  match s.line.tx with
  | some x => match x.item with
    | .demand c => decide (0 < c.requested)
    | .lane _ | .answer _ | .status | .summary | .hello => false
  | none => false

/-- The station is no longer announced (R80): the withdrawal is written, or the slot emptied where no peer can have heard
the demand. -/
def State.withdrawDemand (s : State) : State :=
  (if !s.share.demandSent && !s.demandOnLine then s.emptyDemand
   else s.updLine fun l => { l with demand := l.demand.write s.withdrawalContent }).updShare fun x =>
    { x with announced := false, refresh := none }

/-- LINE writes the STATUS slot with the present content and restarts the 30 s (R168). -/
def State.writeStatus (s : State) : State :=
  s.updLine fun l =>
    { l with status := l.status.write s.statusContent, statusRefresh := s.after Config.statusRefresh }

/-- FAULTS writes the FAULT SUMMARY slot; the 60 s restart while COACH PRESENT is active (R131). -/
def State.writeSummary (s : State) : State :=
  (s.updLine fun l => { l with summary := l.summary.write s.faults.summary }).updFaults fun f =>
    { f with shown := s.faults.summary,
             refresh := if s.level .coachPresent then s.after Config.summaryRefresh else none }

/-- FAULTS marks the FAULT SUMMARY slot HELD (R131). -/
def State.holdSummary (s : State) : State :=
  s.updLine fun l => { l with summary := { l.summary with state := .held } }

/-- The reader leaves COUNTING and READING: the present content is written and the slot is PENDING (R131). -/
def State.releaseSummary (s : State) : State :=
  (s.updLine fun l => { l with summary := { l.summary with state := .empty } }).writeSummary

end Sys2Proof.Machine
end

