-- ==== Sys2Proof/Machine/Faults.lean ====
section
/-! DEFINITION. The fault table: writes, merging, placement, present marks, removal, emptying (R118 to R121, R129, R130). -/

namespace Sys2Proof.Machine

/-- BLOCKING, then ADVISORY, then INFO (R117). -/
def Severity.rank (x : Severity) : Nat :=
  match x with
  | .blocking => 2 | .advisory => 1 | .info => 0

/-- The higher of two severities. -/
def Severity.higher (a b : Severity) : Severity := if a.rank < b.rank then b else a

/-- ACTIVE if either says ACTIVE (R118). -/
def mergeCoach (a b : Option CoachState) : Option CoachState :=
  match a, b with
  | some .active, _ => some .active
  | _, some .active => some .active
  | some .stored, _ => some .stored
  | none, b => b

/-- A write taken into a record with its key (R118, "merge"). -/
def Record.merge (r : Record) (sev : Severity) (c : Option CoachState) (t : Option DepotTime) : Record :=
  { r with count := min (r.count + 1) 255, last := t, severity := r.severity.higher sev, coach := mergeCoach r.coach c,
           present := true }

/-- The record a write of a new key makes (R118). -/
def Record.fresh (k : Key) (sev : Severity) (c : Option CoachState) (t : Option DepotTime) : Record :=
  { key := k, severity := sev, coach := c, count := 1, first := t, last := t, present := true }

/-- The oldest record of a severity removed. -/
def dropOldest (v : Severity) (t : List Record) : List Record := t.eraseP fun r => r.severity == v

/-- A new record placed in the table: appended, in place of an older one, or nowhere (R118, R120). -/
def placeRecord (t : List Record) (r : Record) : Option (List Record) :=
  if t.length < Config.tableSize then some (t ++ [r])
  else if t.any (·.severity == .info) then some (dropOldest .info t ++ [r])
  else if r.severity == .blocking && t.any (·.severity == .advisory) then some (dropOldest .advisory t ++ [r])
  else none

/-- A write to the table (R118): merge by key, or placement; a discarded write sets the overflow flag (R120). -/
def Faults.write (f : Faults) (k : Key) (sev : Severity) (c : Option CoachState) (t : Option DepotTime) : Faults :=
  if f.table.any (·.key == k) then
    { f with table := f.table.map fun r => if r.key = k then r.merge sev c t else r }
  else
    match placeRecord f.table (Record.fresh k sev c t) with
    | some x => { f with table := x }
    | none => { f with overflow := true }

/-- A write at the present depot time. -/
def State.writeFault (s : State) (k : Key) (sev : Severity) (c : Option CoachState := none) : State :=
  s.updFaults fun f => f.write k sev c s.depotTime

/-- The present marks of some records cleared (R119). -/
def Faults.clearPresent (f : Faults) (p : Record → Bool) : Faults :=
  { f with table := f.table.map fun r => if p r then { r with present := false } else r }

/-- A request to clear the present marks of some records. -/
def State.clearPresent (s : State) (p : Record → Bool) : State := s.updFaults fun f => f.clearPresent p

/-- A request to clear the present mark of a key (R119). -/
def State.clearKey (s : State) (k : Key) : State := s.clearPresent fun r => r.key == k

/-- PLAN-01. -/
def plan01 : Key := { source := .plan, code := 1 }
/-- PLAN-02. -/
def plan02 : Key := { source := .plan, code := 2 }
/-- PREHEAT-01. -/
def preheat01 : Key := { source := .preheat, code := 1 }
/-- PREHEAT-02. -/
def preheat02 : Key := { source := .preheat, code := 2 }
/-- PREHEAT-03. -/
def preheat03 : Key := { source := .preheat, code := 3 }
/-- BAY-01. -/
def bay01 : Key := { source := .bay, code := 1 }
/-- BAY-02. -/
def bay02 : Key := { source := .bay, code := 2 }
/-- BAY-03. -/
def bay03 : Key := { source := .bay, code := 3 }
/-- BAY-04. -/
def bay04 : Key := { source := .bay, code := 4 }
/-- BAY-05. -/
def bay05 : Key := { source := .bay, code := 5 }
/-- LINK-01. -/
def link01 : Key := { source := .link, code := 1 }
/-- LINK-02. -/
def link02 : Key := { source := .link, code := 2 }
/-- LANE-01. -/
def lane01 : Key := { source := .lane, code := 1 }

/-- Severity of a coach fault as read (R121). -/
def coachSeverity (c : Configuration) (code level : Nat) : Severity :=
  if c.blockList.contains code then .blocking
  else if c.blockThreshold ≤ level then .blocking
  else if c.adviseThreshold ≤ level then .advisory
  else .info

/-- A coach fault written to the table (R121, R125). -/
def State.writeCoachFault (s : State) (c : CoachFault) : State :=
  s.writeFault { source := .coach c.unit, code := c.code } (coachSeverity s.conf c.code c.level) (some c.state)

/-- Records a FAULT CLEAR removes (R129); source bytes 0 and 64 stand for every unit and group. -/
def clearMatches (scope source code : Nat) (r : Record) : Bool :=
  match scope with
  | 0 => true
  | 1 => if source = 0 then r.key.source.isCoach
         else if source = 64 then r.key.source.isLamp
         else r.key.source.code == source
  | _ => source != 0 && source != 64 && r.key.source.code == source && r.key.code == code

/-- FAULT CLEAR on the table: ALL clears the overflow flag as well (R129). -/
def Faults.clear (f : Faults) (scope source code : Nat) : Faults :=
  { f with table := f.table.filter fun r => !clearMatches scope source code r,
           overflow := if scope = 0 then false else f.overflow }

/-- A completed identification as FAULTS takes it first (R130). -/
def Faults.identified (f : Faults) (id : Nat) : Faults :=
  { f with table := if f.lastId = some id then f.table else [],
           overflow := if f.lastId = some id then f.overflow else false,
           lastId := some id, complete := false }

end Sys2Proof.Machine
end

