-- ==== Sys2Proof/Machine/Queue.lean ====
section
/-! DEFINITION. LINK's request queue: quotas, placing, starting, withdrawing (R88, R89, R93). -/

namespace Sys2Proof.Machine

/-- The quotas of R88. -/
def Job.quota (j : Job) : Nat :=
  match j with
  | .ident => 1 | .heat => 3 | .lamp => 4 | .fault => 4

/-- A job's entries in the queue plus one if its exchange is in flight (R88). -/
def Link.count (l : Link) (j : Job) : Nat :=
  (l.queue.filter fun r => r.job == j).length +
    (match l.exchange with
     | some x => if x.req.job = j then 1 else 0
     | none => 0)

/-- The link state allows the kind (R88). -/
def Link.allows (l : Link) (k : ReqKind) : Bool :=
  match k with
  | .identify => l.state == .waking
  | _ => l.state == .up

/-- The queue head becomes the exchange in flight, and its request is sent (R89, R184). -/
def State.startExchange (s : State) : State :=
  match s.link.queue with
  | [] => s
  | r :: rs =>
    let n := (s.link.number + 1) % 65536
    let p := s.profileCfg s.link.profile
    s.updLink fun l =>
      { l with queue := rs, number := n,
               exchange := some { req := r, number := n, tries := 1, withdrawn := false, profile := l.profile,
                                  timeoutAt := s.after (requestTime p + p.timeout), cause := none,
                                  frame := requestFrame r.kind n r.arg } }

/-- An exchange may start (R89). -/
def State.exchangeDue (s : State) : Bool :=
  s.link.exchange.isNone && !s.link.queue.isEmpty && (s.link.state == .waking || s.link.state == .up) &&
    (match s.link.lastEnd with
     | some e => decide (e + (s.profileCfg s.link.profile).gap ≤ s.now)
     | none => true)

/-- "A request placed … while the link is idle and the gap has passed starts at once" (R89, log entry 45). -/
def State.begun (s : State) : State := if s.exchangeDue then s.startExchange else s

/-- A request joins the tail of the queue, and starts at once where the link is idle and the gap has passed (R88, R89). -/
def State.enqueue (s : State) (r : Request) : State := (s.updLink fun l => { l with queue := l.queue ++ [r] }).begun

/-- A request offered: taken when the state allows it and the job is below its quota (R88). Where the state does not allow
it the job receives ABORTED at once, which the job's own placing takes: `heatPlace`, `lampAsk`, `readerPlace`. -/
def State.place (s : State) (r : Request) : State :=
  if s.link.allows r.kind && decide (s.link.count r.job < r.job.quota) then s.enqueue r else s

/-- A request of a kind from a job is queued or in flight (R44, R48). -/
def Link.holds (l : Link) (j : Job) (k : ReqKind) : Bool :=
  (l.queue.any fun r => r.job == j && r.kind == k) ||
    (match l.exchange with
     | some x => x.req.job == j && x.req.kind == k
     | none => false)

/-- A job withdraws its requests: queued ones leave, one in flight is marked (R93). LAMP takes the ABORTED of each that
leaves in `lampWithdraw`; the fault reader takes no action on them (R126). -/
def State.withdraw (s : State) (j : Job) : State :=
  s.updLink fun l =>
    { l with queue := l.queue.filter fun r => r.job != j,
             exchange := l.exchange.map fun x => if x.req.job = j then { x with withdrawn := true } else x }

/-- ABORTED as HEAT takes it: any outcome of HEATER DISABLE clears heater enable held (R48); the others have no effect. -/
def State.heatAborted (s : State) (k : ReqKind) : State :=
  if k = .heaterDisable then s.updHeat fun h => { h with enableHeld := false } else s

/-- HEAT offers a request: where the link does not take the kind it receives ABORTED at once, at its quota it keeps the
request (R88, log entry 24). -/
def State.heatPlace (s : State) (k : ReqKind) : State :=
  if s.link.allows k then
    (if Job.quota .heat ≤ s.link.count .heat then s.updHeat fun h => { h with kept := h.kept ++ [k] }
     else s.place { job := .heat, kind := k, arg := 0, closing := false })
  else s.heatAborted k

/-- HEAT has a request of a kind queued, in flight or kept. -/
def State.heatHolds (s : State) (k : ReqKind) : Bool := s.link.holds .heat k || s.heat.kept.contains k

/-- How a request ended (R92): OK with the content, REFUSED with the code, FAILED with the cause of the last failed try. -/
inductive Ending where
  | ok (content : List Byte)
  | refused (code : Nat)
  | failed (c : Cause)
  | aborted
deriving DecidableEq, Repr

end Sys2Proof.Machine
end

