-- ==== Sys2Proof/Machine/Lamp.lean ====
section
/-! DEFINITION. The lamp check: sequence, windows, classification, spoiling, ending, results, re-runs (R99 to R115). -/

namespace Sys2Proof.Machine

/-! ### Results (R114) -/

/-- The code of a result's record, none for OK and SKIPPED. -/
def LampResult.code (r : LampResult) : Option Nat :=
  match r with
  | .ok | .skipped => none
  | .opened => some 1 | .overload => some 2 | .unstable => some 3 | .notChecked => some 4
  | .partialOut k => some (10 + k)

/-- The severity of a result's record by the lamp class of its group. -/
def lampSeverity (c : LampClass) (r : LampResult) : Severity :=
  match c, r with
  | .safety, _ => .blocking
  | .other, .opened | .other, .overload | .other, .notChecked => .advisory
  | .other, _ => .info
  | .interior, _ => .info

/-- The table's entry for a group of the head's class (R100). -/
def State.lampGroup (s : State) (g : Nat) : LampGroup := s.headClass.groups.getD (g - 1) LampGroup.blank

/-- A result handed to FAULTS (R114). -/
def State.lampFaults (s : State) (g : Nat) (r : LampResult) : State :=
  if r = .skipped then s
  else
    let s := s.clearPresent fun x => x.key.source == .lamp g && some x.key.code != r.code
    match r.code with
    | some c => s.writeFault { source := .lamp g, code := c } (lampSeverity (s.lampGroup g).cls r)
    | none => s

/-- A group takes its result. -/
def State.lampResult (s : State) (g : Nat) (r : LampResult) (rise : Option Int) : State :=
  (s.updLamp fun l => { l with results := l.results ++ [{ group := g, result := r, rise := rise }] }).lampFaults g r

/-! ### Classification (R107, R108) -/

/-- Lamps out (R108). -/
def lampsOut (expected lamps : Nat) (rise : Int) : Nat :=
  let share := expected / lamps
  let d : Int := (expected : Int) - rise
  if d ≤ 0 then 0
  else
    let q := d.toNat / share
    let r := d.toNat - q * share
    min (if share < 2 * r then q + 1 else q) (lamps - 1)

/-- The average of the samples. -/
def average (xs : List Nat) : Nat := xs.sum / xs.length

/-- The least sample. -/
def least (xs : List Nat) : Nat := xs.foldl min (xs.headD 0)

/-- The greatest sample. -/
def greatest (xs : List Nat) : Nat := xs.foldl max 0

/-- The first line of R107 that applies; none for a group that is retried. -/
def classify (g : LampGroup) (spreadPct overPct : Nat) (xs : List Nat) (rise : Int) (retries : Nat) : Option LampResult :=
  if xs.any fun x => decide (Config.saturation ≤ x) then some .overload
  else if spreadPct * g.expected / 100 < greatest xs - least xs then
    (if retries < Config.retryLimit then none else some .unstable)
  else if rise < ((g.expected / g.lamps / 2 : Nat) : Int) then some .opened
  else if ((overPct * g.expected / 100 : Nat) : Int) < rise then some .overload
  else match lampsOut g.expected g.lamps rise with
       | 0 => some .ok
       | k + 1 => some (.partialOut (k + 1))

/-! ### The sequence (R103) -/

/-- ABORTED for a request of LAMP that was not in flight: the closing request is no more (R111), or no request is
outstanding, with restart pending cleared (R110). -/
def State.lampAborted (s : State) (r : Request) : State :=
  if r.closing then s.updLamp fun l => { l with closing := false }
  else if s.lamp.outstanding = some (r.kind, r.arg) then
    s.updLamp fun l => { l with outstanding := none, restart := false }
  else s

/-- LAMP withdraws its requests: each queued one is delivered ABORTED, in queue order (R93). -/
def State.lampWithdraw (s : State) : State :=
  (s.link.queue.filter fun r => r.job == .lamp).foldl State.lampAborted (s.withdraw .lamp)

/-- A request placed by LAMP and outstanding; where the link does not take the kind, ABORTED at once (R88). -/
def State.lampAsk (s : State) (k : ReqKind) (g : Nat) : State :=
  let r : Request := { job := .lamp, kind := k, arg := g, closing := false }
  let t := s.updLamp fun l => { l with outstanding := some (k, g) }
  if t.link.allows k then t.place r else t.lampAborted r

/-- The sequence for the current group begins: LAMPS OFF (R103). -/
def State.lampSequence (s : State) : State :=
  (s.updLamp fun l =>
    { l with state := if l.newBaseline then .baseline else .measuring, window := none }).lampAsk .lampsOff 0

/-- LAMP GROUP ON for the current group. -/
def State.lampGroupOn (s : State) : State :=
  (s.updLamp fun l => { l with state := .measuring, window := none }).lampAsk .lampGroupOn (s.lamp.current.getD 0)

/-- LAMPS OFF to leave the coach dark, while the link is UP; placed otherwise it is ABORTED at once, which clears closing
request (R111, R113, R88). -/
def State.lampClosing (s : State) : State :=
  if s.linkUp then
    (s.updLamp fun l => { l with closing := true }).place { job := .lamp, kind := .lampsOff, arg := 0, closing := true }
  else s.updLamp fun l => { l with closing := false }

/-- The check enters DONE without a closing request. -/
def State.lampDone (s : State) : State :=
  (s.updLamp fun l =>
    { l with state := .done, current := none, window := none, outstanding := none, restart := false,
             doneBySkip := false, switched := false }).updBay fun b => { b with lampWatch := none }

/-- The last group has its result (R111): DONE, and LAMPS OFF where that group was switched on (log entry 17). -/
def State.lampFinish (s : State) : State :=
  if s.lamp.switched then s.lampDone.lampClosing else s.lampDone

/-- Lamp groups the coach reported (R85). -/
def State.coachGroups (s : State) : Nat := (s.link.coach.map (·.lampGroups)).getD 0

/-- Group `g` and those after it take their turn: results without switching at once, the first other group begins its
sequence (R100, R103). The first argument bounds the groups left. -/
def State.lampTurn (s : State) : Nat → Nat → State
  | 0, _ => s.lampFinish
  | n + 1, g =>
    if s.lamp.groups < g then s.lampFinish
    else
      let t := s.updLamp fun l => { l with current := some g, retry := 0, spoil := 0, switched := false }
      if s.coachGroups < g then (t.lampResult g .notChecked none).lampTurn n (g + 1)
      else if (s.lampGroup g).expected / (s.lampGroup g).lamps = 0 then (t.lampResult g .skipped none).lampTurn n (g + 1)
      else t.lampSequence

/-- The turn of group `g`. -/
def State.lampGroupTurn (s : State) (g : Nat) : State := s.lampTurn 17 g

/-- The current group takes a result and the next group follows. -/
def State.lampNext (s : State) (r : LampResult) (rise : Option Int) : State :=
  let g := s.lamp.current.getD 0
  (s.lampResult g r rise).lampGroupTurn (g + 1)

/-- Steps 3 and 4 of R110. -/
def State.lampRepeat (s : State) : State :=
  if Config.spoilLimit ≤ s.lamp.spoil then s.lampNext .notChecked none else s.lampSequence

/-- A spoil (R110). -/
def State.lampSpoil (s : State) : State :=
  let t := s.updLamp fun l => { l with window := none, spoil := min (l.spoil + 1) 4, newBaseline := true }
  if s.lamp.outstanding.isSome then t.updLamp fun l => { l with restart := true } else t.lampRepeat

/-- A decrease of the heater stage count (R110). -/
def State.lampDecrease (s : State) : State :=
  if (s.lamp.state == .baseline && s.lamp.window.isSome) || (s.lamp.state == .measuring && !s.lamp.restart) then
    s.lampSpoil
  else s

/-- A window opens (R104, R105). -/
def State.lampOpen (s : State) (isBaseline : Bool) (skip : Nat) : State :=
  s.updLamp fun l =>
    { l with window := some { isBaseline := isBaseline, opened := s.now, skip := skip, sampling := false, samples := [] } }

/-- The inrush skip of a group window: doubled at or below −40 half-degrees (R105). -/
def State.groupSkip (s : State) (g : Nat) : Nat :=
  if s.outside ≤ -40 then 2 * (s.lampGroup g).skip else (s.lampGroup g).skip

/-- A refused LAMPS OFF cuts the check short: groups without a result take NOT CHECKED (R103). -/
def State.lampCut (s : State) : Nat → Nat → State
  | 0, _ => s.lampDone
  | n + 1, g =>
    if s.lamp.groups < g then s.lampDone else (s.lampResult g .notChecked none).lampCut n (g + 1)

/-- The outcome of the closing request (R111). FAILED while the link is not UP or the check not DONE clears closing request
(log entry 49). -/
def State.lampClosed (s : State) (e : Ending) : State :=
  match e with
  | .ok _ => s.updLamp fun l => { l with closing := false, lit := false }
  | .refused _ | .aborted => s.updLamp fun l => { l with closing := false }
  | .failed _ =>
    if s.lamp.closing && s.lamp.state == .done && s.linkUp then s.lampClosing
    else s.updLamp fun l => { l with closing := false }

/-- The outcome of the outstanding request (R103, R110). -/
def State.lampAnswered (s : State) (k : ReqKind) (g : Nat) (e : Ending) : State :=
  let again := s.lamp.restart
  let t := s.updLamp fun l => { l with outstanding := none, restart := false }
  match e, k with
  | .aborted, _ => t
  | .failed _, _ => if again then t.lampRepeat else t.lampAsk k g
  | .refused _, .lampsOff => t.lampCut 17 (s.lamp.current.getD 1)
  | .refused _, _ => t.lampNext .notChecked none
  | .ok _, .lampsOff =>
    let u := t.updLamp fun l => { l with lit := false }
    if again then u.lampRepeat
    else if s.lamp.newBaseline then u.lampOpen true Config.baselineSkip
    else u.lampGroupOn
  | .ok _, _ =>
    let u := t.updLamp fun l => { l with lit := true, switched := true }
    if again then u.lampRepeat else u.lampOpen false (s.groupSkip g)

/-- The ABORTED of a request that was withdrawn in flight: that of a closing request clears the flag, unless a newer closing
request waits in the queue; any other has no effect (R103, R111, log entry 18). -/
def State.lampWithdrawn (s : State) (r : Request) : State :=
  if r.closing then s.updLamp fun l => { l with closing := l.closing && s.link.queue.any (·.closing) } else s

/-- An outcome delivered to LAMP (R103, R111). -/
def State.lampOutcome (s : State) (r : Request) (withdrawn : Bool) (e : Ending) : State :=
  if withdrawn then s.lampWithdrawn r
  else if r.closing then s.lampClosed e
  else if s.lamp.outstanding = some (r.kind, r.arg) then s.lampAnswered r.kind r.arg e
  else s

/-! ### Windows closing (R104, R105) -/

/-- Samples N of a window (R100). -/
def State.lampSamples (s : State) : Nat := 2 ^ s.headClass.avgExp

/-- Samples taken into the open window; `none` until it has its N and their time has passed (log entry 5). -/
def State.lampTake (s : State) (isBaseline : Bool) (xs : List Nat) : Option (List Nat) × State :=
  match s.lamp.window with
  | some w =>
    if w.isBaseline = isBaseline ∧ w.sampling = true then
      let all := (w.samples ++ xs.map (min Config.saturation)).take s.lampSamples
      let t := s.updLamp fun l => { l with window := some { w with samples := all } }
      if all.length = s.lampSamples ∧ w.opened + w.skip + s.lampSamples ≤ s.now then (some all, t) else (none, t)
    else (none, s)
  | none => (none, s)

/-- The baseline window closes (R104). -/
def State.baselineClosed (s : State) (xs : List Nat) : State :=
  if xs.any fun x => decide (Config.saturation ≤ x) then s.lampSpoil
  else (s.updLamp fun l => { l with baseline := some (average xs), newBaseline := false }).lampGroupOn

/-- The group window closes and the group is judged (R105, R107, R109). -/
def State.groupClosed (s : State) (xs : List Nat) : State :=
  let g := s.lampGroup (s.lamp.current.getD 0)
  let rise : Int := (average xs : Int) - ((s.lamp.baseline.getD 0 : Nat) : Int)
  let t := s.updLamp fun l => { l with window := none }
  match classify g s.headClass.spreadPct s.headClass.overPct xs rise s.lamp.retry with
  | some r => t.lampNext r (some rise)
  | none => (t.updLamp fun l => { l with retry := l.retry + 1 }).lampSequence

/-! ### Ending and beginning (R101, R102, R112, R113, R115) -/

/-- The check ends (R113); `dark` where LAMPS OFF may still be placed. -/
def State.lampEnd (s : State) (next : LampState) (dark : Bool) : State :=
  let lit := s.lamp.lit
  let t := (s.lampWithdraw.updLamp fun l =>
    { l with state := next, current := none, baseline := none, window := none, outstanding := none, restart := false,
             closing := false, recheck := false, doneBySkip := false, results := [] }).updBay fun b =>
    { b with lampWatch := none }
  if dark && lit then t.lampClosing else t

/-- Entry to WAITING, or DONE for a head with SKIP LAMPS (R101). -/
def State.lampWait (s : State) : State :=
  let skip := (s.head.map (·.data.skipLamps)).getD false
  s.updLamp fun l =>
    { l with state := if skip then .done else .waiting, checked := s.coachId, current := none, results := [],
             doneBySkip := skip }

/-- The head's phase becomes PREPARING from WAITING COACH or WRONG COACH (R101). -/
def State.lampMatched (s : State) : State :=
  if s.lamp.state = .idle ∨ s.lamp.state = .abandoned then s.lampWait else s

/-- The head's phase becomes PREPARING from a later phase: a check in IDLE is owed (R101). -/
def State.lampOwed (s : State) : State := if s.lamp.state = .idle then s.lampWait else s

/-- A change of head (R113); the new head's matching follows. -/
def State.lampHeadChange (s : State) : State := if s.lamp.state = .idle then s else s.lampEnd .idle true

/-- The head's phase moves to WAITING COACH or WRONG COACH without a change of head (R113). -/
def State.lampPhaseLost (s : State) : State :=
  if s.lamp.state = .idle ∨ s.lamp.state = .abandoned then s
  else s.lampEnd (if s.lamp.state.running && !s.level .plugInserted then .abandoned else .idle) true

/-- Plug removal, by watch set or by LINK (R113): it counts as switching off the group that was on, so that no closing
LAMPS OFF is placed for it later (log entry 61). -/
def State.lampUnplugged (s : State) : State :=
  let t := match s.lamp.state with
    | .baseline | .measuring | .suspended => s.lampEnd .abandoned false
    | .waiting | .done => s.lampEnd .idle false
    | .idle | .abandoned => s
  t.updLamp fun l => { l with lit := false }

/-- The link leaves UP during a check (R112). -/
def State.lampSuspend (s : State) : State :=
  if s.lamp.state = .baseline ∨ s.lamp.state = .measuring then
    s.lampWithdraw.updLamp fun l =>
      { l with state := .suspended, window := none, outstanding := none, restart := false, newBaseline := true }
  else s

/-- An identification as LAMP takes it (R112); another coach ends the check as a change of head would, and a head in
PREPARING is owed a new one (R113). -/
def State.lampIdentified (s : State) : State :=
  if s.lamp.state = .suspended then
    (if s.coachId = s.lamp.checked then (if s.phaseIs Phase.matched then s.lampSequence else s)
     else if s.inPhase .preparing then s.lampHeadChange.lampWait
     else s.lampHeadChange)
  else s

/-- A revision applied to the head (R102). -/
def State.lampRevised (s : State) (old new : PlanData) : State :=
  let open' := s.lamp.state == .waiting || s.lamp.state.running
  if old.cls ≠ new.cls ∧ (open' = true ∨ s.lamp.state = .done) then (s.lampEnd .idle true).lampWait
  else if new.skipLamps && !old.skipLamps then
    (if open' then (s.lampEnd .done true).updLamp fun l => { l with doneBySkip := true }
     else if s.lamp.state = .done then s.updLamp fun l => { l with results := [], doneBySkip := true }
     else s)
  else if !new.skipLamps && old.skipLamps && s.lamp.state == .done && s.lamp.doneBySkip then s.lampWait
  else s

/-- A re-run for the same head (R115). -/
def State.lampRerun (s : State) : State := (s.lampEnd .idle true).lampWait

/-- The order of a FAULT CLEAR with RECHECK LAMPS (R115). -/
def State.lampRecheck (s : State) : State :=
  if (s.head.map (·.data.skipLamps)).getD false then s
  else if s.lamp.state = .idle ∨ s.lamp.state = .abandoned then s
  else if s.phaseIs Phase.matched then (if s.lamp.state = .waiting then s else s.lampRerun)
  else if s.phaseIs Phase.underWay then s.updLamp fun l => { l with recheck := true }
  else s

/-- The start conditions of R101. -/
def State.lampDue (s : State) : Bool :=
  s.lamp.state == .waiting && s.phaseIs Phase.matched && s.linkUp && s.level .plugInserted &&
    (match s.head, s.absMinute with
     | some h, some m => decide (h.data.absMinute ≤ m + s.headClass.lampLead)
     | _, _ => false)

/-- The check starts (R101). -/
def State.lampStart (s : State) : State :=
  ((s.updLamp fun l => { l with groups := s.headClass.groupCount, newBaseline := true, state := .measuring, switched := false }).updBay
    fun b => { b with lampWatch := some { pairs := [(.plugInserted, true)], armed := s.level .plugInserted } }).lampGroupTurn 1

end Sys2Proof.Machine
end

