-- ==== Sys2Proof/Machine/Bay.lean ====
section
/-! DEFINITION. BAY: watch sets, latch command and latch check (R155, R160, R161). -/

namespace Sys2Proof.Machine

/-! ### Watch sets (R155) -/

/-- Every watched input has its expected level. -/
def State.watchMatches (s : State) (pairs : List (Input × Bool)) : Bool := pairs.all fun p => s.level p.1 == p.2

/-- A set registered now: armed if it matches. -/
def State.newWatch (s : State) (pairs : List (Input × Bool)) : Watch := { pairs := pairs, armed := s.watchMatches pairs }

/-- A set judged anew on a change of an input: the set, and whether its job receives an event. -/
def State.judgeWatch (s : State) (w : Option Watch) (i : Input) : Option Watch × Bool :=
  match w with
  | none => (none, false)
  | some w =>
    if w.pairs.any (·.1 == i) then
      let m := s.watchMatches w.pairs
      (some { w with armed := m }, w.armed && !m)
    else (some w, false)

/-! ### Latch (R160, R161) -/

/-- The latch check starts: nothing is owed while PLUG LATCHED is active (log entry 28). -/
def State.startLatchCheck (s : State) : State :=
  s.updBay fun b => { b with latchCheck := if s.level .plugLatched then none else s.after Config.latchCheck }

/-- A command to open: held while the stage count is above 0 (R160). -/
def State.openLatch (s : State) : State :=
  if s.heat.count = 0 then s.updBay fun b => { b with latchClosed := false, heldOpen := false, latchCheck := none }
  else s.updBay fun b => { b with heldOpen := true }

/-- The latch is commanded closed; a held open is cancelled, and the check starts where the command changes. -/
def State.closeLatch (s : State) : State :=
  let t := s.updBay fun b => { b with latchClosed := true, heldOpen := false, closeAt := none }
  if s.bay.latchClosed then t else t.startLatchCheck

/-- DEPART's order to open (R144). -/
def State.latchOpenOrder (s : State) : State :=
  (s.updBay fun b => { b with latchMode := .openByDepart, closeAt := none }).openLatch

/-- DEPART's order to close (R160): without a plug only the mode is set. -/
def State.latchCloseOrder (s : State) : State :=
  let t := s.updBay fun b => { b with latchMode := .automatic }
  if s.level .plugInserted then t.closeLatch else t

/-- A change of head: OPEN BY DEPART ends (R160); in AUTOMATIC mode a running second of R160 runs on (log entry 54). -/
def State.latchHeadChange (s : State) : State :=
  if s.bay.latchMode = .openByDepart then s.latchCloseOrder else s

/-- The latch as PLUG INSERTED changes (R160, R161). -/
def State.latchInserted (s : State) : State :=
  if s.level .plugInserted then
    (let t := if s.bay.latchMode = .automatic then
        s.updBay fun b => { b with closeAt := s.after Config.latchDelay } else s
     if s.bay.latchClosed then t.startLatchCheck else t)
  else
    let t := s.updBay fun b => { b with closeAt := none, latchCheck := none }
    if s.bay.latchMode = .automatic then t.openLatch else t

/-- The latch check as PLUG LATCHED changes (R161). -/
def State.latchContact (s : State) : State :=
  if s.level .plugLatched then s.updBay fun b => { b with latchCheck := none }
  else if s.bay.latchClosed && s.level .plugInserted then s.updBay fun b => { b with latchCheck := s.after Config.latchCheck }
  else s

end Sys2Proof.Machine
end

