-- ==== Sys2Proof/Machine/Heat.lean ====
section
/-! DEFINITION. Pre-heat: the stage count, the computation, states, regulation, runs and what they learn (R43 to R66). -/

namespace Sys2Proof.Machine

/-! ### The stage count (R43, R158, R159) -/

/-- HEATER PROVING matches a commanded heater state (R159). -/
def State.provingMatches (s : State) (n : Nat) : Bool := s.level .heaterProving == decide (0 < n)

/-- The run's sum up to now (R63). -/
def HeatRun.upTo (r : HeatRun) (count now : Nat) : HeatRun := { r with acc := r.acc + count * (now - r.mark), mark := now }

/-- BAY takes a new stage count: contactors, proving window, proving failure, held open (R158 to R160). A failure taken for
a welded contactor ends where the new count matches HEATER PROVING (log entry 52). -/
def State.bayCount (s : State) (n : Nat) : State :=
  s.updBay fun b =>
    { b with contactors := n, provingWindow := s.after Config.provingWindow,
             provingFailed := b.provingFailed && !s.provingMatches n,
             latchClosed := b.latchClosed && !(decide (n = 0) && b.heldOpen),
             latchCheck := if n = 0 ∧ b.heldOpen = true then none else b.latchCheck,
             heldOpen := b.heldOpen && decide (n ≠ 0) }

/-- Every change of the stage count: passed at once to BAY and, where it falls, to LAMP (R43). -/
def State.setCount (s : State) (n : Nat) : State :=
  if n = s.heat.count then s
  else
    let t := (s.updHeat fun h =>
      { h with count := n, lastChange := some s.now, run := h.run.map fun r => r.upTo h.count s.now }).bayCount n
    if n < s.heat.count then t.lampDecrease else t

/-- The count falls to a limit where it is above it. -/
def State.capCount (s : State) (limit : Nat) : State := if limit < s.heat.count then s.setCount limit else s

/-! ### Figures (R43, R45) -/

/-- A hold request or BLIND count within its values, 1 up to the stage maximum (R43); 1 while that range is empty, at a
stage maximum of 0 (log entry 48). -/
def stageFigure (stageMax n : Nat) : Nat := clampNat 1 (max stageMax 1) n

/-- Stage size and stage maximum taken again from the head's class (log entry 23); hold request and BLIND count stay within
the new maximum (R43). -/
def State.takeFigures (s : State) : State :=
  match s.head with
  | none => s
  | some h =>
    let c := s.classCfg h.data.cls
    let m := match s.heat.coachMax with
      | some x => min c.heaterMax x
      | none => s.heat.stageMax
    let t := s.updHeat fun x =>
      { x with stageSize := c.stageSize, stageMax := m, holdRequest := stageFigure m x.holdRequest,
               blindCount := stageFigure m x.blindCount,
               compute := x.compute || m != x.stageMax || c.stageSize != x.stageSize }
    t.capCount m

/-- Tc: the cabin reading whether or not valid, To in place of an absent one (R45); a reading kept across a re-identification
onto its coach (R44) stands (log entry 60). -/
def State.cabin (s : State) : Int :=
  match s.heat.reading with
  | some r => r.temp
  | none => s.outside

/-- H: the learned capacity for the head's coach, or the class capacity (R45). -/
def State.capacity (s : State) : Nat :=
  match s.head with
  | none => 0
  | some h =>
    match s.heat.learned.find? (·.coach == h.data.coach) with
    | some e => e.capacity
    | none => (s.classCfg h.data.cls).capacity

/-- Stage size in W. -/
def State.stageWatts (s : State) : Nat := s.heat.stageSize * 500

/-- P: the planning power (R45). -/
def State.planPower (s : State) : Nat :=
  (if s.heat.state.drawing then s.share.grant else s.heat.stageMax) * s.stageWatts

/-- Lead, unreachable, long heat. -/
structure Lead where
  lead : Nat
  unreachable : Bool
  longHeat : Bool
deriving DecidableEq, Repr

/-- The mean loss L (R52 step 2). -/
def heatLoss (tc tt out : Int) (u : Nat) : Nat := u * (tc + tt - 2 * out).toNat / 4

/-- Steps 1 to 6 of the computation (R52, R53). -/
def computeLead (tc tt out : Int) (h u m p : Nat) : Lead :=
  if tt ≤ tc then { lead := 0, unreachable := false, longHeat := false }
  else
    let loss := heatLoss tc tt out u
    let net := p - loss
    if p ≤ loss ∨ net < p / 20 then { lead := 720, unreachable := true, longHeat := false }
    else
      let lead := ceilDiv (h * (tt - tc).toNat * 500) (net * 60) + m
      if 720 < lead then { lead := 720, unreachable := false, longHeat := true }
      else { lead := max lead 1, unreachable := false, longHeat := false }

/-- Steps 7 and 8 (R53): the slack against a present absolute minute; 0 while UNSET (HEAT NOW). -/
def slackOf (start : Int) (present : Option Nat) (heatNow : Bool) : Int :=
  match present with
  | none => 0
  | some m =>
    let x := clampInt (-720) 720 (start - m)
    if heatNow then min x 0 else x

/-- The hold request (R56); 1 while the stage maximum is 0 (log entry 48). -/
def holdRequest (tt out : Int) (u watts stageMax : Nat) : Nat :=
  stageFigure stageMax (ceilDiv (u * (tt - out).toNat) (2 * watts))

/-- The hold request in this state. -/
def State.holdNow (s : State) : Nat :=
  match s.head with
  | some h => holdRequest h.data.target s.outside (s.classCfg h.data.cls).loss s.stageWatts s.heat.stageMax
  | none => 1

/-! ### Runs and learning (R63 to R65) -/

/-- H_meas of a valid run (R64), none for a run that is ignored. -/
def measured (r : HeatRun) (tt : Int) (count now watts u : Nat) : Option Nat :=
  let dt := Int.tdiv (tt - r.tc0) 2
  let t := (now - r.start) / 1000
  if 5 ≤ dt ∧ 600 ≤ t then
    let stageSeconds := (r.upTo count now).acc / 1000
    let del : Int := (stageSeconds * watts / 1000 : Nat)
    let loss : Int := (u * ((r.tc0 + tt - 2 * r.to0).toNat / 4) * t / 1000 : Nat)
    let h := Int.tdiv (del - loss) dt
    if 0 < h then some h.toNat else none
  else none

/-- The entry with the oldest last used time, lower coach id for equal times (R65). -/
def oldestLearned : List Learned → Option Learned
  | [] => none
  | x :: xs =>
    match oldestLearned xs with
    | none => some x
    | some y => if y.lastUsed < x.lastUsed ∨ (y.lastUsed = x.lastUsed ∧ y.coach < x.coach) then some y else some x

/-- A write of H_meas (R65). -/
def learn (es : List Learned) (coach old meas now : Nat) : List Learned :=
  let cap (o : Nat) : Nat := clampNat 100 4000 ((3 * o + meas + 2) / 4)
  if es.any (·.coach == coach) then
    es.map fun e => if e.coach = coach then
      { e with capacity := cap e.capacity, runs := min (e.runs + 1) 255, lastUsed := now } else e
  else
    let e : Learned := { coach := coach, capacity := cap old, runs := 1, lastUsed := now }
    if es.length < Config.learnedSize then es ++ [e]
    else match oldestLearned es with
         | some o => es.filter (·.coach != o.coach) ++ [e]
         | none => [e]

/-- The open run ends as complete (R64). -/
def State.endRun (s : State) : State :=
  match s.heat.run, s.head with
  | some r, some h =>
    let c := s.classCfg h.data.cls
    let t := s.updHeat fun x => { x with run := none }
    match measured r h.data.target s.heat.count s.now s.stageWatts c.loss with
    | some m => t.updHeat fun x => { x with learned := learn x.learned r.coach c.capacity m s.now, compute := true }
    | none => t
  | _, _ => s.updHeat fun x => { x with run := none }

/-- A run begins on entry to HEATING, with a valid reading (R63); To at start is BAY's at that moment (log entry 47). -/
def State.beginRun (s : State) : State :=
  match s.heat.reading, s.head with
  | some r, some h =>
    if s.readingValid then
      s.updHeat fun x => { x with run := some { tc0 := r.temp, to0 := s.outside, start := s.now, acc := 0,
                                                mark := s.now, coach := h.data.coach } }
    else s.updHeat fun x => { x with run := none }
  | _, _ => s.updHeat fun x => { x with run := none }

/-! ### Leaving states (R47, R50, R60, R61) -/

/-- ANNOUNCED or a drawing state. -/
def HeatState.wants (h : HeatState) : Bool := h == .announced || h.drawing

/-- HEAT goes to SCHEDULED, OFF or STOPPED: stages open, run discarded, watch set gone, the demand withdrawn as the own
request falls to 0 (R80), HEATER DISABLE placed (R50). -/
def State.heatLeave (s : State) (next : HeatState) : State :=
  let disable := s.heat.state.wants && s.linkUp && (s.heat.enableHeld || s.heatHolds .heaterEnable)
  let t := (s.setCount 0).updHeat fun h =>
    { h with state := next, run := none, waiting := none, blindEnd := none, drawingSince := none }
  let t := t.updBay fun b => { b with heatWatch := none }
  let t := if next.computing then t else t.updShare fun x => { x with ranking := none }
  let t := if t.share.announced then t.withdrawDemand else t
  if disable then t.heatPlace .heaterDisable else t

/-- HEAT goes to OFF from SCHEDULED, ANNOUNCED or a drawing state (R61: overdue head, release order). -/
def State.heatOff (s : State) : State := if s.heat.state.computing then s.heatLeave .off else s

/-- A change of head, or what ends pre-heat like one (R61, R62, R8). -/
def State.heatHeadChange (s : State) : State :=
  let t := if s.heat.state = .off then s else s.heatLeave .off
  (t.updHeat fun h => { h with unreachableRecorded := false }).updShare fun x => { x with fresh := true }

/-- The order of RESTART (R66). -/
def State.heatRestart (s : State) : State :=
  let t := if s.heat.state = .off then s else s.heatLeave .off
  t.updHeat fun h => { h with enableHeld := false }

/-- The head's phase enters PREPARING from WAITING COACH or WRONG COACH (R62). -/
def State.heatRematch (s : State) : State := if s.heat.state = .stopped then s.heatLeave .off else s

/-- The watch-set event (R60). -/
def State.heatDisturbed (s : State) : State := (s.heatLeave .stopped).writeFault preheat02 .advisory

/-- A proving failure: BAY opens, records BAY-02 and HEAT stops (R159, R60). -/
def State.provingFailure (s : State) : State :=
  let t := s.updBay fun b => { b with provingFailed := true, contactors := 0 }
  (t.writeFault bay02 .advisory).heatLeave .stopped

/-- HEATER PROVING judged outside a window (R159). -/
def State.judgeProving (s : State) : State :=
  if s.provingMatches s.heat.count then s.updBay fun b => { b with provingFailed := false }
  else if s.bay.provingFailed then s
  else s.provingFailure

/-! ### Entering the drawing states (R46, R49, R56) -/

/-- The conditions of R46. -/
def State.heatAllowed (s : State) : Bool :=
  s.phaseIs Phase.matched && !((s.head.map Plan.overdue).getD true) && decide (1 ≤ s.heat.stageMax) &&
    s.level .plugLatched && s.operating && (s.clock.state != .unset || (s.head.map (·.data.heatNow)).getD false)

/-- SCHEDULED or ANNOUNCED without the conditions of R46. -/
def State.heatBarred (s : State) : Bool :=
  (s.heat.state == .scheduled || s.heat.state == .announced) && !s.heatAllowed

/-- R46 evaluated: SCHEDULED or ANNOUNCED returns to OFF as soon as a condition has stopped holding (R47). -/
def State.heatJudged (s : State) : State := if s.heatBarred then s.heatLeave .off else s

/-- HEAT leaves OFF (R46): the computation that follows moves it on. -/
def State.heatSchedule (s : State) : State :=
  ((s.updHeat fun h =>
    { h with state := .scheduled, compute := true,
             learned := h.learned.map fun e =>
               if some e.coach = s.head.map (·.data.coach) then { e with lastUsed := s.now } else e })).updShare
    fun x => { x with fresh := true }

/-- HOLDING is entered (R56); a first stage that waits for a lamp window waits on (R49, R54, log entry 20). -/
def State.enterHolding (s : State) : State :=
  let hold := s.holdNow
  let t := (s.updHeat fun h =>
    { h with state := .holding, holdRequest := hold, blindEnd := none }).updShare
      fun x => { x with fresh := true }
  t.capCount hold

/-- The head's target. -/
def State.target (s : State) : Int := (s.head.map (·.data.target)).getD 0

/-- The conditions of R49. -/
def State.drawDue (s : State) : Bool :=
  s.heat.state == .announced && decide (1 ≤ s.share.grant) && s.heat.enableHeld && !s.heatHolds .heaterDisable &&
    s.level .plugLatched

/-- ANNOUNCED to a drawing state (R49): the first stage waits for an open lamp window (R54, log entry 20). -/
def State.heatDraw (s : State) : State :=
  let t := if s.cabin < s.target then (s.updHeat fun h => { h with state := .heating }).beginRun
    else s.updHeat fun h => { h with state := .holding, holdRequest := s.holdNow }
  let t := t.updHeat fun h => { h with drawingSince := some s.now }
  let t := if t.lamp.window.isSome then t.updHeat fun h => { h with waiting := some .first } else t.setCount 1
  let w := t.newWatch [(.plugLatched, true), (.coachPresent, true)]
  let t := t.updBay fun b => { b with heatWatch := some w }
  if w.armed then t else t.heatDisturbed

/-! ### Rising (R54, R55, R57) -/

/-- 10 s have passed since the last change of the stage count. -/
def State.riseTime (s : State) : Bool :=
  match s.heat.lastChange with
  | some c => decide (c + Config.riseGap ≤ s.now)
  | none => true

/-- Below the stage target, heater enable held and no lamp window open. -/
def State.riseOpen (s : State) : Bool :=
  decide (s.heat.count < s.stageTarget) && s.heat.enableHeld && s.lamp.window.isNone

/-- A rise of HEATING or BLIND is due (R55, R58). -/
def State.riseDue (s : State) : Bool :=
  (s.heat.state == .heating || s.heat.state == .blind) && s.riseOpen && s.riseTime

/-- A rise that waited for a lamp window is due, and the rule that made it due still calls for it (R54). -/
def State.waitedRise (s : State) : Bool :=
  match s.heat.waiting with
  | some .first => s.riseOpen
  | some .regulation => s.heat.state == .holding && s.riseOpen && s.riseTime && decide (s.cabin < s.target - 2)
  | none => false

/-- One more stage. -/
def State.riseOne (s : State) : State := (s.setCount (s.heat.count + 1)).updHeat fun h => { h with waiting := none }

/-! ### Readings (R44, R57, R59) -/

/-- Regulation in HOLDING (R57). A rise of an earlier reading is decided again; a first stage that waits for a lamp window
(R49, R54) is no rise of a reading and waits on (log entry 20). -/
def State.regulate (s : State) (t : Int) : State :=
  let first := s.heat.waiting.filter (· == .first)
  let u := s.updHeat fun h => { h with waiting := first }
  if s.target + 2 ≤ t then u.setCount (s.heat.count - 1)
  else if t < s.target - 2 ∧ s.heat.count < s.stageTarget ∧ s.heat.enableHeld = true ∧ s.riseTime = true then
    (if s.lamp.window.isSome then u.updHeat fun h => { h with waiting := some (first.getD .regulation) }
     else s.riseOne)
  else u

/-- A reading taken: each is a trigger of the computation and of regulation (R44); HOLDING regulates first, with the hold
request and grant in force, and computes afterwards (log entry 46). -/
def State.heatReading (s : State) (temp : Int) : State :=
  let u := s.updHeat fun h =>
    { h with reading := some { temp := temp, time := s.now, coach := s.coachId }, compute := true }
  match s.heat.state with
  | .heating => if s.target ≤ temp then u.endRun.enterHolding else u
  | .holding => u.regulate temp
  | .blind =>
    if s.target ≤ temp then u.enterHolding
    else (u.updHeat fun h => { h with state := .heating, blindEnd := none }).beginRun
  | .off | .scheduled | .announced | .stopped => u

/-- 120 s without a valid reading in HEATING or HOLDING (R58); a reading that was as old when the state was entered counts at
once (log entry 58), and one kept across a re-identification onto its coach counts by its own age (log entry 60). -/
def State.blindDue (s : State) : Bool :=
  (s.heat.state == .heating || s.heat.state == .holding) &&
    (match s.heat.reading with
     | some r => decide (r.time + Config.readingAge ≤ s.now)
     | none => match s.heat.drawingSince with
               | some d => decide (d + Config.readingAge ≤ s.now)
               | none => false)

/-- BLIND is entered (R58), its count at least 1 and within the stage maximum (R43, log entry 48). -/
def State.enterBlind (s : State) : State :=
  s.updHeat fun h =>
    { h with state := .blind, blindCount := stageFigure h.stageMax h.count, run := none, waiting := none,
             blindFromHeating := h.state == .heating, blindEnd := s.after Config.blindSpan }

/-! ### Requests (R44, R48) -/

/-- A cabin poll: skipped while one is queued or in flight (R44). -/
def State.pollCabin (s : State) : State :=
  if s.heatHolds .cabinTemperature then s else s.heatPlace .cabinTemperature

/-- Requests told "at quota" are offered again after an outcome (R88). -/
def State.offerKept (s : State) : State :=
  let ks := s.heat.kept
  ks.foldl (fun t k => t.heatPlace k) (s.updHeat fun h => { h with kept := [] })

/-- What an outcome does in HEAT (R44, R48, R50). -/
def State.heatAnswered (s : State) (k : ReqKind) (e : Ending) : State :=
  match k, e with
  | .cabinTemperature, .ok c =>
    let t := signed8 c 0
    if -100 ≤ t ∧ t ≤ 120 then s.heatReading t else s
  | .heaterEnable, .ok _ => s.updHeat fun h => { h with enableHeld := true }
  | .heaterEnable, .refused _ => (s.heatLeave .stopped).writeFault preheat03 .advisory
  | .heaterDisable, _ => s.updHeat fun h => { h with enableHeld := false }
  | _, _ => s

/-- An outcome delivered to HEAT. -/
def State.heatOutcome (s : State) (k : ReqKind) (e : Ending) : State := (s.heatAnswered k e).offerKept

/-- The link leaves UP: polling stops and kept requests go (R44, log entries 24 and 42). -/
def State.heatLinkLost (s : State) (down : Bool) : State :=
  s.updHeat fun h => { h with pollDue := none, kept := [], enableHeld := h.enableHeld && !down }

/-- Plug removal (R44, R48). -/
def State.heatUnplugged (s : State) : State :=
  s.updHeat fun h => { h with reading := none, enableHeld := false, pollDue := none, kept := [] }

/-- A completed identification as HEAT takes it (R85, R44, R48, R62): a reading of the same coach is kept, and counts as one
taken since identification (log entry 60). -/
def State.heatIdentified (s : State) (id coachMax : Nat) (first : Bool) : State :=
  let t := s.updHeat fun h =>
    { h with coachMax := some coachMax, enableHeld := false,
             reading := match h.reading with
               | some r => if r.coach = some id then some r else none
               | none => none,
             pollDue := s.after Config.cabinPoll }
  let t := t.takeFigures
  let t := if first && t.heat.state == .stopped then t.heatLeave .off else t
  t.pollCabin

/-! ### The computation (R51 to R53) and the ranking slack (R71) -/

/-- A computation is made: a state with one, and a present minute or HEAT NOW (R51, R53). -/
def State.canCompute (s : State) : Bool :=
  s.heat.state.computing && (s.absMinute.isSome || (s.head.map (·.data.heatNow)).getD false)

/-- The computed figures replaced, PREHEAT-01 once per head (R52). -/
def State.computeFigures (s : State) (h : Plan) : State :=
  let c := s.classCfg h.data.cls
  let l := computeLead s.cabin h.data.target s.outside s.capacity c.loss c.margin s.planPower
  let start : Int := (h.data.absMinute : Int) - l.lead
  let t := s.updHeat fun x =>
    { x with lead := l.lead, startMin := some start, slack := slackOf start s.absMinute h.data.heatNow,
             unreachable := l.unreachable, longHeat := l.longHeat, compute := false,
             unreachableRecorded := x.unreachableRecorded || l.unreachable }
  if l.unreachable && !s.heat.unreachableRecorded then t.writeFault preheat01 .advisory else t

/-- SHARE takes the slack (R71). -/
def State.takeSlack (s : State) : State :=
  s.updShare fun x =>
    let held := (s.heat.state == .heating || s.heat.state == .blind) && !x.fresh
    { x with fresh := false,
             ranking := some (match x.ranking with
                              | some r => if held then min r s.heat.slack else s.heat.slack
                              | none => s.heat.slack) }

/-- HEAT moves by the slack (R47), and HOLDING takes its hold request again (R56). -/
def State.moveBySlack (s : State) : State :=
  match s.heat.state with
  | .scheduled => if s.heat.slack ≤ 15 then s.updHeat fun h => { h with state := .announced } else s
  | .announced => if 15 < s.heat.slack then s.heatLeave .scheduled else s
  | .holding => (s.updHeat fun h => { h with holdRequest := s.holdNow }).capCount s.holdNow
  | .off | .heating | .blind | .stopped => s

/-- One start-time computation with what hangs on it. -/
def State.compute (s : State) : State :=
  match s.head with
  | some h =>
    if s.canCompute then ((s.computeFigures h).takeSlack).moveBySlack
    else s.updHeat fun x => { x with compute := false }
  | none => s.updHeat fun x => { x with compute := false }

/-! ### The grant (R73 to R75) -/

/-- A new grant handed to HEAT: the count falls to it at once and a computation is called for (R51, R75). -/
def State.setGrant (s : State) (g : Nat) : State :=
  ((s.updShare fun x => { x with grant := g }).capCount g).updHeat fun h => { h with compute := true }

/-- One recomputation of the grant; after `grantRounds` of them in one command the open value decides whether the new
grant or the one in force stays (log entry 8). -/
def State.regrant (s : State) : State :=
  let t := s.updShare fun x => { x with rounds := x.rounds + 1 }
  if s.share.rounds + 1 < Config.grantRounds ∨ s.ownRequest < s.share.grant then t.setGrant s.computedGrant
  else
    let u : State := { t with freeCount := t.freeCount + 1 }
    if Config.unsettledGrant s.freeCount then u.setGrant s.computedGrant else u

end Sys2Proof.Machine
end

