-- ==== Sys2Proof/Machine/Reader.lean ====
section
/-! DEFINITION. The fault reader: reads, passes, outcomes, interruption (R121 to R127). -/

namespace Sys2Proof.Machine

/-- A FAULT request placed. -/
def State.faultAsk (s : State) (k : ReqKind) (i : Nat) : State :=
  s.place { job := .fault, kind := k, arg := i, closing := false }

/-- A pass begins: COUNTING with FAULT COUNT placed (R122, R125). -/
def State.beginPass (s : State) : State :=
  (s.updFaults fun f => { f with reader := .counting, pass := [], spoilt := false }).faultAsk .faultCount 0

/-- A read begins (R122); the FAULT SUMMARY slot is marked HELD where no read was in progress (R131). -/
def State.beginRead (s : State) (k : ReadKind) : State :=
  let t := if s.faults.busy then s else s.holdSummary
  (t.updFaults fun f => { f with restarts := 0, periodicDue := none, kind := k }).beginPass

/-- FAULT RECORD placed for successive indexes within the quota (R124). While the link does not take them each is answered
ABORTED at once, on which the reader places again, so that every index left is offered (R88, R95). The first argument bounds
the placings. -/
def State.readerPlace : Nat → State → State
  | 0, s => s
  | n + 1, s =>
    if s.faults.next ≤ s.faults.toRead then
      if !s.link.allows .faultRecord then s.updFaults fun f => { f with next := f.toRead + 1 }
      else if s.link.count .fault < Job.quota .fault then
        readerPlace n ((s.faultAsk .faultRecord s.faults.next).updFaults fun f => { f with next := f.next + 1 })
      else s
    else s

/-- A final read reports to DEPART (R126). -/
def State.reportRead (s : State) (complete : Bool) : State :=
  if s.faults.kind = .final then s.updFaults fun f => { f with report := some complete } else s

/-- Steps 1 to 3 of a clean pass (R125). -/
def State.takePass (s : State) : State :=
  let keys := s.faults.pass.map fun c => ({ source := .coach c.unit, code := c.code } : Key)
  let t := s.faults.pass.foldl State.writeCoachFault s
  (t.clearPresent fun r => r.key.source.isCoach && !keys.contains r.key).clearKey link01

/-- The end of a pass (R125). -/
def State.endPass (s : State) : State :=
  if s.faults.spoilt then
    if s.faults.restarts < Config.restartLimit then
      (s.updFaults fun f => { f with restarts := f.restarts + 1 }).beginPass
    else
      let t := (s.updFaults fun f =>
        { f with pass := [], periodicDue := s.after Config.periodic, reader := .failed }).writeFault link01 .blocking
      t.releaseSummary.reportRead false
  else
    let t := s.takePass.updFaults fun f =>
      { f with complete := true, restarts := 0, pass := [], periodicDue := s.after Config.periodic, reader := .complete }
    t.releaseSummary.reportRead true

/-- A fault record as read, none where it is not acceptable (R124, R184). -/
def readRecord (c : List Byte) : Option CoachFault :=
  let u := byteAt c 0
  let b := byteAt c 3
  if byteAt c 4 = (u + byteAt c 1 + byteAt c 2 + b) % 256 ∧ 1 ≤ u ∧ u ≤ 63 ∧ b % 16 ≤ 3 then
    some { unit := u, code := word16 c 1, level := b % 16, state := if 128 ≤ b then .active else .stored }
  else none

/-- The pass is spoilt. -/
def State.spoilPass (s : State) : State := s.updFaults fun f => { f with spoilt := true }

/-- After the outcome of an index: the pass ends with the last one, else placing goes on (R124). -/
def State.afterRecord (s : State) (i : Nat) : State := if i = s.faults.toRead then s.endPass else s.readerPlace 4

/-- An outcome delivered to the fault reader (R123, R124, R127). -/
def State.readerOutcome (s : State) (r : Request) (withdrawn : Bool) (e : Ending) : State :=
  if withdrawn then (if s.faults.reader = .reading then s.readerPlace 4 else s)
  else match s.faults.reader, r.kind, e with
    | .counting, .faultCount, .ok c =>
      let n := min (byteAt c 0) 64
      let t := s.updFaults fun f => { f with toRead := n, next := 1 }
      if n = 0 then t.endPass else (t.updFaults fun f => { f with reader := .reading }).readerPlace 4
    | .counting, .faultCount, .refused _ => s.spoilPass.endPass
    | .counting, .faultCount, .failed _ => s.spoilPass.endPass
    | .reading, .faultRecord, .ok c =>
      match readRecord c with
      | some x => (s.updFaults fun f => { f with pass := f.pass ++ [x] }).afterRecord r.arg
      | none => s.spoilPass.afterRecord r.arg
    | .reading, .faultRecord, .refused _ => s.spoilPass.afterRecord r.arg
    | .reading, .faultRecord, .failed _ => s.spoilPass.afterRecord r.arg
    | .reading, .faultRecord, .aborted => s.readerPlace 4
    | _, _, _ => s

/-- The link enters DOWN or HALTED: a read in progress is interrupted (R127). -/
def State.readerLinkLost (s : State) : State :=
  if s.faults.busy then
    ((s.updFaults fun f =>
      { f with pass := [], spoilt := false, restarts := 0, periodicDue := none, reader := .idle }).releaseSummary).reportRead
        false
  else s

/-- Plug removal: the coach that was read has gone (R127). -/
def State.readerUnplugged (s : State) : State :=
  s.readerLinkLost.updFaults fun f => { f with complete := false, periodicDue := none }

/-- DEPART's order for a final read (R126). -/
def State.finalReadOrder (s : State) : State :=
  if s.linkUp then (if s.faults.busy then (s.withdraw .fault).beginRead .final else s.beginRead .final)
  else s.updFaults fun f => { f with report := some false }

end Sys2Proof.Machine
end

