-- ==== Sys2Proof/Machine/Link.lean ====
section
/-! DEFINITION. LINK below PLANS and DEPART: delivery, class in force, purge, halt, loss, wake (R84, R86, R92 to R96). -/

namespace Sys2Proof.Machine

/-- An outcome delivered to the job that asked (R92); IDENT keeps no state of its own. -/
def State.deliver (s : State) (r : Request) (withdrawn : Bool) (e : Ending) : State :=
  match r.job with
  | .ident => s
  | .heat => s.heatOutcome r.kind e
  | .lamp => s.lampOutcome r withdrawn e
  | .fault => s.readerOutcome r withdrawn e

/-- Every queued entry delivered ABORTED in queue order, the queue emptied (R94, R95, R97). -/
def State.purge (s : State) : State :=
  s.link.queue.foldl (fun t r => t.deliver r false .aborted) (s.updLink fun l => { l with queue := [] })

/-- The link is DOWN or WAKING, where the wake profile is the current one (R86). -/
def LinkState.waking' (x : LinkState) : Bool :=
  match x with
  | .down | .waking => true
  | .up | .halting | .halted => false

/-- The class in force selected while a coach is identified (R86): the head's class where its coach is the identified one,
else the reported class; a plan class that differs from it writes BAY-05. In DOWN and WAKING the current profile stays the
wake profile (log entry 14). -/
def State.selectClass (s : State) : State :=
  match s.link.coach with
  | none => s
  | some c =>
    let plan := match s.head with
      | some h => if h.data.coach = c.id then some h.data.cls else none
      | none => none
    let cls := plan.getD c.cls
    let t := s.updLink fun l =>
      { l with cls := some cls, profile := if l.state.waking' then l.profile else (s.classCfg cls).profile }
    if cls = c.cls then t else t.writeFault bay05 .info

/-- LINK tells HEAT and LAMP that the link has left UP. -/
def State.linkLeft (s : State) (down : Bool) : State := (s.heatLinkLost down).lampSuspend

/-- Entry to DOWN (R86). -/
def State.linkDown (s : State) : State :=
  s.updLink fun l => { l with state := .down, cls := none, profile := s.conf.wakeProfile }

/-- Entry to HALTED (R95). -/
def State.linkHalted (s : State) : State :=
  (s.updLink fun l => { l with state := .halted, failures := 0 }).readerLinkLost

/-- A halt is ordered (R95). -/
def State.linkHalt (s : State) : State :=
  match s.link.state with
  | .up =>
    let t := ((s.updLink fun l => { l with state := .halting }).linkLeft false).purge
    if t.link.exchange.isSome then t else t.linkHalted
  | .waking =>
    let t := s.updLink fun l =>
      { l with wakeDue := none, queue := [], state := .halting,
               exchange := l.exchange.map fun x => { x with withdrawn := true } }
    if t.link.exchange.isSome then t else t.linkHalted
  | .down => (s.updLink fun l => { l with wakeDue := none }).linkHalted
  | .halting | .halted => s

/-- The coach is lost (R94). -/
def State.linkLost (s : State) : State :=
  let t := (s.linkDown.writeFault link02 .advisory).purge
  let t := (t.linkLeft true).readerLinkLost
  t.updLink fun l => { l with wakeDue := s.after Config.wakeWait, failures := 0 }

/-- IDENT places IDENTIFY. -/
def State.identify (s : State) : State := s.place { job := .ident, kind := .identify, arg := 0, closing := false }

/-- The wake (R84): WAKING on the wake profile with IDENTIFY placed. -/
def State.wake (s : State) : State :=
  ((s.updLink fun l =>
    { l with state := .waking, profile := s.conf.wakeProfile, wakeDue := none, resume := false }).updStart
      fun x => { x with wakeAfterHalt := false }).identify

/-- DEPART orders a resume, kept while the link is HALTING or HALTED (R96, log entry 15). -/
def State.linkResume (s : State) : State :=
  if s.link.state = .halting ∨ s.link.state = .halted then s.updLink fun l => { l with resume := true } else s

end Sys2Proof.Machine
end

