-- ==== Sys2Proof/Machine/Lanes.lean ====
section
/-! DEFINITION. DEPART's side of a lane: keys, the search, claiming, giving up, dropping (R134, R140 to R143, R148, R149, R151). -/

namespace Sys2Proof.Machine

/-- A lane key: departure absolute minute and station number (9.5). -/
abbrev LaneKey := Nat × Nat

/-- The lower key is ahead (9.5). -/
def LaneKey.ahead (a b : LaneKey) : Bool := decide (a.1 < b.1) || (decide (a.1 = b.1) && decide (a.2 < b.2))

/-- The station's own lane key. -/
def State.ownLaneKey (s : State) : LaneKey := (s.depart.key.getD 0, s.conf.station)

/-- HELD from any peer, or CLAIM with a better key (R140, R141, R142). -/
def State.stands (s : State) (held : Bool) (key station : Nat) : Bool :=
  held || LaneKey.ahead (key, station) s.ownLaneKey

/-- The view holds a record that keeps the station off a lane (R140). -/
def State.laneTaken (s : State) (lane : Nat) : Bool :=
  s.view.entries.any fun e =>
    match e.lane with
    | some r => r.lane == lane && s.stands r.held r.key e.station
    | none => false

/-- Content of the LANE slot for an action on a lane; in-transit is clear in every RELEASE (log entry 66). -/
def State.laneContent (s : State) (a : LaneAction) (lane : Nat) : LaneContent :=
  { action := a, lane := lane, key := s.depart.key.getD 0, inTransit := a == .held && s.inPhase .gone,
    singleTry := a == .claim }

/-- HELD written with the present content; the 10 s restart (R143). -/
def State.writeHeld (s : State) : State :=
  (s.writeLane (s.laneContent .held (s.depart.current.getD 0))).updDepart fun d =>
    { d with heldRefresh := s.after Config.heldRefresh }

/-- A claim for the current lane is written (R141). -/
def State.claimLane (s : State) (lane : Nat) : State :=
  (s.writeLane (s.laneContent .claim lane)).updDepart fun d =>
    { d with own := .claiming, current := some lane, claimSent := false, holdOff := none, claimRetry := none }

/-- A lane joins the yielded lanes, once. -/
def joinYielded (ys : List Nat) (lane : Nat) : List Nat := if ys.contains lane then ys else ys ++ [lane]

/-- The round goes on through some lanes (R140). -/
def State.laneRound : List Nat → State → State
  | [], s => s.updDepart fun d =>
      { d with own := .yielded, current := none, claimSent := false, holdOff := none, claimRetry := none }
  | l :: ls, s =>
    if s.isContested l then laneRound ls s
    else if s.laneTaken l then
      laneRound ls (s.updDepart fun d => { d with yielded := joinYielded d.yielded l })
    else s.claimLane l

/-- A round begins (R140). -/
def State.startRound (s : State) : State := State.laneRound s.depart.lanes (s.updDepart fun d => { d with yielded := [] })

/-- The lanes of the list after one of them. -/
def lanesAfter (ls : List Nat) (lane : Nat) : List Nat := (ls.dropWhile fun l => l != lane).drop 1

/-- A lane is yielded with nothing left to send for it: the round takes the next lane (R140 to R142). -/
def State.yieldOn (s : State) (lane : Nat) : State :=
  State.laneRound (lanesAfter s.depart.lanes lane) (s.updDepart fun d => { d with yielded := joinYielded d.yielded lane })

/-- The claim retry delay has run out: the current lane is judged again (R141). -/
def State.judgeAgain (s : State) : State :=
  match s.depart.current with
  | some l => State.laneRound (l :: lanesAfter s.depart.lanes l) s
  | none => s

/-- A waiting search (R140). -/
def State.searchWaits (s : State) : Bool :=
  s.inPhase .claiming && s.depart.own == .yielded && s.depart.current.isNone

/-- VIEW tells DEPART of lane records leaving (R30, R140). -/
def State.lanesLeft (s : State) (ls : List Nat) : State :=
  if s.searchWaits && ls.any s.depart.yielded.contains then s.startRound else s

/-- VIEW tells DEPART of a contested mark running out or being cleared (R36, R140). -/
def State.markLeft (s : State) (lane : Nat) : State :=
  if s.searchWaits && s.depart.lanes.contains lane then s.startRound else s

/-! ### Giving up and dropping -/

/-- Every timer of DEPART but the refusal indication stops. -/
def Depart.stopTimers (d : Depart) : Depart :=
  { d with holdOff := none, claimRetry := none, heldRefresh := none, unlatchWait := none, clearance := none,
           transit := none }

/-- The own lane state FREE with no current lane, yielded lanes emptied, lane timers stopped. -/
def Depart.freed (d : Depart) : Depart :=
  { d with own := .free, current := none, yielded := [], claimSent := false, holdOff := none, claimRetry := none,
           heldRefresh := none, transit := none }

/-- Step 1 of R148. -/
def State.giveUpLane (s : State) : State :=
  let release (t : State) : State := t.writeLane (t.laneContent .release (t.depart.current.getD 0))
  let t := match s.depart.own with
    | .claiming => if s.depart.claimSent then release s else s.emptyLane
    | .held => release s
    | .free | .listening | .yielded => s
  t.updDepart Depart.freed

/-- Step 1 of R148 as R149 changes it: nothing is written, what is unsent leaves the slot (log entry 29), and a claim in
transmission is dropped. -/
def State.dropSilent (s : State) : State :=
  let mine := s.depart.own == .claiming || s.depart.own == .held || (s.depart.own == .yielded && s.depart.current.isSome)
  let t := if mine || s.line.lane.state == .pending then s.emptyLane else s
  (t.updLine fun l =>
    { l with tx := l.tx.map fun x => match x.item with
        | .lane _ => { x with dropped := true }
        | .demand _ | .answer _ | .status | .summary | .hello => x }).updDepart Depart.freed

/-- Step 2 of R148: DEPART's watch set, unlatch wait and clearance timeout. -/
def State.discardWaits (s : State) : State :=
  (s.updDepart fun d => { d with unlatchWait := none, clearance := none }).updBay fun b => { b with departWatch := none }

/-- A change of head ends DEPART's work (R134, R135). -/
def State.departHeadChange (s : State) : State :=
  let t := if s.depart.own = .free then s else s.giveUpLane
  (t.updDepart fun d =>
    { d.stopTimers with key := none, lanes := [], yielded := [], releaseBegun := false, inCharge := false }).updBay
      fun b => { b with departWatch := none }

/-- A refusal (R137). -/
def State.refuse (s : State) (r : RefusalReason) : State :=
  s.updDepart fun d => { d with lastRefusal := r, refusal := s.after Config.refusalShow }

end Sys2Proof.Machine
end

