-- ==== Sys2Proof/Machine/Plans.lean ====
section
/-! DEFINITION. PLANS: order, phase moves, matching, overdue, change of head, revisions, cancels, new plans (R2 to R15). -/

namespace Sys2Proof.Machine

/-! ### Order (R2, R3) -/

/-- Earlier absolute minute, then lower id. -/
def PlanData.before (a b : PlanData) : Bool :=
  decide (a.absMinute < b.absMinute) || (decide (a.absMinute = b.absMinute) && decide (a.id < b.id))

/-- A record placed by the order. -/
def insertPlan (p : Plan) : List Plan → List Plan
  | [] => [p]
  | q :: qs => if p.data.before q.data then p :: q :: qs else q :: insertPlan p qs

/-- Records in the order of R2. -/
def sortPlans : List Plan → List Plan
  | [] => []
  | p :: ps => insertPlan p (sortPlans ps)

/-- The list re-ordered: a pinned head stays first (R3). -/
def orderPlans (ps : List Plan) : List Plan :=
  match ps with
  | [] => []
  | h :: t => if h.phase.pinned then h :: sortPlans t else sortPlans ps

/-- The list of the state re-ordered. -/
def State.reorder (s : State) : State := s.updPlans fun p => { p with list := orderPlans p.list }

/-! ### The phase of the head -/

/-- The head's phase moves; LAMP, HEAT, DEPART and LINK take the edges they act on (R101, R113, R46, R47, R62, R135, R86). -/
def State.setPhase (s : State) (p : Phase) : State :=
  let t := s.mapHead fun h => { h with phase := p }
  match s.phase with
  | none => s
  | some old =>
    if old.pinned then
      match p with
      | .waitingCoach | .wrongCoach => t.lampPhaseLost.heatJudged
      | .preparing => t.lampOwed
      | _ => t
    else
      match p with
      | .preparing => (((t.lampMatched).heatRematch).updDepart fun d => { d with inCharge := true }).selectClass
      | _ => t

/-! ### Matching (R12, R13) -/

/-- Matching for the head in WAITING COACH or WRONG COACH; a pinned head keeps its phase, whatever coach is identified (log
entry 55). -/
def State.matchCoach (s : State) : State :=
  match s.head with
  | none => s
  | some h =>
    if h.phase.pinned then s
    else
      let cleared := if h.phase = .wrongCoach then s.clearKey plan01 else s
      match s.coachId with
      | none => cleared.setPhase .waitingCoach
      | some id =>
        if id = h.data.coach then cleared.setPhase .preparing
        else (s.setPhase .wrongCoach).writeFault plan01 .blocking

/-! ### Overdue (R14) -/

/-- The overdue rule evaluated for the head. -/
def State.evalOverdue (s : State) : State :=
  match s.head, s.absMinute with
  | some h, some m =>
    let past := decide (h.data.absMinute + s.conf.overdueLimit < m)
    if h.overdue && !past then (s.mapHead fun x => { x with overdue := false }).clearKey plan02
    else if past && !h.overdue && (h.phase == .waitingCoach || h.phase == .preparing || h.phase == .ready) then
      ((s.mapHead fun x => { x with overdue := true }).writeFault plan02 .advisory).heatOff
    else s
  | _, _ => s

/-! ### Change of head (R11) -/

/-- The former head, still in the list, is an ordinary record again. -/
def demote (id : Option Nat) (p : Plan) : Plan :=
  if some p.data.id = id then { p with phase := .waitingCoach, overdue := false, held := none } else p

/-- What a change of head does, where the head is no longer the one it was (R11). A stage fall that spoils the former head's
check finds the new head's lamp table (log entry 63). -/
def State.headChanged (s : State) (former : Option Nat) : State :=
  if s.headId = former then s
  else
    let t := s.updPlans fun p => { p with list := p.list.map (demote former) }
    let t := (t.clearKey plan01).clearKey plan02
    let t := (t.heatHeadChange).takeFigures
    let t := ((t.lampHeadChange).departHeadChange).latchHeadChange
    (t.selectClass.matchCoach).evalOverdue

/-- A record removed (R10, R15); any removal clears plan-list-full. -/
def State.removePlan (s : State) (id : Nat) : State :=
  let former := s.headId
  (s.updPlans fun p => { p with list := p.list.filter (·.data.id != id), full := false }).headChanged former

/-! ### Revisions (R7 to R9) -/

/-- A revision that leaves the record head, as HEAT, LAMP and LINK take it (R8, R51, R61, R71, R86, R102). HEAT takes the
revised class before LAMP ends the check, so that a stage fall that spoils it finds the revised lamp table (log entry 63). -/
def State.headRevised (s : State) (old new : PlanData) : State :=
  let t := if old.cls ≠ new.cls ∨ old.target ≠ new.target then s.updHeat fun h => { h with run := none } else s
  let t := (t.takeFigures.updHeat fun h => { h with compute := true }).updShare fun x => { x with fresh := true }
  let t := t.lampRevised old new
  if t.phaseIs Phase.pinned then t.selectClass else t

/-- The head's fields replaced. -/
def State.replaceHead (s : State) (d : PlanData) : State := s.mapHead fun h => { h with data := d }

/-- A revision of a pinned head in PREPARING or READY (R8). To another coach, the head that stays first is matched before the
overdue rule is evaluated (log entry 62), and a stage fall that spoils its check finds its revised class (log entry 63). -/
def State.revisePinned (s : State) (old d : PlanData) : State :=
  let former := s.headId
  let t := s.replaceHead d
  if old.coach = d.coach then (t.headRevised old d).evalOverdue
  else
    let t := (t.mapHead fun h => { h with phase := .waitingCoach }).selectClass
    let t := ((t.heatHeadChange).lampHeadChange).reorder
    if t.headId = former then (t.takeFigures.matchCoach).evalOverdue else t.headChanged former

/-- A revision of an unpinned head (R7): matched before the overdue rule is evaluated (log entry 62). -/
def State.reviseHead (s : State) (old d : PlanData) : State :=
  let former := s.headId
  let t := (s.replaceHead d).reorder
  if t.headId = former then ((t.headRevised old d).matchCoach).evalOverdue else t.headChanged former

/-- A revision of a record that is not the head (R7). -/
def State.reviseOther (s : State) (d : PlanData) : State :=
  let former := s.headId
  ((s.updPlans fun p =>
    { p with list := p.list.map fun x => if x.data.id = d.id then { x with data := d } else x }).reorder).headChanged former

/-- A held change applied and cleared (R9). -/
def State.applyHeld (s : State) : State :=
  match s.head with
  | none => s
  | some h =>
    let t := s.mapHead fun x => { x with held := none }
    match h.held with
    | none => s
    | some (.revision d) => if h.phase.pinned then t.revisePinned h.data d else t.reviseHead h.data d
    | some .cancel => t.removePlan h.data.id

/-- The head returns to WAITING COACH and is unpinned (R3): a held change is applied, the list is re-ordered, and the
new head is matched; where the head stays, matching runs only if asked for (R16). -/
def State.unpinHead (s : State) (rematch : Bool) : State :=
  let t := s.setPhase .waitingCoach
  match t.head.bind Plan.held with
  | some _ => t.applyHeld
  | none =>
    let former := t.headId
    let u := t.reorder
    if u.headId = former then (if rematch then u.matchCoach else u) else u.headChanged former

/-! ### Taking a PLAN notice (R4 to R6, R10) -/

/-- The lane a lane entry names, none for a struck one (R4, 13.2). -/
def laneEntry (lanes : List Nat) (e : Nat) : List Nat :=
  match e with
  | 1 => (lanes[0]?).toList
  | 2 => (lanes[1]?).toList
  | _ => []

/-- The normalised fields, none for a notice that is not taken (R4). -/
def normalisePlan (lanes : List Nat) (p : PlanPayload) : Option PlanData :=
  if p.id = 0 ∨ p.coach = 0 ∨ 999999 < p.coach ∨ 1439 < p.minute ∨ 7 < p.cls then none
  else some
    { id := p.id, coach := p.coach, day := p.day, minute := p.minute, target := clampInt 20 52 p.target, cls := p.cls,
      lanes := (laneEntry lanes p.lane1 ++ laneEntry lanes p.lane2).dedup, heatNow := p.heatNow, skipLamps := p.skipLamps }

/-- A new plan is stale (R5). -/
def State.planStale (s : State) (d : PlanData) : Bool :=
  match s.absMinute with
  | some m => decide (d.absMinute + Config.staleMinutes < m)
  | none => false

/-- A new record. -/
def Plan.fresh (d : PlanData) : Plan := { data := d, phase := .waitingCoach, held := none, overdue := false }

/-- A record placed in the list, among records 2 to 4 while the head is pinned (R6). -/
def placePlan (ps : List Plan) (d : PlanData) : List Plan := orderPlans (ps ++ [Plan.fresh d])

/-- A new plan (R5, R6). -/
def State.newPlan (s : State) (d : PlanData) : State :=
  let former := s.headId
  if s.planStale d then s.updPlans fun p => { p with stale := true, dropped := 0 }
  else if s.plans.list.length < Config.planSlots then
    (s.updPlans fun p => { p with list := placePlan p.list d, stale := false, dropped := 0 }).headChanged former
  else
    match s.plans.list.getLast? with
    | some last =>
      if d.before last.data then
        (s.updPlans fun p =>
          { p with list := placePlan p.list.dropLast d, stale := false, full := false,
                   dropped := last.data.id }).headChanged former
      else s.updPlans fun p => { p with full := true, dropped := 0 }
    | none => s

/-- A revision (R7 to R9). -/
def State.revisePlan (s : State) (d : PlanData) : State :=
  let t := s.updPlans fun p => { p with stale := false, dropped := 0 }
  match s.head with
  | some h =>
    if h.data.id = d.id then
      (if h.phase.underWay then t.mapHead fun x => { x with held := some (.revision d) }
       else if h.phase.pinned then t.revisePinned h.data d
       else t.reviseHead h.data d)
    else t.reviseOther d
  | none => t

/-- A cancel (R9, R10). -/
def State.cancelPlan (s : State) (id : Nat) : State :=
  let t := s.updPlans fun p => { p with dropped := 0 }
  if s.headId = some id ∧ s.phaseIs Phase.underWay = true then t.mapHead fun x => { x with held := some .cancel }
  else t.removePlan id

/-- A PLAN notice (R4). -/
def State.takePlan (s : State) (p : PlanPayload) : State :=
  match normalisePlan s.conf.lanes p with
  | none => s
  | some d =>
    match s.plans.list.any (·.data.id == d.id), p.cancel with
    | false, false => s.newPlan d
    | false, true => s.updPlans fun x => { x with dropped := 0 }
    | true, false => s.revisePlan d
    | true, true => s.cancelPlan d.id

end Sys2Proof.Machine
end

