-- ==== Sys2Proof/Machine/Release.lean ====
section
/-! DEFINITION. DEPART over PLANS, LINK and BAY: requests, releasing, clearing, completion, fall-backs, conflicts (R136 to R152). -/

namespace Sys2Proof.Machine

/-! ### Fall-backs (R148, R149) -/

/-- Steps 2 to 4 of R148 after the lane has been given up. -/
def State.fallPhase (s : State) : State :=
  let t := s.discardWaits
  let t := if s.depart.releaseBegun then t.latchCloseOrder.linkResume else t
  let t := t.updDepart fun d => { d with releaseBegun := false, key := none, lanes := [] }
  t.setPhase (if t.readyEntry then .ready else .preparing)

/-- A departure falls back (R148); the held change follows (R9). -/
def State.fallBack (s : State) (reason : Option RefusalReason) : State :=
  let t := s.giveUpLane.fallPhase
  match reason with
  | some r => t.refuse r
  | none => t

/-- The fall-back on line loss or a twin: nothing is written (R149). -/
def State.fallSilent (s : State) : State := (s.dropSilent.fallPhase).refuse .notReady

/-! ### RELEASING, CLEARED, GONE (R144 to R146) -/

/-- RELEASING is entered (R144): HEAT's release order, then the halt. -/
def State.enterReleasing (s : State) : State :=
  (((s.setPhase .releasing).updDepart fun d => { d with releaseBegun := true }).heatOff).linkHalt

/-- The coach has gone with clearance (R145). -/
def State.coachGone (s : State) : State :=
  let lane := s.depart.current.getD 1
  let t := ((s.setPhase .gone).updDepart fun d =>
    { d with clearance := none, inCharge := false,
             transit := s.after (s.conf.transit.getD (lane - 1) 20 * Config.second) }).updBay fun b =>
    { b with departWatch := none }
  t.writeHeld

/-- CLEARED is entered (R145); the watch set's mismatch at once is the coach gone. -/
def State.enterCleared (s : State) : State :=
  let t := (s.setPhase .cleared).updDepart fun d =>
    { d with unlatchWait := none, refusal := none, clearance := s.after (s.conf.clearance * Config.second) }
  let w := t.newWatch [(.coachPresent, true)]
  let u := t.updBay fun b => { b with departWatch := some w }
  if w.armed then u else u.coachGone

/-- The link is HALTED in RELEASING (R144): the latch opens, the watch set is registered, the 20 s begin. -/
def State.unlatch (s : State) : State :=
  let t := s.latchOpenOrder.updDepart fun d => { d with unlatchWait := s.after Config.unlatchWait }
  let w := t.newWatch [(.plugLatched, true)]
  let u := t.updBay fun b => { b with departWatch := some w }
  if w.armed then u else u.enterCleared

/-- DEPART's watch-set event: PLUG LATCHED in RELEASING (R144), COACH PRESENT in CLEARED (R145). -/
def State.departDisturbed (s : State) : State :=
  if s.inPhase .releasing then s.enterCleared
  else if s.inPhase .cleared then s.coachGone
  else s

/-- The departure is complete (R146 step 2, R15): the head leaves the list. -/
def State.completeDeparture (s : State) : State :=
  match s.headId with
  | some id =>
    (s.updDepart fun d => { d.freed with key := none, lanes := [], releaseBegun := false, inCharge := false }).removePlan id
  | none => s

/-- The lane transit has run out (R146). -/
def State.transitOver (s : State) : State :=
  (s.writeLane (s.laneContent .release (s.depart.current.getD 0))).completeDeparture

/-- The hold-off has run out with no yield (R142). -/
def State.laneWon (s : State) : State :=
  ((s.updDepart fun d => { d with own := .held, holdOff := none }).writeHeld).enterReleasing

/-! ### The driver's request (R137, R138, R147) -/

/-- A request taken (R138). -/
def State.takeRequest (s : State) : State :=
  match s.head with
  | some h =>
    (s.updDepart fun d =>
      { d with key := some h.data.absMinute, lastRefusal := .none,
               lanes := if h.data.lanes = [] then s.conf.lanes else h.data.lanes }).setPhase .requested
  | none => s

/-- A request comes before the early window (R137). -/
def State.tooEarly (s : State) : Bool :=
  match s.head, s.absMinute with
  | some h, some m => decide (m + s.conf.earlyWindow < h.data.absMinute)
  | _, _ => false

/-- A press edge of DEPART REQUEST (R137, R147). -/
def State.pressed (s : State) : State :=
  match s.phase with
  | none => s.refuse .noPlan
  | some .waitingCoach | some .wrongCoach | some .preparing =>
    s.refuse (if s.verdict = .blocked then .blocked else .notReady)
  | some .ready => if s.tooEarly then s.refuse .tooEarly else s.takeRequest
  | some .requested | some .finalRead | some .gone => s
  | some .claiming | some .releasing | some .cleared => s.fallBack none

/-- FINAL READ is entered with the order for the final read (R138). -/
def State.enterFinalRead (s : State) : State := (s.setPhase .finalRead).finalReadOrder

/-- The final-read report (R139); in any other phase it is not acted on. -/
def State.finalReport (s : State) (complete : Bool) : State :=
  if s.inPhase .finalRead then
    if !complete then s.fallBack (some .notReady)
    else if s.verdict = .blocked then s.fallBack (some .blocked)
    else if s.verdict = .clear ∧ s.lampFit = true then
      ((s.setPhase .claiming).updDepart fun d => { d with own := .listening }).startRound
    else s.fallBack (some .notReady)
  else s

/-- The verdict has become INCOMPLETE since the close of the last command (R138, log entry 53). -/
def State.verdictLost (s : State) : Bool := s.verdict == .incomplete && s.depart.verdictSeen != .incomplete

/-- The refusal a failed hold condition gives, none while all hold (R138; order: log entry 26). -/
def State.holdFails (s : State) : Option RefusalReason :=
  let waiting := s.inPhase .requested
  let claiming := s.inPhase .claiming
  if waiting || claiming || s.inPhase .finalRead then
    if s.verdict = .blocked then some .blocked
    else if claiming && s.verdictLost then some .notReady
    else if !s.operating then some .notReady
    else if !s.level .plugLatched && !(claiming && s.depart.releaseBegun) then some .notReady
    else if waiting && !s.readingValid then some .notReady
    else none
  else none

/-! ### The bay changes (R150) -/

/-- COACH PRESENT has become inactive (R150, R135): coach in charge is cleared before PLANS take the held change and
match anew, so that a head matched again has its coach in charge. Key and lanes of a request under way go too (log entry
51). A head that was in WAITING COACH is not matched anew (log entry 65). -/
def State.coachLeft (s : State) : State :=
  let t := s.updDepart fun d => { d with inCharge := false }
  match s.phase with
  | some .cleared => s.coachGone
  | some .preparing | some .ready => (t.writeFault bay04 .advisory).unpinHead true
  | some .requested | some .finalRead | some .claiming | some .releasing =>
    let u := ((t.writeFault bay04 .advisory).giveUpLane).discardWaits
    (u.updDepart fun d => { d with releaseBegun := false, key := none, lanes := [] }).unpinHead true
  | some .waitingCoach => if s.depart.inCharge then t.writeFault bay04 .advisory else t
  | some .wrongCoach | some .gone | none => t

/-- LINK reports the plug removed and the coach no longer identified (R150, R144); release begun, key and lanes of a
request under way go without restore (log entry 51). -/
def State.departUnplugged (s : State) : State :=
  match s.phase with
  | some .preparing | some .ready => s.unpinHead true
  | some .requested | some .finalRead | some .claiming =>
    ((s.giveUpLane.discardWaits).updDepart fun d =>
      { d with releaseBegun := false, key := none, lanes := [] }).unpinHead true
  | some .releasing => s.enterCleared
  | some .cleared | some .gone | some .waitingCoach | some .wrongCoach | none => s

/-! ### Conflicts (R151, R152) -/

/-- The lane is dropped without a RELEASE and the search begins again (R151, R152). -/
def State.loseLane (s : State) : State :=
  let t := (s.emptyLane.discardWaits).updDepart Depart.freed
  ((t.setPhase .claiming).updDepart fun d => { d with own := .listening }).startRound

/-- A HELD heard for the lane the station holds itself (R151). -/
def State.heldConflict (s : State) (key station : Nat) (inTransit : Bool) : State :=
  if s.inTransit then (if inTransit then s.writeFault lane01 .advisory else s)
  else if inTransit || LaneKey.ahead (key, station) s.ownLaneKey then
    (let t := s.loseLane
     if s.inPhase .cleared then t.updDepart fun d => { d with refusal := s.after Config.refusalShow } else t)
  else s

/-- A peer's CLAIM or HELD for the current lane (R141, R142, R151). -/
def State.laneHeard (s : State) (lane : Nat) (held inTransit : Bool) (key station : Nat) : State :=
  if s.depart.current = some lane then
    match s.depart.own with
    | .claiming =>
      if s.stands held key station then
        (if s.depart.claimSent then
           (s.writeLane (s.laneContent .release lane)).updDepart fun d =>
             { d with own := .yielded, claimSent := false, holdOff := none }
         else s.emptyLane.yieldOn lane)
      else s
    | .held => if held then s.heldConflict key station inTransit else s
    | .free | .listening | .yielded => s
  else s

/-- A RELEASE from station 0 for the current lane (R152). -/
def State.forcedRelease (s : State) (lane : Nat) : State :=
  if s.depart.current = some lane then
    match s.depart.own with
    | .claiming =>
      if s.inPhase .claiming then
        (let t := if s.depart.claimSent then s else s.emptyLane
         (t.updDepart fun d =>
           { d with claimSent := false, holdOff := none, claimRetry := none, own := .listening }).startRound)
      else s
    | .held =>
      if s.inPhase .gone then s.emptyLane.completeDeparture
      else if s.inPhase .releasing || s.inPhase .cleared then s.loseLane
      else s
    | .free | .listening | .yielded => s
  else s

/-! ### What LINE reports (R141, R142, R170) -/

/-- A claim reported SENT: the hold-off starts, or a claim the station has left is withdrawn by a RELEASE (R170). One left that
is reported while a new claim for the same lane is in hand counts as the new one's report; a report that finds the lane HELD
already does nothing (log entry 64). -/
def State.claimReported (s : State) (c : LaneContent) (dropped : Bool) : State :=
  if s.depart.own = .claiming ∧ s.depart.current = some c.lane then
    s.updDepart fun d => { d with claimSent := true, holdOff := s.after Config.holdOff }
  else if dropped || s.depart.own == .held then s
  else
    let t := s.writeLane { c with action := .release, inTransit := false, singleTry := false }
    if s.inPhase .claiming then
      t.updDepart fun d =>
        { d with own := .yielded, current := some c.lane, claimSent := false, holdOff := none, claimRetry := none }
    else t

/-- A LANE notice reported SENT (R142, R170). -/
def State.laneSent (s : State) (c : LaneContent) (dropped : Bool) : State :=
  match c.action with
  | .claim => s.claimReported c dropped
  | .held => s
  | .release => if s.depart.own = .yielded ∧ s.depart.current = some c.lane then s.yieldOn c.lane else s

/-- The claim retry delay (9.1). -/
def State.claimDelay (s : State) : Nat := 2000 + s.conf.station % 8 * 250

/-- A single-try claim reported failed (R141); where an older claim's report has set claim sent for it, the hold-off runs on
(log entry 64). -/
def State.claimFailed (s : State) (c : LaneContent) : State :=
  if s.depart.own = .claiming ∧ s.depart.current = some c.lane ∧ s.depart.claimSent = false then
    s.updDepart fun d => { d with own := .listening, claimRetry := s.after s.claimDelay }
  else s

/-- The order of RESTART (R153); key and lanes of a request under way go too (log entry 51). -/
def State.departRestart (s : State) : State :=
  if s.inPhase .gone then s
  else
    let t := s.giveUpLane.discardWaits
    let t := if s.depart.releaseBegun then t.latchCloseOrder else t
    t.updDepart fun d => { d with releaseBegun := false, key := none, lanes := [], refusal := none }

end Sys2Proof.Machine
end

