-- ==== Sys2Proof/Machine/View.lean ====
section
/-! DEFINITION. VIEW: records, room, eviction, refusals, ageing and the answer queue (R26 to R41). -/

namespace Sys2Proof.Machine

/-- The peer's entry. -/
def View.entry (v : View) (p : Nat) : Option Entry := v.entries.find? (·.station == p)

/-- A peer's entry changed. -/
def View.change (v : View) (p : Nat) (f : Entry → Entry) : View :=
  { v with entries := v.entries.map fun e => if e.station = p then f e else e }

/-- Among entries without a record: oldest last heard, then lower station (R33 step 1). -/
def oldestIdle : List Entry → Option Entry
  | [] => none
  | e :: es =>
    let r := oldestIdle es
    if e.demand.isNone && e.lane.isNone then
      match r with
      | none => some e
      | some x => if x.lastHeard < e.lastHeard ∨ (x.lastHeard = e.lastHeard ∧ x.station < e.station) then some x else some e
    else r

/-- Among demand-only entries behind the own key: the highest key (R33 step 2). -/
def lowestRanked (own : RankKey) : List Entry → Option Entry
  | [] => none
  | e :: es =>
    let r := lowestRanked own es
    match e.demand, e.lane with
    | some d, none =>
      if own.ahead (d.slack, e.station) then
        match r with
        | none => some e
        | some x =>
          match x.key with
          | some k => if RankKey.ahead (d.slack, e.station) k then some x else some e
          | none => some e
      else r
    | _, _ => r

/-- The entry R33 evicts, none where the notice is refused. -/
def evictee (own : Option RankKey) (es : List Entry) : Option Entry :=
  match oldestIdle es with
  | some e => some e
  | none => own.bind fun k => lowestRanked k es

/-- Room for one more entry (R33), none where there is none. -/
def makeRoom (own : Option RankKey) (es : List Entry) : Option (List Entry) :=
  if es.length < Config.viewSize then some es
  else (evictee own es).map fun e => es.filter (·.station != e.station)

/-- The peer's lane where its record is left behind, as DEPART is told (R30). -/
def View.laneOf (v : View) (p : Nat) : Option Nat := ((v.entry p).bind (·.lane)).map (·.lane)

/-- A DEMAND notice (R27, R34, R35). -/
def State.takeDemand (s : State) (p : Nat) (d : DemandContent) : State :=
  if d.group ≠ s.conf.group then s.updView fun v => v.change p fun e => { e with demand := none }
  else if d.requested = 0 then s.updView fun v => v.change p fun e => { e with demand := none, lastHeard := s.now }
  else
    let r : DemandRec := { group := d.group, requested := d.requested, stageSize := d.stageSize, slack := d.slack, stamp := s.now }
    match s.view.entry p with
    | some _ => s.updView fun v => v.change p fun e => { e with demand := some r, lastHeard := s.now }
    | none =>
      match makeRoom s.ownKey s.view.entries with
      | some es =>
        s.updView fun v => { v with entries := es ++ [{ station := p, lastHeard := s.now, demand := some r, lane := none }] }
      | none =>
        s.updView fun v => { v with full := s.after Config.refusalAge, unseen := s.after Config.refusalAge }

/-- A lane's contested mark set for 40 s (R36). -/
def State.contest (s : State) (lane : Nat) : State :=
  s.updView fun v =>
    { v with contested := (v.contested.filter fun m => m.lane != lane) ++ [{ lane := lane, expiry := s.now + Config.contestedAge }] }

/-- A CLAIM or HELD of a peer for a lane of the set (R28, R34, R36). -/
def State.takeLaneRecord (s : State) (p : Nat) (n : LanePayload) : State :=
  let r : LaneRec := { lane := n.lane, held := n.action == 1, key := n.key, stamp := s.now }
  match s.view.entry p with
  | some _ => s.updView fun v => v.change p fun e => { e with lane := some r, lastHeard := s.now }
  | none =>
    match makeRoom s.ownKey s.view.entries with
    | some es =>
      s.updView fun v => { v with entries := es ++ [{ station := p, lastHeard := s.now, demand := none, lane := some r }] }
    | none => (s.updView fun v => { v with full := s.after Config.refusalAge }).contest n.lane

/-- A LANE notice of a peer as VIEW takes it (R28). -/
def State.viewLane (s : State) (p : Nat) (n : LanePayload) : State :=
  if !s.conf.lanes.contains n.lane then s.updView fun v => v.change p fun e => { e with lane := none }
  else if n.action = 2 then
    s.updView fun v => v.change p fun e =>
      { e with lastHeard := s.now,
               lane := match e.lane with
                 | some r => if r.lane = n.lane then none else some r
                 | none => none }
  else s.takeLaneRecord p n

/-- A RELEASE of station 0 as VIEW takes it (R29). -/
def State.viewRelease (s : State) (lane : Nat) : State :=
  if s.conf.lanes.contains lane then
    s.updView fun v =>
      { v with contested := v.contested.filter fun m => m.lane != lane,
               entries := v.entries.map fun e =>
                 match e.lane with
                 | some r => if r.lane = lane then { e with lane := none } else e
                 | none => e }
  else s

/-- A LANE notice, by VIEW and then by DEPART (R28 to R30, R152). -/
def State.takeLane (s : State) (sender : Nat) (n : LanePayload) : State :=
  if sender = 0 then
    if n.action = 2 then
      let t := s.viewRelease n.lane
      let t := if s.view.entries.any fun e => match e.lane with
          | some r => r.lane == n.lane && s.conf.lanes.contains n.lane
          | none => false
        then t.lanesLeft [n.lane] else t
      let t := if s.isContested n.lane && s.conf.lanes.contains n.lane then t.markLeft n.lane else t
      t.forcedRelease n.lane
    else s
  else
    let t := s.viewLane sender n
    let t := match s.view.laneOf sender with
      | some l => if t.view.laneOf sender = some l then t else t.lanesLeft [l]
      | none => t
    if n.action = 2 then t else t.laneHeard n.lane (n.action == 1) n.inTransit n.key sender

/-- A demand record ages out (R31). -/
def State.ageDemand (s : State) (p : Nat) : State := s.updView fun v => v.change p fun e => { e with demand := none }

/-- A lane record ages out and DEPART is told (R31, R30). -/
def State.ageLane (s : State) (p lane : Nat) : State :=
  (s.updView fun v => v.change p fun e => { e with lane := none }).lanesLeft [lane]

/-- An entry with no record is removed (R32). -/
def State.removeEntry (s : State) (p : Nat) : State :=
  s.updView fun v => { v with entries := v.entries.filter (·.station != p) }

/-- A peer's entry has neither record and was last heard 180 s ago (R32). -/
def State.entryOld (s : State) (p : Nat) : Bool :=
  match s.view.entry p with
  | some e => e.demand.isNone && e.lane.isNone && decide (e.lastHeard + Config.entryAge ≤ s.now)
  | none => false

/-- The entry goes with its last record where its 180 s have passed already (R32). -/
def State.dropOldEntry (s : State) (p : Nat) : State := if s.entryOld p then s.removeEntry p else s

/-- A query placed in the answer queue, or dropped (R37). -/
def State.takeQuery (s : State) (sender kind index : Nat) : State :=
  match askedKind kind with
  | some k =>
    if s.line.answers.length < Config.answerQueue then
      s.updLine fun l =>
        { l with answers := l.answers ++ [{ asker := sender, kind := k, index := if k = .faultRecord then index else 0 }] }
    else s
  | none => s

/-- An answer that is deferred (R40). -/
def State.deferred (s : State) (a : Answer) : Bool :=
  (a.kind == .faultSummary || a.kind == .faultRecord) && s.faults.busy

/-- The answer series in progress; none while its entry, the head of the queue, is deferred: its content is taken anew
after the read (R40, R39). -/
def State.seriesKept (s : State) : Option (List (List Byte)) :=
  if s.line.answers.head?.any s.deferred then none else s.line.answerSeries

end Sys2Proof.Machine
end

