-- ==== Sys2Proof/Machine/Coach.lean ====
section
/-! DEFINITION. LINK over its neighbours: identification, exchanges and their ends, plug insertion and removal (R84, R85, R89 to R92, R97). -/

namespace Sys2Proof.Machine

/-! ### Identification (R85) -/

/-- The content of an OK response to IDENTIFY, none where it is not acceptable. -/
def identity (c : List Byte) : Option Coach :=
  let id := word24 c 0
  let cls := byteAt c 3
  if 1 ≤ id ∧ id ≤ 999999 ∧ cls ≤ 7 then
    some { id := id, cls := cls, heaterMax := min (byteAt c 4) 6, lampGroups := min (byteAt c 5) 16 }
  else none

/-- Identification completes: FAULTS, PLANS, then HEAT, LAMP and the reader, then the class in force (R85). -/
def State.identifiedAs (s : State) (c : Coach) : State :=
  let first := !s.link.identified
  let t := s.updLink fun l =>
    { l with coach := some c, failures := 0, wakeDue := none, state := .up, identified := true }
  let t := t.updFaults fun f => f.identified c.id
  let t := t.matchCoach
  let t := (t.heatIdentified c.id c.heaterMax first).lampIdentified
  (t.beginRead .identification).selectClass

/-! ### Exchanges (R90 to R92) -/

/-- The failure count settled while the link is UP (R94). -/
def settleFailures (l : Link) (e : Ending) : Link :=
  if l.state = .up then
    match e with
    | .ok _ | .refused _ => { l with failures := 0 }
    | .failed _ => { l with failures := min (l.failures + 1) 3 }
    | .aborted => l
  else l

/-- An outcome of IDENTIFY in WAKING (R84). -/
def State.identifyEnded (s : State) (e : Ending) : State :=
  match e with
  | .ok c =>
    match identity c with
    | some x => s.identifiedAs x
    | none => s
  | .refused _ | .failed _ => s.updLink fun l => { l with wakeDue := s.after Config.wakeWait }
  | .aborted => s

/-- The exchange in flight ends (R92): failure count, delivery, then loss of the coach or HALTED (R94, R95). -/
def State.endExchange (s : State) (x : Exchange) (e : Ending) : State :=
  let t := s.updLink fun l => { settleFailures l e with exchange := none, lastEnd := some s.now }
  let told : Ending := if x.withdrawn then .aborted else e
  let t := match x.req.job with
    | .ident => if s.link.state = .waking then t.identifyEnded told else t
    | .heat | .lamp | .fault => t.deliver x.req x.withdrawn told
  if s.link.state = .halting then t.linkHalted
  else if t.link.state = .up ∧ Config.lostAfter ≤ t.link.failures then t.linkLost
  else t

/-- A failed try (R91): a retry is waited for, or the exchange ends FAILED. The gap counts from now, where the try has failed
by a response heard in the gap before its retry too (log entry 11). -/
def State.failTry (s : State) (x : Exchange) (c : Cause) : State :=
  if x.tries < (s.profileCfg x.profile).retries + 1 then
    s.updLink fun l =>
      { l with exchange := some { x with timeoutAt := none, cause := some c }, lastEnd := some s.now }
  else s.endExchange { x with cause := some c } (.failed c)

/-- A response judged for the exchange in flight (R90); an IDENTIFY content that is not acceptable is a failed try (R85). -/
def State.answer (s : State) (x : Exchange) (parityGood : Bool) (frame : List Byte) : State :=
  match judgeResponse x.req.kind x.number parityGood frame with
  | .incomplete => s
  | .failed c => s.failTry x c
  | .refused code => s.endExchange x (.refused code)
  | .accepted c =>
    if x.req.kind = .identify ∧ identity c = none then s.failTry x .notAcceptable else s.endExchange x (.ok c)

/-- The response timeout has passed without its command having come. -/
def State.overran (s : State) (x : Exchange) : Bool :=
  match x.timeoutAt with
  | some t => decide (t < s.now)
  | none => false

/-- A response heard while an exchange is in flight (R90), before a retry too; one that ends after the response timeout
was not complete when it ran out (log entry 11). -/
def State.heard (s : State) (x : Exchange) (parityGood : Bool) (frame : List Byte) : State :=
  if s.overran x then s.failTry x .timeout else s.answer x parityGood frame

/-- The exchange in flight whose response timeout has run out (R90). -/
def State.timedOut (s : State) : Option Exchange := s.link.exchange.filter fun x => s.expired x.timeoutAt

/-- The exchange in flight that waits for a retry, its gap passed (R91). -/
def State.retryDue (s : State) : Option Exchange :=
  s.link.exchange.filter fun x =>
    x.timeoutAt.isNone && s.expired (s.link.lastEnd.map (· + (s.profileCfg x.profile).gap))

/-- A failed try is sent again: the same frame, with its exchange number (R91). -/
def State.retryTry (s : State) (x : Exchange) : State :=
  let p := s.profileCfg x.profile
  s.updLink fun l =>
    { l with exchange := some { x with tries := x.tries + 1, timeoutAt := s.after (requestTime p + p.timeout) } }

/-- Wake due (R84, R94). -/
def State.wakeNow (s : State) : State :=
  if s.level .plugInserted then
    match s.link.state with
    | .down => s.wake
    | .waking => (s.updLink fun l => { l with wakeDue := none }).identify
    | .up | .halting | .halted => s
  else s

/-! ### The plug (R84, R97) -/

/-- PLUG INSERTED has become active (R84). -/
def State.plugIn (s : State) : State :=
  let t := s.updLink fun l => { l with identified := false }
  if s.link.state = .down then t.wake else t

/-- PLUG INSERTED has become inactive (R97): every request ABORTED, the coach forgotten, the neighbours told. The removal is
the end of the last try of the exchange it cuts (log entry 57). -/
def State.plugOut (s : State) : State :=
  let t := s.updLink fun l =>
    { l with exchange := none, state := .down, lastEnd := if l.exchange.isSome then some s.now else l.lastEnd }
  let t := match s.link.exchange with
    | some x => t.deliver x.req x.withdrawn .aborted
    | none => t
  let t := t.purge
  let t := t.linkDown.updLink fun l =>
    { l with coach := none, wakeDue := none, resume := false, failures := 0 }
  let t := t.updStart fun x => { x with wakeAfterHalt := false }
  let t := ((t.heatUnplugged).lampUnplugged).readerUnplugged
  (if t.inPhase .wrongCoach then t.matchCoach else t).departUnplugged

end Sys2Proof.Machine
end

