-- ==== Sys2Proof/Machine/Settle.lean ====
section
/-! DEFINITION. The conditions blocks keep under watch, judged until none calls for anything (log entry 7), and what closes every command: summary, STATUS, signal. -/

namespace Sys2Proof.Machine

/-! ### The DEMAND slot (R78 to R80) -/

/-- A field of the announced content has moved as R79 names. -/
def demandMoved (now slot : DemandContent) : Bool :=
  now.requested != slot.requested || now.stagesOn != slot.stagesOn || now.drawing != slot.drawing ||
    now.stageSize != slot.stageSize || decide (2 ≤ (now.slack - slot.slack).natAbs)

/-- The announcement is to be written, withdrawn or re-written, as its content stands at that moment (R79, log entry 44). -/
def State.demandDue (s : State) : Bool :=
  if s.ownRequest = 0 then s.share.announced
  else !s.share.announced ||
    (match s.line.demand.content with
     | some d => demandMoved s.demandContent d
     | none => true)

/-- Announced content written, with its refresh (R78, R79). -/
def State.announce (s : State) : State :=
  s.writeDemand.updShare fun x => { x with announced := true, refresh := s.after Config.demandRefresh }

/-- R78 to R80 by the own request. -/
def State.announceDemand (s : State) : State :=
  if s.ownRequest = 0 then s.withdrawDemand else s.announce

/-! ### One rule at a time -/

/-- The grant in force is not the one R73 gives (R74, log entry 8). -/
def State.grantDue (s : State) : Bool :=
  s.share.grant != s.computedGrant && (decide (s.share.rounds < Config.grantRounds) || decide (s.ownRequest < s.share.grant))

/-- HEATER ENABLE is to be placed (R48). -/
def State.enableDue (s : State) : Bool :=
  s.heat.state.wants && !s.heat.enableHeld && !s.heatHolds .heaterEnable && s.linkUp

/-- The head returned to a phase that takes its held change (R9). -/
def State.heldDue (s : State) : Bool :=
  !s.phaseIs Phase.underWay && (s.head.bind Plan.held).isSome

/-- DEPART's and PLANS' conditions: line loss, hold conditions, held change, link UP, HALTED, readiness. -/
def State.departRule (s : State) : Option State :=
  match s.faults.report with
  | some b => some ((s.updFaults fun f => { f with report := none }).finalReport b)
  | none =>
    if s.phaseIs Phase.departing && (!s.lineGood || s.line.twin) then some s.fallSilent
    else match s.holdFails with
      | some r => some (s.fallBack (some r))
      | none =>
        if s.heldDue then some s.applyHeld
        else if s.inPhase .requested && s.linkUp then some s.enterFinalRead
        else if s.inPhase .releasing && s.link.state == .halted && s.depart.unlatchWait.isNone then some s.unlatch
        else none

/-- LINK's conditions in HALTED: the wake after RESTART and the resume (R96). -/
def State.linkRule (s : State) : Option State :=
  if s.link.state = .halted ∧ s.start.wakeAfterHalt = true then
    some (if s.level .plugInserted then s.wake else s.linkDown.updStart fun x => { x with wakeAfterHalt := false })
  else if s.link.state = .halted ∧ s.link.resume = true ∧ s.level .plugLatched = true then some s.wake
  else none

/-- Readiness (R136), the pending re-run (R115) and the start of the lamp check (R101). -/
def State.readyRule (s : State) : Option State :=
  if s.inPhase .preparing && s.readyEntry then some (s.setPhase .ready)
  else if s.inPhase .ready && !s.readyStay then some (s.setPhase .preparing)
  else if s.lamp.recheck && s.phaseIs Phase.matched then some s.lampRerun
  else if s.lampDue then some s.lampStart
  else none

/-- HEAT's and SHARE's conditions; DEMAND is judged before each computation, with the fields of the fall or change that called
for it, and after each, before the next round of the grant (R79, 5.8 rows 1 and 2, log entry 44). -/
def State.heatRule (s : State) : Option State :=
  if s.heat.state = .off ∧ s.heatAllowed = true then some s.heatSchedule
  else if s.heatBarred then some (s.heatLeave .off)
  else if s.demandDue then some s.announceDemand
  else if s.heat.compute then some s.compute
  else if s.grantDue then some s.regrant
  else if s.enableDue then some (s.heatPlace .heaterEnable)
  else if s.drawDue then some s.heatDraw
  else if s.riseDue then some s.riseOne
  else if s.heat.waiting.isSome && s.lamp.window.isNone then
    some (if s.waitedRise then s.riseOne else s.updHeat fun h => { h with waiting := none })
  else none

/-- The first condition that calls for something, in the order of log entry 7. -/
def stepRule (s : State) : Option State :=
  match s.departRule with
  | some t => some t
  | none =>
    match s.linkRule with
    | some t => some t
    | none =>
      match s.readyRule with
      | some t => some t
      | none => s.heatRule

/-- Conditions judged until none calls for anything; the fuel bounds it (log entry 7). -/
def settle : Nat → State → State
  | 0, s => s
  | n + 1, s =>
    match stepRule s with
    | some t => settle n t
    | none => s

/-! ### The close of a command -/

/-- A recomputation of the grant is counted anew (log entry 8). -/
def State.fresh (s : State) : State := s.updShare fun x => { x with rounds := 0 }

/-- FAULT SUMMARY on a change of its content (R131, log entry 44). -/
def State.summaryClose (s : State) : State := if s.faults.shown = s.faults.summary then s else s.writeSummary

/-- STATUS on a change of its content (R168, R16, log entry 44). -/
def State.statusClose (s : State) : State :=
  if s.line.status.content = some s.statusContent then s else s.writeStatus

/-- The signal pattern; a new pattern begins now (R162). -/
def State.signalClose (s : State) : State :=
  if s.bay.signal = s.signalPattern then s
  else s.updBay fun b => { b with signal := s.signalPattern, signalSince := s.now }

/-- The answer series of a deferred entry ends (R40), and the verdict is noted (R138). -/
def State.noteClose (s : State) : State :=
  (s.updLine fun l => { l with answerSeries := s.seriesKept }).updDepart fun d => { d with verdictSeen := s.verdict }

/-- What closes every command. -/
def finish (s : State) : State :=
  let t := s.fresh.noteClose
  if t.running then t.summaryClose.statusClose.signalClose else t.signalClose

/-- The watched conditions, in the station states in which the blocks work; each judging counts its grant rounds anew
(R74, log entry 8). -/
def settled (s : State) : State := if s.running then (settle Config.settleFuel s.fresh).fresh else s

/-- A command's outcome from its own effect. -/
def conclude (s : State) : Host.Outcome State Fault Refusal := .next (finish (settled s))

end Sys2Proof.Machine
end

