-- ==== Sys2Proof/Machine/Line.lean ====
section
/-! DEFINITION. LINE: the counter, presentation, outcomes, reception and dispatch (R165 to R175, R183). -/

namespace Sys2Proof.Machine

/-! ### The line health counter (R173 to R175, R163) -/

/-- The counter moved: the line state is selected anew, and entry to MUTED or DETACHED from ACTIVE or WARNED sets the
line-trouble latch (R173); entry to DETACHED sets the recovery run to 0 (R175). -/
def State.setCounter (s : State) (n : Nat) : State :=
  let was := s.line'
  let is := lineState n
  let t := s.updLine fun l => { l with counter := n, recovery := if is = .detached ∧ was ≠ .detached then 0 else l.recovery }
  if (was = .active ∨ was = .warned) ∧ (is = .muted ∨ is = .detached) then t.updBay fun b => { b with trouble := true } else t

/-- A count raised, not above 255. -/
def State.counterUp (s : State) (n : Nat) : State := s.setCounter (min (s.line.counter + n) 255)

/-- A count lowered by one, not below 0. -/
def State.counterDown (s : State) : State := s.setCounter (s.line.counter - 1)

/-- A valid notice counted (R174, R175). -/
def State.countGood (s : State) : State :=
  if s.line' = .detached then
    if s.line.recovery + 1 < Config.recoveryRun then s.updLine fun l => { l with recovery := l.recovery + 1 }
    else (s.updLine fun l => { l with recovery := 0 }).setCounter Config.recovered
  else s.counterDown

/-- The series in progress, of which no part is in transmission, start again at part 0 (R183). -/
def Line.withdrawSeries (l : Line) : Line := { l with statusSeries := none, answerSeries := none }

/-- An item presented is withdrawn as if arbitration had been lost (R169, R180), unless it has won already and is sent to
its end. The manual leaves to the line's timing whether it has: a free value (log entry 9). -/
def State.withdrawItem (s : State) : State :=
  let t := s.updLine Line.withdrawSeries
  match s.line.tx with
  | none => t
  | some x =>
    if x.won then t
    else
      let u : State := { t with freeCount := t.freeCount + 1 }
      u.updLine fun l => { l with tx := if Config.wonArbitration s.freeCount then some { x with won := true } else none }

/-- The station may transmit no longer: the item presented is withdrawn (R169). -/
def State.barredSince (s was : State) : State :=
  if was.mayTransmit && !s.mayTransmit then s.withdrawItem else s

/-- A receive fault counted (R171, R175). -/
def State.countFault (s : State) : State :=
  let t := (s.counterUp 1).updLine fun l => { l with recovery := if s.line' = .detached then 0 else l.recovery }
  t.barredSince s

/-! ### Presentation (R169, R183) -/

/-- A slot that is a candidate. -/
def Slot.waits {α : Type} (x : Slot α) : Bool := x.state == .pending && x.content.isSome

/-- The head of the answer queue where it is offered (R39, R40). -/
def State.offered (s : State) : Option Answer :=
  match s.line.answers with
  | a :: _ => if s.deferred a then none else some a
  | [] => none

/-- The candidate with the lowest kind; in JOINING the HELLO slot alone (R169). -/
def State.candidate (s : State) : Option TxItem :=
  let hello := if s.line.hello.waits then some TxItem.hello else none
  if s.start.station = .joining then hello
  else
    match (if s.line.lane.waits then s.line.lane.content else none) with
    | some c => some (.lane c)
    | none =>
      match (if s.line.demand.waits then s.line.demand.content else none) with
      | some c => some (.demand c)
      | none =>
        match s.offered with
        | some a => some (.answer a)
        | none =>
          if s.line.status.waits then some .status
          else if s.line.summary.waits then some .summary
          else hello

/-- The payloads of an item taken now, one for each part (R183). -/
def State.contents (s : State) (i : TxItem) : List (List Byte) :=
  match i with
  | .lane c => [c.payload]
  | .demand c => [c.payload]
  | .answer a => s.answerParts a
  | .status => (s.line.status.content.map StatusContent.pages).getD []
  | .summary => [(s.line.summary.content.map Summary.payload).getD []]
  | .hello => [(s.line.hello.content.map HelloContent.payload).getD []]

/-- The parts still to be sent of a series in progress. -/
def Line.series (l : Line) (i : TxItem) : Option (List (List Byte)) :=
  match i with
  | .status => l.statusSeries
  | .answer _ => l.answerSeries
  | .lane _ | .demand _ | .summary | .hello => none

/-- A series in progress set for an item. -/
def Line.setSeries (l : Line) (i : TxItem) (x : Option (List (List Byte))) : Line :=
  match i with
  | .status => { l with statusSeries := x }
  | .answer _ => { l with answerSeries := x }
  | .lane _ | .demand _ | .summary | .hello => l

/-- The slot of an item taken as presented: a later write is told from it (R170). -/
def Line.markPresented (l : Line) (i : TxItem) : Line :=
  match i with
  | .lane _ => { l with lane := l.lane.presented }
  | .demand _ => { l with demand := l.demand.presented }
  | .answer _ => l
  | .status => { l with status := l.status.presented }
  | .summary => { l with summary := l.summary.presented }
  | .hello => { l with hello := l.hello.presented }

/-- An item presented as the notice of R181: part 0 with its content taken now, or the next part of a series (R169, R183). -/
def State.present (s : State) (i : TxItem) : State :=
  let fresh := (s.line.series i).isNone
  match (s.line.series i).getD (s.contents i) with
  | [] => s
  | p :: ps =>
    s.updLine fun l =>
      { (if fresh then l.markPresented i else l) with
        tx := some { item := i, frame := noticeFrame i.kind s.conf.station i.target p, rest := ps, orphan := false,
                     dropped := false, won := false } }

/-! ### Outcomes (R170) -/

/-- LINE reports the DEMAND item sent (R67, R80). -/
def State.demandReported (s : State) : State :=
  let t := s.updLine fun l => { l with demand := l.demand.sent }
  if t.line.demand.state = .sent ∧ s.share.announced = false then t.emptyDemand
  else if t.line.demand.state = .empty then t
  else t.updShare fun x => { x with demandSent := true }

/-- An ANSWER to a STATUS query of station 0 has been sent: BAY clears the line-trouble latch (R41). -/
def State.answerTold (s : State) (a : Answer) : State :=
  if a.kind = .status ∧ a.asker = 0 then s.updBay fun b => { b with trouble := false } else s

/-- An ANSWER has been sent: its entry leaves, and VIEW is told (R39, R41). -/
def State.answerReported (s : State) (a : Answer) : State :=
  (s.updLine fun l => { l with answers := l.answers.tail, answerSeries := none }).answerTold a

/-- HELLO has been sent: OPERATING (R178). -/
def State.helloReported (s : State) : State :=
  let t := s.updLine fun l => { l with hello := l.hello.sent }
  if s.start.station = .joining then t.updStart fun x => { x with station := .operating } else t

/-- An item sent, with its slot settled and its owner told (R170). -/
def State.itemSent (s : State) (x : Tx) : State :=
  match x.item with
  | .lane c => (s.updLine fun l => { l with lane := l.lane.sent }).laneSent c x.dropped
  | .demand _ => s.demandReported
  | .answer a => s.answerReported a
  | .status => s.updLine fun l => { l with status := l.status.sent, statusSeries := none }
  | .summary => s.updLine fun l => { l with summary := l.summary.sent }
  | .hello => s.helloReported

/-- The report of an item that had won before RESTART emptied its queue entry or slot: the last part of an ANSWER is told to
VIEW as ever (R176, R170, R41), a HELLO is not acted on (R180). -/
def State.orphanSent (s : State) (x : Tx) : State :=
  match x.item with
  | .answer a => if x.rest.isEmpty then s.answerTold a else s
  | .lane _ | .demand _ | .status | .summary | .hello => s

/-- Outcome "sent": the counter, then the next part or the report; a series that may not go on starts again (R183). The
parts left keep the content taken at part 0, although a fault read may have run its course during this part (log entry
40). -/
def State.sent (s : State) (x : Tx) : State :=
  let t := (s.updLine fun l => { l with tx := none }).counterDown
  if x.orphan then t.orphanSent x
  else if x.rest.isEmpty then t.itemSent x
  else t.updLine fun l => l.setSeries x.item (if t.mayTransmit then some x.rest else none)

/-- A series that has not come to its end starts again at part 0 (R183). -/
def State.restartSeries (s : State) (x : Tx) : State :=
  s.updLine fun l => { (l.setSeries x.item none) with tx := none }

/-- A single-try claim that failed: not presented again, the slot emptied unless written since (R170, log entry 10). -/
def State.singleTryFailed (s : State) (c : LaneContent) : State :=
  if s.line.lane.written then s else s.emptyLane.claimFailed c

/-- Outcome "transmission failure". -/
def State.failed (s : State) (x : Tx) : State :=
  let t := (if x.orphan then s.updLine fun l => { l with tx := none } else s.restartSeries x).counterUp 8
  if x.orphan then t
  else match x.item with
    | .lane c => if c.singleTry then t.singleTryFailed c else t
    | .demand _ | .answer _ | .status | .summary | .hello => t

/-! ### Reception (R165, R171, R172, R182) -/

/-- A valid notice of the station's own number sets the twin flag (R172), one that R182 drops too (log entry 59). -/
def State.heardTwin (s : State) (sender : Nat) : State :=
  if sender = s.conf.station then s.updLine fun l => { l with twin := true } else s

/-- Which kinds are dispatched from a sender (R165): `true` where the table names a block. -/
def dispatched (kind sender : Nat) (payload : List Byte) : Bool :=
  match kind with
  | 0 | 2 | 4 | 5 | 6 => sender == 0
  | 1 => sender != 0 || (lanePayload payload).action == 2
  | 3 | 11 => sender != 0
  | 7 => true
  | _ => false

/-- The notice reaches a block: target, sender, kind and ranges (R165, R182), line state before it was counted. -/
def State.reaches (s : State) (kind sender target : Nat) (payload : List Byte) : Bool :=
  s.line' != .detached && sender != s.conf.station &&
    (target == s.conf.station || (target == 127 && kind != 4)) && dispatched kind sender payload &&
    !payloadDropped kind payload

/-- A notice passes the checks of R171 on sender and length. -/
def noticeValid (kind : Nat) (sender : Byte) (payload : List Byte) : Bool :=
  decide (sender.toNat ≤ 120) && lengthGood kind payload

/-- A notice heard to its end: a receive fault, or counted, the twin told (of a dropped notice too: log entry 59), and handed
to its block where it reaches one.
What the count and the twin flag call for comes before what the block does. -/
def State.receive (s : State) (kind : Nat) (sender target : Byte) (payload : List Byte) (take : State → State) : State :=
  if !s.running then s
  else if !noticeValid kind sender payload then s.countFault
  else
    let t := settled ((s.countGood.heardTwin sender.toNat).barredSince s)
    if s.reaches kind sender.toNat target.toNat payload then take t else t

end Sys2Proof.Machine
end

