-- ==== Sys2Proof/Machine/BayCommands.lean ====
section
/-! DEFINITION. BAY's commands: raw levels, debounced changes, proving, latch, probe (R154 to R161). -/

namespace Sys2Proof.Machine

/-- A raw level changes: a level that differs from the debounced one is counted, its return ends the count (R154). -/
def State.rawChange (s : State) (i : Input) (v : Bool) : State :=
  s.updBay fun b =>
    b.setPin i { b.pin i with
      raw := v,
      due := if b.debouncing && (v != (b.pin i).level) then s.after (s.debounceTime i) else none }

/-- RAW_INPUT_CHANGE (R154). -/
def execRawInputChange (input : Input) (level : Bool) (s : State) : Host.Outcome State Fault Refusal :=
  if (s.bay.pin input).raw = level then .next s else .next (s.rawChange input level)

/-- The raw level has held the other value for the debounce time (R154). -/
def State.changeDue (s : State) (i : Input) : Bool :=
  s.expired (s.bay.pin i).due && ((s.bay.pin i).raw != (s.bay.pin i).level)

/-- The debounced level takes the raw one. -/
def State.takeLevel (s : State) (i : Input) : State :=
  s.updBay fun b => b.setPin i { b.pin i with level := (b.pin i).raw, due := none }

/-- HEAT's watch set judged on a change, its event delivered (R155, R60). -/
def State.heatWatched (s : State) (i : Input) : State :=
  let (w, event) := s.judgeWatch s.bay.heatWatch i
  let t := s.updBay fun b => { b with heatWatch := w }
  if event then t.heatDisturbed else t

/-- LAMP's watch set judged on a change, its event delivered (R155, R113). -/
def State.lampWatched (s : State) (i : Input) : State :=
  let (w, event) := s.judgeWatch s.bay.lampWatch i
  let t := s.updBay fun b => { b with lampWatch := w }
  if event then t.lampUnplugged else t

/-- DEPART's watch set judged on a change, its event delivered (R155, R144, R145). -/
def State.departWatched (s : State) (i : Input) : State :=
  let (w, event) := s.judgeWatch s.bay.departWatch i
  let t := s.updBay fun b => { b with departWatch := w }
  if event then t.departDisturbed else t

/-- FAULTS takes COACH PRESENT (R131). -/
def State.summaryPresence (s : State) : State :=
  if s.level .coachPresent then s.writeSummary else s.updFaults fun f => { f with refresh := none }

/-- A debounced change of COACH PRESENT as the blocks take it (R154, R150). -/
def State.coachChanged (s : State) : State :=
  let t := ((s.heatWatched .coachPresent).departWatched .coachPresent).summaryPresence
  if t.level .coachPresent then t else t.coachLeft

/-- COACH_PRESENT_CHANGE (R150). -/
def execCoachPresentChange (s : State) : Host.Outcome State Fault Refusal :=
  if s.changeDue .coachPresent then
    (if s.running then conclude (s.takeLevel .coachPresent).coachChanged else .next (s.takeLevel .coachPresent))
  else .next s

/-- A debounced change of PLUG INSERTED as the blocks take it (R154, R97, R160). -/
def State.plugChanged (s : State) : State :=
  let t := s.lampWatched .plugInserted
  let t := if t.level .plugInserted then t.plugIn else t.plugOut
  t.latchInserted

/-- PLUG_INSERTED_CHANGE (R97); in CONFIG FAULT it serves the latch alone. -/
def execPlugInsertedChange (s : State) : Host.Outcome State Fault Refusal :=
  if s.changeDue .plugInserted then
    (if s.running then conclude (s.takeLevel .plugInserted).plugChanged
     else .next (s.takeLevel .plugInserted).latchInserted)
  else .next s

/-- A debounced change of PLUG LATCHED as the blocks take it (R154, R161). -/
def State.latchChanged (s : State) : State :=
  ((s.heatWatched .plugLatched).departWatched .plugLatched).latchContact

/-- PLUG_LATCHED_CHANGE (R161). -/
def execPlugLatchedChange (s : State) : Host.Outcome State Fault Refusal :=
  if s.changeDue .plugLatched then
    (if s.running then conclude (s.takeLevel .plugLatched).latchChanged else .next (s.takeLevel .plugLatched))
  else .next s

/-- A debounced change of HEATER PROVING: judged at once outside a window; a match ends a failure in any case (R159). -/
def State.provingChanged (s : State) : State :=
  if s.bay.provingWindow.isNone then s.judgeProving
  else if s.provingMatches s.heat.count then s.updBay fun b => { b with provingFailed := false }
  else s

/-- HEATER_PROVING_CHANGE (R159). -/
def execHeaterProvingChange (s : State) : Host.Outcome State Fault Refusal :=
  if s.changeDue .heaterProving then
    (if s.running then conclude (s.takeLevel .heaterProving).provingChanged else .next (s.takeLevel .heaterProving))
  else .next s

/-- PROVING_WINDOW_END (R159). -/
def execProvingWindowEnd (s : State) : Host.Outcome State Fault Refusal :=
  if s.running ∧ s.expired s.bay.provingWindow = true then
    conclude (s.updBay fun b => { b with provingWindow := none }).judgeProving
  else .next s

/-- The second of R160 is over. -/
def State.latchDelayOver (s : State) : State :=
  if s.bay.latchMode = .automatic ∧ s.level .plugInserted = true then s.closeLatch
  else s.updBay fun b => { b with closeAt := none }

/-- LATCH_CLOSE_DELAY_END (R160). -/
def execLatchCloseDelayEnd (s : State) : Host.Outcome State Fault Refusal :=
  if s.bay.debouncing ∧ s.expired s.bay.closeAt = true then
    (if s.running then conclude s.latchDelayOver else .next s.latchDelayOver)
  else .next s

/-- The latch check runs out (R161). -/
def State.latchCheckOver (s : State) : State :=
  let t := s.updBay fun b => { b with latchCheck := none }
  if s.level .plugLatched then t else t.writeFault bay01 .advisory

/-- LATCH_CHECK_TIMEOUT (R161). -/
def execLatchCheckTimeout (s : State) : Host.Outcome State Fault Refusal :=
  if s.running ∧ s.expired s.bay.latchCheck = true then conclude s.latchCheckOver else .next s

/-- A probe sample as BAY holds it (R156). -/
def probeOf (sample : Option Int) : Probe :=
  match sample with
  | some t => if -100 ≤ t ∧ t ≤ 120 then .inRange t else .outOfRange
  | none => .outOfRange

/-- A probe sample taken; the first out of range, and each that follows one in range, writes BAY-03 (R156). -/
def State.takeProbe (s : State) (sample : Option Int) : State :=
  let t := s.updBay fun b => { b with probe := probeOf sample }
  if probeOf sample = .outOfRange ∧ s.bay.probe ≠ .outOfRange then t.writeFault bay03 .info else t

/-- PROBE_SAMPLE (R156). -/
def execProbeSample (sample : Option Int) (s : State) : Host.Outcome State Fault Refusal :=
  if s.running then conclude (s.takeProbe sample) else .next s

end Sys2Proof.Machine
end

