-- ==== Sys2Proof/Machine/DepartCommands.lean ====
section
/-! DEFINITION. DEPART's commands: the push-button and its timers (R137 to R146, R154). -/

namespace Sys2Proof.Machine

/-- DEPART_REQUEST_PRESS (R137): the press edge of the debounced level. -/
def execDepartRequestPress (s : State) : Host.Outcome State Fault Refusal :=
  if s.changeDue .departRequest ∧ s.bay.request.raw = true then
    (if s.running then conclude (s.takeLevel .departRequest).pressed else .next (s.takeLevel .departRequest))
  else .next s

/-- DEPART_REQUEST_RELEASE (R154): not passed on. -/
def execDepartRequestRelease (s : State) : Host.Outcome State Fault Refusal :=
  if s.changeDue .departRequest ∧ s.bay.request.raw = false then .next (s.takeLevel .departRequest) else .next s

/-- CLAIM_RETRY_DELAY_END (R141). -/
def execClaimRetryDelayEnd (s : State) : Host.Outcome State Fault Refusal :=
  if s.running ∧ s.depart.own = .listening ∧ s.expired s.depart.claimRetry = true then
    conclude (s.updDepart fun d => { d with claimRetry := none }).judgeAgain
  else .next s

/-- HOLD_OFF_EXPIRY (R142). -/
def execHoldOffExpiry (s : State) : Host.Outcome State Fault Refusal :=
  if s.running ∧ s.depart.own = .claiming ∧ s.expired s.depart.holdOff = true then conclude s.laneWon else .next s

/-- HELD_REFRESH (R143). -/
def execHeldRefresh (s : State) : Host.Outcome State Fault Refusal :=
  if s.running ∧ s.depart.own = .held ∧ s.expired s.depart.heldRefresh = true then conclude s.writeHeld else .next s

/-- UNLATCH_WAIT_EXPIRY (R144). -/
def execUnlatchWaitExpiry (s : State) : Host.Outcome State Fault Refusal :=
  if s.running ∧ s.inPhase .releasing = true ∧ s.expired s.depart.unlatchWait = true then
    conclude ((s.writeFault bay01 .advisory).fallBack none)
  else .next s

/-- CLEARANCE_TIMEOUT (R145). -/
def execClearanceTimeout (s : State) : Host.Outcome State Fault Refusal :=
  if s.running ∧ s.inPhase .cleared = true ∧ s.expired s.depart.clearance = true then conclude (s.fallBack none)
  else .next s

/-- LANE_TRANSIT_EXPIRY (R146). -/
def execLaneTransitExpiry (s : State) : Host.Outcome State Fault Refusal :=
  if s.running ∧ s.inPhase .gone = true ∧ s.expired s.depart.transit = true then conclude s.transitOver else .next s

/-- REFUSAL_INDICATION_END (R137). -/
def execRefusalIndicationEnd (s : State) : Host.Outcome State Fault Refusal :=
  if s.running ∧ s.expired s.depart.refusal = true then conclude (s.updDepart fun d => { d with refusal := none })
  else .next s

end Sys2Proof.Machine
end

