-- ==== Sys2Proof/Machine/HeatCommands.lean ====
section
/-! DEFINITION. HEAT's and SHARE's commands: SUPPLY, DEMAND refresh, polling, rises, BLIND (R44, R55, R58, R69, R79). -/

namespace Sys2Proof.Machine

/-- A SUPPLY taken (R69). -/
def State.takeSupply (s : State) (p : SupplyPayload) : State :=
  if p.group = 0 ∨ p.group = s.conf.group then
    s.updShare fun x => { x with live := min p.allowance s.conf.allowance }
  else s

/-- SUPPLY_NOTICE (R69). -/
def execSupplyNotice (sender target : Byte) (payload : List Byte) (s : State) : Host.Outcome State Fault Refusal :=
  if s.running then conclude (s.receive 2 sender target payload fun t => t.takeSupply (supplyPayload payload)) else .next s

/-- DEMAND_REFRESH (R79). -/
def execDemandRefresh (s : State) : Host.Outcome State Fault Refusal :=
  if s.running ∧ s.share.announced = true ∧ s.expired s.share.refresh = true then conclude s.announce else .next s

/-- CABIN_POLL_DUE (R44). -/
def execCabinPollDue (s : State) : Host.Outcome State Fault Refusal :=
  if s.running ∧ s.linkUp = true ∧ s.expired s.heat.pollDue = true then
    conclude (s.pollCabin.updHeat fun h => { h with pollDue := s.heat.pollDue.map (· + Config.cabinPoll) })
  else .next s

/-- STAGE_RISE (R55). -/
def execStageRise (s : State) : Host.Outcome State Fault Refusal :=
  if s.running ∧ s.riseDue = true then conclude s.riseOne else .next s

/-- The cabin reading has reached 120 s of age (R44, R136). -/
def State.readingAged (s : State) : Bool :=
  match s.heat.reading with
  | some r => decide (r.time + Config.readingAge ≤ s.now)
  | none => false

/-- BLIND_ENTRY (R58): 120 s without a valid reading; in a state that is not drawing the readiness of R136 and the hold
condition of R138 are judged at that moment all the same. -/
def execBlindEntry (s : State) : Host.Outcome State Fault Refusal :=
  if s.running ∧ s.blindDue = true then conclude s.enterBlind
  else if s.running ∧ s.readingAged = true then conclude s
  else .next s

/-- The first part of BLIND is over (R58). -/
def State.blindOver (s : State) : State :=
  (s.updHeat fun h => { h with blindCount := 1, blindEnd := none }).capCount 1

/-- BLIND_TIMEOUT (R58). -/
def execBlindTimeout (s : State) : Host.Outcome State Fault Refusal :=
  if s.running ∧ s.heat.state = .blind ∧ s.expired s.heat.blindEnd = true then conclude s.blindOver else .next s

end Sys2Proof.Machine
end

