-- ==== Sys2Proof/Machine/LampCommands.lean ====
section
/-! DEFINITION. LAMP's window commands (R104, R105). -/

namespace Sys2Proof.Machine

/-- The skip of the open window is over. -/
def Window.skipOver (w : Window) (now : Nat) : Bool := !w.sampling && decide (w.opened + w.skip ≤ now)

/-- WINDOW_SKIP_END (R104, R105): sampling begins. -/
def execWindowSkipEnd (s : State) : Host.Outcome State Fault Refusal :=
  match s.lamp.window with
  | some w =>
    if s.running ∧ w.skipOver s.now = true then
      conclude (s.updLamp fun l => { l with window := some { w with sampling := true } })
    else .next s
  | none => .next s

/-- BASELINE_WINDOW_CLOSE (R104). -/
def execBaselineWindowClose (samples : List Nat) (s : State) : Host.Outcome State Fault Refusal :=
  if s.running then
    match s.lampTake true samples with
    | (some xs, t) => conclude (t.baselineClosed xs)
    | (none, t) => .next t
  else .next s

/-- GROUP_WINDOW_CLOSE (R105). -/
def execGroupWindowClose (samples : List Nat) (s : State) : Host.Outcome State Fault Refusal :=
  if s.running then
    match s.lampTake false samples with
    | (some xs, t) => conclude (t.groupClosed xs)
    | (none, t) => .next t
  else .next s

end Sys2Proof.Machine
end

