-- ==== Sys2Proof/Machine/LineCommands.lean ====
section
/-! DEFINITION. LINE's own commands: notices not dispatched, receive faults, presentation, outcomes, STATUS refresh (R165 to R171). -/

namespace Sys2Proof.Machine

/-- NOTICE_NOT_DISPATCHED (R165, R174): counted, and the twin flag set by the station's own number; a notice that
would reach a block is no such command (log entry 33). -/
def execNoticeNotDispatched (kind : Nat) (sender target : Byte) (payload : List Byte) (s : State) :
    Host.Outcome State Fault Refusal :=
  if s.running ∧ ¬(s.reaches kind sender.toNat target.toNat payload = true ∧ noticeValid kind sender payload = true) then
    conclude (s.receive kind sender target payload id)
  else .next s

/-- RECEIVE_FAULT (R171). -/
def execReceiveFault (frame : List Byte) (s : State) : Host.Outcome State Fault Refusal :=
  if s.running ∧ frameFaulty frame = true then conclude s.countFault else .next s

/-- PRESENT_ITEM (R169). -/
def execPresentItem (s : State) : Host.Outcome State Fault Refusal :=
  if s.mayTransmit ∧ s.line.tx = none then
    match s.candidate with
    | some i => conclude (s.present i)
    | none => .next s
  else .next s

/-- NOTICE_SENT (R170). -/
def execNoticeSent (s : State) : Host.Outcome State Fault Refusal :=
  match s.line.tx with
  | some x => conclude (s.sent x)
  | none => .next s

/-- ARBITRATION_LOST (R166, R170). -/
def execArbitrationLost (s : State) : Host.Outcome State Fault Refusal :=
  match s.line.tx with
  | some x => conclude (if x.orphan then s.updLine fun l => { l with tx := none } else s.restartSeries x)
  | none => .next s

/-- TRANSMISSION_FAILURE (R170). -/
def execTransmissionFailure (s : State) : Host.Outcome State Fault Refusal :=
  match s.line.tx with
  | some x => conclude ((s.failed x).barredSince s)
  | none => .next s

/-- STATUS_REFRESH (R168). -/
def execStatusRefresh (s : State) : Host.Outcome State Fault Refusal :=
  if s.running ∧ s.expired s.line.statusRefresh = true then conclude s.writeStatus else .next s

end Sys2Proof.Machine
end

