-- ==== Sys2Proof/Machine/LinkCommands.lean ====
section
/-! DEFINITION. LINK's commands: exchanges, responses, timeouts, retries, wakes (R84, R89 to R91). -/

namespace Sys2Proof.Machine

/-- EXCHANGE_START (R89). -/
def execExchangeStart (s : State) : Host.Outcome State Fault Refusal :=
  if s.running ∧ s.exchangeDue = true then conclude s.startExchange else .next s

/-- COACH_RESPONSE (R90): judged while an exchange is in flight, discarded when none is. -/
def execCoachResponse (parityGood : Bool) (frame : List Byte) (s : State) : Host.Outcome State Fault Refusal :=
  match s.link.exchange with
  | some x => if s.running then conclude (s.heard x parityGood frame) else .next s
  | none => .next s

/-- RESPONSE_TIMEOUT (R90). -/
def execResponseTimeout (s : State) : Host.Outcome State Fault Refusal :=
  match s.timedOut with
  | some x => if s.running then conclude (s.failTry x .timeout) else .next s
  | none => .next s

/-- TRY_RETRY (R91). -/
def execTryRetry (s : State) : Host.Outcome State Fault Refusal :=
  match s.retryDue with
  | some x => if s.running then conclude (s.retryTry x) else .next s
  | none => .next s

/-- WAKE_DUE (R84). -/
def execWakeDue (s : State) : Host.Outcome State Fault Refusal :=
  if s.running ∧ s.expired s.link.wakeDue = true then conclude s.wakeNow else .next s

end Sys2Proof.Machine
end

