-- ==== Sys2Proof/Machine/PlanCommands.lean ====
section
/-! DEFINITION. PLAN, FAULT CLEAR and the fault reader's and summary's own times (R4, R122, R129, R131). -/

namespace Sys2Proof.Machine

/-- PLAN_NOTICE (R4). -/
def execPlanNotice (sender target : Byte) (payload : List Byte) (s : State) : Host.Outcome State Fault Refusal :=
  if s.running then conclude (s.receive 5 sender target payload fun t => t.takePlan (planPayload payload)) else .next s

/-- A FAULT CLEAR taken (R129, R115). -/
def State.takeClear (s : State) (p : ClearPayload) : State :=
  let t := s.updFaults fun f => f.clear p.scope p.source p.code
  if p.recheck then t.lampRecheck else t

/-- FAULT_CLEAR_NOTICE (R129). -/
def execFaultClearNotice (sender target : Byte) (payload : List Byte) (s : State) : Host.Outcome State Fault Refusal :=
  if s.running then conclude (s.receive 6 sender target payload fun t => t.takeClear (clearPayload payload)) else .next s

/-- Periodic due is reached (R122). -/
def State.periodicNow (s : State) : State :=
  if s.linkUp && s.level .plugLatched && !s.faults.busy then s.beginRead .periodic
  else s.updFaults fun f => { f with periodicDue := f.periodicDue.map (· + Config.periodic) }

/-- PERIODIC_DUE (R122). -/
def execPeriodicDue (s : State) : Host.Outcome State Fault Refusal :=
  if s.running ∧ s.expired s.faults.periodicDue = true then conclude s.periodicNow else .next s

/-- FAULT_SUMMARY_REFRESH (R131). -/
def execFaultSummaryRefresh (s : State) : Host.Outcome State Fault Refusal :=
  if s.running ∧ s.expired s.faults.refresh = true then conclude s.writeSummary else .next s

end Sys2Proof.Machine
end

