-- ==== Sys2Proof/Machine/StartCommands.lean ====
section
/-! DEFINITION. START and CLOCK: reset, configuration, listen-in, stagger, second events, staleness, TIME, HELLO, RESTART (R17 to R22, R177 to R180). -/

namespace Sys2Proof.Machine

/-! ### Reset and configuration (R177) -/

/-- A pin after reset: its raw level is the outside's (log entry 6). -/
def Pin.afterReset (p : Pin) : Pin := { p with level := false, due := none }

/-- Every block at its reset value; the raw input levels and the queue are the outside's, and the count of free values
used goes on (log entries 6 and 8). -/
def State.powerOn (s : State) : State :=
  { State.reset with
    pending := s.pending, freeCount := s.freeCount,
    bay := { State.reset.bay with
      coach := s.bay.coach.afterReset, inserted := s.bay.inserted.afterReset, latched := s.bay.latched.afterReset,
      request := s.bay.request.afterReset, proving := s.bay.proving.afterReset } }

/-- Power-on or the reset pin (R177). -/
def execPowerOnReset (s : State) : Host.Outcome State Fault Refusal := .next s.powerOn

/-- Debouncing of a pin starts: an active raw level is counted (R154). -/
def State.startPin (s : State) (i : Input) : State :=
  s.updBay fun b => b.setPin i { b.pin i with due := if (b.pin i).raw then s.after (s.debounceTime i) else none }

/-- Debouncing starts for every input (R154). -/
def State.startDebouncing (s : State) : State :=
  ((((((s.updBay fun b => { b with debouncing := true }).startPin .coachPresent).startPin .plugInserted).startPin
    .plugLatched).startPin .departRequest).startPin .heaterProving)

/-- An accepted image: the blocks take their configured values and the station enters LISTEN-IN (R177, R68, R98). -/
def State.accept (s : State) (c : Configuration) : State :=
  let t : State := { s with cfg := some c }
  let t := t.updStart fun x => { x with station := .listenIn, listenIn := s.after Config.listenIn }
  let t := t.updShare fun x => { x with live := c.allowance }
  let t := t.updLink fun l => { l with profile := c.wakeProfile }
  t.startDebouncing

/-- A rejected image: CONFIG FAULT (R177). -/
def State.reject (s : State) : State :=
  (s.updStart fun x => { x with station := .configFault }).startDebouncing

/-- The read of the configuration memory completes (R177, R185). -/
def execConfigReadDone (image : List Byte) (s : State) : Host.Outcome State Fault Refusal :=
  if s.start.station = .readingConfig then
    match acceptImage image with
    | some c => conclude (s.accept c)
    | none => conclude s.reject
  else .next s

/-! ### Listen-in and joining (R178, R179) -/

/-- HELLO with number, group and lane set (R178). -/
def State.helloContent (s : State) : HelloContent :=
  { station := s.conf.station, group := s.conf.group, lanes := s.conf.lanes }

/-- The listen-in has run out with the twin flag clear: JOINING, HELLO written. -/
def State.join (s : State) : State :=
  (s.updStart fun x => { x with station := .joining, listenIn := none }).updLine fun l =>
    { l with hello := l.hello.write s.helloContent }

/-- LISTEN_IN_END (R178). -/
def execListenInEnd (s : State) : Host.Outcome State Fault Refusal :=
  if s.start.station = .listenIn ∧ s.expired s.start.listenIn = true then
    conclude (if s.line.twin then s.updStart fun x => { x with listenIn := none } else s.join)
  else .next s

/-- START orders the live content re-sent (R179, R81, R143). -/
def State.resend (s : State) : State :=
  let t := s.updStart fun x => { x with stagger := none }
  let t := if t.share.announced then t.announce else t
  if t.depart.own = .held then t.writeHeld else t

/-- STAGGER_TIMER_END (R179). -/
def execStaggerTimerEnd (s : State) : Host.Outcome State Fault Refusal :=
  if s.running ∧ s.expired s.start.stagger = true then conclude s.resend else .next s

/-- A HELLO acted on: group or a lane shared (R179). -/
def State.helloShares (s : State) (h : HelloPayload) : Bool :=
  h.group == s.conf.group || s.conf.lanes.contains h.lane1 || s.conf.lanes.contains h.lane2

/-- A HELLO taken (R179). -/
def State.takeHello (s : State) (h : HelloPayload) : State :=
  if s.operating && s.helloShares h && s.start.stagger.isNone then
    s.updStart fun x => { x with stagger := s.after (s.conf.station % 16 * 100) }
  else s

/-- HELLO_NOTICE (R179). -/
def execHelloNotice (sender target : Byte) (payload : List Byte) (s : State) : Host.Outcome State Fault Refusal :=
  if s.running then conclude (s.receive 11 sender target payload fun t => t.takeHello (helloPayload payload)) else .next s

/-! ### RESTART (R180) -/

/-- LAMP's part (R113). -/
def State.lampRestart (s : State) : State := s.lampEnd .idle false

/-- PLANS' part (R16). -/
def State.plansRestart (s : State) : State :=
  if s.head.isSome && !s.inPhase .gone then s.unpinHead false else s

/-- VIEW's and LINE's part: the answer queue and the HELLO slot emptied; an ANSWER or HELLO that has won goes on without them
(R42, R176, R180). -/
def State.lineRestart (s : State) : State :=
  s.updLine fun l =>
    { l with answers := [], answerSeries := none, hello := l.hello.clear,
             tx := l.tx.map fun x => match x.item with
               | .answer _ | .hello => { x with orphan := true }
               | .lane _ | .demand _ | .status | .summary => x }

/-- A RESTART taken (R180); the item presented is withdrawn first, so that no owner takes it as in transmission (R176). -/
def State.restart (s : State) : State :=
  let t := s.withdrawItem.updStart fun x => { x with listenIn := none, stagger := none }
  let t := ((t.heatRestart).departRestart).lampRestart
  let t := (t.plansRestart).lineRestart
  let t := t.linkHalt
  (t.updStart fun x =>
    { x with station := .listenIn, listenIn := s.after Config.listenInRestart, wakeAfterHalt := true }).writeStatus

/-- RESTART_NOTICE (R180). -/
def execRestartNotice (sender target : Byte) (payload : List Byte) (s : State) : Host.Outcome State Fault Refusal :=
  if s.running then conclude (s.receive 4 sender target payload State.restart) else .next s

/-! ### CLOCK (R17 to R22) -/

/-- Station seconds advance to the next whole second (R17, log entries 3 and 4). -/
def Clock.advance (c : Clock) : Clock := { c with seconds := min (c.seconds + 1) Config.maxSeconds, millis := 0 }

/-- Depot time one second on, with the day wrap (R18). -/
def DepotTime.next (t : DepotTime) : DepotTime :=
  if t.second + 1 < 86400 then { t with second := t.second + 1 }
  else { day := (t.day + 1) % 65536, second := 0 }

/-- Depot time advances while SET or STALE (R18). -/
def Clock.advanceDepot (c : Clock) : Clock :=
  if c.state = .unset then c else { c with time := c.time.map DepotTime.next }

/-- The advance has brought the second of day to a multiple of 60 (R19). -/
def Clock.onMinute (c : Clock) : Bool :=
  c.state != .unset &&
    (match c.time with
     | some t => t.second % 60 == 0
     | none => false)

/-- A minute event: PLANS judges the overdue rule, HEAT redoes its computation (R19); LAMP judges its start after it. -/
def State.minuteEvent (s : State) : State := s.evalOverdue.updHeat fun h => { h with compute := true }

/-- A second event (R17 to R19). -/
def State.secondEvent (s : State) : State :=
  let t := s.updClock fun c => c.advance.advanceDepot
  if t.running && t.clock.onMinute then t.minuteEvent else t

/-- SECOND_EVENT (R18). -/
def execSecondEvent (s : State) : Host.Outcome State Fault Refusal := conclude s.secondEvent

/-- One millisecond of station time on an empty queue (R17, log entry 2): the one that ends a second is a second event. -/
def State.tick (s : State) : Host.Outcome State Fault Refusal :=
  if s.clock.millis < 999 then .next (s.updClock fun c => { c with millis := c.millis + 1 }) else conclude s.secondEvent

/-- CLOCK_STALE (R22). -/
def execClockStale (s : State) : Host.Outcome State Fault Refusal :=
  if s.running ∧ s.clock.state = .set ∧ s.expired (s.clock.lastTime.map (· + Config.staleAfter)) = true then
    conclude (s.updClock fun c => { c with state := .stale })
  else .next s

/-- A TIME notice taken (R20, R21). -/
def State.takeTime (s : State) (p : TimePayload) : State :=
  if 86399 < p.second then s
  else
    let t := s.updClock fun c =>
      { c with time := some { day := p.day, second := p.second }, state := .set, lastTime := some s.now }
    if t.absMinute = s.absMinute then t else t.minuteEvent

/-- TIME_NOTICE (R20). -/
def execTimeNotice (sender target : Byte) (payload : List Byte) (s : State) : Host.Outcome State Fault Refusal :=
  if s.running then conclude (s.receive 0 sender target payload fun t => t.takeTime (timePayload payload)) else .next s

end Sys2Proof.Machine
end

