-- ==== Sys2Proof/Machine/ViewCommands.lean ====
section
/-! DEFINITION. VIEW's commands: DEMAND, LANE, QUERY, ageing, flags and marks running out (R27 to R37). -/

namespace Sys2Proof.Machine

/-- DEMAND_NOTICE (R27). -/
def execDemandNotice (sender target : Byte) (payload : List Byte) (s : State) : Host.Outcome State Fault Refusal :=
  if s.running then
    conclude (s.receive 3 sender target payload fun t => t.takeDemand sender.toNat (demandPayload payload))
  else .next s

/-- LANE_NOTICE (R28). -/
def execLaneNotice (sender target : Byte) (payload : List Byte) (s : State) : Host.Outcome State Fault Refusal :=
  if s.running then
    conclude (s.receive 1 sender target payload fun t => t.takeLane sender.toNat (lanePayload payload))
  else .next s

/-- QUERY_NOTICE (R37). -/
def execQueryNotice (sender target : Byte) (payload : List Byte) (s : State) : Host.Outcome State Fault Refusal :=
  if s.running then
    conclude (s.receive 7 sender target payload fun t => t.takeQuery sender.toNat (byteAt payload 0) (byteAt payload 1))
  else .next s

/-- The stamp of a peer's demand record. -/
def View.demandStamp (v : View) (p : Nat) : Option Nat := ((v.entry p).bind (·.demand)).map (·.stamp)

/-- The stamp of a peer's lane record. -/
def View.laneStamp (v : View) (p : Nat) : Option Nat := ((v.entry p).bind (·.lane)).map (·.stamp)

/-- DEMAND_RECORD_AGED (R31). -/
def execDemandRecordAged (peer : Nat) (s : State) : Host.Outcome State Fault Refusal :=
  if s.running ∧ s.expired ((s.view.demandStamp peer).map (· + Config.demandAge)) = true then
    conclude ((s.ageDemand peer).dropOldEntry peer)
  else .next s

/-- LANE_RECORD_AGED (R31). -/
def execLaneRecordAged (peer : Nat) (s : State) : Host.Outcome State Fault Refusal :=
  if s.running ∧ s.expired ((s.view.laneStamp peer).map (· + Config.laneAge)) = true then
    conclude ((s.ageLane peer ((s.view.laneOf peer).getD 0)).dropOldEntry peer)
  else .next s

/-- ENTRY_AGED (R32). -/
def execEntryAged (peer : Nat) (s : State) : Host.Outcome State Fault Refusal :=
  if s.running ∧ s.entryOld peer = true then conclude (s.removeEntry peer) else .next s

/-- VIEW_FULL_CLEAR (R34). -/
def execViewFullClear (s : State) : Host.Outcome State Fault Refusal :=
  if s.running ∧ s.expired s.view.full = true then conclude (s.updView fun v => { v with full := none }) else .next s

/-- UNSEEN_DEMAND_CLEAR (R35). -/
def execUnseenDemandClear (s : State) : Host.Outcome State Fault Refusal :=
  if s.running ∧ s.expired s.view.unseen = true then conclude (s.updView fun v => { v with unseen := none }) else .next s

/-- A mark has run out. -/
def State.markOver (s : State) (lane : Nat) : Bool :=
  s.view.contested.any fun m => m.lane == lane && decide (m.expiry ≤ s.now)

/-- CONTESTED_MARK_EXPIRY (R36). -/
def execContestedMarkExpiry (lane : Nat) (s : State) : Host.Outcome State Fault Refusal :=
  if s.running ∧ s.markOver lane = true then
    conclude ((s.updView fun v => { v with contested := v.contested.filter fun m => m.lane != lane }).markLeft lane)
  else .next s

end Sys2Proof.Machine
end

