-- ==== Sys2Proof/Machine/Dispatch.lean ====
section
/-! DEFINITION. One arm per command of the table. -/

namespace Sys2Proof.Machine

def exec (i : Instr) (s : State) : Host.Outcome State Fault Refusal :=
  match i with
  | .powerOnReset => Sys2Proof.Machine.execPowerOnReset s
  | .configReadDone image => Sys2Proof.Machine.execConfigReadDone image s
  | .listenInEnd => Sys2Proof.Machine.execListenInEnd s
  | .staggerTimerEnd => Sys2Proof.Machine.execStaggerTimerEnd s
  | .secondEvent => Sys2Proof.Machine.execSecondEvent s
  | .clockStale => Sys2Proof.Machine.execClockStale s
  | .timeNotice sender target payload => Sys2Proof.Machine.execTimeNotice sender target payload s
  | .laneNotice sender target payload => Sys2Proof.Machine.execLaneNotice sender target payload s
  | .demandNotice sender target payload => Sys2Proof.Machine.execDemandNotice sender target payload s
  | .supplyNotice sender target payload => Sys2Proof.Machine.execSupplyNotice sender target payload s
  | .planNotice sender target payload => Sys2Proof.Machine.execPlanNotice sender target payload s
  | .faultClearNotice sender target payload => Sys2Proof.Machine.execFaultClearNotice sender target payload s
  | .queryNotice sender target payload => Sys2Proof.Machine.execQueryNotice sender target payload s
  | .helloNotice sender target payload => Sys2Proof.Machine.execHelloNotice sender target payload s
  | .restartNotice sender target payload => Sys2Proof.Machine.execRestartNotice sender target payload s
  | .noticeNotDispatched kind sender target payload => Sys2Proof.Machine.execNoticeNotDispatched kind sender target payload s
  | .receiveFault frame => Sys2Proof.Machine.execReceiveFault frame s
  | .presentItem => Sys2Proof.Machine.execPresentItem s
  | .noticeSent => Sys2Proof.Machine.execNoticeSent s
  | .arbitrationLost => Sys2Proof.Machine.execArbitrationLost s
  | .transmissionFailure => Sys2Proof.Machine.execTransmissionFailure s
  | .statusRefresh => Sys2Proof.Machine.execStatusRefresh s
  | .demandRecordAged peer => Sys2Proof.Machine.execDemandRecordAged peer s
  | .laneRecordAged peer => Sys2Proof.Machine.execLaneRecordAged peer s
  | .entryAged peer => Sys2Proof.Machine.execEntryAged peer s
  | .viewFullClear => Sys2Proof.Machine.execViewFullClear s
  | .unseenDemandClear => Sys2Proof.Machine.execUnseenDemandClear s
  | .contestedMarkExpiry lane => Sys2Proof.Machine.execContestedMarkExpiry lane s
  | .demandRefresh => Sys2Proof.Machine.execDemandRefresh s
  | .cabinPollDue => Sys2Proof.Machine.execCabinPollDue s
  | .stageRise => Sys2Proof.Machine.execStageRise s
  | .blindEntry => Sys2Proof.Machine.execBlindEntry s
  | .blindTimeout => Sys2Proof.Machine.execBlindTimeout s
  | .exchangeStart => Sys2Proof.Machine.execExchangeStart s
  | .coachResponse parityGood frame => Sys2Proof.Machine.execCoachResponse parityGood frame s
  | .responseTimeout => Sys2Proof.Machine.execResponseTimeout s
  | .tryRetry => Sys2Proof.Machine.execTryRetry s
  | .wakeDue => Sys2Proof.Machine.execWakeDue s
  | .periodicDue => Sys2Proof.Machine.execPeriodicDue s
  | .faultSummaryRefresh => Sys2Proof.Machine.execFaultSummaryRefresh s
  | .windowSkipEnd => Sys2Proof.Machine.execWindowSkipEnd s
  | .baselineWindowClose samples => Sys2Proof.Machine.execBaselineWindowClose samples s
  | .groupWindowClose samples => Sys2Proof.Machine.execGroupWindowClose samples s
  | .rawInputChange input level => Sys2Proof.Machine.execRawInputChange input level s
  | .coachPresentChange => Sys2Proof.Machine.execCoachPresentChange s
  | .plugInsertedChange => Sys2Proof.Machine.execPlugInsertedChange s
  | .plugLatchedChange => Sys2Proof.Machine.execPlugLatchedChange s
  | .departRequestPress => Sys2Proof.Machine.execDepartRequestPress s
  | .heaterProvingChange => Sys2Proof.Machine.execHeaterProvingChange s
  | .provingWindowEnd => Sys2Proof.Machine.execProvingWindowEnd s
  | .latchCloseDelayEnd => Sys2Proof.Machine.execLatchCloseDelayEnd s
  | .latchCheckTimeout => Sys2Proof.Machine.execLatchCheckTimeout s
  | .probeSample sample => Sys2Proof.Machine.execProbeSample sample s
  | .claimRetryDelayEnd => Sys2Proof.Machine.execClaimRetryDelayEnd s
  | .holdOffExpiry => Sys2Proof.Machine.execHoldOffExpiry s
  | .heldRefresh => Sys2Proof.Machine.execHeldRefresh s
  | .unlatchWaitExpiry => Sys2Proof.Machine.execUnlatchWaitExpiry s
  | .clearanceTimeout => Sys2Proof.Machine.execClearanceTimeout s
  | .laneTransitExpiry => Sys2Proof.Machine.execLaneTransitExpiry s
  | .refusalIndicationEnd => Sys2Proof.Machine.execRefusalIndicationEnd s
  | .departRequestRelease => Sys2Proof.Machine.execDepartRequestRelease s

end Sys2Proof.Machine
end

