-- ==== Sys2Proof/Safety.lean ====
section
/-! DEFINITION. The terms the statements use: what a settled state is, what closes a command, what judging conditions leaves alone, and the limits every run keeps. -/

namespace Sys2Proof.Machine

/-- No condition under watch calls for anything (log entry 7), grant rounds counted anew (log entry 8): the state between
two commands. -/
def State.Settled (s : State) : Prop := stepRule s.fresh = none

/-- `t` is `u` but for what the close of a command may write: the FAULT SUMMARY and STATUS slots with their refresh times
(R131, R168), the signal pattern (R162), the series of a deferred answer (R40), the verdict noted for R138 (log entry 53)
and the model's count of grant rounds (log entry 8). -/
def ClosedFrom (u t : State) : Prop :=
  t = { u with
    line := { u.line with
      summary := t.line.summary, status := t.line.status, statusRefresh := t.line.statusRefresh,
      answerSeries := u.seriesKept },
    faults := { u.faults with shown := t.faults.shown, refresh := t.faults.refresh },
    share := { u.share with rounds := 0 },
    depart := { u.depart with verdictSeen := u.verdict },
    bay := { u.bay with signal := t.bay.signal, signalSince := t.bay.signalSince } }

/-- What judging the watched conditions and the close of a command leave alone: commands' own registers that no condition
under watch writes. -/
structure Stable where
  pending : List Instr
  station : StationState
  listenIn : Option Nat
  stagger : Option Nat
  cfg : Option Configuration
  clock : Clock
  view : View
  counter : Nat
  recovery : Nat
  twin : Bool
  answers : List Answer
  statusSeries : Option (List (List Byte))
  hello : Slot HelloContent
  tx : Option (TxItem × List Byte × List (List Byte) × Bool × Bool)
  stalePlan : Bool
  dropped : Nat
  live : Nat
  coach : Option Coach
  lastEnd : Option Nat
  identified : Bool
  lastId : Option Nat
  pins : Pin × Pin × Pin × Pin × Pin
  debouncing : Bool
  probe : Probe
  trouble : Bool
deriving DecidableEq, Repr

/-- The registers of `Stable` in a state. -/
def State.stable (s : State) : Stable where
  pending := s.pending
  station := s.start.station
  listenIn := s.start.listenIn
  stagger := s.start.stagger
  cfg := s.cfg
  clock := s.clock
  view := s.view
  counter := s.line.counter
  recovery := s.line.recovery
  twin := s.line.twin
  answers := s.line.answers
  statusSeries := s.line.statusSeries
  hello := s.line.hello
  tx := s.line.tx.map fun x => (x.item, x.frame, x.rest, x.orphan, x.won)
  stalePlan := s.plans.stale
  dropped := s.plans.dropped
  live := s.share.live
  coach := s.link.coach
  lastEnd := s.link.lastEnd
  identified := s.link.identified
  lastId := s.faults.lastId
  pins := (s.bay.coach, s.bay.inserted, s.bay.latched, s.bay.request, s.bay.proving)
  debouncing := s.bay.debouncing
  probe := s.bay.probe
  trouble := s.bay.trouble

/-- A command has the effect `u`: it answers a next state whose stable registers are those of `u`; where no watched
condition calls for anything in `u`, that state is `u` but for the close of the command. -/
def Does (o : Host.Outcome State Fault Refusal) (u : State) : Prop :=
  ∃ t, o = .next t ∧ t.stable = u.stable ∧ ((u.running = true → u.Settled) → ClosedFrom u t)

/-- A received notice has the effect `u`: counted first, which gives `v`, then taken. Where the count calls for nothing
and what was taken calls for nothing, the next state is `u` but for the close of the command. -/
def DoesAfter (o : Host.Outcome State Fault Refusal) (v u : State) : Prop :=
  ∃ t, o = .next t ∧ t.stable = u.stable ∧ (v.Settled → u.Settled → ClosedFrom u t)

/-! ### A notice that reaches its block -/

/-- A valid notice of another station (R171, R172), for this station (R165), its fields in range (R182), in a line state
that dispatches (R165). -/
def State.Hears (s : State) (kind : Nat) (sender target : Byte) (payload : List Byte) : Prop :=
  s.running = true ∧ s.line.counter < 224 ∧ lengthGood kind payload = true ∧ sender.toNat ≤ 120 ∧
    sender.toNat ≠ s.conf.station ∧ (target.toNat = s.conf.station ∨ target.toNat = 127 ∧ kind ≠ 4) ∧
    payloadDropped kind payload = false

/-- The state with a valid notice counted in ACTIVE, WARNED or MUTED (R174), grant rounds counted anew (log entry 8). -/
def State.counted (s : State) : State := (s.updLine fun l => { l with counter := l.counter - 1 }).fresh

/-- The counter raised by `n` (R174) with what its line state sets: the recovery run on entry to DETACHED (R175) and the
line-trouble latch on entry to MUTED or DETACHED from ACTIVE or WARNED (R173, R163). -/
def State.raised (s : State) (n : Nat) : State :=
  let c := min (s.line.counter + n) 255
  (s.updLine fun l =>
    { l with counter := c, recovery := if s.line.counter < 224 ∧ 224 ≤ c then 0 else l.recovery }).updBay fun b =>
    { b with trouble := b.trouble || decide (s.line.counter < 128 ∧ 128 ≤ c) }

/-! ### Room in the view (R33) -/

/-- `x` is the entry R33 evicts for the own key `own` (none for +∞). Step 1: among the entries without a record the one
last heard longest ago, the lower station for equal times. Step 2, where there is none: among the entries with a demand
record alone whose key is behind the own key the one with the highest key. -/
def Evicted (own : Option RankKey) (es : List Entry) (x : Entry) : Prop :=
  x ∈ es ∧
    (x.demand = none ∧ x.lane = none ∧
        (∀ e ∈ es, e.demand = none → e.lane = none →
          x.lastHeard < e.lastHeard ∨ x.lastHeard = e.lastHeard ∧ x.station ≤ e.station) ∨
      (∀ e ∈ es, e.demand ≠ none ∨ e.lane ≠ none) ∧ x.lane = none ∧
        ∃ k d, own = some k ∧ x.demand = some d ∧ RankKey.ahead k (d.slack, x.station) = true ∧
          ∀ e ∈ es, ∀ f, e.demand = some f → e.lane = none → RankKey.ahead k (f.slack, e.station) = true →
            (f.slack, e.station) = (d.slack, x.station) ∨
              RankKey.ahead (f.slack, e.station) (d.slack, x.station) = true)

/-- R33 evicts nothing: every entry holds a record, and none with a demand record alone is behind the own key. -/
def NoneEvicted (own : Option RankKey) (es : List Entry) : Prop :=
  (∀ e ∈ es, e.demand ≠ none ∨ e.lane ≠ none) ∧
    ∀ k, own = some k → ∀ e ∈ es, ∀ d, e.demand = some d → e.lane = none →
      RankKey.ahead k (d.slack, e.station) = false

/-! ### What a plan taken as head leaves -/

/-- A key's present marks cleared (R119). -/
def Faults.unmark (f : Faults) (k : Key) : Faults :=
  { f with table := f.table.map fun r => if r.key = k then { r with present := false } else r }

/-- Stage size and stage maximum taken for a departure's class, hold request and BLIND count within that maximum (R43, log
entries 23 and 48), the computations of R71 to begin anew; nothing to compute, as in OFF. -/
def State.classed (s : State) (d : PlanData) : State :=
  let c := s.classCfg d.cls
  let m := match s.heat.coachMax with
    | some x => min c.heaterMax x
    | none => s.heat.stageMax
  { s with
    heat := { s.heat with
      stageSize := c.stageSize, stageMax := m, holdRequest := max 1 (min s.heat.holdRequest (max m 1)),
      blindCount := max 1 (min s.heat.blindCount (max m 1)), compute := false },
    share := { s.share with fresh := true } }

/-- The class in force and its link profile (R86); the wake profile stays in DOWN and WAKING (log entry 14). -/
def State.selected (s : State) (cls : Nat) : State :=
  { s with link := { s.link with
      cls := some cls,
      profile := if s.link.state = .down ∨ s.link.state = .waking then s.link.profile
        else (s.classCfg cls).profile } }

/-- What PREPARING begins (R101, R135): a lamp check of the coach, or none with SKIP LAMPS, and coach in charge. -/
def State.prepared (s : State) (coach : Nat) (skip : Bool) : State :=
  { s with
    lamp := { s.lamp with
      state := if skip then .done else .waiting, checked := some coach, current := none, results := [],
      doneBySkip := skip },
    depart := { s.depart with inCharge := true } }

/-- A lamp check that has left no lamp on and has no request ended by a change of head (R113). -/
def State.checkEnded (s : State) : State :=
  if s.lamp.state = .idle then s
  else
    { s with
      lamp := { s.lamp with
        state := .idle, current := none, baseline := none, window := none, outstanding := none, restart := false,
        closing := false, recheck := false, doneBySkip := false, results := [] },
      bay := { s.bay with lampWatch := none } }

/-- A change of head with pre-heat in OFF and the own lane state FREE (R11, R61, R134, R135). -/
def State.headLeft (s : State) : State :=
  { s with
    faults := (s.faults.unmark plan01).unmark plan02,
    heat := { s.heat with unreachableRecorded := false },
    share := { s.share with fresh := true },
    depart := { s.depart with
      key := none, lanes := [], yielded := [], releaseBegun := false, inCharge := false, holdOff := none,
      claimRetry := none, heldRefresh := none, transit := none, unlatchWait := none, clearance := none },
    bay := { s.bay with departWatch := none } }

/-! ### Bay inputs -/

/-- Debouncing of an input has started at a time from which it becomes active at `t` (R154). -/
def Pin.started (p : Pin) (t : Nat) : Pin := { p with due := if p.raw then some t else none }

/-- A debounced change of an input is due: its raw level has held the other value for its time (R154). -/
def State.Turned (s : State) (i : Input) : Prop :=
  (∃ d, (s.bay.pin i).due = some d ∧ d ≤ s.now) ∧ (s.bay.pin i).raw ≠ (s.bay.pin i).level

/-- The debounced level is the raw one. -/
def State.turn (s : State) (i : Input) : State :=
  s.updBay fun b => b.setPin i { raw := (b.pin i).raw, level := (b.pin i).raw, due := none }

/-! ### Limits every run keeps -/

/-- The limits of LINE (R37, R173, R175) and of CLOCK (R17, 2.2). -/
def State.LineBounds (s : State) : Prop :=
  s.line.counter ≤ 255 ∧ s.line.recovery < 32 ∧ s.line.answers.length ≤ 4 ∧ s.clock.seconds ≤ 4294967295 ∧
    s.clock.millis ≤ 999 ∧ ∀ x, s.clock.time = some x → x.day ≤ 65535 ∧ x.second ≤ 86399

/-- At most 48 peer entries, at most one per station (R26). -/
def State.ViewBounds (s : State) : Prop :=
  s.view.entries.length ≤ 48 ∧ (s.view.entries.map Entry.station).Nodup

/-- At most 32 fault records, no two with the same key (R118). -/
def State.TableBounds (s : State) : Prop :=
  s.faults.table.length ≤ 32 ∧ (s.faults.table.map Record.key).Nodup

/-- At most 4 plan records, each with its own id; a held revision is one of the record's own departure (R2, R9). -/
def State.PlanBounds (s : State) : Prop :=
  s.plans.list.length ≤ 4 ∧ (s.plans.list.map fun p => p.data.id).Nodup ∧
    ∀ p ∈ s.plans.list, ∀ d, p.held = some (.revision d) → d.id = p.data.id

/-- At most 12 requests queued, and no job above its quota, its exchange in flight counted (R88). -/
def State.QueueBounds (s : State) : Prop := s.link.queue.length ≤ 12 ∧ ∀ j, s.link.count j ≤ j.quota

/-- At most 16 learned capacities, at most one per coach, each within 100 to 4000 kJ/°C with a run count of 1 to 255
(R65). -/
def State.LearnedBounds (s : State) : Prop :=
  s.heat.learned.length ≤ 16 ∧ (s.heat.learned.map Learned.coach).Nodup ∧
    ∀ e ∈ s.heat.learned, 100 ≤ e.capacity ∧ e.capacity ≤ 4000 ∧ 1 ≤ e.runs ∧ e.runs ≤ 255

/-- The stage count within the grant, the contactors as it commands (R43, R75, R158), stages closed only in a drawing
state (R43), and pre-heat out of OFF and STOPPED only while OPERATING (R46, R178). -/
def State.HeaterBounds (s : State) : Prop :=
  s.heat.count ≤ s.share.grant ∧ s.bay.contactors = s.heat.count ∧
    (0 < s.heat.count → s.heat.state.drawing = true) ∧ (s.heat.state.computing = true → s.operating = true)

/-- HEAT's watch set of R60: PLUG LATCHED and COACH PRESENT active, armed. -/
def Watch.heat : Watch := { pairs := [(.plugLatched, true), (.coachPresent, true)], armed := true }

/-- In the drawing states HEAT's watch set is registered and armed, and the two inputs it watches are active (R49, R60,
R155). -/
def State.WatchKept (s : State) : Prop :=
  s.heat.state.drawing = true →
    s.bay.heatWatch = some Watch.heat ∧ s.bay.latched.level = true ∧ s.bay.coach.level = true

/-- Hold request and BLIND count from 1 up to the stage maximum (R43), 1 at a stage maximum of 0 (log entry 48). -/
def State.FigureBounds (s : State) : Prop :=
  1 ≤ s.heat.holdRequest ∧ s.heat.holdRequest ≤ max s.heat.stageMax 1 ∧
    1 ≤ s.heat.blindCount ∧ s.heat.blindCount ≤ max s.heat.stageMax 1

/-- A GREEN pattern. -/
def Pattern.green (p : Pattern) : Bool := p == .greenSteady || p == .greenBlink

/-- GREEN only while the own lane state is HELD (R162). -/
def State.GreenHeld (s : State) : Prop := s.bay.signal.green = true → s.depart.own = .held

/-- What the station shows is what it holds: the signal follows R162, and while the blocks work the STATUS slot holds the
STATUS content (R168) and the FAULT SUMMARY slot the summary of the table (R131), or nothing while no change of an empty
table has written it. The model's copy of what the slot shows agrees with the slot. -/
def State.Shown (s : State) : Prop :=
  s.bay.signal = s.signalPattern ∧
    (s.line.summary.content = some s.faults.shown ∨
      s.line.summary.content = none ∧ s.faults.shown = Summary.blank) ∧
    (s.running = true → s.line.status.content = some s.statusContent ∧
      (s.line.summary.content = some s.faults.summary ∨
        s.line.summary.content = none ∧ s.faults.summary = Summary.blank))

end Sys2Proof.Machine
end

