-- ==== Sys2Proof/Certificates/Slice0/Obligations.lean ====
section
/-! DEFINITION. The statements for the provers. `Does` and `DoesAfter` (Safety) say a command's whole next state: its stable registers in every state, every register where nothing under watch is called for. -/

open Sys2Proof Sys2Proof.Machine



/-! ### The queue, reset, the limits -/

/-- A step takes the command at the front of the queue and runs it on the rest. -/
def Obligations.StepTakesTheFront : Prop :=
  ∀ (c : Instr) (rest : List Instr) (s : State),
    step { s with pending := c :: rest } = exec c { s with pending := rest }

/-- On an empty queue a millisecond passes; the one that ends a second is a second event (log entry 2, the model's
choice of what an idle step does). -/
def Obligations.EmptyQueueLetsTimePass : Prop :=
  ∀ s : State, s.pending = [] →
    (s.clock.millis < 999 → step s = .next { s with clock := { s.clock with millis := s.clock.millis + 1 } }) ∧
    (999 ≤ s.clock.millis → step s = exec .secondEvent s)

/-- The values of 12.4 after reset that are listed here, every limit kept. The model's choices: hold request and BLIND count
of 1 at the stage maximum of 0 (log entries 22 and 48), and no command waiting (log entry 36). -/
def Obligations.ResetState : Prop :=
  let s := State.reset
  (s.start.station = .readingConfig ∧ s.line.twin = false ∧ s.start.listenIn = none ∧ s.start.stagger = none) ∧
  (s.line.counter = 0 ∧ s.line' = .active ∧ s.line.lane.state = .empty ∧ s.line.demand.state = .empty ∧
    s.line.status.state = .empty ∧ s.line.summary.state = .empty ∧ s.line.hello.state = .empty ∧ s.line.answers = []) ∧
  (s.clock.seconds = 0 ∧ s.clock.millis = 0 ∧ s.clock.state = .unset ∧ s.clock.time = none) ∧
  (s.view.entries = [] ∧ s.view.full = none ∧ s.view.unseen = none ∧ s.view.contested = []) ∧
  (s.plans.list = [] ∧ s.plans.stale = false ∧ s.plans.full = false ∧ s.plans.dropped = 0) ∧
  (s.heat.state = .off ∧ s.heat.count = 0 ∧ s.heat.reading = none ∧ s.heat.learned = []) ∧
  (s.ownRequest = 0 ∧ s.share.grant = 0 ∧ s.ownKey = none ∧ s.floor = true) ∧
  (s.link.state = .down ∧ s.link.queue = [] ∧ s.link.number = 0) ∧
  (s.lamp.state = .idle ∧ s.lamp.results = []) ∧
  (s.faults.table = [] ∧ s.faults.overflow = false ∧ s.faults.reader = .idle ∧ s.verdict = .incomplete) ∧
  (s.depart.own = .free ∧ s.depart.lastRefusal = .none) ∧
  (s.bay.contactors = 0 ∧ s.bay.latchClosed = false ∧ s.bay.latchMode = .automatic ∧ s.bay.signal = .dark ∧
    s.bay.trouble = false ∧ s.bay.heatWatch = none ∧ s.bay.lampWatch = none ∧ s.bay.departWatch = none) ∧
  s.LineBounds ∧ s.ViewBounds ∧ s.TableBounds ∧ s.PlanBounds ∧ s.QueueBounds ∧ s.LearnedBounds ∧
    s.HeaterBounds ∧ s.FigureBounds ∧ s.WatchKept ∧ s.GreenHeld ∧ s.Shown ∧ s.pending = []

/-- Every command answers a next state and leaves the queue of waiting commands as it is. -/
def Obligations.CommandsAnswerAndLeaveTheQueue : Prop :=
  ∀ (c : Instr) (s : State), ∃ t, exec c s = .next t ∧ t.pending = s.pending

/-- Power-on or the reset pin: the reset state, but for the waiting commands and the raw input levels, which are the
outside's, and for the model's count of free values used (log entries 6 and 8). -/
def Obligations.PowerOnResets : Prop :=
  ∀ s : State, exec .powerOnReset s = .next
    { State.reset with
      pending := s.pending, freeCount := s.freeCount,
      bay := { State.reset.bay with
        coach := { raw := s.bay.coach.raw, level := false, due := none },
        inserted := { raw := s.bay.inserted.raw, level := false, due := none },
        latched := { raw := s.bay.latched.raw, level := false, due := none },
        request := { raw := s.bay.request.raw, level := false, due := none },
        proving := { raw := s.bay.proving.raw, level := false, due := none } } }

/-- Every step keeps the limits of the counters, the answer queue and the clock (R37, R173, R175, R17, 2.2). -/
def Obligations.LineLimitsKept : Prop :=
  ∀ s t : State, s.LineBounds → step s = .next t → t.LineBounds

/-- Every step keeps the view within 48 entries, one per station (R26). -/
def Obligations.ViewLimitsKept : Prop :=
  ∀ s t : State, s.ViewBounds → step s = .next t → t.ViewBounds

/-- Every step keeps the fault table within 32 records, no two with one key (R118). -/
def Obligations.TableLimitsKept : Prop :=
  ∀ s t : State, s.TableBounds → step s = .next t → t.TableBounds

/-- Every step keeps the plan list within 4 records with distinct ids, each held revision one of its own departure (R2,
R9). -/
def Obligations.PlanLimitsKept : Prop :=
  ∀ s t : State, s.PlanBounds → step s = .next t → t.PlanBounds

/-- Every step keeps LINK's request queue within 12 entries and every job within its quota (R88). -/
def Obligations.QueueLimitsKept : Prop :=
  ∀ s t : State, s.QueueBounds → step s = .next t → t.QueueBounds

/-- Every step keeps the learned capacity table within 16 entries, one per coach, capacities and run counts in their
ranges (R65). -/
def Obligations.LearnedLimitsKept : Prop :=
  ∀ s t : State, s.LearnedBounds → step s = .next t → t.LearnedBounds

/-- Every step keeps the stage count within the grant, the contactors as it commands, stages closed in drawing states
alone, and pre-heat in OFF or STOPPED while the station is not OPERATING; and the hold request and the BLIND count from 1 up
to the stage maximum (R43), at a stage maximum of 0 the model's 1 (log entry 48). It keeps HEAT's watch set armed with its
two inputs active in the drawing states (R60), and with it the stage count at zero unless PLUG LATCHED is active (R43). -/
def Obligations.HeaterLimitsKept : Prop :=
  (∀ s t : State, s.HeaterBounds → step s = .next t → t.HeaterBounds) ∧
  (∀ s t : State, s.FigureBounds → step s = .next t → t.FigureBounds) ∧
  ∀ s t : State, s.HeaterBounds → s.WatchKept → step s = .next t →
    t.WatchKept ∧ (0 < t.heat.count → t.bay.latched.level = true)

/-- After every step the signal shows GREEN only while the own lane state is HELD. -/
def Obligations.GreenOnlyWhileHeld : Prop :=
  ∀ s t : State, s.GreenHeld → step s = .next t → t.GreenHeld

/-- Every step keeps the signal at its pattern (R162) and, while the blocks work, the STATUS slot at the STATUS content
(R168) and the FAULT SUMMARY slot at the summary of the table, or unwritten while no change of the empty table has called
for a write (R131). -/
def Obligations.AnnouncementsFollow : Prop :=
  ∀ s t : State, s.Shown → step s = .next t → t.Shown

/-! ### START -/

/-- An accepted image: LISTEN-IN for 20 s, the configured values handed out, debouncing started (R177). -/
def Obligations.ImageAccepted : Prop :=
  ∀ (image : List Byte) (c : Configuration) (s : State),
    s.start.station = .readingConfig → acceptImage image = some c →
    Does (exec (.configReadDone image) s)
      { s with
        cfg := some c,
        start := { s.start with station := .listenIn, listenIn := some (s.now + 20000) },
        share := { s.share with live := c.allowance },
        link := { s.link with profile := c.wakeProfile },
        bay := { s.bay with
          debouncing := true,
          coach := s.bay.coach.started (s.now + c.debounce.getD 0 0),
          inserted := s.bay.inserted.started (s.now + c.debounce.getD 1 0),
          latched := s.bay.latched.started (s.now + c.debounce.getD 2 0),
          request := s.bay.request.started (s.now + c.debounce.getD 3 0),
          proving := s.bay.proving.started (s.now + c.debounce.getD 4 0) } }

/-- A short image, a wrong check or an identity field out of range is rejected; a rejected image puts the station in
CONFIG FAULT with every input debounced at 500 ms; the values an accepted image gives are within the ranges of 13.5
(R177, R185). -/
def Obligations.ImageChecked : Prop :=
  (∀ image : List Byte,
    (image.length < 738 ∨ (image.take 738).drop 736 ≠ checkBytes (image.take 736) ∨ byteAt image 0 = 0 ∨
      120 < byteAt image 0 ∨ byteAt image 1 = 0 ∨ 15 < byteAt image 1 ∨ byteAt image 2 = 0 ∨ 8 < byteAt image 2 ∨
      8 < byteAt image 3 ∨ byteAt image 3 = byteAt image 2) → acceptImage image = none) ∧
  (∀ (image : List Byte) (s : State),
    s.start.station = .readingConfig → s.cfg = none → acceptImage image = none →
    Does (exec (.configReadDone image) s)
      { s with
        start := { s.start with station := .configFault },
        bay := { s.bay with
          debouncing := true,
          coach := s.bay.coach.started (s.now + 500), inserted := s.bay.inserted.started (s.now + 500),
          latched := s.bay.latched.started (s.now + 500), request := s.bay.request.started (s.now + 500),
          proving := s.bay.proving.started (s.now + 500) } }) ∧
  ∀ (image : List Byte) (c : Configuration), acceptImage image = some c →
    c.station = byteAt image 0 ∧ 1 ≤ c.station ∧ c.station ≤ 120 ∧ c.group = byteAt image 1 ∧ 1 ≤ c.group ∧
    c.group ≤ 15 ∧ c.lanes ≠ [] ∧ c.lanes.length ≤ 2 ∧ c.lanes.Nodup ∧ (∀ l ∈ c.lanes, 1 ≤ l ∧ l ≤ 8) ∧
    c.allowance ≤ 1000 ∧ c.reserve ≤ 200 ∧ c.silentFloor ≤ 1 ∧ 30 ≤ c.overdueLimit ∧ c.overdueLimit ≤ 240 ∧
    c.earlyWindow ≤ 30 ∧ 60 ≤ c.clearance ∧ c.clearance ≤ 900 ∧ c.transit.length = 8 ∧
    (∀ x ∈ c.transit, 20 ≤ x ∧ x ≤ 600) ∧ -20 ≤ c.tmin ∧ c.tmin ≤ 30 ∧ c.tolerance ≤ 10 ∧ -100 ≤ c.designTo ∧
    c.designTo ≤ 120 ∧ c.debounce.length = 5 ∧ (∀ x ∈ c.debounce, 10 ≤ x ∧ x ≤ 500) ∧ c.wakeProfile ≤ 3 ∧
    1 ≤ c.blockThreshold ∧ c.blockThreshold ≤ 4 ∧ 1 ≤ c.adviseThreshold ∧ c.adviseThreshold ≤ 4 ∧
    c.blockList.length ≤ 8 ∧ c.profiles.length = 4 ∧
    (∀ x ∈ c.profiles, (x.rate = 9600 ∨ x.rate = 19200 ∨ x.rate = 38400 ∨ x.rate = 57600) ∧
      20 ≤ x.timeout ∧ x.timeout ≤ 500 ∧ 1 ≤ x.gap ∧ x.gap ≤ 50 ∧ x.retries ≤ 3) ∧
    c.classes.length = 8 ∧
    ∀ x ∈ c.classes, x.profile ≤ 3 ∧ 1 ≤ x.heaterMax ∧ x.heaterMax ≤ 6 ∧ 2 ≤ x.stageSize ∧ x.stageSize ≤ 16 ∧
      100 ≤ x.capacity ∧ x.capacity ≤ 4000 ∧ 50 ≤ x.loss ∧ x.loss ≤ 2000 ∧ x.margin ≤ 60 ∧
      5 ≤ x.lampLead ∧ x.lampLead ≤ 120 ∧ x.avgExp ≤ 6 ∧ 5 ≤ x.spreadPct ∧ x.spreadPct ≤ 50 ∧ 110 ≤ x.overPct ∧
      x.overPct ≤ 200 ∧ x.groupCount ≤ 16 ∧ x.groups.length = 16 ∧
      ∀ g ∈ x.groups, g.expected ≤ 20000 ∧ 1 ≤ g.lamps ∧ g.lamps ≤ 8 ∧ g.skip ≤ 63

/-- The listen-in runs out: JOINING with HELLO written while the twin flag is clear, LISTEN-IN with no timer while it is
set (R178). -/
def Obligations.ListenInEnds : Prop :=
  ∀ (s : State) (e : Nat), s.start.station = .listenIn → s.start.listenIn = some e → e ≤ s.now →
    (s.line.twin = false →
      Does (exec .listenInEnd s)
        { s with
          start := { s.start with station := .joining, listenIn := none },
          line := { s.line with
            hello := s.line.hello.write
              { station := s.conf.station, group := s.conf.group, lanes := s.conf.lanes } } }) ∧
    (s.line.twin = true → Does (exec .listenInEnd s) { s with start := { s.start with listenIn := none } })

/-- A peer's HELLO that shares the group or a lane starts the stagger timer of an OPERATING station, unless it runs; any
other HELLO is only counted (R179). The stagger timer runs out: DEMAND is re-written where the station is announced, HELD
where it holds its lane (R179, R81, R143). -/
def Obligations.HelloStaggersAndResends : Prop :=
  (∀ (sender target : Byte) (payload : List Byte) (s : State),
    s.Hears 11 sender target payload → sender ≠ 0 →
    let h := helloPayload payload
    let shares := h.group = s.conf.group ∨ h.lane1 ∈ s.conf.lanes ∨ h.lane2 ∈ s.conf.lanes
    (s.start.station = .operating ∧ s.start.stagger = none ∧ shares →
      DoesAfter (exec (.helloNotice sender target payload) s) s.counted
        { s.counted with
          start := { s.start with stagger := some (s.now + s.conf.station % 16 * 100) } }) ∧
    (s.start.station ≠ .operating ∨ s.start.stagger ≠ none ∨ ¬shares →
      DoesAfter (exec (.helloNotice sender target payload) s) s.counted s.counted)) ∧
  ∀ (s : State) (e : Nat), s.running = true → s.start.stagger = some e → e ≤ s.now →
    Does (exec .staggerTimerEnd s)
      { s with
        start := { s.start with stagger := none },
        line := { s.line with
          demand := if s.share.announced then s.line.demand.write s.demandContent else s.line.demand,
          lane := if s.depart.own = .held then
              s.line.lane.write
                { action := .held, lane := s.depart.current.getD 0, key := s.depart.key.getD 0,
                  inTransit := s.inPhase .gone, singleTry := false }
            else s.line.lane },
        share := if s.share.announced then { s.share with refresh := some (s.now + 20000) } else s.share,
        depart := if s.depart.own = .held then { s.depart with heldRefresh := some (s.now + 10000) } else s.depart }

/-- A RESTART from station 0: LISTEN-IN for 5 s, stagger stopped, answers and HELLO gone, HEAT in OFF with no stage and no
heater enable held; clock, view, allowance, coach, configuration and the line's counter are kept (R180). Of a single head
that nothing is held for: it returns to WAITING COACH, the lane given up, with its RELEASE written if it was claimed or
held, LAMP in IDLE, the demand withdrawn, which has slack 0 (log entry 19), the link halting behind its exchange, or, where
it was DOWN or HALTED, woken with the plug in; in GONE the head and its lane stay (R153, R113, R66, R80, R95, R96). The
departure key and the lane list go too (log entry 51). An item presented is withdrawn unless it has won: whether it has is
a free value of the model, and an ANSWER or HELLO that has is sent to its end apart from the queue or slot, which are empty
(log entry 9). That a STATUS series stopped between two parts is dropped (log entry 40) and that the RELEASE has in-transit
clear (log entry 66) are the model's choices. -/
def Obligations.RestartTaken : Prop :=
  ∀ (target : Byte) (s : State),
    s.Hears 4 0 target [] → s.HeaterBounds →
    ∃ (t : State) (k : Nat), exec (.restartNotice 0 target []) s = .next t ∧
      t.stable =
        ({ s.counted with
          start := { s.start with station := .listenIn, listenIn := some (s.now + 5000), stagger := none },
          line := { s.counted.line with
            answers := [], statusSeries := none,
            hello := { state := .empty, content := none, written := true },
            tx := s.line.tx.bind fun x =>
              if x.won = true ∨ Config.wonArbitration k = true then
                some { x with
                  won := true,
                  orphan := match x.item with
                    | .answer _ | .hello => true
                    | .lane _ | .demand _ | .status | .summary => x.orphan }
              else none } } : State).stable ∧
      t.heat.state = .off ∧ t.heat.count = 0 ∧ t.bay.contactors = 0 ∧ t.heat.enableHeld = false ∧
      ∀ h, s.counted.Settled → s.plans.list = [h] → h.held = none →
        (h.phase ≠ .gone →
          t.plans.list = [{ h with phase := .waitingCoach }] ∧ t.depart.own = .free ∧ t.depart.current = none ∧
          t.depart.key = none ∧ t.depart.lanes = [] ∧ t.depart.releaseBegun = false ∧ t.depart.refusal = none ∧
          t.depart.unlatchWait = none ∧ t.depart.clearance = none ∧ t.bay.departWatch = none ∧
          t.line.lane =
            if s.depart.own = .held ∨ s.depart.own = .claiming ∧ s.depart.claimSent = true then
              s.line.lane.write
                { action := .release, lane := s.depart.current.getD 0, key := s.depart.key.getD 0,
                  inTransit := false, singleTry := false }
            else if s.depart.own = .claiming then { state := .empty, content := none, written := true }
            else s.line.lane) ∧
        (h.phase = .gone →
          t.plans.list = [h] ∧ t.depart.own = s.depart.own ∧ t.depart.current = s.depart.current ∧
          t.depart.key = s.depart.key ∧ t.depart.transit = s.depart.transit ∧ t.line.lane = s.line.lane) ∧
        t.lamp.state = .idle ∧ t.lamp.results = [] ∧ t.lamp.window = none ∧ t.lamp.outstanding = none ∧
        t.bay.lampWatch = none ∧
        (s.heat.state ≠ .off →
          t.heat.run = none ∧ t.bay.heatWatch = none ∧ t.share.announced = false ∧ t.share.ranking = none ∧
          (s.share.announced = true → s.share.demandSent = true →
            t.line.demand = s.line.demand.write
              { group := s.conf.group, requested := 0, stageSize := s.heat.stageSize, slack := 0, drawing := false,
                stagesOn := 0 })) ∧
        ((s.link.state = .up ∨ s.link.state = .waking) → s.link.exchange ≠ none →
          t.link.state = .halting ∧ t.link.queue = [] ∧ t.link.exchange ≠ none) ∧
        (s.link.state = .down ∨ s.link.state = .halted →
          t.link.state = if s.bay.inserted.level then .waking else .down)

/-! ### CLOCK -/

/-- A second event advances station seconds and, while SET or STALE, depot time with its day wrap; while UNSET depot time
is not touched (R17, R18). Taken from any millisecond part it begins a whole second (log entry 3), and it advances depot
time at the limit of the seconds count too (log entry 4): both the model's choices. -/
def Obligations.SecondEventAdvances : Prop :=
  ∀ s : State,
    let time := if s.clock.state = .unset then s.clock.time else
      s.clock.time.map fun x =>
        if x.second + 1 < 86400 then { x with second := x.second + 1 }
        else { day := (x.day + 1) % 65536, second := 0 }
    let u : State :=
      { s with
        clock := { s.clock with seconds := min (s.clock.seconds + 1) 4294967295, millis := 0, time := time } }
    ∃ t, exec .secondEvent s = .next t ∧ t.stable = u.stable ∧
      ((s.clock.state = .unset ∨ s.running = false ∨ ∀ x, time = some x → x.second % 60 ≠ 0) →
        (u.running = true → u.Settled) → ClosedFrom u t)

/-- The minute event that makes a head in WAITING COACH, PREPARING or READY overdue, with HEAT in OFF, sets its flag and
writes PLAN-02 (R14, R19). A second event taken from any millisecond part begins a whole second (log entry 3), and one at
the limit of the seconds count advances depot time all the same (log entry 4): both the model's choices. -/
def Obligations.OverdueMarked : Prop :=
  ∀ (s : State) (h : Plan) (rest : List Plan) (x : DepotTime),
    s.running = true → s.clock.state ≠ .unset → s.clock.time = some x → x.second % 60 = 59 → x.second < 86399 →
    s.plans.list = h :: rest →
    (h.phase = .waitingCoach ∨ h.phase = .preparing ∨ h.phase = .ready) → h.overdue = false → s.heat.state = .off →
    h.data.absMinute + s.conf.overdueLimit < x.day * 1440 + (x.second + 1) / 60 →
    let now : DepotTime := { x with second := x.second + 1 }
    let u : State :=
      { s with
        clock := { s.clock with seconds := min (s.clock.seconds + 1) 4294967295, millis := 0, time := some now },
        plans := { s.plans with list := { h with overdue := true } :: rest },
        faults := s.faults.write plan02 .advisory none (some now),
        heat := { s.heat with compute := false } }
    u.Settled → ∃ t, exec .secondEvent s = .next t ∧ ClosedFrom u t

/-- A TIME notice from station 0 sets or steps depot time and stamps it; one whose second of day is above 86399 is only
counted (R20, R21). -/
def Obligations.TimeTaken : Prop :=
  ∀ (target : Byte) (payload : List Byte) (s : State), s.Hears 0 0 target payload →
    let p := timePayload payload
    (86399 < p.second → DoesAfter (exec (.timeNotice 0 target payload) s) s.counted s.counted) ∧
    (p.second ≤ 86399 →
      let u : State :=
        { s.counted with
          clock := { s.clock with
            time := some { day := p.day, second := p.second }, state := .set, lastTime := some s.now } }
      ∃ t, exec (.timeNotice 0 target payload) s = .next t ∧ t.stable = u.stable ∧
        (u.absMinute = s.absMinute → s.counted.Settled → u.Settled → ClosedFrom u t))

/-! ### VIEW -/

/-- A peer's DEMAND by its group, its request and the peer's entry (R27); in a full view in place of the entry R33 evicts,
or refused with its flags (R33 to R35). -/
def Obligations.DemandTaken : Prop :=
  ∀ (sender target : Byte) (payload : List Byte) (s : State),
    s.Hears 3 sender target payload → sender ≠ 0 →
    let d := demandPayload payload
    let p := sender.toNat
    let v := s.counted
    let es := s.view.entries
    let r : DemandRec :=
      { group := d.group, requested := d.requested, stageSize := d.stageSize, slack := d.slack, stamp := s.now }
    let peer : Entry := { station := p, lastHeard := s.now, demand := some r, lane := none }
    (d.group ≠ s.conf.group →
      DoesAfter (exec (.demandNotice sender target payload) s) v
        { v with view := s.view.change p fun e => { e with demand := none } }) ∧
    (d.group = s.conf.group → d.requested = 0 →
      DoesAfter (exec (.demandNotice sender target payload) s) v
        { v with view := s.view.change p fun e => { e with demand := none, lastHeard := s.now } }) ∧
    (d.group = s.conf.group → 0 < d.requested → (∃ e ∈ es, e.station = p) →
      DoesAfter (exec (.demandNotice sender target payload) s) v
        { v with view := s.view.change p fun e => { e with demand := some r, lastHeard := s.now } }) ∧
    (d.group = s.conf.group → 0 < d.requested → (∀ e ∈ es, e.station ≠ p) →
      (es.length < 48 →
        DoesAfter (exec (.demandNotice sender target payload) s) v
          { v with view := { s.view with entries := es ++ [peer] } }) ∧
      (48 ≤ es.length → v.Settled → ∀ x, Evicted v.ownKey es x →
        DoesAfter (exec (.demandNotice sender target payload) s) v
          { v with view := { s.view with entries := (es.filter fun e => e.station != x.station) ++ [peer] } }) ∧
      (48 ≤ es.length → v.Settled → NoneEvicted v.ownKey es →
        DoesAfter (exec (.demandNotice sender target payload) s) v
          { v with view := { s.view with full := some (s.now + 60000), unseen := some (s.now + 60000) } }))

/-- A peer's LANE notice in the view (R28), in a full view in place of the entry R33 evicts, or refused with its mark (R33,
R34, R36), and a RELEASE of station 0, which removes every record of its lane and its mark (R29), where DEPART neither
holds or claims the lane nor waits on one. -/
def Obligations.LaneTaken : Prop :=
  (∀ (sender target : Byte) (payload : List Byte) (s : State),
    s.Hears 1 sender target payload → sender ≠ 0 →
    let n := lanePayload payload
    let p := sender.toNat
    let v := s.counted
    let r : LaneRec := { lane := n.lane, held := n.action == 1, key := n.key, stamp := s.now }
    let has := s.view.entries.any fun e => e.station == p
    let view : View :=
      if n.lane ∉ s.conf.lanes then s.view.change p fun e => { e with lane := none }
      else if n.action = 2 then
        s.view.change p fun e =>
          { e with lastHeard := s.now, lane := e.lane.filter fun x => x.lane != n.lane }
      else if has then s.view.change p fun e => { e with lane := some r, lastHeard := s.now }
      else { s.view with
          entries := s.view.entries ++ [{ station := p, lastHeard := s.now, demand := none, lane := some r }] }
    (n.lane ∉ s.conf.lanes ∨ n.action = 2 ∨ has = true ∨ s.view.entries.length < 48 →
      ∃ t, exec (.laneNotice sender target payload) s = .next t ∧ t.stable = ({ v with view := view } : State).stable ∧
        (s.depart.current ≠ some n.lane → v.searchWaits = false → v.Settled →
          ({ v with view := view } : State).Settled → ClosedFrom { v with view := view } t)) ∧
    (n.lane ∈ s.conf.lanes → n.action < 2 → has = false → 48 ≤ s.view.entries.length → v.Settled →
      ∀ x, Evicted v.ownKey s.view.entries x → s.depart.current ≠ some n.lane →
      DoesAfter (exec (.laneNotice sender target payload) s) v
        { v with view := { s.view with
            entries := (s.view.entries.filter fun e => e.station != x.station) ++
              [{ station := p, lastHeard := s.now, demand := none, lane := some r }] } }) ∧
    (n.lane ∈ s.conf.lanes → n.action < 2 → has = false → 48 ≤ s.view.entries.length → v.Settled →
      NoneEvicted v.ownKey s.view.entries → s.depart.current ≠ some n.lane →
      DoesAfter (exec (.laneNotice sender target payload) s) v
        { v with view := { s.view with
            full := some (s.now + 60000),
            contested := (s.view.contested.filter fun m => m.lane != n.lane) ++
              [{ lane := n.lane, expiry := s.now + 40000 }] } })) ∧
  ∀ (target : Byte) (payload : List Byte) (s : State), s.Hears 1 0 target payload →
    let n := lanePayload payload
    let v := s.counted
    let u : State := { v with
      view := { s.view with
        contested := s.view.contested.filter fun m => m.lane != n.lane,
        entries := s.view.entries.map fun e => { e with lane := e.lane.filter fun x => x.lane != n.lane } } }
    n.action = 2 → n.lane ∈ s.conf.lanes →
    ∃ t, exec (.laneNotice 0 target payload) s = .next t ∧ t.stable = u.stable ∧
      (s.depart.current ≠ some n.lane → v.searchWaits = false → v.Settled → u.Settled → ClosedFrom u t)

/-- What DEPART does on a LANE notice for its current lane. A station in hold-off that hears a HELD, or a CLAIM with a
better key, yields: RELEASE written, hold-off stopped (R142); one whose claim is unsent empties the slot and goes on to the
next lane, free in the view, or waits (R141, R140); a worse CLAIM does nothing. One that holds the lane and hears a HELD
keeps it or drops it without a RELEASE and searches again, and two in transit write LANE-01; a CLAIM does nothing (R151).
On a RELEASE of station 0 the claim is dropped, or the lane held in RELEASING or CLEARED, and the lane claimed anew; in
GONE the departure completes (R152, R146). A search that waits begins a new round when the record of a lane it yielded
leaves (R140). That the RELEASE has in-transit clear is the model's choice (log entry 66). -/
def Obligations.HoldOffYields : Prop :=
  (∀ (sender target : Byte) (payload : List Byte) (s : State) (e : Entry),
    s.Hears 1 sender target payload → sender ≠ 0 →
    let n := lanePayload payload
    let v := s.counted
    let better : Prop := n.key < s.depart.key.getD 0 ∨ n.key = s.depart.key.getD 0 ∧ sender.toNat < s.conf.station
    let seen : State :=
      { v with view := s.view.change sender.toNat fun e =>
          { e with
            lane := some { lane := n.lane, held := n.action == 1, key := n.key, stamp := s.now }, lastHeard := s.now } }
    let emptied (l : Line) : Line := { l with lane := { state := .empty, content := none, written := true } }
    let free (l : Nat) : Prop :=
      (∀ m ∈ s.view.contested, m.lane ≠ l) ∧ ∀ x ∈ s.view.entries, x.station ≠ sender.toNat →
        ∀ r, x.lane = some r → r.lane ≠ l
    let o := exec (.laneNotice sender target payload) s
    v.Settled → n.lane ∈ s.conf.lanes → n.action < 2 → s.view.entry sender.toNat = some e →
    s.depart.current = some n.lane →
    (s.depart.own = .claiming → n.action = 1 ∨ better →
      (s.depart.claimSent = true →
        Does o
          { seen with
            line := { v.line with
              lane := s.line.lane.write
                { action := .release, lane := n.lane, key := s.depart.key.getD 0, inTransit := false,
                  singleTry := false } },
            depart := { s.depart with own := .yielded, claimSent := false, holdOff := none } }) ∧
      (s.depart.claimSent = false → s.depart.yielded = [] →
        (s.depart.lanes = [n.lane] →
          Does o
            { seen with
              line := emptied v.line,
              depart := { s.depart with
                own := .yielded, current := none, yielded := [n.lane], holdOff := none, claimRetry := none } }) ∧
        ∀ l, s.depart.lanes = [n.lane, l] → l ≠ n.lane → free l →
          Does o
            { seen with
              line := { emptied v.line with
                lane := (emptied v.line).lane.write
                  { action := .claim, lane := l, key := s.depart.key.getD 0, inTransit := false, singleTry := true } },
              depart := { s.depart with
                current := some l, yielded := [n.lane], holdOff := none, claimRetry := none } })) ∧
    (s.depart.own = .claiming → n.action = 0 → ¬better → Does o seen) ∧
    (s.depart.own = .held → n.action = 0 → Does o seen) ∧
    (s.depart.own = .held → n.action = 1 →
      (s.phase = some .gone → (n.inTransit = false → Does o seen) ∧
        (n.inTransit = true →
          Does o { seen with faults := s.faults.write lane01 .advisory none s.depotTime })) ∧
      ∀ (h : Plan) (rest : List Plan), s.plans.list = h :: rest → h.phase = .releasing ∨ h.phase = .cleared →
        (n.inTransit = false → ¬better → Does o seen) ∧
        (n.inTransit = true ∨ better → s.depart.lanes = [n.lane] → (∀ m ∈ s.view.contested, m.lane ≠ n.lane) →
          Does o
            { seen with
              plans := { s.plans with list := { h with phase := .claiming } :: rest },
              line := emptied v.line,
              depart := { s.depart with
                own := .yielded, current := none, yielded := [n.lane], claimSent := false, holdOff := none,
                claimRetry := none, heldRefresh := none, transit := none, unlatchWait := none, clearance := none,
                refusal := if h.phase = .cleared then some (s.now + 10000) else s.depart.refusal },
              bay := { s.bay with departWatch := none } }))) ∧
  (∀ (target : Byte) (payload : List Byte) (s : State) (h : Plan) (rest : List Plan),
    s.Hears 1 0 target payload →
    let n := lanePayload payload
    let v := s.counted
    let empty : Slot LaneContent := { state := .empty, content := none, written := true }
    let claim : LaneContent :=
      { action := .claim, lane := n.lane, key := s.depart.key.getD 0, inTransit := false, singleTry := true }
    let seen : State := { v with
      view := { s.view with
        contested := s.view.contested.filter fun m => m.lane != n.lane,
        entries := s.view.entries.map fun e => { e with lane := e.lane.filter fun x => x.lane != n.lane } } }
    let anew (d : Depart) : Depart :=
      { d with own := .claiming, current := some n.lane, yielded := [], claimSent := false, holdOff := none,
               claimRetry := none }
    let o := exec (.laneNotice 0 target payload) s
    v.Settled → n.action = 2 → n.lane ∈ s.conf.lanes → s.depart.current = some n.lane → s.plans.list = h :: rest →
    (s.depart.own = .listening ∨ s.depart.own = .yielded → Does o seen) ∧
    (s.depart.own = .claiming → h.phase = .claiming → s.depart.lanes = [n.lane] →
      Does o
        { seen with
          line := { v.line with lane := (if s.depart.claimSent then s.line.lane else empty).write claim },
          depart := anew s.depart }) ∧
    (s.depart.own = .held → h.phase = .releasing ∨ h.phase = .cleared → s.depart.lanes = [n.lane] →
      Does o
        { seen with
          plans := { s.plans with list := { h with phase := .claiming } :: rest },
          line := { v.line with lane := empty.write claim },
          depart := { anew s.depart with heldRefresh := none, transit := none, unlatchWait := none, clearance := none },
          bay := { s.bay with departWatch := none } }) ∧
    (s.depart.own = .held → h.phase = .gone → rest = [] →
      ∃ t, o = .next t ∧ t.stable = seen.stable ∧ t.plans.list = [] ∧ t.line.lane = empty ∧ t.depart.own = .free ∧
        t.depart.current = none ∧ t.depart.key = none ∧ t.depart.releaseBegun = false ∧ t.depart.transit = none ∧
        t.depart.heldRefresh = none ∧ t.depart.inCharge = false)) ∧
  ∀ (sender target : Byte) (payload : List Byte) (s : State) (e : Entry) (r : LaneRec),
    s.Hears 1 sender target payload → sender ≠ 0 →
    let n := lanePayload payload
    let v := s.counted
    v.Settled → n.action = 2 → n.lane ∈ s.conf.lanes → s.view.entry sender.toNat = some e → e.lane = some r →
    r.lane = n.lane → s.phase = some .claiming → s.depart.own = .yielded → s.depart.current = none →
    n.lane ∈ s.depart.yielded → s.depart.lanes = [n.lane] → (∀ m ∈ s.view.contested, m.lane ≠ n.lane) →
    (∀ x ∈ s.view.entries, x.station ≠ sender.toNat → ∀ q, x.lane = some q → q.lane ≠ n.lane) →
    Does (exec (.laneNotice sender target payload) s)
      { v with
        view := s.view.change sender.toNat fun e =>
          { e with lastHeard := s.now, lane := e.lane.filter fun x => x.lane != n.lane },
        line := { v.line with
          lane := s.line.lane.write
            { action := .claim, lane := n.lane, key := s.depart.key.getD 0, inTransit := false, singleTry := true } },
        depart := { s.depart with
          own := .claiming, current := some n.lane, yielded := [], claimSent := false, holdOff := none,
          claimRetry := none } }

/-- A QUERY joins the answer queue while it holds fewer than 4 entries; at 4, or with another asked kind, it is only
counted (R37). -/
def Obligations.QueryTaken : Prop :=
  ∀ (sender target : Byte) (payload : List Byte) (s : State), s.Hears 7 sender target payload →
    (∀ k, askedKind (byteAt payload 0) = some k → s.line.answers.length < 4 →
      DoesAfter (exec (.queryNotice sender target payload) s) s.counted
        { s.counted with
          line := { s.counted.line with
            answers := s.line.answers ++
              [{ asker := sender.toNat, kind := k,
                 index := if k = .faultRecord then byteAt payload 1 else 0 }] } }) ∧
    (askedKind (byteAt payload 0) = none ∨ 4 ≤ s.line.answers.length →
      DoesAfter (exec (.queryNotice sender target payload) s) s.counted s.counted)

/-- A demand record ages out 60 s and a lane record 40 s after its stamp, an entry without a record 180 s after it was last
heard, at once where that time has passed when its last record goes (R31, R32). The view-full and unseen-demand flags clear
when their 60 s have passed, a contested mark when its time has (R34 to R36). -/
def Obligations.RecordsAndFlagsRunOut : Prop :=
  ((∀ (s : State) (p : Nat) (e : Entry) (r : DemandRec),
    s.running = true → s.view.entry p = some e → e.demand = some r → r.stamp + 60000 ≤ s.now →
    Does (exec (.demandRecordAged p) s)
      { s with view := { s.view with
          entries :=
            let es := s.view.entries.map fun x => if x.station = p then { x with demand := none } else x
            if e.lane = none ∧ e.lastHeard + 180000 ≤ s.now then es.filter fun x => x.station != p else es } }) ∧
  (∀ (s : State) (p : Nat) (e : Entry) (r : LaneRec),
    s.running = true → s.view.entry p = some e → e.lane = some r → r.stamp + 40000 ≤ s.now →
    let u : State := { s with view := { s.view with
        entries :=
          let es := s.view.entries.map fun x => if x.station = p then { x with lane := none } else x
          if e.demand = none ∧ e.lastHeard + 180000 ≤ s.now then es.filter fun x => x.station != p else es } }
    ∃ t, exec (.laneRecordAged p) s = .next t ∧ t.stable = u.stable ∧
      (s.searchWaits = false → u.Settled → ClosedFrom u t)) ∧
  ∀ (s : State) (p : Nat) (e : Entry),
    s.running = true → s.view.entry p = some e → e.demand = none → e.lane = none → e.lastHeard + 180000 ≤ s.now →
    Does (exec (.entryAged p) s)
      { s with view := { s.view with entries := s.view.entries.filter fun x => x.station != p } }) ∧
  ∀ (s : State) (e : Nat), s.running = true → e ≤ s.now →
    (s.view.full = some e → Does (exec .viewFullClear s) { s with view := { s.view with full := none } }) ∧
    (s.view.unseen = some e → Does (exec .unseenDemandClear s) { s with view := { s.view with unseen := none } }) ∧
    ∀ lane, { lane := lane, expiry := e } ∈ s.view.contested →
      let u : State := { s with view := { s.view with contested := s.view.contested.filter fun m => m.lane != lane } }
      ∃ t, exec (.contestedMarkExpiry lane) s = .next t ∧ t.stable = u.stable ∧
        (s.searchWaits = false → u.Settled → ClosedFrom u t)

/-! ### SHARE -/

/-- Where nothing under watch is called for, the grant in force is the one of R73: 0 for an own request of 0, else the own
stages that fit into what the power ranked ahead leaves of the available power, held at the silent floor while R76 says so;
it never exceeds the own request. A SUPPLY for group 0 or the own group sets the live allowance, clamped to G; any other is
only counted (R69). -/
def Obligations.GrantComputed : Prop :=
  (∀ s : State, s.Settled →
    let ahead (e : Entry) (d : DemandRec) : Prop :=
      ∀ k, s.ownKey = some k → d.slack < k.1 ∨ d.slack = k.1 ∧ e.station < k.2
    ∀ a : Nat,
      (∃ f : Entry → Nat, a = (s.view.entries.map f).sum ∧ ∀ e ∈ s.view.entries,
        (e.demand = none → f e = 0) ∧
        ∀ d, e.demand = some d → (ahead e d → f e = d.requested * d.stageSize) ∧ (¬ahead e d → f e = 0)) →
      let available := 2 * (s.share.live - s.conf.reserve)
      let g := if s.ownRequest = 0 ∨ available ≤ a then 0 else min s.ownRequest ((available - a) / s.heat.stageSize)
      let held := 128 ≤ s.line.counter ∨ s.line.twin = true ∨ s.view.unseen ≠ none ∨ s.start.station ≠ .operating
      (held → s.share.grant = min g s.conf.silentFloor) ∧ (¬held → s.share.grant = g) ∧
        s.share.grant ≤ s.ownRequest) ∧
  ∀ (target : Byte) (payload : List Byte) (s : State), s.Hears 2 0 target payload →
    let p := supplyPayload payload
    (p.group = 0 ∨ p.group = s.conf.group →
      DoesAfter (exec (.supplyNotice 0 target payload) s) s.counted
        { s.counted with share := { s.share with live := min p.allowance s.conf.allowance } }) ∧
    (p.group ≠ 0 → p.group ≠ s.conf.group →
      DoesAfter (exec (.supplyNotice 0 target payload) s) s.counted s.counted)

/-- Refresh times that run out: DEMAND re-written with the present content (R79), HELD re-written (R143), the refusal
indication ended (R137), 600 s after the last TIME taken a SET clock made STALE (R22), STATUS re-written after 30 s (R168),
FAULT SUMMARY after 60 s (R131), with the present content. -/
def Obligations.TimedWrites : Prop :=
  (∀ (s : State) (e : Nat), s.running = true → e ≤ s.now →
    (s.share.announced = true → s.share.refresh = some e →
      Does (exec .demandRefresh s)
        { s with
          line := { s.line with demand := s.line.demand.write s.demandContent },
          share := { s.share with refresh := some (s.now + 20000) } }) ∧
    (s.depart.own = .held → s.depart.heldRefresh = some e →
      Does (exec .heldRefresh s)
        { s with
          line := { s.line with
            lane := s.line.lane.write
              { action := .held, lane := s.depart.current.getD 0, key := s.depart.key.getD 0,
                inTransit := s.inPhase .gone, singleTry := false } },
          depart := { s.depart with heldRefresh := some (s.now + 10000) } }) ∧
    (s.depart.refusal = some e →
      Does (exec .refusalIndicationEnd s) { s with depart := { s.depart with refusal := none } }) ∧
    (∀ τ, s.clock.state = .set → s.clock.lastTime = some τ → τ + 600000 ≤ s.now →
      Does (exec .clockStale s) { s with clock := { s.clock with state := .stale } })) ∧
  ∀ (s : State) (e : Nat), s.running = true → e ≤ s.now →
    (s.line.statusRefresh = some e →
      let u : State := { s with
        line := { s.line with
          status := s.line.status.write s.statusContent, statusRefresh := some (s.now + 30000) } }
      ∃ t, exec .statusRefresh s = .next t ∧ t.stable = u.stable ∧
        (u.Settled → ClosedFrom u t ∧ t.line.status = u.line.status ∧ t.line.statusRefresh = u.line.statusRefresh)) ∧
    (s.faults.refresh = some e →
      let u : State := { s with
        line := { s.line with summary := s.line.summary.write s.faults.summary },
        faults := { s.faults with
          shown := s.faults.summary,
          refresh := if s.bay.coach.level then some (s.now + 60000) else none } }
      ∃ t, exec .faultSummaryRefresh s = .next t ∧ t.stable = u.stable ∧
        (u.Settled → ClosedFrom u t ∧ t.line.summary = u.line.summary ∧ t.faults.refresh = u.faults.refresh))

/-! ### PLANS -/

/-- A new plan: refused as stale; placed in the order of departure behind a pinned head; refused by a full list whose
records all depart before it; or placed with the last record dropped (R5, R6). In an empty list, with pre-heat in OFF, it
becomes the head (R11) and is matched (R12): WAITING COACH without an identified coach, WRONG COACH with PLAN-01 for
another coach, PREPARING for its own, with the lamp check owed (R101), coach in charge (R135) and the class selected (R86).
Stage size and stage maximum follow the class (log entries 23 and 48), the wake profile stays current in DOWN and WAKING
(log entry 14) and the latch's running second runs on (log entry 54): the model's choices. -/
def Obligations.PlanPlaced : Prop :=
  ∀ (target : Byte) (payload : List Byte) (s : State) (d : PlanData),
    s.Hears 5 0 target payload → s.counted.Settled →
    normalisePlan s.conf.lanes (planPayload payload) = some d → (planPayload payload).cancel = false →
    (∀ x ∈ s.plans.list, x.data.id ≠ d.id) → (∀ x ∈ s.plans.list, x.held = none) →
    let stale : Prop := ∃ m, s.absMinute = some m ∧ d.absMinute + 60 < m
    let old := s.plans.list.map Plan.data
    (stale →
      Does (exec (.planNotice 0 target payload) s)
        { s.counted with plans := { s.plans with stale := true, dropped := 0 } }) ∧
    (¬stale → old.length < 4 →
      ∃ t, exec (.planNotice 0 target payload) s = .next t ∧
        t.stable = ({ s.counted with plans := { s.plans with stale := false, dropped := 0 } } : State).stable ∧
        (t.plans.list.map Plan.data).Perm (d :: old) ∧
        (s.phaseIs Phase.pinned = true → t.headId = s.headId) ∧
        (t.plans.list.map Plan.data).tail.Pairwise (fun a b => b.before a = false) ∧
        (s.phaseIs Phase.pinned = false → (t.plans.list.map Plan.data).Pairwise fun a b => b.before a = false)) ∧
    (¬stale → old.length = 4 → (∀ x ∈ old.getLast?, d.before x = false) →
      Does (exec (.planNotice 0 target payload) s)
        { s.counted with plans := { s.plans with full := true, dropped := 0 } }) ∧
    (¬stale → old.length = 4 → ∀ x ∈ old.getLast?, d.before x = true →
      ∃ t, exec (.planNotice 0 target payload) s = .next t ∧
        t.stable = ({ s.counted with plans := { s.plans with stale := false, dropped := x.id } } : State).stable ∧
        t.plans.full = false ∧ (t.plans.list.map Plan.data).Perm (d :: old.dropLast)) ∧
    (¬stale → s.plans.list = [] → s.heat.state = .off → s.heat.count = 0 → s.lamp.state = .idle → s.depart.own = .free →
      s.bay.latchMode = .automatic → (∀ m, s.absMinute = some m → m ≤ d.absMinute + s.conf.overdueLimit) →
      let head (p : Phase) : State :=
        ({ s.counted.headLeft with
          plans := { s.plans with
            list := [{ data := d, phase := p, held := none, overdue := false }], stale := false, dropped := 0 } } :
          State).classed d
      (s.link.coach = none → Does (exec (.planNotice 0 target payload) s) (head .waitingCoach)) ∧
      ∀ k, s.link.coach = some k →
        (k.id ≠ d.coach →
          Does (exec (.planNotice 0 target payload) s)
            { (head .wrongCoach).selected k.cls with
              faults := s.counted.headLeft.faults.write plan01 .blocking none s.depotTime }) ∧
        (k.id = d.coach → k.cls = d.cls →
          Does (exec (.planNotice 0 target payload) s)
            (((head .preparing).selected k.cls).prepared k.id d.skipLamps)))

/-- A revision or a cancel of a head that is REQUESTED or later is held in its record (R9). That a held revision clears the
stale indication is the model's reading (log entry 13). Any other is applied at once. A revision of the unpinned head with
pre-heat in OFF replaces its fields and matches it anew (R7, R12); of a head in PREPARING or READY for the same coach it
leaves the phase, for another coach it unpins the head, which ends its lamp check, and matches it anew (R8); of another
record it takes its place in the order behind a pinned head (R7). A cancel removes its record (R10), the head's with what a
change of head ends (R11). Stage size and stage maximum follow the class (log entries 23 and 48), the wake profile stays
current in DOWN and WAKING (log entry 14), a revision to another coach leaves coach in charge (log entry 25), the counts of
an ended check stay as they are (log entry 43) and the latch's running second runs on (log entry 54): the model's choices.
-/
def Obligations.ChangeHeld : Prop :=
  (∀ (target : Byte) (payload : List Byte) (s : State) (d : PlanData) (h : Plan) (rest : List Plan),
    s.Hears 5 0 target payload → s.counted.Settled →
    normalisePlan s.conf.lanes (planPayload payload) = some d →
    s.plans.list = h :: rest → h.data.id = d.id → h.phase.underWay = true →
    ((planPayload payload).cancel = false →
      Does (exec (.planNotice 0 target payload) s)
        { s.counted with plans := { s.plans with
            list := { h with held := some (.revision d) } :: rest, stale := false, dropped := 0 } }) ∧
    ((planPayload payload).cancel = true →
      Does (exec (.planNotice 0 target payload) s)
        { s.counted with plans := { s.plans with
            list := { h with held := some .cancel } :: rest, dropped := 0 } })) ∧
  ∀ (target : Byte) (payload : List Byte) (s : State) (d : PlanData) (h : Plan) (rest : List Plan),
    s.Hears 5 0 target payload → s.counted.Settled →
    normalisePlan s.conf.lanes (planPayload payload) = some d → s.plans.list = h :: rest →
    ((planPayload payload).cancel = false → h.data.id = d.id → h.held = none → h.overdue = false →
      s.heat.state = .off → s.heat.count = 0 →
      (∀ m, s.absMinute = some m → m ≤ d.absMinute + s.conf.overdueLimit) →
      let head (p : Phase) (f : Faults) : State :=
        ({ s.counted with
          plans := { s.plans with list := { h with data := d, phase := p } :: rest, stale := false, dropped := 0 },
          faults := f } : State).classed d
      let kept (x : State) : State :=
        { x with heat := { x.heat with
            run := if h.data.cls ≠ d.cls ∨ h.data.target ≠ d.target then none else s.heat.run } }
      let wrong : Faults := s.faults.write plan01 .blocking none s.depotTime
      let right : Faults := if h.phase = .wrongCoach then s.faults.unmark plan01 else s.faults
      (rest = [] → h.phase = .waitingCoach ∨ h.phase = .wrongCoach →
        s.lamp.state = .idle ∨ s.lamp.state = .abandoned →
        (s.link.coach = none →
          Does (exec (.planNotice 0 target payload) s) (kept (head .waitingCoach right))) ∧
        ∀ k, s.link.coach = some k →
          (k.id ≠ d.coach →
            Does (exec (.planNotice 0 target payload) s) (kept (head .wrongCoach wrong))) ∧
          (k.id = d.coach → k.cls = d.cls →
            Does (exec (.planNotice 0 target payload) s)
              (((kept (head .preparing right)).selected k.cls).prepared k.id d.skipLamps))) ∧
      (h.phase = .preparing ∨ h.phase = .ready → ∀ k, s.link.coach = some k →
        (k.id = d.coach → k.cls = d.cls → h.data.coach = d.coach → h.data.cls = d.cls →
          h.data.skipLamps = d.skipLamps →
          Does (exec (.planNotice 0 target payload) s) ((kept (head h.phase s.faults)).selected k.cls)) ∧
        (rest = [] → k.id ≠ d.coach → h.data.coach ≠ d.coach → s.link.queue = [] → s.link.exchange = none →
          s.lamp.lit = false →
          Does (exec (.planNotice 0 target payload) s)
            (let x := ((head .wrongCoach wrong).selected k.cls).checkEnded
             { x with heat := { x.heat with unreachableRecorded := false } })))) ∧
    ((planPayload payload).cancel = false → h.data.id ≠ d.id → (∃ x ∈ rest, x.data.id = d.id) →
      h.phase.pinned = true → (∀ x ∈ s.plans.list, x.held = none) →
      ∃ t, exec (.planNotice 0 target payload) s = .next t ∧
        t.stable = ({ s.counted with plans := { s.plans with stale := false, dropped := 0 } } : State).stable ∧
        t.headId = s.headId ∧
        (t.plans.list.map Plan.data).Perm
          (h.data :: (rest.map Plan.data).map fun x => if x.id = d.id then d else x) ∧
        (t.plans.list.map Plan.data).tail.Pairwise fun a b => b.before a = false) ∧
    ((planPayload payload).cancel = true → h.data.id ≠ d.id → (∃ x ∈ rest, x.data.id = d.id) →
      Does (exec (.planNotice 0 target payload) s)
        { s.counted with plans := { s.plans with
            list := h :: rest.filter fun x => x.data.id != d.id, full := false, dropped := 0 } }) ∧
    ((planPayload payload).cancel = true → h.data.id = d.id → rest = [] → h.phase.underWay = false →
      s.heat.state = .off → s.depart.own = .free → s.bay.latchMode = .automatic → s.link.queue = [] →
      s.link.exchange = none → s.lamp.lit = false →
      let u : State :=
        ({ s.counted.headLeft with
          plans := { s.plans with list := [], full := false, dropped := 0 } } : State).checkEnded
      Does (exec (.planNotice 0 target payload) s)
        (match s.link.coach with
         | none => u
         | some k => u.selected k.cls))

/-! ### FAULTS -/

/-- FAULT CLEAR without RECHECK LAMPS removes records by its scope, and with scope ALL clears the overflow flag (R129). -/
def Obligations.FaultsCleared : Prop :=
  ∀ (target : Byte) (payload : List Byte) (s : State), s.Hears 6 0 target payload →
    let c := clearPayload payload
    c.recheck = false →
    (c.scope = 0 →
      DoesAfter (exec (.faultClearNotice 0 target payload) s) s.counted
        { s.counted with faults := { s.faults with table := [], overflow := false } }) ∧
    (c.scope = 1 →
      DoesAfter (exec (.faultClearNotice 0 target payload) s) s.counted
        { s.counted with faults := { s.faults with
            table := s.faults.table.filter fun r => decide ¬(
              if c.source = 0 then r.key.source.isCoach = true
              else if c.source = 64 then r.key.source.isLamp = true
              else r.key.source.code = c.source) } }) ∧
    (c.scope = 2 →
      DoesAfter (exec (.faultClearNotice 0 target payload) s) s.counted
        { s.counted with faults := { s.faults with
            table := s.faults.table.filter fun r => decide ¬(
              c.source ≠ 0 ∧ c.source ≠ 64 ∧ r.key.source.code = c.source ∧ r.key.code = c.code) } })

/-- Periodic due: a periodic read begins while the link is UP, PLUG LATCHED active and the reader not reading, with the FAULT
SUMMARY slot HELD; otherwise the due time moves 600 s (R122, R131), counted from the time it was due (log entry 39). The
request placed starts at once where it may (R89, log entry 45). The two log entries are the model's choices. -/
def Obligations.PeriodicRead : Prop :=
  ∀ (s : State) (e : Nat), s.running = true → s.faults.periodicDue = some e → e ≤ s.now →
    let reading := s.faults.reader = .counting ∨ s.faults.reader = .reading
    (s.link.state = .up → s.bay.latched.level = true → ¬reading → s.link.count .fault < 4 →
      let u : State :=
        ({ s with
          line := { s.line with summary := { s.line.summary with state := .held } },
          faults := { s.faults with
            reader := .counting, kind := .periodic, pass := [], spoilt := false, restarts := 0, periodicDue := none },
          link := { s.link with
            queue := s.link.queue ++ [{ job := .fault, kind := .faultCount, arg := 0, closing := false }] } } : State).begun
      ∃ t, exec .periodicDue s = .next t ∧ t.stable = u.stable ∧
        (u.Settled → ClosedFrom u t ∧ t.line.summary.state = .held)) ∧
    (s.link.state ≠ .up ∨ s.bay.latched.level = false ∨ reading →
      Does (exec .periodicDue s) { s with faults := { s.faults with periodicDue := some (e + 600000) } })

/-- A write of a new key into a table of 32 records takes the place of the oldest INFO record, a BLOCKING one otherwise that
of the oldest ADVISORY record; else the write is discarded and the overflow flag set (R120). A coach fault as read is
written with its unit, code and coach state and the severity of the first of R121's steps that applies. -/
def Obligations.FaultsPlaced : Prop :=
  (∀ (f : Faults) (k : Key) (v : Severity) (c : Option CoachState) (now : Option DepotTime),
    f.table.length = 32 → (∀ r ∈ f.table, r.key ≠ k) →
    let new : Record := { key := k, severity := v, coach := c, count := 1, first := now, last := now, present := true }
    (∀ a r b, f.table = a ++ r :: b → r.severity = .info → (∀ x ∈ a, x.severity ≠ .info) →
      f.write k v c now = { f with table := a ++ b ++ [new] }) ∧
    ((∀ x ∈ f.table, x.severity ≠ .info) → v = .blocking →
      ∀ a r b, f.table = a ++ r :: b → r.severity = .advisory → (∀ x ∈ a, x.severity ≠ .advisory) →
        f.write k v c now = { f with table := a ++ b ++ [new] }) ∧
    ((∀ x ∈ f.table, x.severity ≠ .info) → (v = .blocking → ∀ x ∈ f.table, x.severity ≠ .advisory) →
      f.write k v c now = { f with overflow := true })) ∧
  (∀ (s : State) (x : CoachFault),
    s.writeCoachFault x =
      { s with
        faults :=
          s.faults.write { source := .coach x.unit, code := x.code } (coachSeverity s.conf x.code x.level)
            (some x.state) s.depotTime }) ∧
  ∀ (c : Configuration) (code level : Nat),
    (coachSeverity c code level = .blocking ↔ code ∈ c.blockList ∨ c.blockThreshold ≤ level) ∧
    (coachSeverity c code level = .advisory ↔
      code ∉ c.blockList ∧ level < c.blockThreshold ∧ c.adviseThreshold ≤ level) ∧
    (coachSeverity c code level = .info ↔
      code ∉ c.blockList ∧ level < c.blockThreshold ∧ level < c.adviseThreshold)

/-! ### LINE -/

/-- A valid notice that no block takes lowers the counter by one, in DETACHED adds one to the recovery run, whose 32nd
sets the counter to 127; the station's own number sets the twin flag (R172, R174, R175), under a notice that R182 drops
too, the model's choice (log entry 59). A receive fault raises the
counter by one and in DETACHED ends the run (R171, R175). A station that may transmit no longer withdraws the item
presented, unless it has won arbitration (R169), which is a free value of the model, and its series begin again (log
entries 9 and 40). -/
def Obligations.NoticesCounted : Prop :=
  (∀ (kind : Nat) (sender target : Byte) (payload : List Byte) (s : State),
    s.running = true → lengthGood kind payload = true → sender.toNat ≤ 120 →
    let twin := s.line.twin || sender.toNat == s.conf.station
    (s.line.counter < 224 →
      (sender.toNat = s.conf.station ∨ (target.toNat ≠ s.conf.station ∧ target.toNat ≠ 127) ∨ 12 ≤ kind ∨
        8 ≤ kind ∧ kind ≤ 10) →
      Does (exec (.noticeNotDispatched kind sender target payload) s)
        (({ s with line := { s.line with counter := s.line.counter - 1, twin := twin } } : State).barredSince s)) ∧
    (224 ≤ s.line.counter → s.line.recovery < 31 →
      Does (exec (.noticeNotDispatched kind sender target payload) s)
        { s with line := { s.line with recovery := s.line.recovery + 1, twin := twin } }) ∧
    (224 ≤ s.line.counter → 31 ≤ s.line.recovery →
      Does (exec (.noticeNotDispatched kind sender target payload) s)
        { s with line := { s.line with counter := 127, recovery := 0, twin := twin } })) ∧
  (∀ (frame : List Byte) (s : State), s.running = true → frameFaulty frame = true →
    Does (exec (.receiveFault frame) s)
      (({ s.raised 1 with
        line := { (s.raised 1).line with
          recovery := if 224 ≤ s.line.counter then 0 else (s.raised 1).line.recovery } } : State).barredSince s)) ∧
  ∀ s was : State,
    let may (x : State) : Prop :=
      x.line.counter < 128 ∧ x.line.twin = false ∧ (x.start.station = .joining ∨ x.start.station = .operating)
    (may s ∨ ¬may was → s.barredSince was = s) ∧
    (may was → ¬may s →
      (s.line.tx = none ∨ (∃ x, s.line.tx = some x ∧ x.won = true) →
        s.barredSince was = { s with line := { s.line with statusSeries := none, answerSeries := none } }) ∧
      ∀ x, s.line.tx = some x → x.won = false →
        s.barredSince was =
          { s with
            freeCount := s.freeCount + 1,
            line := { s.line with
              statusSeries := none, answerSeries := none,
              tx := if Config.wonArbitration s.freeCount = true then some { x with won := true } else none } })

/-- The candidate of the lowest kind is presented with its content as the notice of R181 (R169): LANE and DEMAND to all
stations; the head of the answer queue, unless it is deferred while a fault read runs (R40), to its asker; STATUS and FAULT
SUMMARY to station 0; HELLO to all; in JOINING the HELLO slot alone. An answer and a STATUS begin with their first part or go
on with the next part of their series (R183), which a pause of the line does not begin anew, the model's choice (log entry
40). -/
def Obligations.ItemPresented : Prop :=
  ∀ s : State, s.line.counter < 128 → s.line.twin = false → s.line.tx = none →
    let part (i : TxItem) (kind target : Nat) (p : List Byte) (rest : List (List Byte)) : Option Tx :=
      some { item := i, frame := noticeFrame kind s.conf.station target p, rest := rest, orphan := false,
             dropped := false, won := false }
    let tx (i : TxItem) (kind : Nat) (p : List Byte) : Option Tx := part i kind 127 p []
    let deferred (a : Answer) : Prop :=
      (a.kind = .faultSummary ∨ a.kind = .faultRecord) ∧ (s.faults.reader = .counting ∨ s.faults.reader = .reading)
    let later : Prop :=
      s.start.station = .operating ∧ s.line.lane.state ≠ .pending ∧ s.line.demand.state ≠ .pending
    let unanswered : Prop := later ∧ ∀ a ∈ s.line.answers.head?, deferred a
    (∀ c, s.start.station = .operating → s.line.lane.state = .pending → s.line.lane.content = some c →
      Does (exec .presentItem s)
        { s with line := { s.line with
            tx := tx (.lane c) 1 c.payload, lane := { s.line.lane with written := false } } }) ∧
    (∀ d, s.start.station = .operating → s.line.lane.state ≠ .pending → s.line.demand.state = .pending →
      s.line.demand.content = some d →
      Does (exec .presentItem s)
        { s with line := { s.line with
            tx := tx (.demand d) 3 d.payload, demand := { s.line.demand with written := false } } }) ∧
    (∀ a rest p ps, later → s.line.answers = a :: rest → ¬deferred a →
      s.line.answerSeries = some (p :: ps) ∨ s.line.answerSeries = none ∧ s.answerParts a = p :: ps →
      Does (exec .presentItem s) { s with line := { s.line with tx := part (.answer a) 8 a.asker p ps } }) ∧
    (∀ c, unanswered → s.line.status.state = .pending → s.line.status.content = some c →
      (s.line.statusSeries = none →
        Does (exec .presentItem s)
          { s with line := { s.line with
              tx := part .status 9 0 (0 :: c.page0) [1 :: c.page1], status := { s.line.status with written := false } } }) ∧
      ∀ p ps, s.line.statusSeries = some (p :: ps) →
        Does (exec .presentItem s) { s with line := { s.line with tx := part .status 9 0 p ps } }) ∧
    (unanswered → s.line.status.state ≠ .pending →
      (∀ c, s.line.summary.state = .pending → s.line.summary.content = some c →
        Does (exec .presentItem s)
          { s with line := { s.line with
              tx := part .summary 10 0 c.payload [], summary := { s.line.summary with written := false } } }) ∧
      ∀ h, s.line.summary.state ≠ .pending → s.line.hello.state = .pending → s.line.hello.content = some h →
        Does (exec .presentItem s)
          { s with line := { s.line with
              tx := tx .hello 11 h.payload, hello := { s.line.hello with written := false } } }) ∧
    (∀ h, s.start.station = .joining → s.line.hello.state = .pending → s.line.hello.content = some h →
      Does (exec .presentItem s)
        { s with line := { s.line with
            tx := tx .hello 11 h.payload, hello := { s.line.hello with written := false } } })

/-- A sent notice lowers the counter by one; HELLO takes the station to OPERATING (R178), a claim starts its 3 s hold-off
(R142), an older one's report counting for a new claim of its lane, the model's choice (log entry 64), a part leaves the rest
of its series while the station may transmit (R183, log entry 40), an answer to a STATUS query of station 0 clears the line-trouble
latch (R41). Of an item that had won when RESTART emptied its queue entry or slot (log entry 9), such an answer clears the
latch too (R176) and leaves the queue, and the report of a HELLO is not acted on (R180). -/
def Obligations.NoticeSent : Prop :=
  (∀ (s : State) (x : Tx), s.line.tx = some x → x.orphan = true → s.line.counter < 224 →
    (x.item = .hello → Does (exec .noticeSent s) { s.counted with line := { s.counted.line with tx := none } }) ∧
    ∀ a, x.item = .answer a →
      Does (exec .noticeSent s)
        { s.counted with
          line := { s.counted.line with tx := none },
          bay := if x.rest = [] ∧ a.kind = .status ∧ a.asker = 0 then { s.bay with trouble := false } else s.bay }) ∧
  ∀ (s : State) (x : Tx), s.line.tx = some x → x.orphan = false → s.line.counter < 224 →
    (x.item = .hello → x.rest = [] → s.start.station = .joining →
      Does (exec .noticeSent s)
        { s.counted with
          start := { s.start with station := .operating },
          line := { s.counted.line with tx := none, hello := s.line.hello.sent } }) ∧
    (∀ c, x.item = .lane c → x.rest = [] → c.action = .claim → s.depart.own = .claiming →
      s.depart.current = some c.lane →
      Does (exec .noticeSent s)
        { s.counted with
          line := { s.counted.line with tx := none, lane := s.line.lane.sent },
          depart := { s.depart with claimSent := true, holdOff := some (s.now + 3000) } }) ∧
    (x.item = .status → x.rest ≠ [] →
      Does (exec .noticeSent s)
        { s.counted with
          line := { s.counted.line with
            tx := none,
            statusSeries :=
              if s.line.counter - 1 < 128 ∧ s.line.twin = false ∧
                  (s.start.station = .joining ∨ s.start.station = .operating) then some x.rest
              else none } }) ∧
    (∀ a, x.item = .answer a → x.rest = [] → a.kind = .status → a.asker = 0 →
      Does (exec .noticeSent s)
        { s.counted with
          line := { s.counted.line with tx := none, answers := s.line.answers.tail, answerSeries := none },
          bay := { s.bay with trouble := false } })

/-- A lost arbitration leaves counter and slot; a series begins again (R170, R183). A transmission failure raises the
counter by 8; a single-try claim is not sent again, its slot is emptied and the claim retry delay starts (R170,
R141, log entry 10). A counter that comes to 128 bars the station (R169; `barredSince`, stated in NoticesCounted). -/
def Obligations.PresentationsFail : Prop :=
  ∀ (s : State) (x : Tx), s.line.tx = some x → x.orphan = false →
    (∀ c, x.item = .lane c → Does (exec .arbitrationLost s) { s with line := { s.line with tx := none } }) ∧
    (x.item = .status →
      Does (exec .arbitrationLost s) { s with line := { s.line with tx := none, statusSeries := none } }) ∧
    (∀ d, x.item = .demand d →
      Does (exec .transmissionFailure s)
        (({ s.raised 8 with line := { (s.raised 8).line with tx := none } } : State).barredSince s)) ∧
    (∀ c, x.item = .lane c → c.singleTry = true → s.line.lane.written = false → s.depart.own = .claiming →
      s.depart.current = some c.lane → s.depart.claimSent = false →
      Does (exec .transmissionFailure s)
        (({ s.raised 8 with
          line := { (s.raised 8).line with
            tx := none, lane := { state := .empty, content := none, written := true } },
          depart := { s.depart with
            own := .listening, claimRetry := some (s.now + (2000 + s.conf.station % 8 * 250)) } } : State).barredSince s))

/-! ### HEAT -/

/-- A due cabin poll places CABIN TEMPERATURE, which starts at once where it may, unless one is queued or in flight (R44,
R89). The model's choices: the next poll falls 30 s after this one was due (log entry 39), a request kept at quota counts as
queued (log entry 24), a request starts within the placing (log entry 45). -/
def Obligations.CabinPolled : Prop :=
  ∀ (s : State) (e : Nat), s.running = true → s.link.state = .up → s.heat.pollDue = some e → e ≤ s.now →
    (s.heatHolds .cabinTemperature = false → s.link.count .heat < 3 →
      Does (exec .cabinPollDue s)
        (({ s with
          heat := { s.heat with pollDue := some (e + 30000) },
          link := { s.link with
            queue := s.link.queue ++ [{ job := .heat, kind := .cabinTemperature, arg := 0, closing := false }] } } : State).begun)) ∧
    (s.heatHolds .cabinTemperature = true →
      Does (exec .cabinPollDue s) { s with heat := { s.heat with pollDue := some (e + 30000) } })

/-- A due rise closes one more contactor, starts the proving window and re-writes DEMAND with the new count (R55, R158,
R159, R79); a failure taken for a welded contactor is cleared where HEATER PROVING matches the new count, the model's
choice (log entry 52). BLIND is entered after 120 s without a valid reading, its count the stages in force, the run
discarded; after 600 s its count is 1, and a stage count above 1 falls to 1 (R58). The model's choices: a reading that was
as old when the state was entered counts at once (log entry 58), one kept across a re-identification counts by its own age
(log entry 60), and at a stage maximum of 0 the BLIND count is 1 (log entry 48). -/
def Obligations.StagesAndBlind : Prop :=
  (∀ s : State, s.running = true → (s.heat.state = .heating ∨ s.heat.state = .blind) →
    s.heat.count < s.stageTarget → s.heat.enableHeld = true → s.lamp.window = none →
    (∀ c, s.heat.lastChange = some c → c + 10000 ≤ s.now) →
    s.share.announced = true → s.line.demand.content = some s.demandContent →
    let n := s.heat.count + 1
    let u : State :=
      { s with
        heat := { s.heat with
          count := n, lastChange := some s.now, waiting := none,
          run := s.heat.run.map fun r => { r with acc := r.acc + s.heat.count * (s.now - r.mark), mark := s.now } },
        bay := { s.bay with
          contactors := n, provingWindow := some (s.now + 2000),
          provingFailed := s.bay.provingFailed && !s.bay.proving.level },
        line := { s.line with demand := s.line.demand.write { s.demandContent with stagesOn := n } },
        share := { s.share with refresh := some (s.now + 20000) } }
    ∃ t, exec .stageRise s = .next t ∧ t.stable = s.stable ∧ (u.Settled → ClosedFrom u t)) ∧
  (∀ s : State, s.running = true → (s.heat.state = .heating ∨ s.heat.state = .holding) →
    ((∃ r, s.heat.reading = some r ∧ r.time + 120000 ≤ s.now) ∨
      s.heat.reading = none ∧ ∃ d, s.heat.drawingSince = some d ∧ d + 120000 ≤ s.now) →
    Does (exec .blindEntry s)
      { s with heat := { s.heat with
          state := .blind, blindCount := min (max s.heat.count 1) (max s.heat.stageMax 1), run := none, waiting := none,
          blindFromHeating := s.heat.state == .heating, blindEnd := some (s.now + 600000) } }) ∧
  ∀ (s : State) (e : Nat), s.running = true → s.heat.state = .blind → s.heat.blindEnd = some e → e ≤ s.now →
    (s.heat.count ≤ 1 →
      Does (exec .blindTimeout s)
        { s with heat := { s.heat with blindCount := 1, blindEnd := none } }) ∧
    (1 < s.heat.count → (∀ x ∈ s.plans.list, x.held = none) →
      ∃ t, exec .blindTimeout s = .next t ∧ t.stable = s.stable ∧ t.heat.state = .blind ∧
        t.heat.blindCount = 1 ∧ t.heat.blindEnd = none ∧ t.heat.count ≤ 1)

/-- The lead of R52 and R53 from temperatures, capacity, loss, margin and power; the slack of a start; the hold request of
R56, the least whole number of stages that makes up the loss, within 1 and the stage maximum; the computation of a drawing
state with the ranking slack of R71 and, in HOLDING, the hold request of R56 (1 at a stage maximum of 0, log entry 48); and
a minute event in SCHEDULED that leaves the head there (R47, R51), PREHEAT-01 written once per head (R52). The model's
choices: a second event taken from any millisecond part begins a whole second (log entry 3), one at the limit of the seconds
count is a minute event all the same (log entry 4), and a reading kept across a re-identification stands (log entry 60). -/
def Obligations.FiguresComputed : Prop :=
  (∀ (tc tt out : Int) (capacity loss margin power : Nat),
    let bracket := tc + tt - 2 * out
    let mean : Nat := if bracket ≤ 0 then 0 else loss * bracket.toNat / 4
    let net : Int := (power : Int) - mean
    let l := computeLead tc tt out capacity loss margin power
    (tt ≤ tc → l = { lead := 0, unreachable := false, longHeat := false }) ∧
    (tc < tt → net ≤ 0 ∨ net < (power / 20 : Nat) → l = { lead := 720, unreachable := true, longHeat := false }) ∧
    (tc < tt → 0 < net → ((power / 20 : Nat) : Int) ≤ net → ∀ n : Nat,
      (capacity : Int) * (tt - tc) * 500 ≤ n * (net * 60) →
      (∀ k : Nat, k < n → k * (net * 60) < (capacity : Int) * (tt - tc) * 500) →
      l = { lead := if 720 < n + margin then 720 else max (n + margin) 1, unreachable := false,
            longHeat := decide (720 < n + margin) })) ∧
  (∀ (start : Int) (m : Nat) (heatNow : Bool),
    slackOf start none heatNow = 0 ∧
    (slackOf start (some m) false = max (-720) (min 720 (start - m))) ∧
    slackOf start (some m) true = min 0 (max (-720) (min 720 (start - m)))) ∧
  (∀ (tt out : Int) (loss watts stageMax n : Nat), 0 < watts →
    (loss : Int) * (tt - out) ≤ n * (2 * watts) →
    (∀ k : Nat, k < n → (k : Int) * (2 * watts) < loss * (tt - out)) →
    holdRequest tt out loss watts stageMax = min (max n 1) (max stageMax 1)) ∧
  (∀ (s : State) (h : Plan) (rest : List Plan),
    s.plans.list = h :: rest → s.absMinute ≠ none ∨ h.data.heatNow = true → s.heat.state.drawing = true →
    let c := s.classCfg h.data.cls
    let l := computeLead s.cabin h.data.target s.outside s.capacity c.loss c.margin (s.share.grant * s.stageWatts)
    let start : Int := (h.data.absMinute : Int) - l.lead
    let slack := slackOf start s.absMinute h.data.heatNow
    let hold := holdRequest h.data.target s.outside c.loss s.stageWatts s.heat.stageMax
    let figures (x : Heat) : Heat :=
      { x with lead := l.lead, startMin := some start, slack := slack, unreachable := l.unreachable,
               longHeat := l.longHeat, compute := false,
               unreachableRecorded := s.heat.unreachableRecorded || l.unreachable }
    let faults := if l.unreachable = true ∧ s.heat.unreachableRecorded = false then
        s.faults.write preheat01 .advisory none s.depotTime else s.faults
    let ranked (k : Int) : Share := { s.share with fresh := false, ranking := some k }
    (s.heat.state ≠ .holding →
      s.compute =
        { s with
          heat := figures s.heat, faults := faults,
          share := ranked (if s.share.fresh then slack else s.share.ranking.elim slack fun r => min r slack) }) ∧
    (s.heat.state = .holding → s.heat.count ≤ hold →
      s.compute =
        { s with heat := { figures s.heat with holdRequest := hold }, faults := faults, share := ranked slack })) ∧
  ∀ (s : State) (h : Plan) (rest : List Plan) (x : DepotTime),
    s.running = true → s.clock.state ≠ .unset → s.clock.time = some x → x.second % 60 = 59 → x.second < 86399 →
    let m := x.day * 1440 + (x.second + 1) / 60
    s.plans.list = h :: rest → h.overdue = false → m ≤ h.data.absMinute + s.conf.overdueLimit →
    s.heat.state = .scheduled →
    let now : DepotTime := { x with second := x.second + 1 }
    let c := s.classCfg h.data.cls
    let l := computeLead s.cabin h.data.target s.outside s.capacity c.loss c.margin (s.heat.stageMax * s.stageWatts)
    let start : Int := (h.data.absMinute : Int) - l.lead
    let slack := slackOf start (some m) h.data.heatNow
    let u : State :=
      { s with
        clock := { s.clock with seconds := min (s.clock.seconds + 1) 4294967295, millis := 0, time := some now },
        heat := { s.heat with
          lead := l.lead, startMin := some start, slack := slack, unreachable := l.unreachable,
          longHeat := l.longHeat, compute := false,
          unreachableRecorded := s.heat.unreachableRecorded || l.unreachable },
        share := { s.share with fresh := false, ranking := some slack },
        faults := if l.unreachable = true ∧ s.heat.unreachableRecorded = false then
            s.faults.write preheat01 .advisory none (some now) else s.faults }
    15 < slack → ({ u with faults := s.faults } : State).Settled → u.Settled →
      ∃ t, exec .secondEvent s = .next t ∧ ClosedFrom u t

/-- What a run measures (R64) and how the learned table takes it (R65). A cabin temperature below the target ends BLIND in
HEATING with a new run (R59, R63; To at start is BAY's at that moment, log entry 47); one at or above it ends HEATING in
HOLDING, the run complete and what it measured learned, with the hold request of R56 (1 at a stage maximum of 0, log entry
48) (R55, R64); that R57 does not judge the
same reading as well is the model's choice (log entry 25), and so is it that a first stage waiting for a lamp window waits on
(log entry 20). The computation that follows is `State.compute`, stated in FiguresComputed. -/
def Obligations.RunsLearned : Prop :=
  (∀ (r : HeatRun) (tt : Int) (count now watts loss : Nat),
    let dt := Int.tdiv (tt - r.tc0) 2
    let t := (now - r.start) / 1000
    let stageSeconds := (r.acc + count * (now - r.mark)) / 1000
    let bracket := r.tc0 + tt - 2 * r.to0
    let lost : Nat := if bracket ≤ 0 then 0 else loss * (bracket.toNat / 4) * t / 1000
    let h := Int.tdiv ((stageSeconds * watts / 1000 : Nat) - (lost : Int)) dt
    (dt < 5 ∨ t < 600 ∨ h ≤ 0 → measured r tt count now watts loss = none) ∧
    (5 ≤ dt → 600 ≤ t → ∀ n : Nat, 0 < n → h = n → measured r tt count now watts loss = some n)) ∧
  (∀ (es : List Learned) (coach old meas now : Nat),
    let cap (o : Nat) : Nat := max 100 (min 4000 ((3 * o + meas + 2) / 4))
    let e : Learned := { coach := coach, capacity := cap old, runs := 1, lastUsed := now }
    ((∃ x ∈ es, x.coach = coach) →
      learn es coach old meas now = es.map fun x =>
        if x.coach = coach then { x with capacity := cap x.capacity, runs := min (x.runs + 1) 255, lastUsed := now }
        else x) ∧
    ((∀ x ∈ es, x.coach ≠ coach) → es.length < 16 → learn es coach old meas now = es ++ [e]) ∧
    ((∀ x ∈ es, x.coach ≠ coach) → 16 ≤ es.length → ∀ o ∈ es,
      (∀ x ∈ es, o.lastUsed < x.lastUsed ∨ o.lastUsed = x.lastUsed ∧ o.coach ≤ x.coach) →
      learn es coach old meas now = (es.filter fun x => x.coach != o.coach) ++ [e])) ∧
  ∀ (s : State) (x : Exchange) (τ : Nat) (b : Byte) (h : Plan) (rest : List Plan),
    s.running = true → s.link.exchange = some x → x.timeoutAt = some τ → s.now ≤ τ → x.withdrawn = false →
    x.req.job = .heat → x.req.kind = .cabinTemperature → x.number < 65536 → s.link.state = .up →
    s.plans.list = h :: rest → s.heat.kept = [] → -100 ≤ b.toInt → b.toInt ≤ 120 →
    let o := exec (.coachResponse true (responseFrame .cabinTemperature false x.number [b])) s
    let v : State :=
      { s with
        link := { s.link with exchange := none, lastEnd := some s.now, failures := 0 },
        heat := { s.heat with reading := some { temp := b.toInt, time := s.now, coach := s.coachId } } }
    let taken (w : State) : Prop :=
      w.Settled → ({ w with heat := { w.heat with compute := true } } : State).compute.Settled →
        ∃ t, o = .next t ∧ ClosedFrom ({ w with heat := { w.heat with compute := true } } : State).compute t
    (s.heat.state = .blind → s.heat.compute = false → b.toInt < h.data.target →
      taken
        { v with heat := { v.heat with
            state := .heating, blindEnd := none,
            run := some { tc0 := b.toInt, to0 := s.outside, start := s.now, acc := 0, mark := s.now,
                          coach := h.data.coach } } }) ∧
    ∀ r, s.heat.state = .heating → s.heat.compute = false → h.data.target ≤ b.toInt → s.heat.run = some r →
      let c := s.classCfg h.data.cls
      let hold := holdRequest h.data.target s.outside c.loss s.stageWatts s.heat.stageMax
      s.heat.count ≤ hold →
      taken
        { v with
          heat := { v.heat with
            state := .holding, blindEnd := none, holdRequest := hold, run := none,
            learned := match measured r h.data.target s.heat.count s.now s.stageWatts c.loss with
              | some m => learn s.heat.learned r.coach c.capacity m s.now
              | none => s.heat.learned },
          share := { s.share with fresh := true } }

/-! ### LINK -/

/-- The queue head becomes the exchange in flight under the next number, its 6-byte request sent (R184), by EXCHANGE_START
or, for a request placed while the link is idle and the gap has passed, at the placing (R89, log entry 45); a failed try is
sent again, the same frame under its own number, when the gap has passed (R91). The response timeout runs from the end of
the request, whose length takes one start bit and is rounded up to whole milliseconds: the model's choice (log entry 12).
-/
def Obligations.ExchangesRun : Prop :=
  (∀ (s : State) (r : Request) (rest : List Request),
    s.link.exchange = none → s.link.queue = r :: rest → (s.link.state = .waking ∨ s.link.state = .up) →
    (∀ e, s.link.lastEnd = some e → e + (s.profileCfg s.link.profile).gap ≤ s.now) →
    let p := s.profileCfg s.link.profile
    let n := (s.link.number + 1) % 65536
    let u : State :=
      { s with link := { s.link with
          queue := rest, number := n,
          exchange := some { req := r, number := n, tries := 1, withdrawn := false, profile := s.link.profile,
                             timeoutAt := some (s.now + (requestTime p + p.timeout)), cause := none,
                             frame := requestFrame r.kind n r.arg } } }
    s.begun = u ∧ (s.running = true → Does (exec .exchangeStart s) u)) ∧
  (∀ s : State,
    s.link.exchange ≠ none ∨ s.link.queue = [] ∨ (s.link.state ≠ .waking ∧ s.link.state ≠ .up) ∨
      (∃ e, s.link.lastEnd = some e ∧ s.now < e + (s.profileCfg s.link.profile).gap) →
    s.begun = s) ∧
  ∀ (s : State) (x : Exchange) (e : Nat),
    s.running = true → s.link.exchange = some x → x.timeoutAt = none → s.link.lastEnd = some e →
    e + (s.profileCfg x.profile).gap ≤ s.now →
    let p := s.profileCfg x.profile
    Does (exec .tryRetry s)
      { s with link := { s.link with
          exchange := some { x with
            tries := x.tries + 1, timeoutAt := some (s.now + (requestTime p + p.timeout)) } } }

/-- The coach frames of R184 as R90 judges them: an acceptance, a refusal, a wrong echo, a parity error. -/
def Obligations.ResponsesJudged : Prop :=
  ∀ (k : ReqKind) (number echo code : Nat) (content : List Byte),
    number < 65536 → echo < 65536 → 1 ≤ code → code < 256 → content.length = k.length →
    judgeResponse k number true (responseFrame k false number content) = .accepted content ∧
    judgeResponse k number true (responseFrame k true number [byte code]) = .refused code ∧
    (echo ≠ number →
      judgeResponse k number true (responseFrame k false echo content) = .failed .wrongEcho) ∧
    judgeResponse k number false (responseFrame k false number content) = .failed .checkError

/-- An acceptable IDENTIFY response identifies the coach: its record, the class in force, the cabin poll and the read it
begins (R85, R86, R130), while without a head HEAT keeps its stage figures, the model's choice (log entry 23); a cabin
temperature in range replaces the reading (R44); a wrong echo is a failed try that waits
for its retry (R90, R91), and so is any response that ends after the response timeout (R90, log entry 11). -/
def Obligations.ResponsesTaken : Prop :=
  (∀ (s : State) (x : Exchange) (content : List Byte) (c : Coach),
    s.running = true → s.link.exchange = some x → (∀ τ, x.timeoutAt = some τ → s.now ≤ τ) → x.withdrawn = false →
    x.req.job = .ident → x.req.kind = .identify → x.number < 65536 → s.link.state = .waking →
    content.length = 8 → identity content = some c →
    let u : State :=
      { s with
        line := { s.line with summary := { s.line.summary with state := .held } },
        link := { s.link with
          exchange := none, lastEnd := some s.now, coach := some c, identified := true, failures := 0, wakeDue := none,
          state := .up, cls := some c.cls, profile := (s.classCfg c.cls).profile,
          queue := [{ job := .heat, kind := .cabinTemperature, arg := 0, closing := false },
                    { job := .fault, kind := .faultCount, arg := 0, closing := false }] },
        heat := { s.heat with
          coachMax := some c.heaterMax, enableHeld := false,
          reading := s.heat.reading.filter fun r => r.coach == some c.id,
          pollDue := some (s.now + 30000) },
        faults := { s.faults with
          table := if s.faults.lastId = some c.id then s.faults.table else [],
          overflow := if s.faults.lastId = some c.id then s.faults.overflow else false,
          lastId := some c.id, complete := false, reader := .counting, kind := .identification, pass := [],
          spoilt := false, restarts := 0, periodicDue := none } }
    ∃ t, exec (.coachResponse true (responseFrame .identify false x.number content)) s = .next t ∧
      t.stable = u.stable ∧
      (s.plans.list = [] → s.heat.state = .off → s.heat.kept = [] → s.lamp.state ≠ .suspended → s.link.queue = [] →
        s.faults.reader ≠ .counting → s.faults.reader ≠ .reading → 1 ≤ (s.profileCfg s.link.profile).gap →
        u.Settled → ClosedFrom u t)) ∧
  (∀ (s : State) (x : Exchange) (b : Byte),
    s.running = true → s.link.exchange = some x → (∀ τ, x.timeoutAt = some τ → s.now ≤ τ) → x.withdrawn = false →
    x.req.job = .heat → x.req.kind = .cabinTemperature → x.number < 65536 → s.link.state = .up →
    s.heat.state = .off → s.heat.kept = [] → -100 ≤ b.toInt → b.toInt ≤ 120 →
    let u : State :=
      { s with
        link := { s.link with exchange := none, lastEnd := some s.now, failures := 0 },
        heat := { s.heat with
          reading := some { temp := b.toInt, time := s.now, coach := s.coachId }, compute := false } }
    ∃ t, exec (.coachResponse true (responseFrame .cabinTemperature false x.number [b])) s = .next t ∧
      t.stable = u.stable ∧ (u.Settled → ClosedFrom u t)) ∧
  (∀ (s : State) (x : Exchange) (echo : Nat) (content : List Byte),
    s.running = true → s.link.exchange = some x → (∀ τ, x.timeoutAt = some τ → s.now ≤ τ) →
    x.number < 65536 → echo < 65536 → echo ≠ x.number → content.length = x.req.kind.length →
    x.tries < (s.profileCfg x.profile).retries + 1 →
    Does (exec (.coachResponse true (responseFrame x.req.kind false echo content)) s)
      { s with link := { s.link with
          exchange := some { x with timeoutAt := none, cause := some .wrongEcho }, lastEnd := some s.now } }) ∧
  ∀ (s : State) (x : Exchange) (τ : Nat) (parityGood : Bool) (frame : List Byte),
    s.running = true → s.link.exchange = some x → x.timeoutAt = some τ → τ < s.now →
    x.tries < (s.profileCfg x.profile).retries + 1 →
    Does (exec (.coachResponse parityGood frame) s)
      { s with link := { s.link with
          exchange := some { x with timeoutAt := none, cause := some .timeout }, lastEnd := some s.now } }

/-- A response timeout is a failed try (R90); the last try of an IDENTIFY sets the next wake 5 s later (R84); the third
FAILED in a row loses the coach with LINK-02 (R94). That polling stops with the link is the model's reading (log entry 42).
-/
def Obligations.TimeoutsFail : Prop :=
  ∀ (s : State) (x : Exchange) (τ : Nat),
    s.running = true → s.link.exchange = some x → x.timeoutAt = some τ → τ ≤ s.now →
    let last := (s.profileCfg x.profile).retries + 1 ≤ x.tries
    (¬last →
      Does (exec .responseTimeout s)
        { s with link := { s.link with
            exchange := some { x with timeoutAt := none, cause := some .timeout }, lastEnd := some s.now } }) ∧
    (last → x.req.job = .ident → x.withdrawn = false → s.link.state = .waking →
      Does (exec .responseTimeout s)
        { s with link := { s.link with
            exchange := none, lastEnd := some s.now, wakeDue := some (s.now + 5000) } }) ∧
    (last → x.req.job = .heat → x.req.kind = .cabinTemperature → s.link.state = .up → s.link.failures = 2 →
      s.link.queue = [] → s.heat.kept = [] → s.lamp.state = .idle →
      s.faults.reader ≠ .counting → s.faults.reader ≠ .reading →
      Does (exec .responseTimeout s)
        { s with
          link := { s.link with
            state := .down, cls := none, profile := s.conf.wakeProfile, exchange := none, lastEnd := some s.now,
            wakeDue := some (s.now + 5000), failures := 0 },
          heat := { s.heat with pollDue := none, enableHeld := false },
          faults := s.faults.write link02 .advisory none s.depotTime })

/-- Wake due with the plug in: a DOWN link wakes on the wake profile with IDENTIFY placed, a WAKING one places IDENTIFY
again (R84, R94); the request starts at once where it may (R89, log entry 45). -/
def Obligations.WakeComesDue : Prop :=
  ∀ (s : State) (e : Nat), s.running = true → s.link.wakeDue = some e → e ≤ s.now → s.bay.inserted.level = true →
    s.link.count .ident = 0 →
    let queue := s.link.queue ++ [{ job := .ident, kind := .identify, arg := 0, closing := false }]
    (s.link.state = .down →
      Does (exec .wakeDue s)
        ({ s with
          start := { s.start with wakeAfterHalt := false },
          link := { s.link with
            state := .waking, profile := s.conf.wakeProfile, wakeDue := none, resume := false,
            queue := queue } } : State).begun) ∧
    (s.link.state = .waking →
      Does (exec .wakeDue s) ({ s with link := { s.link with wakeDue := none, queue := queue } } : State).begun)

/-! ### LAMP -/

/-- A window's skip ends and sampling begins; the baseline window closes with B the average of its N samples, and LAMP
GROUP ON follows (R104), starting at once where it may (R89, log entry 45). -/
def Obligations.WindowsRun : Prop :=
  (∀ (s : State) (w : Window), s.running = true → s.lamp.window = some w → w.sampling = false →
    w.opened + w.skip ≤ s.now →
    Does (exec .windowSkipEnd s) { s with lamp := { s.lamp with window := some { w with sampling := true } } }) ∧
  ∀ (s : State) (w : Window) (xs : List Nat) (g : Nat), s.running = true → s.lamp.window = some w →
    w.sampling = true → w.isBaseline = true → w.samples = [] → xs.length = 2 ^ s.headClass.avgExp →
    (∀ x ∈ xs, x < 30000) → w.opened + w.skip + xs.length ≤ s.now → s.lamp.current = some g →
    s.link.state = .up → s.link.count .lamp < 4 →
    Does (exec (.baselineWindowClose xs) s)
      (({ s with
        lamp := { s.lamp with
          state := .measuring, window := none, baseline := some (xs.sum / xs.length), newBaseline := false,
          outstanding := some (.lampGroupOn, g) },
        link := { s.link with
          queue := s.link.queue ++ [{ job := .lamp, kind := .lampGroupOn, arg := g, closing := false }] } } : State).begun)

/-- The group window of the last group closes, that group switched on: the first line of R107 that applies gives OVERLOAD,
UNSTABLE, OPEN, OVERLOAD, OK or PARTIAL, the result joins the list, its record is written with the severity of R114 and the
group's other records lose their present marks, and the check is DONE with LAMPS OFF placed (R111); a spread failure with a
retry left measures the group again (R105, R107, R109). The request starts at once where it may (R89, log entry 45), and
the checked coach and the counts of the ended check stay as they are (log entry 43): the model's choices. -/
def Obligations.GroupJudged : Prop :=
  ∀ (s : State) (w : Window) (xs : List Nat) (g : Nat), s.running = true → s.lamp.window = some w →
    w.sampling = true → w.isBaseline = false → w.samples = [] → xs.length = 2 ^ s.headClass.avgExp →
    w.opened + w.skip + xs.length ≤ s.now → s.lamp.current = some g →
    s.link.state = .up → s.link.count .lamp < 4 →
    let ys := xs.map (min 30000)
    let k := s.headClass.groups.getD (g - 1) LampGroup.blank
    let rise : Int := ((ys.sum / ys.length : Nat) : Int) - ((s.lamp.baseline.getD 0 : Nat) : Int)
    let spread := greatest ys - least ys
    let limit := s.headClass.spreadPct * k.expected / 100
    let most : Int := (s.headClass.overPct * k.expected / 100 : Nat)
    let half : Int := (k.expected / k.lamps / 2 : Nat)
    let cleared (code : Nat) : Faults :=
      { s.faults with table := s.faults.table.map fun r =>
          if r.key.source = .lamp g ∧ r.key.code ≠ code then { r with present := false } else r }
    let serious : Severity := match k.cls with
      | .safety => .blocking
      | .other => .advisory
      | .interior => .info
    let minor : Severity := if k.cls = .safety then .blocking else .info
    let done (r : LampResult) (f : Faults) : State :=
      ({ s with
        lamp := { s.lamp with
          state := .done, current := none, window := none, outstanding := none, restart := false,
          doneBySkip := false, closing := true, switched := false,
          results := s.lamp.results ++ [{ group := g, result := r, rise := some rise }] },
        bay := { s.bay with lampWatch := none }, faults := f,
        link := { s.link with
          queue := s.link.queue ++ [{ job := .lamp, kind := .lampsOff, arg := 0, closing := true }] } } : State).begun
    let judged (r : LampResult) (f : Faults) : Prop :=
      s.lamp.groups ≤ g → s.lamp.switched = true → Does (exec (.groupWindowClose xs) s) (done r f)
    let written (code : Nat) (v : Severity) : Faults :=
      (cleared code).write { source := .lamp g, code := code } v none s.depotTime
    ((∃ x ∈ xs, 30000 ≤ x) → judged .overload (written 2 serious)) ∧
    ((∀ x ∈ xs, x < 30000) →
      (limit < spread → 2 ≤ s.lamp.retry → judged .unstable (written 3 minor)) ∧
      (limit < spread → s.lamp.retry < 2 →
        Does (exec (.groupWindowClose xs) s)
          (({ s with
            lamp := { s.lamp with
              state := if s.lamp.newBaseline then .baseline else .measuring, window := none,
              retry := s.lamp.retry + 1, outstanding := some (.lampsOff, 0) },
            link := { s.link with
              queue := s.link.queue ++ [{ job := .lamp, kind := .lampsOff, arg := 0, closing := false }] } } :
            State).begun)) ∧
      (spread ≤ limit → rise < half → judged .opened (written 1 serious)) ∧
      (spread ≤ limit → half ≤ rise → most < rise → judged .overload (written 2 serious)) ∧
      (spread ≤ limit → half ≤ rise → rise ≤ most →
        (lampsOut k.expected k.lamps rise = 0 →
          judged .ok
            { s.faults with table := s.faults.table.map fun r =>
                if r.key.source = .lamp g then { r with present := false } else r }) ∧
        ∀ n, lampsOut k.expected k.lamps rise = n + 1 → judged (.partialOut (n + 1)) (written (11 + n) minor)))

/-- The lamps out are the difference in shares rounded to the nearest whole lamp, a half toward fewer, within 0 to n − 1
(R108). -/
def Obligations.LampsOutRounded : Prop :=
  ∀ (expected lamps : Nat) (rise : Int), 1 ≤ lamps → 1 ≤ expected / lamps →
    let share := expected / lamps
    let k := lampsOut expected lamps rise
    k ≤ lamps - 1 ∧
    ((expected : Int) ≤ rise → k = 0) ∧
    (rise < (expected : Int) → k < lamps - 1 →
      2 * ((expected : Int) - rise) ≤ (2 * k + 1 : Nat) * share ∧
      (0 < k → (2 * k - 1 : Nat) * share < 2 * ((expected : Int) - rise))) ∧
    (rise < (expected : Int) → k = lamps - 1 → 0 < k →
      (2 * k - 1 : Nat) * share < 2 * ((expected : Int) - rise))

/-! ### BAY -/

/-- A raw level that comes to differ from the debounced one is counted from now, its return ends the count, a level the
input already has changes nothing; a released button takes its level and nothing else (R154). -/
def Obligations.RawLevelsCounted : Prop :=
  (∀ (i : Input) (v : Bool) (s : State),
    ((s.bay.pin i).raw = v → exec (.rawInputChange i v) s = .next s) ∧
    ((s.bay.pin i).raw ≠ v → s.bay.debouncing = true → v ≠ (s.bay.pin i).level →
      exec (.rawInputChange i v) s = .next
        { s with bay := s.bay.setPin i ({ s.bay.pin i with raw := v, due := some (s.now + s.debounceTime i) } : Pin) }) ∧
    ((s.bay.pin i).raw ≠ v → s.bay.debouncing = false ∨ v = (s.bay.pin i).level →
      exec (.rawInputChange i v) s = .next
        { s with bay := s.bay.setPin i ({ s.bay.pin i with raw := v, due := none } : Pin) })) ∧
  ∀ s : State, s.Turned .departRequest → s.bay.request.raw = false →
    exec .departRequestRelease s = .next (s.turn .departRequest)

/-- COACH PRESENT turns (R150, R131). It becomes active: the FAULT SUMMARY refresh starts. It becomes inactive: with HEAT's
armed watch set in a drawing state every stage opens, the run is discarded and PREHEAT-02 written, where the table has room
(R155, R60); without a head coach in charge is cleared; a head in WAITING COACH with coach in charge writes BAY-04; in
CLEARED the coach has gone, GONE entered with HELD re-written in transit and the lane transit running (R145); in PREPARING
and READY, and in REQUESTED to RELEASING with the lane given up, whatever the own lane state, BAY-04 is written, the head
unpinned and, the plug still in and the coach still identified, matched anew with a new lamp check and the class selected
(R150, R148, R12, R113, R101, R86). That the departure key and the lane list go with the request (log entry 51), that the
wake profile stays current in DOWN and WAKING (log entry 14), that the counts of the ended check stay as they are (log
entry 43) and that the RELEASE has in-transit clear (log entry 66) are the model's choices. -/
def Obligations.CoachPresentTurns : Prop :=
  ∀ s : State, s.running = true → s.Turned .coachPresent →
    let v := s.turn .coachPresent
    (∃ t, exec .coachPresentChange s = .next t ∧ t.stable = v.stable) ∧
    (s.bay.coach.raw = true → s.bay.heatWatch = none → s.bay.departWatch = none → v.Settled →
      ∃ t, exec .coachPresentChange s = .next t ∧ ClosedFrom v t ∧
        t.line.summary = s.line.summary.write s.faults.summary ∧ t.faults.refresh = some (s.now + 60000)) ∧
    (s.bay.coach.raw = false → s.bay.heatWatch = some Watch.heat → s.heat.state.drawing = true → 0 < s.heat.count →
      ∃ t, exec .coachPresentChange s = .next t ∧ t.heat.count = 0 ∧ t.bay.contactors = 0 ∧
        t.heat.state.drawing = false ∧ t.heat.run = none ∧ t.bay.heatWatch ≠ some Watch.heat ∧
        ((∃ r ∈ t.faults.table, r.key = preheat02 ∧ r.present = true) ∨ 32 ≤ t.faults.table.length)) ∧
    (s.bay.coach.raw = false → s.bay.heatWatch = none →
      (s.bay.departWatch = none → s.plans.list = [] →
        Does (exec .coachPresentChange s)
          { v with
            depart := { s.depart with inCharge := false }, faults := { s.faults with refresh := none } }) ∧
      (s.bay.departWatch = none → s.phase = some .waitingCoach → s.depart.inCharge = true → s.link.coach = none →
        Does (exec .coachPresentChange s)
          { v with
            depart := { s.depart with inCharge := false },
            faults := ({ s.faults with refresh := none } : Faults).write bay04 .advisory none s.depotTime }) ∧
      (∀ (h : Plan) (rest : List Plan) (l : Nat),
        s.bay.departWatch = some { pairs := [(.coachPresent, true)], armed := true } → s.plans.list = h :: rest →
        h.phase = .cleared → s.depart.current = some l →
        Does (exec .coachPresentChange s)
          { v with
            plans := { s.plans with list := { h with phase := .gone } :: rest },
            line := { s.line with
              lane := s.line.lane.write
                { action := .held, lane := l, key := s.depart.key.getD 0, inTransit := true, singleTry := false } },
            depart := { s.depart with
              inCharge := false, clearance := none, heldRefresh := some (s.now + 10000),
              transit := some (s.now + s.conf.transit.getD (l - 1) 20 * 1000) },
            bay := { v.bay with departWatch := none }, faults := { s.faults with refresh := none } }) ∧
      ∀ (h : Plan) (c : Coach),
        s.bay.departWatch = none ∨
          h.phase = .releasing ∧ s.bay.departWatch = some { pairs := [(.plugLatched, true)], armed := true } →
        s.plans.list = [h] → h.held = none → h.data.skipLamps = false →
        s.link.coach = some c → c.id = h.data.coach → c.cls = h.data.cls → s.link.queue = [] →
        s.link.exchange = none → s.heat.state = .off → s.lamp.state = .done → s.lamp.lit = false →
        let back (x : State) : State :=
          { x with
            plans := { s.plans with list := [{ h with phase := .preparing }] },
            faults := ({ s.faults with refresh := none } : Faults).write bay04 .advisory none s.depotTime,
            link := { s.link with
              cls := some c.cls,
              profile := if s.link.state = .down ∨ s.link.state = .waking then s.link.profile
                else (s.classCfg c.cls).profile },
            lamp := { s.lamp with
              state := .waiting, checked := some c.id, current := none, baseline := none, window := none,
              outstanding := none, restart := false, closing := false, recheck := false, doneBySkip := false,
              results := [] },
            bay := { v.bay with lampWatch := none, departWatch := none },
            depart := { x.depart with inCharge := true } }
        (h.phase = .preparing ∨ h.phase = .ready → Does (exec .coachPresentChange s) (back v)) ∧
        (h.phase = .requested ∨ h.phase = .finalRead ∨ h.phase = .claiming ∨ h.phase = .releasing →
          Does (exec .coachPresentChange s)
            (back { v with
              line := { s.line with
                lane :=
                  if s.depart.own = .held ∨ s.depart.own = .claiming ∧ s.depart.claimSent = true then
                    s.line.lane.write
                      { action := .release, lane := s.depart.current.getD 0, key := s.depart.key.getD 0,
                        inTransit := false, singleTry := false }
                  else if s.depart.own = .claiming then { state := .empty, content := none, written := true }
                  else s.line.lane },
              depart := { s.depart with
                own := .free, current := none, yielded := [], claimSent := false, holdOff := none, claimRetry := none,
                heldRefresh := none, transit := none, unlatchWait := none, clearance := none, releaseBegun := false,
                key := none, lanes := [] } })))

/-- PLUG INSERTED turns: in, a DOWN link wakes with IDENTIFY placed, which starts at once where it may (R89, log entry 45),
and the latch closes a second later (R84, R160); out, the link is DOWN with an empty queue, the coach forgotten, the
exchange ended and the cabin reading absent (R97, R44). That polling stops with the plug is the model's reading (log entry
42), and that the removal is the end of the exchange it cuts, from which the gap counts, the model's choice (log entry 57).
-/
def Obligations.PlugInsertedTurns : Prop :=
  ∀ s : State, s.running = true → s.Turned .plugInserted →
    (s.bay.inserted.raw = true → s.link.state = .down → s.bay.latchMode = .automatic → s.bay.latchClosed = false →
      s.bay.lampWatch = none → s.link.count .ident = 0 →
      Does (exec .plugInsertedChange s)
        (({ s.turn .plugInserted with
          start := { s.start with wakeAfterHalt := false },
          link := { s.link with
            identified := false, state := .waking, profile := s.conf.wakeProfile, wakeDue := none, resume := false,
            queue := s.link.queue ++ [{ job := .ident, kind := .identify, arg := 0, closing := false }] },
          bay := { (s.turn .plugInserted).bay with closeAt := some (s.now + 1000) } } : State).begun)) ∧
    (s.bay.inserted.raw = false →
      ∃ t, exec .plugInsertedChange s = .next t ∧
        t.stable =
          ({ s.turn .plugInserted with
            link := { s.link with
              coach := none,
              lastEnd := if s.link.exchange.isSome then some s.now else s.link.lastEnd } } : State).stable ∧
        t.link.state = .down ∧ t.link.queue = [] ∧ t.link.exchange = none ∧ t.link.number = s.link.number ∧
        t.heat.reading = none ∧ t.heat.pollDue = none)

/-- PLUG LATCHED turns: active, the latch check stops, as nothing is owed then (the model's reading, log entry 28);
inactive under a closed command with the plug in, it starts (R161); inactive in RELEASING, CLEARED is entered (R144, R145);
inactive with HEAT's armed watch set in a drawing state, HEAT's event opens every stage, writes PREHEAT-02 and stops it as
a proving failure does (R155, R60), a latch held open opens (R160), and a failure taken for a welded contactor is cleared
where HEATER PROVING is inactive, the model's choice (log entry 52). HEATER PROVING turns, or its window ends: a match ends
a failure; a mismatch outside a window is a failure taken once, with BAY-02, that opens the stages and stops HEAT, from OFF
and from a drawing state, whose demand is withdrawn, its grant 0 and HEATER DISABLE placed (R159, R60, R80, R73, R50; the
request starts at once where it may, R89, log entry 45). The withdrawal carries slack 0, as the ranking slack is gone
(R71): the model's choice (log entry 19). -/
def Obligations.ContactsTurn : Prop :=
  ∀ s : State, s.running = true →
    let drawn : Prop :=
      s.heat.state.drawing = true ∧ 0 < s.heat.count ∧ s.lamp.state ≠ .baseline ∧ s.lamp.state ≠ .measuring ∧
        s.share.announced = true ∧ s.share.demandSent = true ∧ s.heat.enableHeld = true ∧ s.link.state = .up ∧
        s.link.count .heat < 3
    let opened (v : State) (k : Key) (failed : Bool) (check : Option Nat) : State :=
      ({ v with
        bay := { v.bay with
          contactors := 0, provingWindow := some (s.now + 2000), provingFailed := failed, heatWatch := none,
          latchClosed := v.bay.latchClosed && !v.bay.heldOpen, latchCheck := check, heldOpen := false },
        faults := s.faults.write k .advisory none s.depotTime,
        heat := { s.heat with
          state := .stopped, count := 0, lastChange := some s.now, run := none, waiting := none, blindEnd := none,
          drawingSince := none, compute := false },
        line := { s.line with
          demand := s.line.demand.write
            { group := s.conf.group, requested := 0, stageSize := s.heat.stageSize, slack := 0, drawing := false,
              stagesOn := 0 } },
        share := { s.share with grant := 0, ranking := none, announced := false, refresh := none },
        link := { s.link with
          queue := s.link.queue ++ [{ job := .heat, kind := .heaterDisable, arg := 0, closing := false }] } } :
        State).begun
    (s.Turned .plugLatched → s.bay.heatWatch = none →
      (s.bay.departWatch = none →
        Does (exec .plugLatchedChange s)
          { s.turn .plugLatched with
            bay := { (s.turn .plugLatched).bay with
              latchCheck :=
                if s.bay.latched.raw then none
                else if s.bay.latchClosed = true ∧ s.bay.inserted.level = true then some (s.now + 2000)
                else s.bay.latchCheck } }) ∧
      ∀ (h : Plan) (rest : List Plan), s.bay.latched.raw = false →
        s.bay.departWatch = some { pairs := [(.plugLatched, true)], armed := true } → s.plans.list = h :: rest →
        h.phase = .releasing → s.bay.latchClosed = false → s.bay.coach.level = true →
        Does (exec .plugLatchedChange s)
          { s.turn .plugLatched with
            plans := { s.plans with list := { h with phase := .cleared } :: rest },
            depart := { s.depart with
              unlatchWait := none, refusal := none, clearance := some (s.now + s.conf.clearance * 1000) },
            bay := { (s.turn .plugLatched).bay with
              departWatch := some { pairs := [(.coachPresent, true)], armed := true } } }) ∧
    (s.Turned .plugLatched → s.bay.latched.raw = false → s.bay.heatWatch = some Watch.heat →
      s.bay.departWatch = none → drawn →
      Does (exec .plugLatchedChange s)
        (opened (s.turn .plugLatched) preheat02 (s.bay.provingFailed && s.bay.proving.level)
          (if s.bay.latchClosed = true ∧ s.bay.heldOpen = false ∧ s.bay.inserted.level = true then some (s.now + 2000)
            else if s.bay.heldOpen then none else s.bay.latchCheck))) ∧
    (let stopped (v : State) : State :=
      { v with
        bay := { v.bay with provingWindow := none, provingFailed := true, contactors := 0, heatWatch := none },
        faults := s.faults.write bay02 .advisory none s.depotTime,
        heat := { s.heat with
          state := .stopped, run := none, waiting := none, blindEnd := none, drawingSince := none },
        share := { s.share with ranking := none } }
     let failed (v : State) : State :=
      opened v bay02 false (if v.bay.heldOpen then none else v.bay.latchCheck)
     (s.Turned .heaterProving →
      (s.bay.proving.raw = decide (0 < s.heat.count) →
        Does (exec .heaterProvingChange s)
          { s.turn .heaterProving with bay := { (s.turn .heaterProving).bay with provingFailed := false } }) ∧
      (s.bay.provingWindow = none → s.bay.provingFailed = false →
        (s.bay.proving.raw = true → s.heat.count = 0 → s.heat.state = .off → s.share.announced = false →
          Does (exec .heaterProvingChange s) (stopped (s.turn .heaterProving))) ∧
        (s.bay.proving.raw = false → drawn → Does (exec .heaterProvingChange s) (failed (s.turn .heaterProving))))) ∧
     ∀ e, s.bay.provingWindow = some e → e ≤ s.now →
      (s.bay.proving.level = decide (0 < s.heat.count) →
        Does (exec .provingWindowEnd s)
          { s with bay := { s.bay with provingWindow := none, provingFailed := false } }) ∧
      (s.bay.proving.level ≠ decide (0 < s.heat.count) → s.bay.provingFailed = true →
        Does (exec .provingWindowEnd s) { s with bay := { s.bay with provingWindow := none } }) ∧
      (s.bay.provingFailed = false →
        (s.bay.proving.level = true → s.heat.count = 0 → s.heat.state = .off → s.share.announced = false →
          Does (exec .provingWindowEnd s) (stopped s)) ∧
        (s.bay.proving.level = false → drawn → Does (exec .provingWindowEnd s) (failed s))))

/-- The second of R160 over in AUTOMATIC mode with the plug in, the latch is commanded closed and its check starts; a check
that runs out with PLUG LATCHED inactive writes BAY-01 (R161); that no check starts while PLUG LATCHED is active is the
model's reading (log entry 28). A probe sample is held, the first out of range writes BAY-03 (R156); a sample is taken
whenever it comes, the model's choice (log entry 38). -/
def Obligations.LatchAndProbe : Prop :=
  ∀ s : State, s.running = true →
    (∀ e, s.bay.debouncing = true → s.bay.closeAt = some e → e ≤ s.now → s.bay.latchMode = .automatic →
      s.bay.inserted.level = true → s.bay.latchClosed = false →
      Does (exec .latchCloseDelayEnd s)
        { s with bay := { s.bay with
            latchClosed := true, heldOpen := false, closeAt := none,
            latchCheck := if s.bay.latched.level then none else some (s.now + 2000) } }) ∧
    (∀ e, s.bay.latchCheck = some e → e ≤ s.now →
      Does (exec .latchCheckTimeout s)
        { s with
          bay := { s.bay with latchCheck := none },
          faults := if s.bay.latched.level then s.faults
            else s.faults.write bay01 .advisory none s.depotTime }) ∧
    (∀ x : Int, -100 ≤ x → x ≤ 120 →
      Does (exec (.probeSample (some x)) s) { s with bay := { s.bay with probe := .inRange x } }) ∧
    (∀ x : Option Int, (∀ y, x = some y → y < -100 ∨ 120 < y) →
      Does (exec (.probeSample x) s)
        { s with
          bay := { s.bay with probe := .outOfRange },
          faults := if s.bay.probe = .outOfRange then s.faults
            else s.faults.write bay03 .info none s.depotTime })

/-! ### DEPART -/

/-- A press that is refused sets the reason and the 10 s indication (R137): no head, a head not READY, too early. -/
def Obligations.PressRefused : Prop :=
  ∀ s : State, s.running = true → s.Turned .departRequest → s.bay.request.raw = true →
    let refused (r : RefusalReason) : State :=
      { s.turn .departRequest with
        depart := { s.depart with lastRefusal := r, refusal := some (s.now + 10000) } }
    (s.phase = none → Does (exec .departRequestPress s) (refused .noPlan)) ∧
    (s.phase = some .waitingCoach ∨ s.phase = some .wrongCoach ∨ s.phase = some .preparing →
      Does (exec .departRequestPress s) (refused (if s.verdict = .blocked then .blocked else .notReady))) ∧
    (∀ h m, s.plans.list.head? = some h → h.phase = .ready → s.absMinute = some m →
      m + s.conf.earlyWindow < h.data.absMinute →
      Does (exec .departRequestPress s) (refused .tooEarly))

/-- A request taken with the link UP: key and lanes fixed, FINAL READ with a final read begun (R138, R126, R122),
its request starting at once where it may (R89, log entry 45). -/
def Obligations.PressTaken : Prop :=
  ∀ (s : State) (h : Plan) (rest : List Plan),
    s.running = true → s.Turned .departRequest → s.bay.request.raw = true →
    s.plans.list = h :: rest → h.phase = .ready →
    (∀ m, s.absMinute = some m → h.data.absMinute ≤ m + s.conf.earlyWindow) →
    s.link.state = .up → s.faults.reader ≠ .counting → s.faults.reader ≠ .reading → s.link.count .fault < 4 →
    s.faults.report = none → s.start.station = .operating → s.line.counter < 128 → s.line.twin = false →
    s.bay.latched.level = true → s.verdict ≠ .blocked → s.readingValid = true →
    let u : State :=
      ({ s.turn .departRequest with
        plans := { s.plans with list := { h with phase := .finalRead } :: rest },
        depart := { s.depart with
          key := some h.data.absMinute, lastRefusal := .none,
          lanes := if h.data.lanes = [] then s.conf.lanes else h.data.lanes },
        line := { s.line with summary := { s.line.summary with state := .held } },
        faults := { s.faults with
          reader := .counting, kind := .final, pass := [], spoilt := false, restarts := 0, periodicDue := none },
        link := { s.link with
          queue := s.link.queue ++ [{ job := .fault, kind := .faultCount, arg := 0, closing := false }] } } : State).begun
    ∃ t, exec .departRequestPress s = .next t ∧ t.stable = u.stable ∧ (u.Settled → ClosedFrom u t)

/-- The claim retry delay over and the lane free in the view, the claim is written again (R141); the hold-off over with no
yield, the lane is HELD and the phase RELEASING, the link halting behind its exchange (R142, R144, R95). At the halt polling
stops (log entry 42) and requests kept at quota go (log entry 24): the model's readings. -/
def Obligations.LaneClaimed : Prop :=
  (∀ (s : State) (e l : Nat), s.running = true → s.depart.own = .listening → s.depart.claimRetry = some e →
    e ≤ s.now → s.depart.current = some l → (∀ m ∈ s.view.contested, m.lane ≠ l) →
    (∀ x ∈ s.view.entries, ∀ r, x.lane = some r → r.lane = l → r.held = false ∧
      (s.depart.key.getD 0 < r.key ∨ s.depart.key.getD 0 = r.key ∧ s.conf.station ≤ x.station)) →
    Does (exec .claimRetryDelayEnd s)
      { s with
        line := { s.line with
          lane := s.line.lane.write
            { action := .claim, lane := l, key := s.depart.key.getD 0, inTransit := false, singleTry := true } },
        depart := { s.depart with
          own := .claiming, current := some l, claimSent := false, holdOff := none, claimRetry := none } }) ∧
  ∀ (s : State) (e l : Nat) (h : Plan) (rest : List Plan),
    s.running = true → s.depart.own = .claiming → s.depart.holdOff = some e → e ≤ s.now →
    s.depart.current = some l → s.plans.list = h :: rest → h.phase = .claiming →
    s.heat.state = .off → s.lamp.state = .done → s.link.state = .up → s.link.exchange ≠ none → s.link.queue = [] →
    Does (exec .holdOffExpiry s)
      { s with
        plans := { s.plans with list := { h with phase := .releasing } :: rest },
        line := { s.line with
          lane := s.line.lane.write
            { action := .held, lane := l, key := s.depart.key.getD 0, inTransit := false, singleTry := false } },
        depart := { s.depart with
          own := .held, holdOff := none, heldRefresh := some (s.now + 10000), releaseBegun := true },
        heat := { s.heat with pollDue := none, kept := [] },
        link := { s.link with state := .halting } }

/-- A departure falls back from RELEASING or CLEARED with its lane HELD: RELEASE written, own lane state FREE, key and
lanes gone, the latch closed on a plug that is in, the head in PREPARING or READY (R144, R145, R147, R148). That the RELEASE
has in-transit clear is the model's choice (log entry 66). -/
def Obligations.DepartureFallsBack : Prop :=
  ∀ (c : Instr) (s : State) (h : Plan) (rest : List Plan) (e l : Nat),
    s.running = true → s.plans.list = h :: rest → h.held = none → s.depart.own = .held → s.depart.current = some l →
    s.depart.releaseBegun = true → e ≤ s.now →
    (c = .unlatchWaitExpiry ∧ h.phase = .releasing ∧ s.depart.unlatchWait = some e ∨
      c = .clearanceTimeout ∧ h.phase = .cleared ∧ s.depart.clearance = some e ∨
      c = .departRequestPress ∧ (h.phase = .releasing ∨ h.phase = .cleared) ∧ s.Turned .departRequest ∧
        s.bay.request.raw = true) →
    ∃ t, exec c s = .next t ∧
      t.stable = (if c = .departRequestPress then s.turn .departRequest else s).stable ∧
      t.line.lane = s.line.lane.write
        { action := .release, lane := l, key := s.depart.key.getD 0, inTransit := false, singleTry := false } ∧
      t.depart.own = .free ∧ t.depart.current = none ∧ t.depart.key = none ∧ t.depart.lanes = [] ∧
      t.depart.releaseBegun = false ∧ t.depart.unlatchWait = none ∧ t.depart.clearance = none ∧
      t.depart.lastRefusal = s.depart.lastRefusal ∧ t.bay.departWatch = none ∧
      (s.bay.inserted.level = true → t.bay.latchClosed = true) ∧
      (t.phase = some .preparing ∨ t.phase = some .ready)

/-- The lane transit over, the RELEASE is written, the lane FREE and the departure complete: its record leaves the list
(R146, R15). That the RELEASE has in-transit clear, although it is written in GONE, is the model's choice (log entry 66). -/
def Obligations.TransitCompletes : Prop :=
  ∀ (s : State) (h : Plan) (e l : Nat), s.running = true → s.plans.list = [h] → h.phase = .gone →
    s.depart.own = .held → s.depart.current = some l → s.depart.transit = some e → e ≤ s.now →
    ∃ t, exec .laneTransitExpiry s = .next t ∧ t.stable = s.stable ∧ t.plans.list = [] ∧ t.plans.full = false ∧
      t.line.lane = s.line.lane.write
        { action := .release, lane := l, key := s.depart.key.getD 0, inTransit := false, singleTry := false } ∧
      t.depart.own = .free ∧ t.depart.current = none ∧ t.depart.key = none ∧ t.depart.releaseBegun = false ∧
      t.depart.transit = none ∧ t.depart.heldRefresh = none ∧ t.depart.inCharge = false
end

