-- ==== Sys2Proof/Laws/State.lean ====
section
/-! SUPPORT. One lemma per field per block update, true by rfl, so that no proof unfolds a record update. -/

namespace Sys2Proof.Machine

@[simp] theorem updStart_pending (s : State) (f : Start → Start) : (s.updStart f).pending = s.pending := rfl
@[simp] theorem updStart_start (s : State) (f : Start → Start) : (s.updStart f).start = f s.start := rfl
@[simp] theorem updStart_cfg (s : State) (f : Start → Start) : (s.updStart f).cfg = s.cfg := rfl
@[simp] theorem updStart_clock (s : State) (f : Start → Start) : (s.updStart f).clock = s.clock := rfl
@[simp] theorem updStart_line (s : State) (f : Start → Start) : (s.updStart f).line = s.line := rfl
@[simp] theorem updStart_view (s : State) (f : Start → Start) : (s.updStart f).view = s.view := rfl
@[simp] theorem updStart_plans (s : State) (f : Start → Start) : (s.updStart f).plans = s.plans := rfl
@[simp] theorem updStart_heat (s : State) (f : Start → Start) : (s.updStart f).heat = s.heat := rfl
@[simp] theorem updStart_share (s : State) (f : Start → Start) : (s.updStart f).share = s.share := rfl
@[simp] theorem updStart_link (s : State) (f : Start → Start) : (s.updStart f).link = s.link := rfl
@[simp] theorem updStart_lamp (s : State) (f : Start → Start) : (s.updStart f).lamp = s.lamp := rfl
@[simp] theorem updStart_faults (s : State) (f : Start → Start) : (s.updStart f).faults = s.faults := rfl
@[simp] theorem updStart_depart (s : State) (f : Start → Start) : (s.updStart f).depart = s.depart := rfl
@[simp] theorem updStart_bay (s : State) (f : Start → Start) : (s.updStart f).bay = s.bay := rfl
@[simp] theorem updStart_freeCount (s : State) (f : Start → Start) : (s.updStart f).freeCount = s.freeCount := rfl

@[simp] theorem updClock_pending (s : State) (f : Clock → Clock) : (s.updClock f).pending = s.pending := rfl
@[simp] theorem updClock_start (s : State) (f : Clock → Clock) : (s.updClock f).start = s.start := rfl
@[simp] theorem updClock_cfg (s : State) (f : Clock → Clock) : (s.updClock f).cfg = s.cfg := rfl
@[simp] theorem updClock_clock (s : State) (f : Clock → Clock) : (s.updClock f).clock = f s.clock := rfl
@[simp] theorem updClock_line (s : State) (f : Clock → Clock) : (s.updClock f).line = s.line := rfl
@[simp] theorem updClock_view (s : State) (f : Clock → Clock) : (s.updClock f).view = s.view := rfl
@[simp] theorem updClock_plans (s : State) (f : Clock → Clock) : (s.updClock f).plans = s.plans := rfl
@[simp] theorem updClock_heat (s : State) (f : Clock → Clock) : (s.updClock f).heat = s.heat := rfl
@[simp] theorem updClock_share (s : State) (f : Clock → Clock) : (s.updClock f).share = s.share := rfl
@[simp] theorem updClock_link (s : State) (f : Clock → Clock) : (s.updClock f).link = s.link := rfl
@[simp] theorem updClock_lamp (s : State) (f : Clock → Clock) : (s.updClock f).lamp = s.lamp := rfl
@[simp] theorem updClock_faults (s : State) (f : Clock → Clock) : (s.updClock f).faults = s.faults := rfl
@[simp] theorem updClock_depart (s : State) (f : Clock → Clock) : (s.updClock f).depart = s.depart := rfl
@[simp] theorem updClock_bay (s : State) (f : Clock → Clock) : (s.updClock f).bay = s.bay := rfl
@[simp] theorem updClock_freeCount (s : State) (f : Clock → Clock) : (s.updClock f).freeCount = s.freeCount := rfl

@[simp] theorem updLine_pending (s : State) (f : Line → Line) : (s.updLine f).pending = s.pending := rfl
@[simp] theorem updLine_start (s : State) (f : Line → Line) : (s.updLine f).start = s.start := rfl
@[simp] theorem updLine_cfg (s : State) (f : Line → Line) : (s.updLine f).cfg = s.cfg := rfl
@[simp] theorem updLine_clock (s : State) (f : Line → Line) : (s.updLine f).clock = s.clock := rfl
@[simp] theorem updLine_line (s : State) (f : Line → Line) : (s.updLine f).line = f s.line := rfl
@[simp] theorem updLine_view (s : State) (f : Line → Line) : (s.updLine f).view = s.view := rfl
@[simp] theorem updLine_plans (s : State) (f : Line → Line) : (s.updLine f).plans = s.plans := rfl
@[simp] theorem updLine_heat (s : State) (f : Line → Line) : (s.updLine f).heat = s.heat := rfl
@[simp] theorem updLine_share (s : State) (f : Line → Line) : (s.updLine f).share = s.share := rfl
@[simp] theorem updLine_link (s : State) (f : Line → Line) : (s.updLine f).link = s.link := rfl
@[simp] theorem updLine_lamp (s : State) (f : Line → Line) : (s.updLine f).lamp = s.lamp := rfl
@[simp] theorem updLine_faults (s : State) (f : Line → Line) : (s.updLine f).faults = s.faults := rfl
@[simp] theorem updLine_depart (s : State) (f : Line → Line) : (s.updLine f).depart = s.depart := rfl
@[simp] theorem updLine_bay (s : State) (f : Line → Line) : (s.updLine f).bay = s.bay := rfl
@[simp] theorem updLine_freeCount (s : State) (f : Line → Line) : (s.updLine f).freeCount = s.freeCount := rfl

@[simp] theorem updView_pending (s : State) (f : View → View) : (s.updView f).pending = s.pending := rfl
@[simp] theorem updView_start (s : State) (f : View → View) : (s.updView f).start = s.start := rfl
@[simp] theorem updView_cfg (s : State) (f : View → View) : (s.updView f).cfg = s.cfg := rfl
@[simp] theorem updView_clock (s : State) (f : View → View) : (s.updView f).clock = s.clock := rfl
@[simp] theorem updView_line (s : State) (f : View → View) : (s.updView f).line = s.line := rfl
@[simp] theorem updView_view (s : State) (f : View → View) : (s.updView f).view = f s.view := rfl
@[simp] theorem updView_plans (s : State) (f : View → View) : (s.updView f).plans = s.plans := rfl
@[simp] theorem updView_heat (s : State) (f : View → View) : (s.updView f).heat = s.heat := rfl
@[simp] theorem updView_share (s : State) (f : View → View) : (s.updView f).share = s.share := rfl
@[simp] theorem updView_link (s : State) (f : View → View) : (s.updView f).link = s.link := rfl
@[simp] theorem updView_lamp (s : State) (f : View → View) : (s.updView f).lamp = s.lamp := rfl
@[simp] theorem updView_faults (s : State) (f : View → View) : (s.updView f).faults = s.faults := rfl
@[simp] theorem updView_depart (s : State) (f : View → View) : (s.updView f).depart = s.depart := rfl
@[simp] theorem updView_bay (s : State) (f : View → View) : (s.updView f).bay = s.bay := rfl
@[simp] theorem updView_freeCount (s : State) (f : View → View) : (s.updView f).freeCount = s.freeCount := rfl

@[simp] theorem updPlans_pending (s : State) (f : Plans → Plans) : (s.updPlans f).pending = s.pending := rfl
@[simp] theorem updPlans_start (s : State) (f : Plans → Plans) : (s.updPlans f).start = s.start := rfl
@[simp] theorem updPlans_cfg (s : State) (f : Plans → Plans) : (s.updPlans f).cfg = s.cfg := rfl
@[simp] theorem updPlans_clock (s : State) (f : Plans → Plans) : (s.updPlans f).clock = s.clock := rfl
@[simp] theorem updPlans_line (s : State) (f : Plans → Plans) : (s.updPlans f).line = s.line := rfl
@[simp] theorem updPlans_view (s : State) (f : Plans → Plans) : (s.updPlans f).view = s.view := rfl
@[simp] theorem updPlans_plans (s : State) (f : Plans → Plans) : (s.updPlans f).plans = f s.plans := rfl
@[simp] theorem updPlans_heat (s : State) (f : Plans → Plans) : (s.updPlans f).heat = s.heat := rfl
@[simp] theorem updPlans_share (s : State) (f : Plans → Plans) : (s.updPlans f).share = s.share := rfl
@[simp] theorem updPlans_link (s : State) (f : Plans → Plans) : (s.updPlans f).link = s.link := rfl
@[simp] theorem updPlans_lamp (s : State) (f : Plans → Plans) : (s.updPlans f).lamp = s.lamp := rfl
@[simp] theorem updPlans_faults (s : State) (f : Plans → Plans) : (s.updPlans f).faults = s.faults := rfl
@[simp] theorem updPlans_depart (s : State) (f : Plans → Plans) : (s.updPlans f).depart = s.depart := rfl
@[simp] theorem updPlans_bay (s : State) (f : Plans → Plans) : (s.updPlans f).bay = s.bay := rfl
@[simp] theorem updPlans_freeCount (s : State) (f : Plans → Plans) : (s.updPlans f).freeCount = s.freeCount := rfl

@[simp] theorem updHeat_pending (s : State) (f : Heat → Heat) : (s.updHeat f).pending = s.pending := rfl
@[simp] theorem updHeat_start (s : State) (f : Heat → Heat) : (s.updHeat f).start = s.start := rfl
@[simp] theorem updHeat_cfg (s : State) (f : Heat → Heat) : (s.updHeat f).cfg = s.cfg := rfl
@[simp] theorem updHeat_clock (s : State) (f : Heat → Heat) : (s.updHeat f).clock = s.clock := rfl
@[simp] theorem updHeat_line (s : State) (f : Heat → Heat) : (s.updHeat f).line = s.line := rfl
@[simp] theorem updHeat_view (s : State) (f : Heat → Heat) : (s.updHeat f).view = s.view := rfl
@[simp] theorem updHeat_plans (s : State) (f : Heat → Heat) : (s.updHeat f).plans = s.plans := rfl
@[simp] theorem updHeat_heat (s : State) (f : Heat → Heat) : (s.updHeat f).heat = f s.heat := rfl
@[simp] theorem updHeat_share (s : State) (f : Heat → Heat) : (s.updHeat f).share = s.share := rfl
@[simp] theorem updHeat_link (s : State) (f : Heat → Heat) : (s.updHeat f).link = s.link := rfl
@[simp] theorem updHeat_lamp (s : State) (f : Heat → Heat) : (s.updHeat f).lamp = s.lamp := rfl
@[simp] theorem updHeat_faults (s : State) (f : Heat → Heat) : (s.updHeat f).faults = s.faults := rfl
@[simp] theorem updHeat_depart (s : State) (f : Heat → Heat) : (s.updHeat f).depart = s.depart := rfl
@[simp] theorem updHeat_bay (s : State) (f : Heat → Heat) : (s.updHeat f).bay = s.bay := rfl
@[simp] theorem updHeat_freeCount (s : State) (f : Heat → Heat) : (s.updHeat f).freeCount = s.freeCount := rfl

@[simp] theorem updShare_pending (s : State) (f : Share → Share) : (s.updShare f).pending = s.pending := rfl
@[simp] theorem updShare_start (s : State) (f : Share → Share) : (s.updShare f).start = s.start := rfl
@[simp] theorem updShare_cfg (s : State) (f : Share → Share) : (s.updShare f).cfg = s.cfg := rfl
@[simp] theorem updShare_clock (s : State) (f : Share → Share) : (s.updShare f).clock = s.clock := rfl
@[simp] theorem updShare_line (s : State) (f : Share → Share) : (s.updShare f).line = s.line := rfl
@[simp] theorem updShare_view (s : State) (f : Share → Share) : (s.updShare f).view = s.view := rfl
@[simp] theorem updShare_plans (s : State) (f : Share → Share) : (s.updShare f).plans = s.plans := rfl
@[simp] theorem updShare_heat (s : State) (f : Share → Share) : (s.updShare f).heat = s.heat := rfl
@[simp] theorem updShare_share (s : State) (f : Share → Share) : (s.updShare f).share = f s.share := rfl
@[simp] theorem updShare_link (s : State) (f : Share → Share) : (s.updShare f).link = s.link := rfl
@[simp] theorem updShare_lamp (s : State) (f : Share → Share) : (s.updShare f).lamp = s.lamp := rfl
@[simp] theorem updShare_faults (s : State) (f : Share → Share) : (s.updShare f).faults = s.faults := rfl
@[simp] theorem updShare_depart (s : State) (f : Share → Share) : (s.updShare f).depart = s.depart := rfl
@[simp] theorem updShare_bay (s : State) (f : Share → Share) : (s.updShare f).bay = s.bay := rfl
@[simp] theorem updShare_freeCount (s : State) (f : Share → Share) : (s.updShare f).freeCount = s.freeCount := rfl

@[simp] theorem updLink_pending (s : State) (f : Link → Link) : (s.updLink f).pending = s.pending := rfl
@[simp] theorem updLink_start (s : State) (f : Link → Link) : (s.updLink f).start = s.start := rfl
@[simp] theorem updLink_cfg (s : State) (f : Link → Link) : (s.updLink f).cfg = s.cfg := rfl
@[simp] theorem updLink_clock (s : State) (f : Link → Link) : (s.updLink f).clock = s.clock := rfl
@[simp] theorem updLink_line (s : State) (f : Link → Link) : (s.updLink f).line = s.line := rfl
@[simp] theorem updLink_view (s : State) (f : Link → Link) : (s.updLink f).view = s.view := rfl
@[simp] theorem updLink_plans (s : State) (f : Link → Link) : (s.updLink f).plans = s.plans := rfl
@[simp] theorem updLink_heat (s : State) (f : Link → Link) : (s.updLink f).heat = s.heat := rfl
@[simp] theorem updLink_share (s : State) (f : Link → Link) : (s.updLink f).share = s.share := rfl
@[simp] theorem updLink_link (s : State) (f : Link → Link) : (s.updLink f).link = f s.link := rfl
@[simp] theorem updLink_lamp (s : State) (f : Link → Link) : (s.updLink f).lamp = s.lamp := rfl
@[simp] theorem updLink_faults (s : State) (f : Link → Link) : (s.updLink f).faults = s.faults := rfl
@[simp] theorem updLink_depart (s : State) (f : Link → Link) : (s.updLink f).depart = s.depart := rfl
@[simp] theorem updLink_bay (s : State) (f : Link → Link) : (s.updLink f).bay = s.bay := rfl
@[simp] theorem updLink_freeCount (s : State) (f : Link → Link) : (s.updLink f).freeCount = s.freeCount := rfl

@[simp] theorem updLamp_pending (s : State) (f : Lamp → Lamp) : (s.updLamp f).pending = s.pending := rfl
@[simp] theorem updLamp_start (s : State) (f : Lamp → Lamp) : (s.updLamp f).start = s.start := rfl
@[simp] theorem updLamp_cfg (s : State) (f : Lamp → Lamp) : (s.updLamp f).cfg = s.cfg := rfl
@[simp] theorem updLamp_clock (s : State) (f : Lamp → Lamp) : (s.updLamp f).clock = s.clock := rfl
@[simp] theorem updLamp_line (s : State) (f : Lamp → Lamp) : (s.updLamp f).line = s.line := rfl
@[simp] theorem updLamp_view (s : State) (f : Lamp → Lamp) : (s.updLamp f).view = s.view := rfl
@[simp] theorem updLamp_plans (s : State) (f : Lamp → Lamp) : (s.updLamp f).plans = s.plans := rfl
@[simp] theorem updLamp_heat (s : State) (f : Lamp → Lamp) : (s.updLamp f).heat = s.heat := rfl
@[simp] theorem updLamp_share (s : State) (f : Lamp → Lamp) : (s.updLamp f).share = s.share := rfl
@[simp] theorem updLamp_link (s : State) (f : Lamp → Lamp) : (s.updLamp f).link = s.link := rfl
@[simp] theorem updLamp_lamp (s : State) (f : Lamp → Lamp) : (s.updLamp f).lamp = f s.lamp := rfl
@[simp] theorem updLamp_faults (s : State) (f : Lamp → Lamp) : (s.updLamp f).faults = s.faults := rfl
@[simp] theorem updLamp_depart (s : State) (f : Lamp → Lamp) : (s.updLamp f).depart = s.depart := rfl
@[simp] theorem updLamp_bay (s : State) (f : Lamp → Lamp) : (s.updLamp f).bay = s.bay := rfl
@[simp] theorem updLamp_freeCount (s : State) (f : Lamp → Lamp) : (s.updLamp f).freeCount = s.freeCount := rfl

@[simp] theorem updFaults_pending (s : State) (f : Faults → Faults) : (s.updFaults f).pending = s.pending := rfl
@[simp] theorem updFaults_start (s : State) (f : Faults → Faults) : (s.updFaults f).start = s.start := rfl
@[simp] theorem updFaults_cfg (s : State) (f : Faults → Faults) : (s.updFaults f).cfg = s.cfg := rfl
@[simp] theorem updFaults_clock (s : State) (f : Faults → Faults) : (s.updFaults f).clock = s.clock := rfl
@[simp] theorem updFaults_line (s : State) (f : Faults → Faults) : (s.updFaults f).line = s.line := rfl
@[simp] theorem updFaults_view (s : State) (f : Faults → Faults) : (s.updFaults f).view = s.view := rfl
@[simp] theorem updFaults_plans (s : State) (f : Faults → Faults) : (s.updFaults f).plans = s.plans := rfl
@[simp] theorem updFaults_heat (s : State) (f : Faults → Faults) : (s.updFaults f).heat = s.heat := rfl
@[simp] theorem updFaults_share (s : State) (f : Faults → Faults) : (s.updFaults f).share = s.share := rfl
@[simp] theorem updFaults_link (s : State) (f : Faults → Faults) : (s.updFaults f).link = s.link := rfl
@[simp] theorem updFaults_lamp (s : State) (f : Faults → Faults) : (s.updFaults f).lamp = s.lamp := rfl
@[simp] theorem updFaults_faults (s : State) (f : Faults → Faults) : (s.updFaults f).faults = f s.faults := rfl
@[simp] theorem updFaults_depart (s : State) (f : Faults → Faults) : (s.updFaults f).depart = s.depart := rfl
@[simp] theorem updFaults_bay (s : State) (f : Faults → Faults) : (s.updFaults f).bay = s.bay := rfl
@[simp] theorem updFaults_freeCount (s : State) (f : Faults → Faults) : (s.updFaults f).freeCount = s.freeCount := rfl

@[simp] theorem updDepart_pending (s : State) (f : Depart → Depart) : (s.updDepart f).pending = s.pending := rfl
@[simp] theorem updDepart_start (s : State) (f : Depart → Depart) : (s.updDepart f).start = s.start := rfl
@[simp] theorem updDepart_cfg (s : State) (f : Depart → Depart) : (s.updDepart f).cfg = s.cfg := rfl
@[simp] theorem updDepart_clock (s : State) (f : Depart → Depart) : (s.updDepart f).clock = s.clock := rfl
@[simp] theorem updDepart_line (s : State) (f : Depart → Depart) : (s.updDepart f).line = s.line := rfl
@[simp] theorem updDepart_view (s : State) (f : Depart → Depart) : (s.updDepart f).view = s.view := rfl
@[simp] theorem updDepart_plans (s : State) (f : Depart → Depart) : (s.updDepart f).plans = s.plans := rfl
@[simp] theorem updDepart_heat (s : State) (f : Depart → Depart) : (s.updDepart f).heat = s.heat := rfl
@[simp] theorem updDepart_share (s : State) (f : Depart → Depart) : (s.updDepart f).share = s.share := rfl
@[simp] theorem updDepart_link (s : State) (f : Depart → Depart) : (s.updDepart f).link = s.link := rfl
@[simp] theorem updDepart_lamp (s : State) (f : Depart → Depart) : (s.updDepart f).lamp = s.lamp := rfl
@[simp] theorem updDepart_faults (s : State) (f : Depart → Depart) : (s.updDepart f).faults = s.faults := rfl
@[simp] theorem updDepart_depart (s : State) (f : Depart → Depart) : (s.updDepart f).depart = f s.depart := rfl
@[simp] theorem updDepart_bay (s : State) (f : Depart → Depart) : (s.updDepart f).bay = s.bay := rfl
@[simp] theorem updDepart_freeCount (s : State) (f : Depart → Depart) : (s.updDepart f).freeCount = s.freeCount := rfl

@[simp] theorem updBay_pending (s : State) (f : Bay → Bay) : (s.updBay f).pending = s.pending := rfl
@[simp] theorem updBay_start (s : State) (f : Bay → Bay) : (s.updBay f).start = s.start := rfl
@[simp] theorem updBay_cfg (s : State) (f : Bay → Bay) : (s.updBay f).cfg = s.cfg := rfl
@[simp] theorem updBay_clock (s : State) (f : Bay → Bay) : (s.updBay f).clock = s.clock := rfl
@[simp] theorem updBay_line (s : State) (f : Bay → Bay) : (s.updBay f).line = s.line := rfl
@[simp] theorem updBay_view (s : State) (f : Bay → Bay) : (s.updBay f).view = s.view := rfl
@[simp] theorem updBay_plans (s : State) (f : Bay → Bay) : (s.updBay f).plans = s.plans := rfl
@[simp] theorem updBay_heat (s : State) (f : Bay → Bay) : (s.updBay f).heat = s.heat := rfl
@[simp] theorem updBay_share (s : State) (f : Bay → Bay) : (s.updBay f).share = s.share := rfl
@[simp] theorem updBay_link (s : State) (f : Bay → Bay) : (s.updBay f).link = s.link := rfl
@[simp] theorem updBay_lamp (s : State) (f : Bay → Bay) : (s.updBay f).lamp = s.lamp := rfl
@[simp] theorem updBay_faults (s : State) (f : Bay → Bay) : (s.updBay f).faults = s.faults := rfl
@[simp] theorem updBay_depart (s : State) (f : Bay → Bay) : (s.updBay f).depart = s.depart := rfl
@[simp] theorem updBay_bay (s : State) (f : Bay → Bay) : (s.updBay f).bay = f s.bay := rfl
@[simp] theorem updBay_freeCount (s : State) (f : Bay → Bay) : (s.updBay f).freeCount = s.freeCount := rfl

end Sys2Proof.Machine
end

