-- ==== Sys2Proof/Laws/Stable.lean ====
section
/-! SUPPORT. Judging the watched conditions keeps the registers of `Stable`: one lemma per shared operation. -/

namespace Sys2Proof.Machine

/-! ### Block updates that keep the stable part of their block -/

@[simp] theorem stable_updStart (s : State) (f : Start → Start)
    (h : ∀ x, (f x).station = x.station ∧ (f x).listenIn = x.listenIn ∧ (f x).stagger = x.stagger) :
    (s.updStart f).stable = s.stable := by
  simp [State.stable, h]

@[simp] theorem stable_updLine (s : State) (f : Line → Line)
    (h : ∀ x, (f x).counter = x.counter ∧ (f x).recovery = x.recovery ∧ (f x).twin = x.twin ∧
      (f x).answers = x.answers ∧ (f x).statusSeries = x.statusSeries ∧ (f x).hello = x.hello ∧ (f x).tx = x.tx) :
    (s.updLine f).stable = s.stable := by
  simp [State.stable, h]

@[simp] theorem stable_updPlans (s : State) (f : Plans → Plans)
    (h : ∀ x, (f x).stale = x.stale ∧ (f x).dropped = x.dropped) : (s.updPlans f).stable = s.stable := by
  simp [State.stable, h]

@[simp] theorem stable_updHeat (s : State) (f : Heat → Heat) : (s.updHeat f).stable = s.stable := by
  simp [State.stable]

@[simp] theorem stable_updShare (s : State) (f : Share → Share) (h : ∀ x, (f x).live = x.live) :
    (s.updShare f).stable = s.stable := by
  simp [State.stable, h]

@[simp] theorem stable_updLink (s : State) (f : Link → Link)
    (h : ∀ x, (f x).coach = x.coach ∧ (f x).lastEnd = x.lastEnd ∧ (f x).identified = x.identified) : (s.updLink f).stable = s.stable := by
  simp [State.stable, h]

@[simp] theorem stable_updLamp (s : State) (f : Lamp → Lamp) : (s.updLamp f).stable = s.stable := by
  simp [State.stable]

@[simp] theorem stable_updFaults (s : State) (f : Faults → Faults) (h : ∀ x, (f x).lastId = x.lastId) :
    (s.updFaults f).stable = s.stable := by
  simp [State.stable, h]

@[simp] theorem stable_updDepart (s : State) (f : Depart → Depart) : (s.updDepart f).stable = s.stable := by
  simp [State.stable]

@[simp] theorem stable_updBay (s : State) (f : Bay → Bay)
    (h : ∀ x, (f x).coach = x.coach ∧ (f x).inserted = x.inserted ∧ (f x).latched = x.latched ∧
      (f x).request = x.request ∧ (f x).proving = x.proving ∧ (f x).debouncing = x.debouncing ∧
      (f x).probe = x.probe ∧ (f x).trouble = x.trouble) : (s.updBay f).stable = s.stable := by
  simp [State.stable, h]

/-! ### Slots, faults, queue -/

@[simp] theorem stable_writeLane (s : State) (c : LaneContent) : (s.writeLane c).stable = s.stable := by
  simp [State.writeLane]

@[simp] theorem stable_emptyLane (s : State) : s.emptyLane.stable = s.stable := by simp [State.emptyLane]

@[simp] theorem stable_writeDemand (s : State) : s.writeDemand.stable = s.stable := by simp [State.writeDemand]

@[simp] theorem stable_emptyDemand (s : State) : s.emptyDemand.stable = s.stable := by simp [State.emptyDemand]

@[simp] theorem stable_writeStatus (s : State) : s.writeStatus.stable = s.stable := by simp [State.writeStatus]

@[simp] theorem stable_writeSummary (s : State) : s.writeSummary.stable = s.stable := by simp [State.writeSummary]

@[simp] theorem stable_holdSummary (s : State) : s.holdSummary.stable = s.stable := by simp [State.holdSummary]

@[simp] theorem stable_releaseSummary (s : State) : s.releaseSummary.stable = s.stable := by
  simp [State.releaseSummary]

@[simp] theorem Faults.write_lastId (f : Faults) (k : Key) (v : Severity) (c : Option CoachState)
    (t : Option DepotTime) : (f.write k v c t).lastId = f.lastId := by
  unfold Faults.write; split
  · rfl
  · split <;> rfl

@[simp] theorem stable_writeFault (s : State) (k : Key) (v : Severity) (c : Option CoachState) :
    (s.writeFault k v c).stable = s.stable := by simp [State.writeFault]

@[simp] theorem stable_clearPresent (s : State) (p : Record → Bool) : (s.clearPresent p).stable = s.stable := by
  simp [State.clearPresent, Faults.clearPresent]

@[simp] theorem stable_clearKey (s : State) (k : Key) : (s.clearKey k).stable = s.stable := by
  simp [State.clearKey]

@[simp] theorem stable_writeCoachFault (s : State) (c : CoachFault) : (s.writeCoachFault c).stable = s.stable := by
  simp [State.writeCoachFault]

@[simp] theorem stable_withdrawDemand (s : State) : s.withdrawDemand.stable = s.stable := by
  unfold State.withdrawDemand; rw [stable_updShare _ _ (by simp)]; split <;> simp

@[simp] theorem stable_startExchange (s : State) : s.startExchange.stable = s.stable := by
  unfold State.startExchange; split <;> simp

@[simp] theorem stable_begun (s : State) : s.begun.stable = s.stable := by unfold State.begun; split <;> simp

@[simp] theorem stable_enqueue (s : State) (r : Request) : (s.enqueue r).stable = s.stable := by simp [State.enqueue]

@[simp] theorem stable_place (s : State) (r : Request) : (s.place r).stable = s.stable := by
  unfold State.place; split <;> simp

@[simp] theorem stable_withdraw (s : State) (j : Job) : (s.withdraw j).stable = s.stable := by simp [State.withdraw]

@[simp] theorem stable_heatAborted (s : State) (k : ReqKind) : (s.heatAborted k).stable = s.stable := by
  unfold State.heatAborted; split <;> simp

@[simp] theorem stable_heatPlace (s : State) (k : ReqKind) : (s.heatPlace k).stable = s.stable := by
  unfold State.heatPlace; (repeat' split) <;> simp

@[simp] theorem stable_mapHead (s : State) (f : Plan → Plan) : (s.mapHead f).stable = s.stable := by
  simp [State.mapHead]

/-! ### Lamp -/

theorem stable_ite {c : Prop} [Decidable c] {s a b : State} (ha : a.stable = s.stable) (hb : b.stable = s.stable) :
    (if c then a else b).stable = s.stable := by split <;> assumption

@[simp] theorem stable_lampFaults (s : State) (g : Nat) (r : LampResult) : (s.lampFaults g r).stable = s.stable := by
  unfold State.lampFaults; split
  · rfl
  · dsimp only; split <;> simp

@[simp] theorem stable_lampResult (s : State) (g : Nat) (r : LampResult) (i : Option Int) :
    (s.lampResult g r i).stable = s.stable := by simp [State.lampResult]

@[simp] theorem stable_lampAborted (s : State) (r : Request) : (s.lampAborted r).stable = s.stable := by
  unfold State.lampAborted; (repeat' split) <;> simp

@[simp] theorem stable_lampWithdraw (s : State) : s.lampWithdraw.stable = s.stable := by
  have h : ∀ (rs : List Request) (t : State), (rs.foldl State.lampAborted t).stable = t.stable := by
    intro rs; induction rs with
    | nil => intro t; rfl
    | cons r rs ih => intro t; simp [List.foldl_cons, ih]
  simp [State.lampWithdraw, h]

@[simp] theorem stable_lampAsk (s : State) (k : ReqKind) (g : Nat) : (s.lampAsk k g).stable = s.stable := by
  unfold State.lampAsk; dsimp only; split <;> simp

@[simp] theorem stable_lampSequence (s : State) : s.lampSequence.stable = s.stable := by simp [State.lampSequence]

@[simp] theorem stable_lampGroupOn (s : State) : s.lampGroupOn.stable = s.stable := by simp [State.lampGroupOn]

@[simp] theorem stable_lampClosing (s : State) : s.lampClosing.stable = s.stable := by
  unfold State.lampClosing; split <;> simp

@[simp] theorem stable_lampDone (s : State) : s.lampDone.stable = s.stable := by simp [State.lampDone]

@[simp] theorem stable_lampFinish (s : State) : s.lampFinish.stable = s.stable := by
  unfold State.lampFinish; split <;> simp

@[simp] theorem stable_lampTurn (n : Nat) : ∀ (s : State) (g : Nat), (s.lampTurn n g).stable = s.stable := by
  induction n with
  | zero => intro s g; simp [State.lampTurn]
  | succ n ih =>
    intro s g
    unfold State.lampTurn
    split
    · simp
    · dsimp only; split
      · simp [ih]
      · split <;> simp [ih]

@[simp] theorem stable_lampGroupTurn (s : State) (g : Nat) : (s.lampGroupTurn g).stable = s.stable := by
  simp [State.lampGroupTurn]

@[simp] theorem stable_lampNext (s : State) (r : LampResult) (i : Option Int) : (s.lampNext r i).stable = s.stable := by
  simp [State.lampNext]

@[simp] theorem stable_lampRepeat (s : State) : s.lampRepeat.stable = s.stable := by
  unfold State.lampRepeat; split <;> simp

@[simp] theorem stable_lampSpoil (s : State) : s.lampSpoil.stable = s.stable := by
  unfold State.lampSpoil; dsimp only; split <;> simp

@[simp] theorem stable_lampDecrease (s : State) : s.lampDecrease.stable = s.stable := by
  unfold State.lampDecrease; split <;> simp

@[simp] theorem stable_lampOpen (s : State) (b : Bool) (k : Nat) : (s.lampOpen b k).stable = s.stable := by
  simp [State.lampOpen]

@[simp] theorem stable_lampCut (n : Nat) : ∀ (s : State) (g : Nat), (s.lampCut n g).stable = s.stable := by
  induction n with
  | zero => intro s g; simp [State.lampCut]
  | succ n ih => intro s g; unfold State.lampCut; split <;> simp [ih]

@[simp] theorem stable_lampClosed (s : State) (e : Ending) : (s.lampClosed e).stable = s.stable := by
  unfold State.lampClosed; split <;> simp
  split <;> simp

@[simp] theorem stable_lampAnswered (s : State) (k : ReqKind) (g : Nat) (e : Ending) :
    (s.lampAnswered k g e).stable = s.stable := by
  unfold State.lampAnswered; dsimp only; split <;> (repeat' split) <;> simp

@[simp] theorem stable_lampWithdrawn (s : State) (r : Request) : (s.lampWithdrawn r).stable = s.stable := by
  unfold State.lampWithdrawn; split <;> simp

@[simp] theorem stable_lampOutcome (s : State) (r : Request) (w : Bool) (e : Ending) :
    (s.lampOutcome r w e).stable = s.stable := by
  unfold State.lampOutcome; (repeat' split) <;> simp

@[simp] theorem stable_lampEnd (s : State) (x : LampState) (d : Bool) : (s.lampEnd x d).stable = s.stable := by
  unfold State.lampEnd; dsimp only; split <;> simp

@[simp] theorem stable_lampWait (s : State) : s.lampWait.stable = s.stable := by simp [State.lampWait]

@[simp] theorem stable_lampMatched (s : State) : s.lampMatched.stable = s.stable := by
  unfold State.lampMatched; split <;> simp

@[simp] theorem stable_lampOwed (s : State) : s.lampOwed.stable = s.stable := by
  unfold State.lampOwed; split <;> simp

@[simp] theorem stable_lampHeadChange (s : State) : s.lampHeadChange.stable = s.stable := by
  unfold State.lampHeadChange; split <;> simp

@[simp] theorem stable_lampPhaseLost (s : State) : s.lampPhaseLost.stable = s.stable := by
  unfold State.lampPhaseLost; split <;> simp

@[simp] theorem stable_lampUnplugged (s : State) : s.lampUnplugged.stable = s.stable := by
  unfold State.lampUnplugged; dsimp only; split <;> simp

@[simp] theorem stable_lampSuspend (s : State) : s.lampSuspend.stable = s.stable := by
  unfold State.lampSuspend; split <;> simp

@[simp] theorem stable_lampIdentified (s : State) : s.lampIdentified.stable = s.stable := by
  unfold State.lampIdentified; (repeat' split) <;> simp

@[simp] theorem stable_lampRevised (s : State) (a b : PlanData) : (s.lampRevised a b).stable = s.stable := by
  unfold State.lampRevised; dsimp only; (repeat' split) <;> simp

@[simp] theorem stable_lampRerun (s : State) : s.lampRerun.stable = s.stable := by simp [State.lampRerun]

@[simp] theorem stable_lampRecheck (s : State) : s.lampRecheck.stable = s.stable := by
  unfold State.lampRecheck; (repeat' split) <;> simp

@[simp] theorem stable_lampStart (s : State) : s.lampStart.stable = s.stable := by simp [State.lampStart]

/-! ### Bay -/

@[simp] theorem stable_startLatchCheck (s : State) : s.startLatchCheck.stable = s.stable := by
  simp [State.startLatchCheck]

@[simp] theorem stable_openLatch (s : State) : s.openLatch.stable = s.stable := by
  unfold State.openLatch; split <;> simp

@[simp] theorem stable_closeLatch (s : State) : s.closeLatch.stable = s.stable := by
  unfold State.closeLatch; dsimp only; split <;> simp

@[simp] theorem stable_latchOpenOrder (s : State) : s.latchOpenOrder.stable = s.stable := by
  simp [State.latchOpenOrder]

@[simp] theorem stable_latchCloseOrder (s : State) : s.latchCloseOrder.stable = s.stable := by
  unfold State.latchCloseOrder; dsimp only; split <;> simp

@[simp] theorem stable_latchHeadChange (s : State) : s.latchHeadChange.stable = s.stable := by
  unfold State.latchHeadChange; split <;> simp

@[simp] theorem stable_latchInserted (s : State) : s.latchInserted.stable = s.stable := by
  unfold State.latchInserted; dsimp only; (repeat' split) <;> simp

@[simp] theorem stable_latchContact (s : State) : s.latchContact.stable = s.stable := by
  unfold State.latchContact; (repeat' split) <;> simp

/-! ### Heat -/

@[simp] theorem stable_bayCount (s : State) (n : Nat) : (s.bayCount n).stable = s.stable := by simp [State.bayCount]

@[simp] theorem stable_setCount (s : State) (n : Nat) : (s.setCount n).stable = s.stable := by
  unfold State.setCount; split
  · rfl
  · dsimp only; split <;> simp

@[simp] theorem stable_capCount (s : State) (n : Nat) : (s.capCount n).stable = s.stable := by
  unfold State.capCount; split <;> simp

@[simp] theorem stable_takeFigures (s : State) : s.takeFigures.stable = s.stable := by
  unfold State.takeFigures; split <;> simp

@[simp] theorem stable_endRun (s : State) : s.endRun.stable = s.stable := by
  unfold State.endRun; split
  · dsimp only; split <;> simp
  · simp

@[simp] theorem stable_beginRun (s : State) : s.beginRun.stable = s.stable := by
  unfold State.beginRun; (repeat' split) <;> simp

@[simp] theorem stable_heatLeave (s : State) (n : HeatState) : (s.heatLeave n).stable = s.stable := by
  unfold State.heatLeave; dsimp only; (repeat' split) <;> simp

@[simp] theorem stable_heatJudged (s : State) : s.heatJudged.stable = s.stable := by
  unfold State.heatJudged; split <;> simp

@[simp] theorem stable_heatOff (s : State) : s.heatOff.stable = s.stable := by
  unfold State.heatOff; split <;> simp

@[simp] theorem stable_heatHeadChange (s : State) : s.heatHeadChange.stable = s.stable := by
  unfold State.heatHeadChange; dsimp only; split <;> simp

@[simp] theorem stable_heatRestart (s : State) : s.heatRestart.stable = s.stable := by
  unfold State.heatRestart; dsimp only; split <;> simp

@[simp] theorem stable_heatRematch (s : State) : s.heatRematch.stable = s.stable := by
  unfold State.heatRematch; split <;> simp

@[simp] theorem stable_heatDisturbed (s : State) : s.heatDisturbed.stable = s.stable := by simp [State.heatDisturbed]

@[simp] theorem stable_provingFailure (s : State) : s.provingFailure.stable = s.stable := by
  simp [State.provingFailure]

@[simp] theorem stable_judgeProving (s : State) : s.judgeProving.stable = s.stable := by
  unfold State.judgeProving; (repeat' split) <;> simp

@[simp] theorem stable_heatSchedule (s : State) : s.heatSchedule.stable = s.stable := by simp [State.heatSchedule]

@[simp] theorem stable_enterHolding (s : State) : s.enterHolding.stable = s.stable := by simp [State.enterHolding]

@[simp] theorem stable_heatDraw (s : State) : s.heatDraw.stable = s.stable := by
  unfold State.heatDraw; dsimp only; (repeat' split) <;> simp

@[simp] theorem stable_riseOne (s : State) : s.riseOne.stable = s.stable := by simp [State.riseOne]

@[simp] theorem stable_regulate (s : State) (t : Int) : (s.regulate t).stable = s.stable := by
  unfold State.regulate; dsimp only; (repeat' split) <;> simp

@[simp] theorem stable_heatReading (s : State) (t : Int) : (s.heatReading t).stable = s.stable := by
  unfold State.heatReading; dsimp only; (repeat' split) <;> simp

@[simp] theorem stable_enterBlind (s : State) : s.enterBlind.stable = s.stable := by simp [State.enterBlind]

@[simp] theorem stable_pollCabin (s : State) : s.pollCabin.stable = s.stable := by
  unfold State.pollCabin; split <;> simp

theorem stable_foldl {α : Type} (f : State → α → State) (h : ∀ t a, (f t a).stable = t.stable) (xs : List α) :
    ∀ s, (xs.foldl f s).stable = s.stable := by
  induction xs with
  | nil => intro s; rfl
  | cons x xs ih => intro s; rw [List.foldl_cons, ih, h]

@[simp] theorem stable_offerKept (s : State) : s.offerKept.stable = s.stable := by
  unfold State.offerKept; dsimp only
  rw [stable_foldl _ (by simp)]; simp

@[simp] theorem stable_heatAnswered (s : State) (k : ReqKind) (e : Ending) : (s.heatAnswered k e).stable = s.stable := by
  unfold State.heatAnswered; dsimp only; (repeat' split) <;> simp

@[simp] theorem stable_heatOutcome (s : State) (k : ReqKind) (e : Ending) : (s.heatOutcome k e).stable = s.stable := by
  simp [State.heatOutcome]

@[simp] theorem stable_heatLinkLost (s : State) (d : Bool) : (s.heatLinkLost d).stable = s.stable := by
  simp [State.heatLinkLost]

@[simp] theorem stable_heatUnplugged (s : State) : s.heatUnplugged.stable = s.stable := by simp [State.heatUnplugged]

@[simp] theorem stable_heatIdentified (s : State) (i m : Nat) (f : Bool) :
    (s.heatIdentified i m f).stable = s.stable := by
  unfold State.heatIdentified; dsimp only; split <;> simp

@[simp] theorem stable_computeFigures (s : State) (h : Plan) : (s.computeFigures h).stable = s.stable := by
  unfold State.computeFigures; dsimp only; split <;> simp

@[simp] theorem stable_takeSlack (s : State) : s.takeSlack.stable = s.stable := by simp [State.takeSlack]

@[simp] theorem stable_moveBySlack (s : State) : s.moveBySlack.stable = s.stable := by
  unfold State.moveBySlack; (repeat' split) <;> simp

@[simp] theorem stable_compute (s : State) : s.compute.stable = s.stable := by
  unfold State.compute; (repeat' split) <;> simp

@[simp] theorem stable_setGrant (s : State) (g : Nat) : (s.setGrant g).stable = s.stable := by simp [State.setGrant]

@[simp] theorem stable_freeCount (s : State) (n : Nat) : ({ s with freeCount := n } : State).stable = s.stable := rfl

@[simp] theorem stable_regrant (s : State) : s.regrant.stable = s.stable := by
  unfold State.regrant; dsimp only; split
  · simp
  · split
    · rw [stable_setGrant]; rfl
    · rfl

/-! ### Reader and link -/

@[simp] theorem stable_faultAsk (s : State) (k : ReqKind) (i : Nat) : (s.faultAsk k i).stable = s.stable := by
  simp [State.faultAsk]

@[simp] theorem stable_beginPass (s : State) : s.beginPass.stable = s.stable := by simp [State.beginPass]

@[simp] theorem stable_beginRead (s : State) (k : ReadKind) : (s.beginRead k).stable = s.stable := by
  unfold State.beginRead; dsimp only; split <;> simp

@[simp] theorem stable_readerPlace (n : Nat) : ∀ s : State, (State.readerPlace n s).stable = s.stable := by
  induction n with
  | zero => intro s; rfl
  | succ n ih => intro s; unfold State.readerPlace; (repeat' split) <;> simp [ih]

@[simp] theorem stable_reportRead (s : State) (b : Bool) : (s.reportRead b).stable = s.stable := by
  unfold State.reportRead; split <;> simp

@[simp] theorem stable_takePass (s : State) : s.takePass.stable = s.stable := by
  unfold State.takePass; dsimp only
  rw [stable_clearKey, stable_clearPresent, stable_foldl _ (by simp)]

@[simp] theorem stable_endPass (s : State) : s.endPass.stable = s.stable := by
  unfold State.endPass; dsimp only; (repeat' split) <;> simp

@[simp] theorem stable_spoilPass (s : State) : s.spoilPass.stable = s.stable := by simp [State.spoilPass]

@[simp] theorem stable_afterRecord (s : State) (i : Nat) : (s.afterRecord i).stable = s.stable := by
  unfold State.afterRecord; split <;> simp

@[simp] theorem stable_readerOutcome (s : State) (r : Request) (w : Bool) (e : Ending) :
    (s.readerOutcome r w e).stable = s.stable := by
  unfold State.readerOutcome; dsimp only; (repeat' split) <;> simp

@[simp] theorem stable_readerLinkLost (s : State) : s.readerLinkLost.stable = s.stable := by
  unfold State.readerLinkLost; split <;> simp

@[simp] theorem stable_readerUnplugged (s : State) : s.readerUnplugged.stable = s.stable := by
  simp [State.readerUnplugged]

@[simp] theorem stable_finalReadOrder (s : State) : s.finalReadOrder.stable = s.stable := by
  unfold State.finalReadOrder; (repeat' split) <;> simp

@[simp] theorem stable_deliver (s : State) (r : Request) (w : Bool) (e : Ending) :
    (s.deliver r w e).stable = s.stable := by
  unfold State.deliver; split <;> simp

@[simp] theorem stable_purge (s : State) : s.purge.stable = s.stable := by
  unfold State.purge
  rw [stable_foldl _ (by simp)]; simp

@[simp] theorem stable_selectClass (s : State) : s.selectClass.stable = s.stable := by
  unfold State.selectClass; split
  · rfl
  · dsimp only; exact stable_ite (by simp) (by simp)

@[simp] theorem stable_linkLeft (s : State) (d : Bool) : (s.linkLeft d).stable = s.stable := by simp [State.linkLeft]

@[simp] theorem stable_linkDown (s : State) : s.linkDown.stable = s.stable := by simp [State.linkDown]

@[simp] theorem stable_linkHalted (s : State) : s.linkHalted.stable = s.stable := by simp [State.linkHalted]

theorem stable_linkHalt (s : State) : s.linkHalt.stable = s.stable := by
  unfold State.linkHalt; dsimp only; split
  · split <;> simp
  · split <;> simp
  · simp
  · rfl
  · rfl

@[simp] theorem stable_linkLost (s : State) : s.linkLost.stable = s.stable := by simp [State.linkLost]

@[simp] theorem stable_identify (s : State) : s.identify.stable = s.stable := by simp [State.identify]

@[simp] theorem stable_wake (s : State) : s.wake.stable = s.stable := by simp [State.wake]

@[simp] theorem stable_linkResume (s : State) : s.linkResume.stable = s.stable := by
  unfold State.linkResume; split <;> simp

end Sys2Proof.Machine
end

