-- ==== Sys2Proof/Laws/Settled.lean ====
section
/-! SUPPORT. What judging the watched conditions and the close of a command do: the stable registers stay, a settled state stays, the close writes its own registers alone. -/

namespace Sys2Proof.Machine

/-! ### Lanes -/

@[simp] theorem stable_writeHeld (s : State) : s.writeHeld.stable = s.stable := by simp [State.writeHeld]

@[simp] theorem stable_claimLane (s : State) (l : Nat) : (s.claimLane l).stable = s.stable := by
  simp [State.claimLane]

@[simp] theorem stable_laneRound (ls : List Nat) : ∀ s : State, (State.laneRound ls s).stable = s.stable := by
  induction ls with
  | nil => intro s; simp [State.laneRound]
  | cons l ls ih => intro s; unfold State.laneRound; (repeat' split) <;> simp [ih]

@[simp] theorem stable_startRound (s : State) : s.startRound.stable = s.stable := by simp [State.startRound]

@[simp] theorem stable_yieldOn (s : State) (l : Nat) : (s.yieldOn l).stable = s.stable := by simp [State.yieldOn]

@[simp] theorem stable_judgeAgain (s : State) : s.judgeAgain.stable = s.stable := by
  unfold State.judgeAgain; split <;> simp

@[simp] theorem stable_lanesLeft (s : State) (ls : List Nat) : (s.lanesLeft ls).stable = s.stable := by
  unfold State.lanesLeft; split <;> simp

@[simp] theorem stable_markLeft (s : State) (l : Nat) : (s.markLeft l).stable = s.stable := by
  unfold State.markLeft; split <;> simp

@[simp] theorem stable_giveUpLane (s : State) : s.giveUpLane.stable = s.stable := by
  unfold State.giveUpLane; dsimp only; (repeat' split) <;> simp

theorem stable_mapTx (s : State) (f : Tx → Tx)
    (h : ∀ x, (f x).item = x.item ∧ (f x).frame = x.frame ∧ (f x).rest = x.rest ∧ (f x).orphan = x.orphan ∧
      (f x).won = x.won) :
    (s.updLine fun l => { l with tx := l.tx.map f }).stable = s.stable := by
  simp only [State.stable, updLine_pending, updLine_start, updLine_cfg, updLine_clock, updLine_line, updLine_view,
    updLine_plans, updLine_share, updLine_link, updLine_faults, updLine_bay, Option.map_map]
  congr 1
  cases s.line.tx <;> simp [h]

@[simp] theorem stable_dropSilent (s : State) : s.dropSilent.stable = s.stable := by
  unfold State.dropSilent; dsimp only
  rw [stable_updDepart, stable_mapTx]
  · split <;> simp
  · intro x; cases hx : x.item <;> simp [hx]

@[simp] theorem stable_discardWaits (s : State) : s.discardWaits.stable = s.stable := by simp [State.discardWaits]

@[simp] theorem stable_departHeadChange (s : State) : s.departHeadChange.stable = s.stable := by
  unfold State.departHeadChange; dsimp only; split <;> simp

@[simp] theorem stable_refuse (s : State) (r : RefusalReason) : (s.refuse r).stable = s.stable := by
  simp [State.refuse]

/-! ### Plans -/

@[simp] theorem stable_reorder (s : State) : s.reorder.stable = s.stable := by simp [State.reorder]

@[simp] theorem stable_setPhase (s : State) (p : Phase) : (s.setPhase p).stable = s.stable := by
  unfold State.setPhase; dsimp only; split
  · rfl
  · split <;> split <;> simp

@[simp] theorem stable_matchCoach (s : State) : s.matchCoach.stable = s.stable := by
  unfold State.matchCoach; split
  · rfl
  · split
    · rfl
    · dsimp only; split
      · split <;> simp
      · split
        · split <;> simp
        · simp

@[simp] theorem stable_evalOverdue (s : State) : s.evalOverdue.stable = s.stable := by
  unfold State.evalOverdue; split
  · dsimp only; (repeat' split) <;> simp
  · rfl

@[simp] theorem stable_headChanged (s : State) (f : Option Nat) : (s.headChanged f).stable = s.stable := by
  unfold State.headChanged; split <;> simp

@[simp] theorem stable_removePlan (s : State) (i : Nat) : (s.removePlan i).stable = s.stable := by
  simp [State.removePlan]

@[simp] theorem stable_headRevised (s : State) (a b : PlanData) : (s.headRevised a b).stable = s.stable := by
  unfold State.headRevised; dsimp only; (repeat' split) <;> simp

@[simp] theorem stable_replaceHead (s : State) (d : PlanData) : (s.replaceHead d).stable = s.stable := by
  simp [State.replaceHead]

@[simp] theorem stable_revisePinned (s : State) (a b : PlanData) : (s.revisePinned a b).stable = s.stable := by
  unfold State.revisePinned; dsimp only; (repeat' split) <;> simp

@[simp] theorem stable_reviseHead (s : State) (a b : PlanData) : (s.reviseHead a b).stable = s.stable := by
  unfold State.reviseHead; dsimp only; split <;> simp

@[simp] theorem stable_applyHeld (s : State) : s.applyHeld.stable = s.stable := by
  unfold State.applyHeld; dsimp only; (repeat' split) <;> simp

@[simp] theorem stable_unpinHead (s : State) (r : Bool) : (s.unpinHead r).stable = s.stable := by
  unfold State.unpinHead; dsimp only; (repeat' split) <;> simp

/-! ### Release -/

@[simp] theorem stable_fallPhase (s : State) : s.fallPhase.stable = s.stable := by
  unfold State.fallPhase; dsimp only; rw [stable_setPhase, stable_updDepart]; split <;> simp

@[simp] theorem stable_fallBack (s : State) (r : Option RefusalReason) : (s.fallBack r).stable = s.stable := by
  unfold State.fallBack; dsimp only; split <;> simp

@[simp] theorem stable_fallSilent (s : State) : s.fallSilent.stable = s.stable := by simp [State.fallSilent]

@[simp] theorem stable_enterReleasing (s : State) : s.enterReleasing.stable = s.stable := by
  simp [State.enterReleasing, stable_linkHalt]

@[simp] theorem stable_coachGone (s : State) : s.coachGone.stable = s.stable := by simp [State.coachGone]

@[simp] theorem stable_enterCleared (s : State) : s.enterCleared.stable = s.stable := by
  unfold State.enterCleared; dsimp only; split <;> simp

@[simp] theorem stable_unlatch (s : State) : s.unlatch.stable = s.stable := by
  unfold State.unlatch; dsimp only; split <;> simp

@[simp] theorem stable_departDisturbed (s : State) : s.departDisturbed.stable = s.stable := by
  unfold State.departDisturbed; (repeat' split) <;> simp

@[simp] theorem stable_completeDeparture (s : State) : s.completeDeparture.stable = s.stable := by
  unfold State.completeDeparture; split <;> simp

@[simp] theorem stable_transitOver (s : State) : s.transitOver.stable = s.stable := by simp [State.transitOver]

@[simp] theorem stable_laneWon (s : State) : s.laneWon.stable = s.stable := by simp [State.laneWon]

@[simp] theorem stable_takeRequest (s : State) : s.takeRequest.stable = s.stable := by
  unfold State.takeRequest; split <;> simp

@[simp] theorem stable_pressed (s : State) : s.pressed.stable = s.stable := by
  unfold State.pressed; (repeat' split) <;> simp

@[simp] theorem stable_enterFinalRead (s : State) : s.enterFinalRead.stable = s.stable := by
  simp [State.enterFinalRead]

@[simp] theorem stable_finalReport (s : State) (b : Bool) : (s.finalReport b).stable = s.stable := by
  unfold State.finalReport; (repeat' split) <;> simp

@[simp] theorem stable_coachLeft (s : State) : s.coachLeft.stable = s.stable := by
  unfold State.coachLeft; dsimp only; (repeat' split) <;> simp [stable_updDepart]

@[simp] theorem stable_departUnplugged (s : State) : s.departUnplugged.stable = s.stable := by
  unfold State.departUnplugged; (repeat' split) <;> simp

@[simp] theorem stable_loseLane (s : State) : s.loseLane.stable = s.stable := by simp [State.loseLane]

@[simp] theorem stable_heldConflict (s : State) (k p : Nat) (i : Bool) : (s.heldConflict k p i).stable = s.stable := by
  unfold State.heldConflict; dsimp only; (repeat' split) <;> simp

@[simp] theorem stable_laneHeard (s : State) (l : Nat) (h i : Bool) (k p : Nat) :
    (s.laneHeard l h i k p).stable = s.stable := by
  unfold State.laneHeard; (repeat' split) <;> simp

@[simp] theorem stable_forcedRelease (s : State) (l : Nat) : (s.forcedRelease l).stable = s.stable := by
  unfold State.forcedRelease; dsimp only; (repeat' split) <;> simp

@[simp] theorem stable_claimReported (s : State) (c : LaneContent) (d : Bool) :
    (s.claimReported c d).stable = s.stable := by
  unfold State.claimReported; dsimp only; (repeat' split) <;> simp

@[simp] theorem stable_laneSent (s : State) (c : LaneContent) (d : Bool) : (s.laneSent c d).stable = s.stable := by
  unfold State.laneSent; (repeat' split) <;> simp

@[simp] theorem stable_claimFailed (s : State) (c : LaneContent) : (s.claimFailed c).stable = s.stable := by
  unfold State.claimFailed; split <;> simp

@[simp] theorem stable_departRestart (s : State) : s.departRestart.stable = s.stable := by
  unfold State.departRestart; split
  · rfl
  · dsimp only; rw [stable_updDepart]; split <;> simp

/-! ### One rule, all rules -/

@[simp] theorem stable_announceDemand (s : State) : s.announceDemand.stable = s.stable := by
  unfold State.announceDemand State.announce; split <;> simp

theorem stable_departRule {s t : State} (h : s.departRule = some t) : t.stable = s.stable := by
  revert h; unfold State.departRule
  (repeat' split) <;> intro h <;> cases h <;> simp

theorem stable_linkRule {s t : State} (h : s.linkRule = some t) : t.stable = s.stable := by
  revert h; unfold State.linkRule
  split
  · split <;> intro h <;> cases h <;> simp
  · split <;> intro h <;> cases h; simp

theorem stable_readyRule {s t : State} (h : s.readyRule = some t) : t.stable = s.stable := by
  revert h; unfold State.readyRule
  (repeat' split) <;> intro h <;> cases h <;> simp

theorem stable_heatRule {s t : State} (h : s.heatRule = some t) : t.stable = s.stable := by
  revert h; unfold State.heatRule
  (repeat' split) <;> intro h <;> cases h <;> simp

/-- A condition that calls for something leaves the stable registers. -/
theorem stepRule_stable {s t : State} (h : stepRule s = some t) : t.stable = s.stable := by
  revert h; unfold stepRule
  split
  · rename_i h; intro e; cases e; exact stable_departRule h
  · split
    · rename_i h; intro e; cases e; exact stable_linkRule h
    · split
      · rename_i h; intro e; cases e; exact stable_readyRule h
      · intro e; exact stable_heatRule e

/-- Judging the conditions leaves the stable registers. -/
@[simp] theorem settle_stable (n : Nat) : ∀ s : State, (settle n s).stable = s.stable := by
  induction n with
  | zero => intro s; rfl
  | succ n ih =>
    intro s; unfold settle
    split
    · rename_i h; rw [ih, stepRule_stable h]
    · rfl

@[simp] theorem settled_stable (s : State) : (settled s).stable = s.stable := by
  unfold settled; split
  · show (settle Config.settleFuel s.fresh).stable = _
    rw [settle_stable]; rfl
  · rfl

@[simp] theorem fresh_fresh (s : State) : s.fresh.fresh = s.fresh := rfl

@[simp] theorem running_fresh (s : State) : s.fresh.running = s.running := rfl

/-- A state in which nothing is called for stays as it is. -/
theorem settle_of_none (n : Nat) {s : State} (h : stepRule s = none) : settle n s = s := by
  cases n with
  | zero => rfl
  | succ n => unfold settle; rw [h]

/-- A settled state stays as it is, but for the model's count of grant rounds. -/
theorem settled_of_settled {s : State} (h : s.Settled) : (settled s).fresh = s.fresh := by
  unfold settled; split
  · rw [settle_of_none _ h]; rfl
  · rfl

/-- A settled state whose rounds are counted anew stays as it is. -/
theorem settled_fresh_of_settled {s : State} (h : s.Settled) : settled s.fresh = s.fresh := by
  unfold settled; split
  · rw [fresh_fresh, settle_of_none _ h]; rfl
  · rfl

/-- Judging starts from rounds counted anew. -/
theorem settled_fresh {s : State} (h : s.running = true) : settled s.fresh = settled s := by
  unfold settled; rw [running_fresh, if_pos h, if_pos h, fresh_fresh]

/-- One condition judged on the way to a settled state. -/
theorem settled_of_step {s t : State} (hr : s.running = true) (h : stepRule s.fresh = some t)
    (ht : stepRule t = none) : settled s = t.fresh := by
  unfold settled; rw [if_pos hr]
  show (settle (127 + 1) s.fresh).fresh = t.fresh
  unfold settle; rw [h]; dsimp only; rw [settle_of_none _ ht]

/-! ### The close -/

@[simp] theorem stable_fresh (s : State) : s.fresh.stable = s.stable := rfl

@[simp] theorem stable_noteClose (s : State) : s.noteClose.stable = s.stable := rfl

/-- The close counts the rounds anew itself. -/
theorem finish_fresh (s : State) : finish s.fresh = finish s := rfl

@[simp] theorem finish_stable (s : State) : (finish s).stable = s.stable := by
  unfold finish State.summaryClose State.statusClose State.signalClose; dsimp only
  (repeat' split) <;> simp

/-- What the close notes beside what it announces. -/
theorem fresh_noteClose (s : State) : s.fresh.noteClose =
    { s with line := { s.line with answerSeries := s.seriesKept }, share := { s.share with rounds := 0 },
             depart := { s.depart with verdictSeen := s.verdict } } := rfl

theorem summaryClose_form (s : State) : ∃ a b c, s.summaryClose =
    { s with line := { s.line with summary := a }, faults := { s.faults with shown := b, refresh := c } } := by
  unfold State.summaryClose; split <;> exact ⟨_, _, _, rfl⟩

theorem statusClose_form (s : State) : ∃ a b, s.statusClose =
    { s with line := { s.line with status := a, statusRefresh := b } } := by
  unfold State.statusClose; split <;> exact ⟨_, _, rfl⟩

theorem signalClose_form (s : State) : ∃ a b, s.signalClose =
    { s with bay := { s.bay with signal := a, signalSince := b } } := by
  unfold State.signalClose; split <;> exact ⟨_, _, rfl⟩

/-- The close writes its own registers alone. -/
theorem finish_closed (s : State) : ClosedFrom s (finish s) := by
  unfold finish ClosedFrom
  dsimp only
  split
  · obtain ⟨a, b, c, h1⟩ := summaryClose_form s.fresh.noteClose
    obtain ⟨d, e, h2⟩ := statusClose_form s.fresh.noteClose.summaryClose
    obtain ⟨f, g, h3⟩ := signalClose_form s.fresh.noteClose.summaryClose.statusClose
    rw [h3, h2, h1]; rfl
  · obtain ⟨f, g, h3⟩ := signalClose_form s.fresh.noteClose
    rw [h3]; rfl

/-- What a command that judges the conditions and closes does. -/
theorem conclude_does (u : State) : Does (conclude u) u :=
  ⟨_, rfl, by simp, fun h => by
    have e : (settled u).fresh = u.fresh := by
      by_cases hr : u.running = true
      · exact settled_of_settled (h hr)
      · unfold settled; rw [if_neg hr]
    rw [← finish_fresh, e, finish_fresh]; exact finish_closed u⟩

theorem conclude_eq (s : State) : conclude s = .next (finish (settled s)) := rfl

end Sys2Proof.Machine
end

