-- ==== Sys2Proof/Laws/Receive.lean ====
section
/-! SUPPORT. What the counter operations and the reception of a notice do (R165, R171 to R175), said once. -/

namespace Sys2Proof.Machine

/-! ### What the watched conditions leave to a command that follows them -/

@[simp] theorem settled_pending (v : State) : (settled v).pending = v.pending :=
  congrArg Stable.pending (settled_stable v)
@[simp] theorem settled_cfg (v : State) : (settled v).cfg = v.cfg := congrArg Stable.cfg (settled_stable v)
@[simp] theorem settled_conf (v : State) : (settled v).conf = v.conf := by simp only [State.conf, settled_cfg]
@[simp] theorem settled_clock (v : State) : (settled v).clock = v.clock := congrArg Stable.clock (settled_stable v)
@[simp] theorem settled_now (v : State) : (settled v).now = v.now := by simp only [State.now, settled_clock]
@[simp] theorem settled_absMinute (v : State) : (settled v).absMinute = v.absMinute := by
  simp only [State.absMinute, settled_clock]
@[simp] theorem settled_view (v : State) : (settled v).view = v.view := congrArg Stable.view (settled_stable v)
@[simp] theorem settled_station (v : State) : (settled v).start.station = v.start.station :=
  congrArg Stable.station (settled_stable v)
@[simp] theorem settled_stagger (v : State) : (settled v).start.stagger = v.start.stagger :=
  congrArg Stable.stagger (settled_stable v)
@[simp] theorem settled_answers (v : State) : (settled v).line.answers = v.line.answers :=
  congrArg Stable.answers (settled_stable v)
@[simp] theorem settled_live (v : State) : (settled v).share.live = v.share.live :=
  congrArg Stable.live (settled_stable v)

@[simp] theorem counted_conf (s : State) : s.counted.conf = s.conf := rfl
@[simp] theorem counted_cfg (s : State) : s.counted.cfg = s.cfg := rfl
@[simp] theorem counted_now (s : State) : s.counted.now = s.now := rfl
@[simp] theorem counted_clock (s : State) : s.counted.clock = s.clock := rfl
@[simp] theorem counted_view (s : State) : s.counted.view = s.view := rfl
@[simp] theorem counted_plans (s : State) : s.counted.plans = s.plans := rfl
@[simp] theorem counted_faults (s : State) : s.counted.faults = s.faults := rfl
@[simp] theorem counted_depart (s : State) : s.counted.depart = s.depart := rfl
@[simp] theorem counted_start (s : State) : s.counted.start = s.start := rfl
@[simp] theorem counted_answers (s : State) : s.counted.line.answers = s.line.answers := rfl

/-! ### The counter and the reception of a notice -/

/-- The line states as ranges of the counter (R173). -/
theorem lineState_range (c : Nat) :
    (lineState c = .detached ↔ 224 ≤ c) ∧ (lineState c = .muted ↔ 128 ≤ c ∧ c < 224) ∧
      (lineState c = .active ↔ c < 64) ∧ (lineState c = .warned ↔ 64 ≤ c ∧ c < 128) := by
  unfold lineState; split_ifs <;> simp <;> omega

/-- A lowering of the counter below DETACHED changes the counter alone (R174). -/
theorem counterDown_eq (s : State) (h : s.line.counter < 224) :
    s.counterDown = s.updLine fun l => { l with counter := l.counter - 1 } := by
  unfold State.counterDown State.setCounter State.line' lineState
  have : s.line.counter - 1 < 224 := by omega
  simp only [State.updLine]
  split_ifs <;> simp_all <;> omega

/-- A raising of the counter is `raised` (R174, R175, R163). -/
theorem counterUp_eq_raised (s : State) (n : Nat) : s.counterUp n = s.raised n := by
  unfold State.counterUp State.setCounter State.raised State.line'
  generalize hc : min (s.line.counter + n) 255 = c
  have hn : s.line.counter ≤ c ∨ 255 = c := by omega
  obtain ⟨a1, a2, -, -⟩ := lineState_range c
  obtain ⟨b1, -, b3, b4⟩ := lineState_range s.line.counter
  have e1 : (lineState c = .detached ∧ lineState s.line.counter ≠ .detached) ↔
      (s.line.counter < 224 ∧ 224 ≤ c) := by rw [Ne, a1, b1]; omega
  have e2 : ((lineState s.line.counter = .active ∨ lineState s.line.counter = .warned) ∧
      (lineState c = .muted ∨ lineState c = .detached)) ↔ (s.line.counter < 128 ∧ 128 ≤ c) := by
    rw [a1, a2, b3, b4]; omega
  simp only [e1, e2]
  by_cases h : s.line.counter < 128 ∧ 128 ≤ c <;> simp [h, State.updLine, State.updBay]

/-- A lower counter bars no station that was not barred (R169). -/
theorem barredSince_down (s : State) :
    (s.updLine fun l => { l with counter := l.counter - 1 }).barredSince s =
      s.updLine fun l => { l with counter := l.counter - 1 } := by
  rw [State.barredSince, if_neg]
  intro h
  simp only [State.mayTransmit, State.lineGood, State.updLine, Bool.and_eq_true, Bool.not_eq_true', decide_eq_true_eq,
    Bool.or_eq_true] at h
  obtain ⟨⟨⟨h1, h2⟩, h3⟩, h4⟩ := h
  have : decide (s.line.counter - 1 < 128) = true := by simp; omega
  simp_all

/-- Below DETACHED a valid notice of another station only lowers the counter (R172, R174). -/
theorem countGood_eq (s : State) (n : Nat) (h : s.line.counter < 224) (hn : n ≠ s.conf.station) :
    (s.countGood.heardTwin n).barredSince s = s.updLine fun l => { l with counter := l.counter - 1 } := by
  have hd : s.line' ≠ .detached := by rw [State.line', Ne, (lineState_range _).1]; omega
  have e : s.countGood.heardTwin n = s.updLine fun l => { l with counter := l.counter - 1 } := by
    rw [State.countGood, if_neg hd, counterDown_eq s h, State.heardTwin, if_neg]
    exact hn
  rw [e, barredSince_down]

/-- A notice that reaches its block is counted, what the count calls for is done, and the block takes it. -/
theorem receive_of_hears {s : State} {kind : Nat} {sender target : Byte} {payload : List Byte} (take : State → State)
    (h : s.Hears kind sender target payload) (hd : dispatched kind sender.toNat payload = true) :
    s.receive kind sender target payload take = take (settled s.counted) := by
  obtain ⟨h1, h2, h3, h4, h5, h6, h7⟩ := h
  have hl : s.line' ≠ .detached := by rw [State.line', Ne, (lineState_range _).1]; omega
  have hr : s.reaches kind sender.toNat target.toNat payload = true := by
    simp only [State.reaches, hd, h7, Bool.and_eq_true, bne_iff_ne, Bool.or_eq_true, beq_iff_eq, Bool.not_false,
      and_true]
    exact ⟨⟨hl, h5⟩, by rcases h6 with h6 | ⟨h6, h8⟩ <;> simp [*]⟩
  have hs : settled (s.updLine fun l => { l with counter := l.counter - 1 }) = settled s.counted := by
    rw [State.counted, settled_fresh]; exact h1
  simp only [State.receive, h1, noticeValid, h3, h4, hr, countGood_eq s _ h2 h5, hs, decide_true, Bool.and_self,
    Bool.not_true, if_true, Bool.false_eq_true, if_false]

/-- What the report of an item that outlived RESTART does: nothing, or it clears the line-trouble latch (R176, R41). -/
theorem orphanSent_cases (s : State) (x : Tx) :
    s.orphanSent x = s ∨
      s.orphanSent x = s.updBay (fun b => { b with trouble := false }) ∧ x.rest = [] ∧
        ∃ a, x.item = .answer a ∧ a.kind = .status ∧ a.asker = 0 := by
  unfold State.orphanSent State.answerTold
  split
  · rename_i a ha
    by_cases hr : x.rest = [] <;> by_cases hk : a.kind = .status ∧ a.asker = 0 <;> simp [ha, hr, hk]
  all_goals exact Or.inl rfl

/-- The counted state, where it calls for nothing, is as it stands. -/
theorem settled_counted {s : State} (h : s.counted.Settled) : settled s.counted = s.counted :=
  settled_fresh_of_settled h

/-- The effect of a received notice from what its block does. -/
theorem doesAfter_of {o : Host.Outcome State Fault Refusal} {v u : State} (take : State → State)
    (ho : o = conclude (take (settled v))) (hs : (take (settled v)).stable = u.stable)
    (hf : v.Settled → settled v = v) (hv : v.Settled → take v = u) : DoesAfter o v u := by
  obtain ⟨t, h1, h2, h3⟩ := conclude_does (take (settled v))
  refine ⟨t, by rw [ho, h1], h2.trans hs, fun a b => ?_⟩
  have : take (settled v) = u := by rw [hf a, hv a]
  rw [this] at h3
  exact h3 fun _ => b

end Sys2Proof.Machine
end

