-- ==== Sys2Proof/Laws/Shared.lean ====
section
/-! SUPPORT. What each shared operation can do, said once: slots, the request queue, the fault table, the stage count, room in the view. -/

namespace Sys2Proof.Machine

/-! ### Slots (R167, R170) -/

@[simp] theorem Slot.write_content {α : Type} (x : Slot α) (c : α) : (x.write c).content = some c := rfl
@[simp] theorem Slot.write_written {α : Type} (x : Slot α) (c : α) : (x.write c).written = true := rfl

/-- A write leaves HELD held and makes any other state PENDING. -/
theorem Slot.write_state {α : Type} (x : Slot α) (c : α) :
    (x.write c).state = .held ∧ x.state = .held ∨ (x.write c).state = .pending ∧ x.state ≠ .held := by
  unfold Slot.write; by_cases h : x.state = .held <;> simp [h]

/-- An item sent keeps the content; the slot becomes SENT, or stays as it is. -/
theorem Slot.sent_cases {α : Type} (x : Slot α) : x.sent = { x with state := .sent } ∨ x.sent = x := by
  unfold Slot.sent; split <;> simp

/-! ### The request queue (R88, R93) -/

/-- A head that is due becomes the exchange in flight; else nothing starts (R89). -/
theorem begun_cases (s : State) :
    s.begun = s.startExchange ∧ s.exchangeDue = true ∨ s.begun = s ∧ s.exchangeDue = false := by
  unfold State.begun; by_cases h : s.exchangeDue = true <;> simp [h]

/-- A placing appends the request, which starts at once where the link is idle and the gap has passed, or changes nothing. -/
theorem place_cases (s : State) (r : Request) :
    s.place r = (s.updLink fun l => { l with queue := l.queue ++ [r] }).begun ∧ s.link.allows r.kind = true ∧
        s.link.count r.job < r.job.quota ∨
      s.place r = s ∧ (s.link.allows r.kind = false ∨ r.job.quota ≤ s.link.count r.job) := by
  unfold State.place State.enqueue
  by_cases h : (s.link.allows r.kind && decide (s.link.count r.job < r.job.quota)) = true
  · left
    rw [if_pos h]
    simp only [Bool.and_eq_true, decide_eq_true_eq] at h
    exact ⟨rfl, h.1, h.2⟩
  · right
    rw [if_neg h]
    simp only [Bool.and_eq_true, decide_eq_true_eq, not_and, Nat.not_lt] at h
    refine ⟨rfl, ?_⟩
    cases ha : s.link.allows r.kind
    · exact Or.inl rfl
    · exact Or.inr (h ha)

/-- HEAT's offer is taken, kept at the quota, or answered ABORTED, which ends heater enable held for HEATER DISABLE (R88,
R48). -/
theorem heatPlace_cases (s : State) (k : ReqKind) :
    s.link.allows k = true ∧
        (Job.quota .heat ≤ s.link.count .heat ∧ s.heatPlace k = s.updHeat (fun h => { h with kept := h.kept ++ [k] }) ∨
          s.link.count .heat < Job.quota .heat ∧
            s.heatPlace k = s.enqueue { job := .heat, kind := k, arg := 0, closing := false }) ∨
      s.link.allows k = false ∧
        (k = .heaterDisable ∧ s.heatPlace k = s.updHeat (fun h => { h with enableHeld := false }) ∨
          k ≠ .heaterDisable ∧ s.heatPlace k = s) := by
  unfold State.heatPlace State.heatAborted State.place
  by_cases h : s.link.allows k = true <;> by_cases hq : Job.quota .heat ≤ s.link.count .heat <;>
    by_cases hk : k = .heaterDisable <;> simp_all

/-- A withdrawal of LAMP takes its requests out of the queue and moves its closing, outstanding and restart registers alone
(R93). -/
theorem lampWithdraw_cases (s : State) :
    ∃ c o r, s.lampWithdraw =
      (s.withdraw .lamp).updLamp fun l => { l with closing := c, outstanding := o, restart := r } := by
  have step : ∀ (t : State) (q : Request), ∃ c o r, t.lampAborted q =
      t.updLamp fun l => { l with closing := c, outstanding := o, restart := r } := by
    intro t q
    unfold State.lampAborted
    (repeat' split)
    · exact ⟨false, t.lamp.outstanding, t.lamp.restart, rfl⟩
    · exact ⟨t.lamp.closing, none, false, rfl⟩
    · exact ⟨t.lamp.closing, t.lamp.outstanding, t.lamp.restart, rfl⟩
  have all : ∀ (qs : List Request) (t : State), ∃ c o r, qs.foldl State.lampAborted t =
      t.updLamp fun l => { l with closing := c, outstanding := o, restart := r } := by
    intro qs
    induction qs with
    | nil => intro t; exact ⟨t.lamp.closing, t.lamp.outstanding, t.lamp.restart, rfl⟩
    | cons q qs ih =>
      intro t
      obtain ⟨c, o, r, h⟩ := step t q
      obtain ⟨c', o', r', h'⟩ := ih (t.lampAborted q)
      exact ⟨c', o', r', by rw [List.foldl_cons, h', h]; rfl⟩
  exact all _ _

/-! ### The fault table (R118, R120) -/

/-- A write merges into the record with its key, places a new record, or is discarded. -/
theorem Faults.write_cases (f : Faults) (k : Key) (v : Severity) (c : Option CoachState) (t : Option DepotTime) :
    (∃ r ∈ f.table, r.key = k) ∧
        f.write k v c t = { f with table := f.table.map fun r => if r.key = k then r.merge v c t else r } ∨
      (∀ r ∈ f.table, r.key ≠ k) ∧
        ((∃ x, placeRecord f.table (Record.fresh k v c t) = some x ∧ f.write k v c t = { f with table := x }) ∨
          placeRecord f.table (Record.fresh k v c t) = none ∧ f.write k v c t = { f with overflow := true }) := by
  unfold Faults.write
  by_cases h : (f.table.any fun r => r.key == k) = true
  · left
    rw [if_pos h]
    obtain ⟨r, hr, hk⟩ := List.any_eq_true.1 h
    exact ⟨⟨r, hr, by simpa using hk⟩, rfl⟩
  · right
    rw [if_neg h]
    refine ⟨fun r hr hk => h (List.any_eq_true.2 ⟨r, hr, by simpa using hk⟩), ?_⟩
    cases hp : placeRecord f.table (Record.fresh k v c t) with
    | none => exact Or.inr ⟨rfl, rfl⟩
    | some x => exact Or.inl ⟨x, rfl, rfl⟩

/-- A merge keeps the key. -/
@[simp] theorem Record.merge_key (r : Record) (v : Severity) (c : Option CoachState) (t : Option DepotTime) :
    (r.merge v c t).key = r.key := rfl

/-- A placing keeps some records in their order and appends the new one; the table never grows past 32. -/
theorem placeRecord_spec {t x : List Record} {r : Record} (h : placeRecord t r = some x) :
    ∃ y, x = y ++ [r] ∧ y.Sublist t ∧ (t.length ≤ 32 → x.length ≤ 32) := by
  unfold placeRecord at h
  have drop (v : Severity) (hv : (t.any fun q => q.severity == v) = true) :
      (dropOldest v t).length + 1 = t.length := by
    obtain ⟨q, hq, hs⟩ := List.any_eq_true.1 hv
    have hp : 0 < t.length := List.length_pos_of_mem hq
    unfold dropOldest
    rw [List.length_eraseP_of_mem hq hs]; omega
  split at h
  · cases h
    rename_i hl
    exact ⟨t, rfl, List.Sublist.refl _, fun _ => by rw [List.length_append]; exact hl⟩
  · split at h
    · cases h
      rename_i hl hv
      exact ⟨_, rfl, List.eraseP_sublist, fun _ => by
        have := drop .info hv; rw [List.length_append, List.length_singleton]; omega⟩
    · split at h
      · cases h
        rename_i hl hv hb
        simp only [Bool.and_eq_true] at hb
        exact ⟨_, rfl, List.eraseP_sublist, fun _ => by
          have := drop .advisory hb.2; rw [List.length_append, List.length_singleton]; omega⟩
      · cases h

/-! ### The stage count (R43, R158) -/

/-- A hold request or BLIND count lies from 1 up to the stage maximum, at 0 it is 1 (R43, log entry 48). -/
theorem stageFigure_range (m n : Nat) : 1 ≤ stageFigure m n ∧ stageFigure m n ≤ max m 1 := by
  unfold stageFigure clampNat; (repeat' split) <;> omega

/-- The count takes the new value; the contactors follow wherever it changes. -/
theorem setCount_spec (s : State) (n : Nat) :
    n = s.heat.count ∧ s.setCount n = s ∨ n ≠ s.heat.count ∧ ∃ t : State,
      t = (s.updHeat fun h =>
        { h with count := n, lastChange := some s.now, run := h.run.map fun r => r.upTo h.count s.now }).bayCount n ∧
      s.setCount n = if n < s.heat.count then t.lampDecrease else t := by
  unfold State.setCount
  by_cases h : n = s.heat.count
  · exact Or.inl ⟨h, if_pos h⟩
  · exact Or.inr ⟨h, _, rfl, if_neg h⟩

/-! ### Room in the view (R33) -/

theorem oldestIdle_mem : ∀ {es : List Entry} {e : Entry}, oldestIdle es = some e →
    e ∈ es ∧ e.demand = none ∧ e.lane = none
  | [], _, h => by cases h
  | x :: xs, e, h => by
    unfold oldestIdle at h
    dsimp only at h
    cases hx : oldestIdle xs with
    | none =>
      rw [hx] at h
      by_cases hi : (x.demand.isNone && x.lane.isNone) = true
      · rw [if_pos hi] at h; cases h; simp_all
      · rw [if_neg hi] at h; cases h
    | some y =>
      obtain ⟨hm, hd, hl⟩ := oldestIdle_mem hx
      rw [hx] at h
      by_cases hi : (x.demand.isNone && x.lane.isNone) = true
      · rw [if_pos hi] at h
        dsimp only at h
        split at h <;> cases h <;> simp_all
      · rw [if_neg hi] at h; cases h; simp_all

theorem lowestRanked_mem (own : RankKey) : ∀ {es : List Entry} {e : Entry}, lowestRanked own es = some e → e ∈ es
  | [], _, h => by cases h
  | x :: xs, e, h => by
    unfold lowestRanked at h
    dsimp only at h
    have ih : ∀ y, lowestRanked own xs = some y → y ∈ xs := fun y hy => lowestRanked_mem own hy
    repeat' split at h
    all_goals first
      | exact List.mem_cons_of_mem _ (ih _ h)
      | (cases h; exact List.mem_cons_self)
      | (cases h; exact List.mem_cons_of_mem _ (ih _ ‹_›))

/-- What is evicted is an entry of the view. -/
theorem evictee_mem {own : Option RankKey} {es : List Entry} {e : Entry} (h : evictee own es = some e) : e ∈ es := by
  unfold evictee at h
  cases ho : oldestIdle es with
  | some x => rw [ho] at h; cases h; exact (oldestIdle_mem ho).1
  | none =>
    rw [ho] at h
    cases own with
    | none => cases h
    | some k => exact lowestRanked_mem k h

/-- Room made leaves a sublist of the entries with a place free, from a view within its limit. -/
theorem makeRoom_spec {own : Option RankKey} {es xs : List Entry} (h : makeRoom own es = some xs)
    (hl : es.length ≤ 48) : xs.Sublist es ∧ xs.length < 48 := by
  unfold makeRoom at h
  split at h
  · cases h; exact ⟨List.Sublist.refl _, ‹_›⟩
  · obtain ⟨e, he, rfl⟩ := Option.map_eq_some_iff.1 h
    refine ⟨List.filter_sublist, ?_⟩
    have hm := evictee_mem he
    have : (es.filter fun x => x.station != e.station).length < es.length := by
      rw [List.length_filter_lt_length_iff_exists]
      exact ⟨e, hm, by simp⟩
    omega

end Sys2Proof.Machine
end

