-- ==== Sys2Proof/Tests/Slice0.lean ====
section
/-! SUPPORT. Checks of our own: ill-formed operands refused, the manual's worked numbers, one step of some commands, and for every statement a state and operands that meet its hypotheses. -/

namespace Sys2Proof.Tests

-- One proof at a time: the kernel's evaluations side by side would each hold a thread.
set_option Elab.async false

open Sys2Proof Sys2Proof.Machine

/-! ### WellFormed refuses an ill-formed term for each check -/

theorem test_refuses_sender : (Instr.timeNotice 121 127 [0, 0, 0, 0, 0]).wellFormed = false := by decide
theorem test_refuses_target : (Instr.timeNotice 0 128 [0, 0, 0, 0, 0]).wellFormed = false := by decide
theorem test_refuses_time_length : (Instr.timeNotice 0 127 [0, 0, 0, 0]).wellFormed = false := by decide
theorem test_refuses_lane_length : (Instr.laneNotice 9 127 []).wellFormed = false := by decide
theorem test_refuses_supply_length : (Instr.supplyNotice 0 127 [0, 0]).wellFormed = false := by decide
theorem test_refuses_demand_length : (Instr.demandNotice 9 127 [0, 0]).wellFormed = false := by decide
theorem test_refuses_restart_length : (Instr.restartNotice 0 5 [0]).wellFormed = false := by decide
theorem test_refuses_plan_length : (Instr.planNotice 0 5 [0]).wellFormed = false := by decide
theorem test_refuses_clear_length : (Instr.faultClearNotice 0 5 [0]).wellFormed = false := by decide
theorem test_refuses_query_length : (Instr.queryNotice 0 5 [0]).wellFormed = false := by decide
theorem test_refuses_hello_length : (Instr.helloNotice 9 127 [0]).wellFormed = false := by decide
theorem test_refuses_kind : (Instr.noticeNotDispatched 16 9 127 []).wellFormed = false := by decide
theorem test_refuses_long_payload :
    (Instr.noticeNotDispatched 12 9 127 (List.replicate 11 0)).wellFormed = false := by decide
theorem test_refuses_peer_low : (Instr.demandRecordAged 0).wellFormed = false := by decide
theorem test_refuses_peer_high : (Instr.laneRecordAged 121).wellFormed = false := by decide
theorem test_refuses_entry : (Instr.entryAged 121).wellFormed = false := by decide
theorem test_refuses_lane : (Instr.contestedMarkExpiry 9).wellFormed = false := by decide
theorem test_refuses_samples : (Instr.baselineWindowClose (List.replicate 65 0)).wellFormed = false := by decide
theorem test_refuses_sample : (Instr.groupWindowClose [30001]).wellFormed = false := by decide
theorem test_accepts_hello : (Instr.helloNotice 9 127 [9, 1, 0x10]).wellFormed = true := by decide

/-! ### The manual's worked numbers -/

/-- 4.4, "a heat schedule": four stages, then three, then one. -/
theorem test_lead_four : computeLead (-36) 40 (-48) 1500 600 10 24000 =
    { lead := 116, unreachable := false, longHeat := false } := by decide
theorem test_lead_three : computeLead (-36) 40 (-48) 1500 600 10 18000 =
    { lead := 327, unreachable := false, longHeat := false } := by decide
theorem test_lead_unreachable : computeLead (-36) 40 (-48) 1500 600 10 6000 =
    { lead := 720, unreachable := true, longHeat := false } := by decide

/-- 4.7, "learning from a run". -/
theorem test_measured :
    measured { tc0 := -36, to0 := -48, start := 0, acc := 60000, mark := 30000, coach := 40217 } 40 4 6600000 6000 600 =
      some 1553 := by decide +kernel
theorem test_learned :
    learn [] 40217 1500 1553 0 = [{ coach := 40217, capacity := 1513, runs := 1, lastUsed := 0 }] := by decide

/-- 5.8, "a grant in group 3": 108 kW, 144 units ahead. -/
theorem test_grant : computeGrant 4 12 108 144 = 4 := by decide
theorem test_grant_lowered : computeGrant 4 12 84 144 = 2 := by decide

/-- 7.5, "Worked classifications": 680, 1 050 and 40 mA short of 4 200 mA for six lamps. -/
theorem test_lamps_out : lampsOut 4200 6 3520 = 1 := by decide
theorem test_lamps_out_half : lampsOut 4200 6 3150 = 1 := by decide
theorem test_lamps_out_none : lampsOut 4200 6 4160 = 0 := by decide

/-- 4.5: a hold request of 5, clamped to the stage maximum of 4. -/
theorem test_hold_request : holdRequest 40 (-48) 600 6000 6 = 5 ∧ holdRequest 40 (-48) 600 6000 4 = 4 := by decide

/-- The group of "Worked classifications". -/
def group : LampGroup := { expected := 4200, lamps := 6, cls := .safety, skip := 40 }

theorem test_classify_opened : classify group 20 150 [3560, 3640] 300 0 = some .opened := by decide
theorem test_classify_overload : classify group 20 150 [9640, 9950] 6500 0 = some .overload := by decide
theorem test_classify_retried : classify group 20 150 [6300, 7200] 3750 0 = none := by decide

/-! ### States the checks start from -/

/-- A lamp group of 1 000 mA and four lamps. -/
def lampGroup0 : LampGroup := { expected := 1000, lamps := 4, cls := .safety, skip := 10 }

/-- A class: 2 kW stages, one sample a window, one group. -/
def class0 : ClassCfg :=
  { profile := 0, heaterMax := 6, stageSize := 4, capacity := 1000, loss := 100, margin := 0, lampLead := 30,
    avgExp := 0, spreadPct := 10, overPct := 120, groupCount := 1, groups := [lampGroup0] }

/-- Station 5 of group 1 with lanes 1 and 2. -/
def conf0 : Configuration :=
  { Configuration.blank with
    station := 5, group := 1, lanes := [1, 2], allowance := 100, overdueLimit := 30, earlyWindow := 5, clearance := 60,
    transit := [20, 20, 20, 20, 20, 20, 20, 20], tmin := 10, debounce := [50, 50, 50, 50, 50],
    profiles := [{ rate := 9600, parity := .none, timeout := 100, gap := 5, retries := 1 }], classes := [class0] }

/-- OPERATING at 1 000 000 ms, 10:00:00 of day 1. -/
def op : State :=
  { State.reset with
    cfg := some conf0, start := { State.reset.start with station := .operating },
    clock := { seconds := 1000, millis := 0, state := .set, time := some { day := 1, second := 36000 },
               lastTime := some 400000 },
    share := { State.reset.share with live := 100 } }

/-- Departure 1 of coach 7 at 10:20. -/
def data1 : PlanData :=
  { id := 1, coach := 7, day := 1, minute := 620, target := 40, cls := 0, lanes := [1], heatNow := false,
    skipLamps := false }

/-- A record of departure 1. -/
def plan1 (p : Phase) : Plan := { data := data1, phase := p, held := none, overdue := false }

/-- `s` with departure 1 as head in a phase. -/
def headed (s : State) (p : Phase) : State := { s with plans := { s.plans with list := [plan1 p] } }

/-- An active input. -/
def on : Pin := { raw := true, level := true, due := none }

/-- An input whose raw level has just held the other value. -/
def turning (v : Bool) : Pin := { raw := v, level := !v, due := some 1000000 }

/-- Coach 7 plugged in, latched and identified; the link UP. -/
def up : State :=
  { op with
    bay := { op.bay with coach := on, inserted := on, latched := on, debouncing := true },
    link := { op.link with
      state := .up, coach := some { id := 7, cls := 0, heaterMax := 6, lampGroups := 1 }, cls := some 0,
      identified := true } }

/-- The two bytes of a plan's class and coach, and the rest of a PLAN for coach 7 at 10:20 of day 1 (13.2). -/
def planBytes (id : Nat) (cancel : Bool) (minute : Nat) : List Byte :=
  bytes16 id ++ bytes24 (7 * 16 + flag cancel 1) ++ bytes16 1 ++ bytes16 (minute * 32 + 8) ++ [byte (40 * 4)]

/-- A DEMAND payload. -/
def demandBytes (group requested : Nat) : List Byte :=
  DemandContent.payload { group := group, requested := requested, stageSize := 4, slack := 0, drawing := false, stagesOn := 0 }

/-- A LANE payload. -/
def laneBytes (a : LaneAction) (lane key : Nat) : List Byte :=
  LaneContent.payload { action := a, lane := lane, key := key, inTransit := false, singleTry := false }

/-- A HELLO payload. -/
def helloBytes (group lane : Nat) : List Byte := [9, byte group, byte (lane * 16)]

/-- A peer's entry with a demand record. -/
def entry (p : Nat) : Entry :=
  { station := p, lastHeard := 0, demand := some { group := 1, requested := 1, stageSize := 4, slack := 0, stamp := 0 }, lane := none }

/-- Some entries, one for each peer. -/
def entries (n : Nat) : List Entry := (List.range n).map fun i => entry (i + 10)

/-- `s` with a view of `n` peers. -/
def seeing (s : State) (n : Nat) : State := { s with view := { s.view with entries := entries n } }

/-- A fault record. -/
def record (n : Nat) (v : Severity) : Record :=
  { key := { source := .coach 1, code := n }, severity := v, coach := none, count := 1, first := none, last := none,
    present := true }

/-- Whether an outcome is a next state in which nothing more is called for. -/
def quiet (o : Host.Outcome State Fault Refusal) : Bool :=
  match o with
  | .next t => (stepRule t).isNone
  | .fault _ => false
  | .refused _ => false

/-! ### Witnesses: for each statement, a state and operands that meet its hypotheses -/

theorem witness_EmptyQueueLetsTimePass :
    (op.pending = [] ∧ op.clock.millis < 999) ∧
      999 ≤ ({ op with clock := { op.clock with millis := 999 } } : State).clock.millis := by decide

/-- Every limit of LINE and CLOCK reached. -/
def fullLine : State :=
  { op with
    line := { op.line with counter := 255, recovery := 31, answers := List.replicate 4 { asker := 0, kind := .status, index := 0 } },
    clock := { op.clock with seconds := 4294967295, millis := 999, time := some { day := 65535, second := 86399 } } }

theorem witness_LineLimitsKept : fullLine.LineBounds ∧ ∃ t, step fullLine = .next t := by
  refine ⟨⟨by decide, by decide, by decide, by decide, by decide, ?_⟩, _, rfl⟩
  intro x h; cases h; decide

theorem witness_ViewLimitsKept : (seeing op 48).ViewBounds ∧ ∃ t, step (seeing op 48) = .next t := by
  refine ⟨?_, _, rfl⟩; unfold State.ViewBounds; decide +kernel

/-- 32 records, the first of them ADVISORY. -/
def fullTable : State :=
  { op with faults := { op.faults with
      table := record 0 .advisory :: (List.range 31).map fun n => record (n + 1) .blocking } }

theorem witness_TableLimitsKept : fullTable.TableBounds ∧ ∃ t, step fullTable = .next t := by
  refine ⟨?_, _, rfl⟩; unfold State.TableBounds; decide +kernel

/-- Four records, a revision of the head held. -/
def fullPlans : State :=
  { op with plans := { op.plans with
      list := { plan1 .cleared with held := some (.revision { data1 with minute := 700 }) } ::
        (List.range 3).map fun i =>
          { data := { data1 with id := i + 2 }, phase := .waitingCoach, held := none, overdue := false } } }

theorem witness_PlanLimitsKept :
    (fullPlans.PlanBounds ∧ fullPlans.plans.list.length = 4) ∧ ∃ t, step fullPlans = .next t := by
  refine ⟨⟨?_, by decide⟩, _, rfl⟩
  unfold State.PlanBounds
  refine ⟨by decide, by decide, ?_⟩
  intro p hp d hd
  have h : ∀ p ∈ fullPlans.plans.list, p.held = none ∨ (p.held = some (.revision { data1 with minute := 700 }) ∧ p.data.id = 1) := by
    decide
  rcases h p hp with h | ⟨h, i⟩
  · rw [h] at hd; cases hd
  · rw [h] at hd; cases hd; exact i.symm

/-- Every job at its quota, FAULT with one of its four in flight. -/
def fullQueue : State :=
  let q (j : Job) (k : ReqKind) (n : Nat) : List Request :=
    List.replicate n { job := j, kind := k, arg := 0, closing := false }
  { up with link := { up.link with
      queue := q .ident .identify 1 ++ q .heat .heaterEnable 3 ++ q .lamp .lampsOff 4 ++ q .fault .faultRecord 3,
      exchange := some { req := { job := .fault, kind := .faultCount, arg := 0, closing := false }, number := 1, tries := 1,
                         withdrawn := false, profile := 0, timeoutAt := some 1000100, cause := none, frame := [] } } }

theorem witness_QueueLimitsKept :
    (fullQueue.QueueBounds ∧ fullQueue.link.queue.length = 11 ∧ fullQueue.link.count .fault = 4) ∧
      ∃ t, step fullQueue = .next t := by
  refine ⟨⟨⟨by decide, fun j => ?_⟩, by decide, by decide⟩, _, rfl⟩
  cases j <;> decide

/-- 16 coaches learned, one at each end of the ranges. -/
def fullLearned : State :=
  { op with heat := { op.heat with
      learned := { coach := 99, capacity := 4000, runs := 255, lastUsed := 0 } ::
        (List.range 15).map fun i => { coach := i + 1, capacity := 100, runs := 1, lastUsed := i } } }

theorem witness_LearnedLimitsKept :
    (fullLearned.LearnedBounds ∧ fullLearned.heat.learned.length = 16) ∧ ∃ t, step fullLearned = .next t := by
  refine ⟨⟨?_, by decide⟩, _, rfl⟩; unfold State.LearnedBounds; decide

/-- HEATING at two stages of a grant of two, the link UP and heater enable held. -/
def heating : State :=
  { headed up .preparing with
    heat := { up.heat with
      state := .heating, count := 2, stageMax := 2, stageSize := 4, enableHeld := true, coachMax := some 2,
      reading := some { temp := 20, time := 1000000, coach := some 7 }, drawingSince := some 900000,
      lastChange := some 990000, slack := 0 },
    share := { up.share with grant := 2, ranking := some 0, announced := true, refresh := some 1010000 },
    bay := { up.bay with contactors := 2, proving := on },
    line := { up.line with demand :=
      { state := .sent, content := some { group := 1, requested := 2, stageSize := 4, slack := 0, drawing := true, stagesOn := 2 },
        written := false } } }

theorem witness_HeaterLimitsKept : (heating.HeaterBounds ∧ heating.FigureBounds) ∧ ∃ t, step heating = .next t := by
  refine ⟨?_, _, rfl⟩; unfold State.HeaterBounds State.FigureBounds; decide

/-- The lane HELD in CLEARED. -/
def cleared : State :=
  { headed up .cleared with
    depart := { up.depart with
      own := .held, current := some 1, key := some 2060, lanes := [1], releaseBegun := true, clearance := some 1000000 },
    bay := { up.bay with signal := .greenSteady, inserted := on } }

theorem witness_GreenOnlyWhileHeld :
    (cleared.GreenHeld ∧ cleared.bay.signal.green = true) ∧ ∃ t, step cleared = .next t := by
  refine ⟨?_, _, rfl⟩; unfold State.GreenHeld; decide

/-- `op` after a command's close, its FAULT SUMMARY slot never written. -/
def shown : State := finish op

/-- `fullTable` after a command's close, its FAULT SUMMARY slot written. -/
def shownFull : State := finish fullTable

theorem witness_AnnouncementsFollow :
    (shown.Shown ∧ ∃ t, step shown = .next t) ∧ shownFull.Shown ∧ ∃ t, step shownFull = .next t := by
  refine ⟨⟨?_, _, rfl⟩, ?_, _, rfl⟩ <;> unfold State.Shown <;> decide +kernel

/-- The image of station 5 with every other field at 0 (13.5). -/
def body0 : List Byte := [5, 1, 1, 2] ++ List.replicate 732 0

/-- `body0` with its check. -/
def image0 : List Byte := body0 ++ checkBytes body0

theorem body0_length : body0.length = 736 := by
  simp only [body0, List.length_append, List.length_replicate]; rfl

/-- A full body with any two bytes after it: what `acceptImage` reads of it. -/
theorem body0_parts (x y : Byte) :
    ((body0 ++ [x, y]).take 738).drop 736 = [x, y] ∧ (body0 ++ [x, y]).take 736 = body0 := by
  have h := body0_length
  constructor
  · rw [List.take_of_length_le (by simp [h]), List.drop_left' h]
  · exact List.take_left' h

theorem test_image_accepted : acceptImage image0 = some (imageConfig image0) := by
  have hc : checkBytes body0 = [byte ((crc16 body0).toNat / 256), byte (crc16 body0).toNat] := rfl
  have hp := body0_parts (byte ((crc16 body0).toNat / 256)) (byte (crc16 body0).toNat)
  have hi : image0.take 738 = image0 := List.take_of_length_le (by simp [image0, body0_length, hc])
  rw [← hc, show body0 ++ checkBytes body0 = image0 from rfl, hi] at hp
  have hg : identityGood image0 = true := by decide +kernel
  have hl : image0.length = 738 := by simp [image0, body0_length, hc]
  simp only [acceptImage, Config.imageSize, hi, hl, hp.1, hp.2, hg, and_self, if_true]

theorem witness_ImageAccepted : State.reset.start.station = .readingConfig ∧ ∃ c, acceptImage image0 = some c :=
  ⟨rfl, _, test_image_accepted⟩

theorem witness_ImageChecked :
    ((body0 ++ [0]).length < 738 ∧
      (∃ x, ((body0 ++ [x, 0]).take 738).drop 736 ≠ checkBytes ((body0 ++ [x, 0]).take 736)) ∧
      byteAt [0] 0 = 0 ∧ 120 < byteAt [121] 0 ∧ byteAt [5, 0] 1 = 0 ∧ 15 < byteAt [5, 16] 1 ∧ byteAt [5, 1, 0] 2 = 0 ∧
      8 < byteAt [5, 1, 9] 2 ∧ 8 < byteAt [5, 1, 1, 9] 3 ∧ byteAt [5, 1, 1, 1] 3 = byteAt [5, 1, 1, 1] 2) ∧
    (State.reset.start.station = .readingConfig ∧ State.reset.cfg = none ∧ acceptImage [] = none) ∧
    ∃ c, acceptImage image0 = some c := by
  refine ⟨⟨by rw [List.length_append, body0_length]; decide, ?_, by decide⟩, ⟨rfl, rfl, by decide⟩, _,
    test_image_accepted⟩
  by_contra h
  push Not at h
  have h0 := h 0
  have h1 := h 1
  rw [(body0_parts 0 0).1, (body0_parts 0 0).2] at h0
  rw [(body0_parts 1 0).1, (body0_parts 1 0).2, ← h0] at h1
  exact absurd h1 (by decide)

/-- LISTEN-IN at its end. -/
def listening : State := { op with start := { op.start with station := .listenIn, listenIn := some 1000000 } }

/-- `listening` with the twin flag set. -/
def twinned : State := { listening with line := { op.line with twin := true } }

theorem witness_ListenInEnds :
    (listening.start.station = .listenIn ∧ listening.start.listenIn = some 1000000 ∧ 1000000 ≤ listening.now ∧
      listening.line.twin = false) ∧
    (twinned.start.station = .listenIn ∧ twinned.start.listenIn = some 1000000 ∧ 1000000 ≤ twinned.now ∧
      twinned.line.twin = true) ∧ quiet (exec .listenInEnd listening) = true := by decide +kernel

/-- The stagger timer at its end with a lane HELD and the station announced. -/
def staggering : State := { cleared with start := { op.start with stagger := some 1000000 } }

theorem witness_HelloStaggersAndResends_timer :
    staggering.running = true ∧ staggering.start.stagger = some 1000000 ∧ 1000000 ≤ staggering.now := by decide

theorem witness_HelloStaggersAndResends_hello :
    (op.Hears 11 9 127 (helloBytes 1 8) ∧ (9 : Byte) ≠ 0 ∧ op.start.station = .operating ∧ op.start.stagger = none ∧
      (helloPayload (helloBytes 1 8)).group = op.conf.group) ∧
    (op.Hears 11 9 127 (helloBytes 2 2) ∧ (helloPayload (helloBytes 2 2)).lane1 ∈ op.conf.lanes) ∧
    (op.Hears 11 9 127 (helloBytes 2 8) ∧ (helloPayload (helloBytes 2 8)).group ≠ op.conf.group ∧
      (helloPayload (helloBytes 2 8)).lane1 ∉ op.conf.lanes ∧ (helloPayload (helloBytes 2 8)).lane2 ∉ op.conf.lanes) ∧
    op.counted.Settled := by
  unfold State.Hears State.Settled; decide +kernel

theorem witness_RestartTaken : heating.Hears 4 0 5 [] ∧ heating.HeaterBounds := by
  unfold State.Hears State.HeaterBounds; decide +kernel

/-- `op` at a second of day, its depot time UNSET or not. -/
def at' (x : ClockState) (second : Nat) : State :=
  { op with clock := { op.clock with state := x, time := some { day := 1, second := second } } }

theorem witness_SecondEventAdvances :
    ((at' .unset 59).clock.state = .unset ∧ quiet (exec .secondEvent (at' .unset 59)) = true) ∧
    ((at' .set 86398).running = true ∧ 86399 % 60 ≠ 0 ∧ quiet (exec .secondEvent (at' .set 86398)) = true) ∧
    ((at' .stale 86399).running = true ∧ quiet (exec .secondEvent (at' .stale 86399)) = true) := by decide +kernel

/-- The last second before a head in WAITING COACH is 30 minutes past its departure. -/
def late : State := headed (at' .set (650 * 60 + 59)) .waitingCoach

theorem witness_OverdueMarked :
    late.running = true ∧ late.clock.state ≠ .unset ∧ late.clock.time = some { day := 1, second := 39059 } ∧
    39059 % 60 = 59 ∧ 39059 < 86399 ∧ late.plans.list = [plan1 .waitingCoach] ∧ late.heat.state = .off ∧
    data1.absMinute + late.conf.overdueLimit < 1 * 1440 + (39059 + 1) / 60 ∧
    quiet (exec .secondEvent late) = true ∧
    quiet (exec .secondEvent (headed late .preparing)) = true := by decide +kernel

/-- A TIME payload. -/
def timeBytes (day second : Nat) : List Byte := bytes16 day ++ bytes24 second

theorem witness_TimeTaken :
    (op.Hears 0 0 127 (timeBytes 1 86400) ∧ 86399 < (timePayload (timeBytes 1 86400)).second) ∧
    (op.Hears 0 0 127 (timeBytes 1 36001) ∧ (timePayload (timeBytes 1 36001)).second ≤ 86399) ∧
    (op.Hears 0 0 127 (timeBytes 1 86399) ∧ (timePayload (timeBytes 1 86399)).second = 86399) ∧
    op.counted.Settled ∧ quiet (exec (.timeNotice 0 127 (timeBytes 1 36001)) op) = true := by
  unfold State.Hears State.Settled; decide +kernel

theorem witness_DemandTaken :
    ((9 : Byte) ≠ 0 ∧ op.Hears 3 9 127 (demandBytes 2 1) ∧ (demandPayload (demandBytes 2 1)).group ≠ op.conf.group) ∧
    (op.Hears 3 9 127 (demandBytes 1 0) ∧ (demandPayload (demandBytes 1 0)).requested = 0) ∧
    ((seeing op 1).Hears 3 10 127 (demandBytes 1 1) ∧ (∃ e ∈ (seeing op 1).view.entries, e.station = 10) ∧
      0 < (demandPayload (demandBytes 1 1)).requested) ∧
    ((seeing op 47).Hears 3 9 127 (demandBytes 1 6) ∧ (∀ e ∈ (seeing op 47).view.entries, e.station ≠ 9) ∧
      (seeing op 47).view.entries.length < 48) ∧
    ((seeing op 48).Hears 3 9 127 (demandBytes 1 6) ∧ (∀ e ∈ (seeing op 48).view.entries, e.station ≠ 9) ∧
      48 ≤ (seeing op 48).view.entries.length ∧ (seeing op 48).counted.Settled) ∧
    quiet (exec (.demandNotice 9 127 (demandBytes 1 6)) (seeing op 48)) = true := by
  unfold State.Hears State.Settled; refine ⟨?_, ?_, ?_, ?_, ?_, ?_⟩ <;> decide +kernel

/-- A full view of peers with records, and no own key: nothing is evicted. -/
theorem seeing_none : NoneEvicted (seeing op 48).counted.ownKey (seeing op 48).view.entries := by
  refine ⟨by decide, fun k h => ?_⟩
  rw [show (seeing op 48).counted.ownKey = none from by decide] at h; cases h

/-- A full view behind the own key, whose own slack is 0: the highest station goes. -/
theorem seeing_last : Evicted (seeing heating 48).counted.ownKey (seeing heating 48).view.entries (entry 57) := by
  refine ⟨by decide, Or.inr ⟨by decide, rfl, (0, 5), { group := 1, requested := 1, stageSize := 4, slack := 0, stamp := 0 },
    by decide, rfl, by decide, ?_⟩⟩
  intro e he f hf _ _
  have h : ∀ e ∈ (seeing heating 48).view.entries,
      e.demand = some { group := 1, requested := 1, stageSize := 4, slack := 0, stamp := 0 } ∧ e.station ≤ 57 := by
    decide
  obtain ⟨h1, h2⟩ := h e he
  rw [h1] at hf; cases hf
  rcases Nat.lt_or_eq_of_le h2 with h2 | h2
  · right; simp [RankKey.ahead, entry, h2]
  · left; simp [entry, h2]

/-- `op` with a full view, the last entry without a record. -/
def idle48 : State :=
  { op with view := { op.view with entries := entries 47 ++ [{ entry 60 with demand := none }] } }

theorem idle48_evicted : Evicted idle48.counted.ownKey idle48.view.entries { entry 60 with demand := none } := by
  refine ⟨by decide, Or.inl ⟨rfl, rfl, ?_⟩⟩; decide

theorem witness_DemandTaken_full :
    (idle48.Hears 3 9 127 (demandBytes 1 6) ∧ (∀ e ∈ idle48.view.entries, e.station ≠ 9) ∧
      48 ≤ idle48.view.entries.length ∧ idle48.counted.Settled) ∧
    ((seeing heating 48).Hears 3 9 127 (demandBytes 1 6) ∧ (∀ e ∈ (seeing heating 48).view.entries, e.station ≠ 9) ∧
      48 ≤ (seeing heating 48).view.entries.length ∧ (seeing heating 48).counted.Settled) ∧
    Evicted idle48.counted.ownKey idle48.view.entries { entry 60 with demand := none } ∧
    Evicted (seeing heating 48).counted.ownKey (seeing heating 48).view.entries (entry 57) ∧
    NoneEvicted (seeing op 48).counted.ownKey (seeing op 48).view.entries ∧
    quiet (exec (.demandNotice 9 127 (demandBytes 1 6)) (seeing heating 48)) = true := by
  refine ⟨?_, ?_, idle48_evicted, seeing_last, seeing_none, ?_⟩ <;> (try unfold State.Hears State.Settled) <;> decide +kernel

theorem witness_LaneTaken :
    (op.Hears 1 9 127 (laneBytes .claim 3 0) ∧ (lanePayload (laneBytes .claim 3 0)).lane ∉ op.conf.lanes) ∧
    (op.Hears 1 9 127 (laneBytes .release 1 0) ∧ (lanePayload (laneBytes .release 1 0)).action = 2) ∧
    ((seeing op 1).Hears 1 10 127 (laneBytes .held 1 0) ∧
      ((seeing op 1).view.entries.any fun e => e.station == 10) = true) ∧
    ((seeing op 47).Hears 1 9 127 (laneBytes .claim 1 0) ∧ (seeing op 47).view.entries.length < 48 ∧
      (seeing op 47).depart.current ≠ some 1 ∧ (seeing op 47).counted.searchWaits = false ∧ (seeing op 47).counted.Settled) ∧
    ((seeing op 48).Hears 1 9 127 (laneBytes .held 2 0) ∧ (lanePayload (laneBytes .held 2 0)).lane ∈ op.conf.lanes ∧
      (lanePayload (laneBytes .held 2 0)).action < 2 ∧
      ((seeing op 48).view.entries.any fun e => e.station == 9) = false ∧ 48 ≤ (seeing op 48).view.entries.length ∧
      (seeing op 48).counted.Settled ∧ (seeing op 48).depart.current ≠ some 2) ∧
    (idle48.Hears 1 9 127 (laneBytes .held 2 0) ∧ (idle48.view.entries.any fun e => e.station == 9) = false ∧
      48 ≤ idle48.view.entries.length ∧ idle48.counted.Settled ∧ idle48.depart.current ≠ some 2) ∧
    Evicted idle48.counted.ownKey idle48.view.entries { entry 60 with demand := none } ∧
    NoneEvicted (seeing op 48).counted.ownKey (seeing op 48).view.entries ∧
    (op.Hears 1 0 127 (laneBytes .release 1 0) ∧ (lanePayload (laneBytes .release 1 0)).lane ∈ op.conf.lanes) ∧
    quiet (exec (.laneNotice 0 127 (laneBytes .release 1 0)) op) = true := by
  refine ⟨?_, ?_, ?_, ?_, ?_, ?_, idle48_evicted, seeing_none, ?_, ?_⟩ <;> (try unfold State.Hears) <;>
    (try unfold State.Settled) <;> decide +kernel

/-- CLAIMING with the claim sent and its hold-off at its end. -/
def claiming : State :=
  { headed up .claiming with
    depart := { up.depart with
      own := .claiming, current := some 1, key := some 2060, lanes := [1], claimSent := true, holdOff := some 1000000 },
    faults := { up.faults with complete := true },
    lamp := { up.lamp with state := .done } }

/-- `claiming` with an entry of station 10 that has no lane record. -/
def contended : State := seeing claiming 1

theorem witness_HoldOffYields :
    contended.Hears 1 10 127 (laneBytes .held 1 9999) ∧ contended.Hears 1 10 127 (laneBytes .claim 1 2059) ∧
    contended.counted.Settled ∧ (1 : Nat) ∈ contended.conf.lanes ∧
    (lanePayload (laneBytes .held 1 9999)).action = 1 ∧ (lanePayload (laneBytes .claim 1 2059)).action < 2 ∧
    (lanePayload (laneBytes .claim 1 2059)).key < contended.depart.key.getD 0 ∧
    contended.view.entry 10 = some (entry 10) ∧ (entry 10).lane = none ∧ contended.depart.own = .claiming ∧
    contended.depart.current = some 1 ∧ contended.depart.claimSent = true ∧
    quiet (exec (.laneNotice 10 127 (laneBytes .held 1 9999)) contended) = true := by
  unfold State.Hears State.Settled; decide +kernel

/-- `op` with some answers waiting. -/
def asked (n : Nat) : State :=
  { op with line := { op.line with answers := List.replicate n { asker := 0, kind := .status, index := 0 } } }

theorem witness_QueryTaken :
    ((asked 3).Hears 7 9 127 [5, 1] ∧ askedKind (byteAt [5, 1] 0) = some .faultRecord ∧ (asked 3).line.answers.length < 4) ∧
    ((asked 4).Hears 7 9 127 [0, 0] ∧ 4 ≤ (asked 4).line.answers.length) ∧
    ((asked 0).Hears 7 9 127 [6, 0] ∧ askedKind (byteAt [6, 0] 0) = none) ∧ (asked 3).counted.Settled ∧
    quiet (exec (.queryNotice 9 127 [5, 1]) (asked 3)) = true := by
  unfold State.Hears State.Settled; decide +kernel

/-- `op` with one peer's entry as given. -/
def peer (e : Entry) : State := { op with view := { op.view with entries := [e] } }

/-- An entry last heard at a time, with a demand record, a lane record or none of a stamp. -/
def heard (last : Nat) (d l : Option Nat) : Entry :=
  { station := 9, lastHeard := last,
    demand := d.map fun x => { group := 1, requested := 1, stageSize := 4, slack := 0, stamp := x },
    lane := l.map fun x => { lane := 1, held := true, key := 0, stamp := x } }

theorem witness_RecordsAndFlagsRunOut_records :
    ((peer (heard 820000 (some 940000) none)).running = true ∧
      (peer (heard 820000 (some 940000) none)).view.entry 9 = some (heard 820000 (some 940000) none) ∧
      940000 + 60000 ≤ op.now ∧ quiet (exec (.demandRecordAged 9) (peer (heard 820000 (some 940000) none))) = true) ∧
    ((peer (heard 820001 none (some 960000))).view.entry 9 = some (heard 820001 none (some 960000)) ∧
      960000 + 40000 ≤ op.now ∧ op.searchWaits = false ∧
      quiet (exec (.laneRecordAged 9) (peer (heard 820001 none (some 960000)))) = true) ∧
    ((peer (heard 820000 none none)).view.entry 9 = some (heard 820000 none none) ∧ 820000 + 180000 ≤ op.now ∧
      quiet (exec (.entryAged 9) (peer (heard 820000 none none))) = true) := by decide +kernel

/-- View-full, unseen-demand and a contested mark at their ends. -/
def crowded : State :=
  { op with view := { op.view with
      full := some 1000000, unseen := some 1000000, contested := [{ lane := 2, expiry := 1000000 }] } }

theorem witness_RecordsAndFlagsRunOut_flags :
    crowded.running = true ∧ 1000000 ≤ crowded.now ∧ crowded.view.full = some 1000000 ∧
    crowded.view.unseen = some 1000000 ∧ ({ lane := 2, expiry := 1000000 } : Mark) ∈ crowded.view.contested ∧
    crowded.searchWaits = false ∧ quiet (exec (.contestedMarkExpiry 2) crowded) = true := by decide +kernel

/-- A station whose grant the power ranked ahead and the floor decide: two peers ahead of it, in and out of the silent
floor. -/
def outranked (floor : Bool) : State :=
  { seeing heating 2 with
    cfg := some { conf0 with silentFloor := 1 },
    share := { heating.share with live := 8, ranking := some 1, grant := if floor then 1 else 2 },
    heat := { heating.heat with count := if floor then 1 else 2, slack := 1 },
    bay := { heating.bay with contactors := if floor then 1 else 2 },
    line := { heating.line with
      counter := if floor then 128 else 0,
      demand := { state := .sent, written := false, content := (some
        { group := 1, requested := 2, stageSize := 4, slack := 1, drawing := true,
          stagesOn := if floor then 1 else 2 } : Option DemandContent) } } }

theorem witness_GrantComputed :
    (op.Settled ∧ op.ownRequest = 0 ∧ op.view.entries = []) ∧
    ((outranked false).Settled ∧ (outranked false).ownRequest = 2 ∧ (outranked false).ownKey = some (1, 5) ∧
      (8 : Nat) = ((outranked false).view.entries.map fun _ => 4).sum ∧
      (∀ e ∈ (outranked false).view.entries, e.demand =
        some { group := 1, requested := 1, stageSize := 4, slack := 0, stamp := 0 }) ∧ (0 : Int) < 1 ∧
      (outranked false).line.counter < 128) ∧
    ((outranked true).Settled ∧ 128 ≤ (outranked true).line.counter ∧ (outranked true).share.grant = 1) := by
  unfold State.Settled; refine ⟨?_, ?_, ?_⟩ <;> decide +kernel

theorem witness_GrantComputed_supply :
    (op.Hears 2 0 127 [0, 0, 50] ∧ (supplyPayload [0, 0, 50]).group = 0) ∧
    (op.Hears 2 0 127 [1, 255, 255] ∧ (supplyPayload [1, 255, 255]).group = op.conf.group) ∧
    (op.Hears 2 0 127 [15, 0, 50] ∧ (supplyPayload [15, 0, 50]).group ≠ 0 ∧
      (supplyPayload [15, 0, 50]).group ≠ op.conf.group) ∧ op.counted.Settled ∧
    quiet (exec (.supplyNotice 0 127 [0, 0, 50]) op) = true := by
  unfold State.Hears State.Settled; decide +kernel

/-- Times of every kind at their ends. -/
def timed : State :=
  { cleared with
    share := { op.share with announced := true, refresh := some 1000000 },
    depart := { cleared.depart with heldRefresh := some 1000000, refusal := some 1000000 } }

theorem witness_TimedWrites_demand :
    timed.running = true ∧ 1000000 ≤ timed.now ∧ timed.share.announced = true ∧ timed.share.refresh = some 1000000 ∧
    timed.depart.own = .held ∧ timed.depart.heldRefresh = some 1000000 ∧ timed.depart.refusal = some 1000000 ∧
    timed.clock.state = .set ∧ timed.clock.lastTime = some 400000 ∧ 400000 + 600000 ≤ timed.now ∧
    quiet (exec .heldRefresh timed) = true := by decide +kernel

/-- `op` with `n` plans of later departures, the head in a phase. -/
def planned (n : Nat) (p : Phase) : State :=
  { op with plans := { op.plans with
      list := (List.range n).map fun i =>
        { data := { data1 with id := i + 1, coach := 100 + i, minute := 620 + 10 * i },
          phase := if i = 0 then p else .waitingCoach, held := none, overdue := false } } }

/-- The PLAN of departure 9 of coach 7 as taken. -/
def data9 (minute : Nat) : PlanData := { data1 with id := 9, minute := minute }

theorem witness_PlanPlaced_taken :
    (planned 4 .waitingCoach).Hears 5 0 5 (planBytes 9 false 539) ∧ (planned 4 .waitingCoach).counted.Settled ∧
    normalisePlan (planned 4 .waitingCoach).conf.lanes (planPayload (planBytes 9 false 539)) = some (data9 539) ∧
    (planPayload (planBytes 9 false 539)).cancel = false ∧
    (∀ x ∈ (planned 4 .waitingCoach).plans.list, x.data.id ≠ 9) ∧
    (∀ x ∈ (planned 4 .waitingCoach).plans.list, x.held = none) ∧
    (planned 4 .waitingCoach).absMinute = some 2040 ∧ (data9 539).absMinute + 60 < 2040 ∧
    quiet (exec (.planNotice 0 5 (planBytes 9 false 539)) (planned 4 .waitingCoach)) = true := by
  unfold State.Hears State.Settled
  refine ⟨?_, ?_, ?_, ?_, ?_, ?_, ?_, ?_, ?_⟩ <;> decide +kernel

theorem witness_PlanPlaced_room :
    (planned 3 .preparing).Hears 5 0 5 (planBytes 9 false 540) ∧ (planned 3 .preparing).counted.Settled ∧
    normalisePlan (planned 3 .preparing).conf.lanes (planPayload (planBytes 9 false 540)) = some (data9 540) ∧
    (∀ x ∈ (planned 3 .preparing).plans.list, x.data.id ≠ 9 ∧ x.held = none) ∧
    ¬(data9 540).absMinute + 60 < 2040 ∧ ((planned 3 .preparing).plans.list.map Plan.data).length < 4 ∧
    (planned 3 .preparing).phaseIs Phase.pinned = true := by
  unfold State.Hears State.Settled; refine ⟨?_, ?_, ?_, ?_, ?_, ?_, ?_⟩ <;> decide +kernel

theorem witness_PlanPlaced_full :
    ((planned 4 .waitingCoach).Hears 5 0 5 (planBytes 9 false 650) ∧
      normalisePlan (planned 4 .waitingCoach).conf.lanes (planPayload (planBytes 9 false 650)) = some (data9 650) ∧
      ((planned 4 .waitingCoach).plans.list.map Plan.data).length = 4 ∧
      ∀ x ∈ ((planned 4 .waitingCoach).plans.list.map Plan.data).getLast?, (data9 650).before x = false) ∧
    ((planned 4 .waitingCoach).Hears 5 0 5 (planBytes 9 false 649) ∧
      normalisePlan (planned 4 .waitingCoach).conf.lanes (planPayload (planBytes 9 false 649)) = some (data9 649) ∧
      { data1 with id := 4, coach := 103, minute := 650 } ∈ ((planned 4 .waitingCoach).plans.list.map Plan.data).getLast? ∧
      (data9 649).before { data1 with id := 4, coach := 103, minute := 650 } = true) ∧
    quiet (exec (.planNotice 0 5 (planBytes 9 false 650)) (planned 4 .waitingCoach)) = true := by
  unfold State.Hears
  refine ⟨⟨?_, ?_, ?_, ?_⟩, ⟨?_, ?_, ?_, ?_⟩, ?_⟩ <;> decide +kernel

/-- A head in RELEASING, the link not yet HALTED. -/
def releasing : State :=
  { headed up .releasing with
    depart := { cleared.depart with clearance := none, unlatchWait := some 1000000 },
    link := { up.link with state := .halting } }

theorem witness_ChangeHeld :
    (releasing.Hears 5 0 5 (planBytes 1 false 700) ∧ releasing.counted.Settled ∧
      normalisePlan releasing.conf.lanes (planPayload (planBytes 1 false 700)) = some { data1 with minute := 700 } ∧
      releasing.plans.list = [plan1 .releasing] ∧ Phase.releasing.underWay = true ∧
      (planPayload (planBytes 1 false 700)).cancel = false) ∧
    (releasing.Hears 5 0 5 (planBytes 1 true 700) ∧ (planPayload (planBytes 1 true 700)).cancel = true ∧
      normalisePlan releasing.conf.lanes (planPayload (planBytes 1 true 700)) = some { data1 with minute := 700 }) ∧
    quiet (exec (.planNotice 0 5 (planBytes 1 true 700)) releasing) = true := by
  unfold State.Hears State.Settled
  refine ⟨⟨?_, ?_, ?_, ?_, ?_, ?_⟩, ⟨?_, ?_, ?_⟩, ?_⟩ <;> decide +kernel

theorem witness_FaultsCleared :
    (fullTable.Hears 6 0 5 [0, 0, 0, 0] ∧ (clearPayload [0, 0, 0, 0]).recheck = false ∧
      (clearPayload [0, 0, 0, 0]).scope = 0) ∧
    (fullTable.Hears 6 0 5 [1, 64, 0, 0] ∧ (clearPayload [1, 64, 0, 0]).recheck = false ∧
      (clearPayload [1, 64, 0, 0]).scope = 1) ∧
    (fullTable.Hears 6 0 5 [2, 1, 0, 3] ∧ (clearPayload [2, 1, 0, 3]).recheck = false ∧
      (clearPayload [2, 1, 0, 3]).scope = 2) ∧ fullTable.counted.Settled ∧
    quiet (exec (.faultClearNotice 0 5 [2, 1, 0, 3]) fullTable) = true := by
  unfold State.Hears State.Settled; refine ⟨?_, ?_, ?_, ?_, ?_⟩ <;> decide +kernel

/-- Periodic due with the link UP and the plug latched, three FAULT requests still queued. -/
def periodic : State :=
  { up with
    faults := { up.faults with periodicDue := some 1000000 },
    link := { up.link with queue := List.replicate 3 { job := .fault, kind := .faultRecord, arg := 1, closing := false } } }

theorem witness_PeriodicRead :
    (periodic.running = true ∧ periodic.faults.periodicDue = some 1000000 ∧ 1000000 ≤ periodic.now ∧
      periodic.link.state = .up ∧ periodic.bay.latched.level = true ∧
      ¬(periodic.faults.reader = .counting ∨ periodic.faults.reader = .reading) ∧ periodic.link.count .fault < 4) ∧
    (({ op with faults := periodic.faults } : State).link.state ≠ .up) ∧
    quiet (exec .periodicDue periodic) = true := by decide +kernel

/-- The refreshes of STATUS and FAULT SUMMARY at their ends. -/
def refreshing : State :=
  { up with line := { up.line with statusRefresh := some 1000000 }, faults := { up.faults with refresh := some 1000000 } }

theorem witness_TimedWrites_announcements :
    refreshing.running = true ∧ 1000000 ≤ refreshing.now ∧ refreshing.line.statusRefresh = some 1000000 ∧
    refreshing.faults.refresh = some 1000000 ∧ quiet (exec .statusRefresh refreshing) = true := by decide +kernel

/-- A table of 32 records, the 32nd of a severity and all others of another. -/
def tableOf (v w : Severity) : Faults :=
  { State.reset.faults with table := (List.range 31).map (fun n => record n v) ++ [record 31 w] }

theorem witness_FaultsPlaced :
    ((tableOf .blocking .info).table.length = 32 ∧ (∀ r ∈ (tableOf .blocking .info).table, r.key ≠ plan01) ∧
      (tableOf .blocking .info).table = (List.range 31).map (fun n => record n .blocking) ++ record 31 .info :: [] ∧
      (record 31 .info).severity = .info ∧ ∀ x ∈ (List.range 31).map (fun n => record n .blocking), x.severity ≠ .info) ∧
    ((∀ x ∈ (tableOf .blocking .advisory).table, x.severity ≠ .info) ∧
      (∀ r ∈ (tableOf .blocking .advisory).table, r.key ≠ plan01) ∧
      (tableOf .blocking .advisory).table = (List.range 31).map (fun n => record n .blocking) ++ record 31 .advisory :: [] ∧
      ∀ x ∈ (List.range 31).map (fun n => record n .blocking), x.severity ≠ .advisory) ∧
    ((∀ x ∈ (tableOf .blocking .blocking).table, x.severity ≠ .info) ∧
      ∀ x ∈ (tableOf .blocking .blocking).table, x.severity ≠ .advisory) := by decide +kernel

/-- `op` at a counter and a recovery run. -/
def counting (n r : Nat) : State := { op with line := { op.line with counter := n, recovery := r } }

theorem witness_NoticesCounted :
    ((counting 223 0).running = true ∧ lengthGood 9 (List.replicate 10 0) = true ∧ (9 : Byte).toNat ≤ 120 ∧
      (counting 223 0).line.counter < 224 ∧ lengthGood 15 [] = true ∧ (5 : Byte).toNat = (counting 0 0).conf.station) ∧
    (224 ≤ (counting 224 30).line.counter ∧ (counting 224 30).line.recovery < 31) ∧
    (224 ≤ (counting 255 31).line.counter ∧ 31 ≤ (counting 255 31).line.recovery) ∧
    ((counting 127 0).running = true ∧ frameFaulty (noticeFrame 3 121 127 (demandBytes 1 1)) = true ∧
      frameFaulty (noticeFrame 3 120 127 (demandBytes 1 1)) = false) ∧
    quiet (exec (.noticeNotDispatched 9 9 127 (List.replicate 10 0)) (counting 127 0)) = true ∧
    quiet (exec (.receiveFault []) (counting 127 0)) = true ∧
    ((counting 127 0).mayTransmit = true ∧ (counting 128 0).mayTransmit = false ∧ (counting 128 0).line.tx = none) := by
  decide +kernel

/-- R173: entry to MUTED from WARNED sets the line-trouble latch; entry to DETACHED from MUTED, or to MUTED from DETACHED,
leaves it. -/
theorem test_trouble_from_warned_alone :
    ((counting 127 0).counterUp 8).bay.trouble = true ∧ ((counting 223 0).counterUp 1).bay.trouble = false ∧
      ((counting 223 0).counterUp 1).line' = .detached ∧ (counting 224 0).counterDown.bay.trouble = false ∧
      (counting 224 0).counterDown.line' = .muted := by decide +kernel

/-- A CLAIM content of lane 1. -/
def claim1 : LaneContent := { action := .claim, lane := 1, key := 2060, inTransit := false, singleTry := true }

/-- A DEMAND content. -/
def demand1 : DemandContent := { group := 1, requested := 1, stageSize := 4, slack := 0, drawing := false, stagesOn := 0 }

/-- A HELLO content. -/
def hello1 : HelloContent := { station := 5, group := 1, lanes := [1, 2] }

/-- A slot with content waiting. -/
def waiting {α : Type} (c : α) : Slot α := { state := .pending, content := some c, written := true }

/-- LANE and DEMAND waiting at counter 127. -/
def queued : State :=
  { counting 127 0 with line := { (counting 127 0).line with lane := waiting claim1, demand := waiting demand1 } }

/-- JOINING with HELLO waiting. -/
def joining : State :=
  { op with start := { op.start with station := .joining }, line := { op.line with hello := waiting hello1 } }

theorem witness_ItemPresented :
    (queued.line.counter < 128 ∧ queued.line.twin = false ∧ queued.line.tx = none ∧ queued.start.station = .operating ∧
      queued.line.lane.state = .pending ∧ queued.line.lane.content = some claim1) ∧
    (({ queued with line := { queued.line with lane := Slot.blank } } : State).line.lane.state ≠ .pending ∧
      queued.line.demand.state = .pending ∧ queued.line.demand.content = some demand1) ∧
    (joining.line.counter < 128 ∧ joining.line.twin = false ∧ joining.line.tx = none ∧ joining.start.station = .joining ∧
      joining.line.hello.state = .pending ∧ joining.line.hello.content = some hello1) ∧
    quiet (exec .presentItem queued) = true := by decide +kernel

/-- `s` with an item in transmission. -/
def sending (s : State) (i : TxItem) (rest : List (List Byte)) : State :=
  { s with line := { s.line with tx := some { item := i, frame := [], rest := rest, orphan := false, dropped := false, won := false } } }

/-- A claim on the line. -/
def claimSending : State :=
  sending { claiming with
    line := { claiming.line with lane := { waiting claim1 with written := false } },
    depart := { claiming.depart with claimSent := false, holdOff := none } } (.lane claim1) []

theorem witness_NoticesCounted_barred :
    ((counting 127 0).mayTransmit = true ∧
      (sending (counting 128 0) (.demand demand1) []).line.tx =
        some { item := .demand demand1, frame := [], rest := [], orphan := false, dropped := false, won := false } ∧
      (sending (counting 128 0) (.demand demand1) []).mayTransmit = false) ∧
    quiet (exec (.receiveFault []) (sending (counting 127 0) (.demand demand1) [])) = true := by decide +kernel

theorem witness_NoticeSent :
    ((sending joining .hello []).line.tx = some { item := .hello, frame := [], rest := [], orphan := false, dropped := false, won := false } ∧
      (sending joining .hello []).line.counter < 224 ∧ (sending joining .hello []).start.station = .joining) ∧
    (claimSending.line.tx = some { item := .lane claim1, frame := [], rest := [], orphan := false, dropped := false, won := false } ∧
      claim1.action = .claim ∧ claimSending.depart.own = .claiming ∧ claimSending.depart.current = some claim1.lane) ∧
    ((sending op .status [[1]]).line.tx = some { item := .status, frame := [], rest := [[1]], orphan := false, dropped := false, won := false }) ∧
    ((sending (asked 1) (.answer { asker := 0, kind := .status, index := 0 }) []).line.counter < 224) ∧
    quiet (exec .noticeSent (sending joining .hello [])) = true ∧ quiet (exec .noticeSent claimSending) = true := by
  decide +kernel

/-- An item that had won when RESTART emptied its queue entry or slot, the latch set. -/
def outlived (i : TxItem) : State :=
  { op with
    bay := { op.bay with trouble := true },
    line := { op.line with
      tx := some { item := i, frame := [], rest := [], orphan := true, dropped := false, won := true } } }

theorem witness_NoticeSent_outlived :
    ((outlived .hello).line.tx =
        some { item := .hello, frame := [], rest := [], orphan := true, dropped := false, won := true } ∧
      (outlived .hello).line.counter < 224) ∧
    (outlived (.answer { asker := 0, kind := .status, index := 0 })).line.counter < 224 := by decide +kernel

/-- R176 and R41: the answer is told, its latch cleared, and the queue of new entries is left alone. -/
theorem test_outlived_answer_told :
    let a : Answer := { asker := 0, kind := .status, index := 0 }
    let s := outlived (.answer a)
    let t : State := { s with line := { s.line with answers := [a] } }
    ∃ u, exec .noticeSent t = .next u ∧ u.bay.trouble = false ∧ u.line.answers = [a] := by
  refine ⟨_, rfl, ?_, ?_⟩ <;> decide +kernel

theorem witness_PresentationsFail :
    (claimSending.line.tx = some { item := .lane claim1, frame := [], rest := [], orphan := false, dropped := false, won := false } ∧
      claim1.singleTry = true ∧ claimSending.line.lane.written = false ∧ claimSending.depart.own = .claiming ∧
      claimSending.depart.current = some claim1.lane ∧ claimSending.depart.claimSent = false) ∧
    ((sending op .status []).line.tx = some { item := .status, frame := [], rest := [], orphan := false, dropped := false, won := false }) ∧
    ((sending op (.demand demand1) []).line.tx =
      some { item := .demand demand1, frame := [], rest := [], orphan := false, dropped := false, won := false }) ∧
    quiet (exec .transmissionFailure claimSending) = true ∧ quiet (exec .arbitrationLost claimSending) = true := by
  decide +kernel

/-- A cabin poll due, with some HEAT requests queued. -/
def polling (q : List ReqKind) : State :=
  { up with
    heat := { up.heat with pollDue := some 1000000 },
    link := { up.link with queue := q.map fun k => { job := .heat, kind := k, arg := 0, closing := false } } }

theorem witness_CabinPolled :
    ((polling [.heaterEnable, .heaterDisable]).running = true ∧ (polling [.heaterEnable, .heaterDisable]).link.state = .up ∧
      (polling [.heaterEnable, .heaterDisable]).heat.pollDue = some 1000000 ∧ 1000000 ≤ op.now ∧
      (polling [.heaterEnable, .heaterDisable]).heatHolds .cabinTemperature = false ∧
      (polling [.heaterEnable, .heaterDisable]).link.count .heat < 3) ∧
    (polling [.cabinTemperature]).heatHolds .cabinTemperature = true ∧
    quiet (exec .cabinPollDue (polling [.heaterEnable, .heaterDisable])) = true := by decide +kernel

/-- HEATING one stage below its target. -/
def rising : State :=
  { heating with
    heat := { heating.heat with count := 1 }, bay := { heating.bay with contactors := 1 },
    line := { heating.line with demand := { heating.line.demand with content := (some
      { group := 1, requested := 2, stageSize := 4, slack := 0, drawing := true, stagesOn := 1 } : Option DemandContent) } } }

theorem witness_StagesAndBlind_rise :
    rising.running = true ∧ (rising.heat.state = .heating ∨ rising.heat.state = .blind) ∧
    rising.heat.count < rising.stageTarget ∧ rising.heat.enableHeld = true ∧ rising.lamp.window = none ∧
    rising.heat.lastChange = some 990000 ∧ 990000 + 10000 ≤ rising.now ∧ rising.share.announced = true ∧
    rising.line.demand.content = some rising.demandContent ∧ quiet (exec .stageRise rising) = true := by decide +kernel

/-- R43, R79, 5.8 rows 1 and 2: the fall by a lower grant is written before the computation that the grant calls for. -/
theorem test_fall_written_before_computation :
    ((({ rising with share := { rising.share with ranking := some (-5) } } : State).setGrant 0).heatRule.map fun t =>
      (t.line.demand.content.map fun d => (d.stagesOn, d.slack), t.heat.compute)) = some (some (0, -5), true) := by
  decide +kernel

/-- R79: a slack 1 min from the slot's is not written, one 2 min from it is. -/
theorem test_slack_move (n : Int) : demandMoved { demand1 with slack := n } demand1 = decide (2 ≤ n.natAbs) := by
  simp [demandMoved, demand1]

/-- R90, log entry 11: a wrong kind shows from the first byte on, a right one waits for the rest. -/
theorem test_wrong_kind_at_once :
    judgeResponse .identify 1 true [byte 127] = .failed .checkError ∧
      judgeResponse .identify 1 true [byte ReqKind.identify.code] = .incomplete := by decide +kernel

/-- `heating` with its reading as old as BLIND asks. -/
def unread : State :=
  { heating with heat := { heating.heat with reading := some { temp := 20, time := 880000, coach := some 7 } } }

/-- `heating` with no reading since it began to draw. -/
def neverRead : State :=
  { heating with heat := { heating.heat with reading := none, drawingSince := some 880000, state := .holding } }

/-- BLIND with some stages at the end of its first part. -/
def blind (n : Nat) : State :=
  { heating with
    heat := { heating.heat with state := .blind, count := n, blindCount := n, blindEnd := some 1000000 },
    bay := { heating.bay with contactors := n } }

theorem witness_StagesAndBlind_blind :
    (unread.running = true ∧ unread.heat.state = .heating ∧
      unread.heat.reading = some { temp := 20, time := 880000, coach := some 7 } ∧ 880000 + 120000 ≤ unread.now) ∧
    (neverRead.running = true ∧ neverRead.heat.state = .holding ∧ neverRead.heat.reading = none ∧
      neverRead.heat.drawingSince = some 880000) ∧
    ((blind 1).running = true ∧ (blind 1).heat.state = .blind ∧ (blind 1).heat.blindEnd = some 1000000 ∧
      1000000 ≤ (blind 1).now ∧ (blind 1).heat.count ≤ 1) ∧
    (1 < (blind 2).heat.count ∧ ∀ x ∈ (blind 2).plans.list, x.held = none) ∧
    quiet (exec .blindEntry unread) = true ∧ quiet (exec .blindTimeout (blind 2)) = true := by decide +kernel

/-- SCHEDULED one second before 10:01, with a departure at a minute of the day and a stage size. -/
def scheduled (minute stage : Nat) : State :=
  { up with
    clock := { up.clock with time := some { day := 1, second := 36059 } },
    plans := { up.plans with list := [{ plan1 .preparing with data := { data1 with minute := minute } }] },
    heat := { up.heat with
      state := .scheduled, stageMax := 2, stageSize := stage, coachMax := some 2,
      reading := some { temp := 20, time := 1000000, coach := some 7 } } }

/-- R49 and R54: a first stage held back by an open window outlives a reading of R57. -/
theorem test_first_stage_waits_on (t : Int) :
    ({ blind 0 with heat := { (blind 0).heat with state := .holding, waiting := some .first } } : State).target + 2 ≤ t →
    (({ blind 0 with heat := { (blind 0).heat with state := .holding, waiting := some .first } } : State).regulate
      t).heat.waiting = some .first := by
  intro h; unfold State.regulate; rw [if_pos h]; rfl

/-- R43: a BLIND count comes down with the stage maximum. -/
theorem test_blind_count_within_maximum :
    (({ blind 2 with heat := { (blind 2).heat with coachMax := some 1 } } : State).takeFigures).heat.blindCount = 1 := by
  decide +kernel

theorem witness_FiguresComputed :
    ((40 : Int) ≤ 40) ∧ ((-36 : Int) < 40 ∧ (6000 : Int) - 15000 ≤ 0) ∧
    ((-36 : Int) < 40 ∧ (0 : Int) < 9000 ∧ ((24000 / 20 : Nat) : Int) ≤ 9000 ∧
      (1500 : Int) * (40 - -36) * 500 ≤ 106 * (9000 * 60) ∧ (105 : Int) * (9000 * 60) < 1500 * (40 - -36) * 500) ∧
    (heating.plans.list = [plan1 .preparing] ∧ heating.absMinute ≠ none ∧ heating.heat.state.drawing = true ∧
      (blind 1).heat.state.drawing = true ∧
      ({ blind 1 with heat := { (blind 1).heat with state := .holding } } : State).heat.count ≤
        holdRequest 40 (blind 1).outside 100 (blind 1).stageWatts 2) ∧
    ((scheduled 720 4).running = true ∧ (scheduled 720 4).clock.state ≠ .unset ∧
      (scheduled 720 4).clock.time = some { day := 1, second := 36059 } ∧ 36059 % 60 = 59 ∧ 36059 < 86399 ∧
      1 * 1440 + (36059 + 1) / 60 ≤ 1 * 1440 + 720 + (scheduled 720 4).conf.overdueLimit ∧
      (scheduled 720 4).heat.state = .scheduled ∧ quiet (exec .secondEvent (scheduled 720 4)) = true) ∧
    quiet (exec .secondEvent (scheduled 1400 1)) = true := by decide +kernel

theorem witness_FiguresComputed_hold :
    (0 < 6000 ∧ (600 : Int) * (40 - -48) ≤ 5 * (2 * 6000) ∧ (4 : Int) * (2 * 6000) < 600 * (40 - -48)) ∧
    (600 : Int) * (40 - 40) ≤ 0 * (2 * 6000) ∧ (600 : Int) * (40 - 41) ≤ 0 * (2 * 6000) := by decide

/-- A request of IDENT, HEAT or LAMP. -/
def request (j : Job) (k : ReqKind) (arg : Nat) : Request := { job := j, kind := k, arg := arg, closing := false }

/-- The link WAKING with the plug in. -/
def waking : State :=
  { op with
    bay := { op.bay with inserted := on, debouncing := true },
    link := { op.link with state := .waking, queue := [request .ident .identify 0], lastEnd := some 999995, number := 65535 } }

/-- An exchange in flight on a try, its timeout running or not. -/
def flight (s : State) (r : Request) (tries : Nat) (t : Option Nat) : State :=
  { s with link := { s.link with
      queue := [], exchange := some { req := r, number := 65535, tries := tries, withdrawn := false, profile := 0,
                                      timeoutAt := t, cause := none,
                                      frame := requestFrame r.kind 65535 r.arg } } }

theorem witness_ExchangesRun :
    (waking.running = true ∧ waking.link.exchange = none ∧ waking.link.queue = [request .ident .identify 0] ∧
      waking.link.state = .waking ∧ waking.link.lastEnd = some 999995 ∧
      999995 + (waking.profileCfg waking.link.profile).gap ≤ waking.now) ∧
    ((flight waking (request .ident .identify 0) 1 none).running = true ∧
      (flight waking (request .ident .identify 0) 1 none).link.lastEnd = some 999995) ∧
    quiet (exec .exchangeStart waking) = true ∧
    (op.link.queue = [] ∧ (flight waking (request .ident .identify 0) 1 none).link.exchange ≠ none) ∧
    (({ waking with link := { waking.link with lastEnd := some 999996 } } : State).now < 999996 + 5) ∧
    quiet (exec .tryRetry (flight waking (request .ident .identify 0) 1 none)) = true := by decide +kernel

/-- R184: kind code 6, exchange number 258, argument 3. -/
theorem test_request_frame_header :
    (requestFrame .lampGroupOn 258 3).take 4 = [6, 1, 2, 3] ∧ (requestFrame .lampGroupOn 258 3).length = 6 := by decide

/-- R89: the request sent is the frame of the exchange. -/
theorem test_exchange_start_sends :
    (waking.startExchange.link.exchange.map fun x => x.frame) = some (requestFrame .identify 0 0) := by decide +kernel

theorem witness_ResponsesJudged :
    (65535 : Nat) < 65536 ∧ (0 : Nat) < 65536 ∧ (1 : Nat) ≤ 1 ∧ (255 : Nat) < 256 ∧ ([1] : List Byte).length = ReqKind.length .cabinTemperature ∧
    (0 : Nat) ≠ 65535 := by decide

/-- A cabin temperature asked for, in a drawing state with `c` stages of `n`, announced at a slack. -/
def cabin (s : State) (slack : Int) (c n : Nat) : State :=
  flight { s with
    share := { s.share with ranking := some slack, grant := n },
    line := { s.line with demand := { s.line.demand with content := (some
      { group := 1, requested := n, stageSize := 4, slack := slack, drawing := true, stagesOn := c } :
        Option DemandContent) } },
    heat := { s.heat with count := c, lastChange := some 995000 }, bay := { s.bay with contactors := c } }
    (request .heat .cabinTemperature 0) 1 (some 1000000)

/-- A run of 1 000 s from 5 °C. -/
def run1 : HeatRun := { tc0 := 10, to0 := 0, start := 0, acc := 0, mark := 0, coach := 7 }

/-- `cabin` in HEATING with `run1` open. -/
def learning : State :=
  let s := cabin heating 20 1 1
  { s with heat := { s.heat with run := some run1 } }

theorem witness_RunsLearned :
    ((5 : Int) ≤ Int.tdiv (40 - run1.tc0) 2 ∧ 600 ≤ (1000000 - run1.start) / 1000 ∧ Int.tdiv (40 - 31) 2 < 5 ∧
      measured run1 40 1 1000000 2000 100 = some 53) ∧
    ((∃ x ∈ fullLearned.heat.learned, x.coach = 99) ∧ (∀ x ∈ fullLearned.heat.learned, x.coach ≠ 50) ∧
      16 ≤ fullLearned.heat.learned.length ∧
      ({ coach := 1, capacity := 100, runs := 1, lastUsed := 0 } : Learned) ∈ fullLearned.heat.learned ∧
      ∀ x ∈ fullLearned.heat.learned, 0 < x.lastUsed ∨ 0 = x.lastUsed ∧ 1 ≤ x.coach) ∧
    ((cabin (blind 1) (-47) 1 2).running = true ∧ (cabin (blind 1) (-47) 1 2).link.state = .up ∧
      (cabin (blind 1) (-47) 1 2).now ≤ 1000000 ∧ (cabin (blind 1) (-47) 1 2).plans.list = [plan1 .preparing] ∧
      (cabin (blind 1) (-47) 1 2).heat.kept = [] ∧ (cabin (blind 1) (-47) 1 2).heat.state = .blind ∧
      (cabin (blind 1) (-47) 1 2).heat.compute = false ∧ (20 : Byte).toInt < 40 ∧
      quiet (exec (.coachResponse true (responseFrame .cabinTemperature false 65535 [20])) (cabin (blind 1) (-47) 1 2)) =
        true) ∧
    (learning.heat.state = .heating ∧ learning.heat.compute = false ∧ (40 : Int) ≤ (40 : Byte).toInt ∧
      learning.heat.run = some run1 ∧
      learning.heat.count ≤ holdRequest 40 learning.outside 100 learning.stageWatts learning.heat.stageMax ∧
      quiet (exec (.coachResponse true (responseFrame .cabinTemperature false 65535 [40])) learning) = true) := by
  refine ⟨?_, ?_, ?_, ?_⟩ <;> decide +kernel

/-- The content of an IDENTIFY response: coach 7 of class 0. -/
def identity0 : List Byte := [0, 0, 7, 0, 6, 1, 0, 0]

theorem witness_ResponsesTaken :
    ((flight waking (request .ident .identify 0) 1 (some 1000000)).running = true ∧ waking.now ≤ 1000000 ∧
      (flight waking (request .ident .identify 0) 1 (some 1000000)).link.state = .waking ∧ identity0.length = 8 ∧
      identity identity0 = some { id := 7, cls := 0, heaterMax := 6, lampGroups := 1 } ∧
      waking.plans.list = [] ∧ waking.heat.state = .off ∧ waking.heat.kept = [] ∧ waking.lamp.state ≠ .suspended ∧
      (flight waking (request .ident .identify 0) 1 (some 1000000)).link.queue = [] ∧
      waking.faults.reader ≠ .counting ∧ waking.faults.reader ≠ .reading ∧
      1 ≤ (waking.profileCfg waking.link.profile).gap ∧
      quiet (exec (.coachResponse true (responseFrame .identify false 65535 identity0))
        (flight waking (request .ident .identify 0) 1 (some 1000000))) = true) ∧
    ((flight up (request .heat .cabinTemperature 0) 1 (some 1000000)).link.state = .up ∧
      (flight up (request .heat .cabinTemperature 0) 1 (some 1000000)).heat.state = .off ∧ up.heat.kept = [] ∧
      (120 : Byte).toInt = 120 ∧ (156 : Byte).toInt = -100 ∧
      quiet (exec (.coachResponse true (responseFrame .cabinTemperature false 65535 [120]))
        (flight up (request .heat .cabinTemperature 0) 1 (some 1000000))) = true) ∧
    (1 < (up.profileCfg 0).retries + 1 ∧ (0 : Nat) ≠ 65535) ∧
    (999999 < (flight up (request .heat .cabinTemperature 0) 1 (some 999999)).now ∧
      quiet (exec (.coachResponse true []) (flight up (request .heat .cabinTemperature 0) 1 (some 999999))) = true) := by
  decide +kernel

/-- The link UP with its last try of a request at the end of its timeout, two failures before it. -/
def failing (s : State) (r : Request) (tries : Nat) : State :=
  let t := flight s r tries (some 1000000)
  { t with link := { t.link with failures := 2 } }

theorem witness_TimeoutsFail :
    ((failing up (request .lamp .lampsOff 0) 1).running = true ∧ 1000000 ≤ up.now ∧ ¬(up.profileCfg 0).retries + 1 ≤ 1) ∧
    ((failing waking (request .ident .identify 0) 2).link.state = .waking ∧ (waking.profileCfg 0).retries + 1 ≤ 2) ∧
    ((failing up (request .heat .cabinTemperature 0) 2).link.state = .up ∧
      (failing up (request .heat .cabinTemperature 0) 2).link.failures = 2 ∧
      (failing up (request .heat .cabinTemperature 0) 2).link.queue = [] ∧ up.heat.kept = [] ∧ up.lamp.state = .idle ∧
      up.faults.reader ≠ .counting ∧ up.faults.reader ≠ .reading) ∧
    quiet (exec .responseTimeout (failing up (request .heat .cabinTemperature 0) 2)) = true := by decide +kernel

/-- Wake due with the plug in. -/
def wakeful (l : LinkState) : State :=
  { waking with link := { waking.link with state := l, queue := [], wakeDue := some 1000000 } }

theorem witness_WakeComesDue :
    ((wakeful .down).running = true ∧ (wakeful .down).link.wakeDue = some 1000000 ∧ 1000000 ≤ (wakeful .down).now ∧
      (wakeful .down).bay.inserted.level = true ∧ (wakeful .down).link.count .ident = 0 ∧ (wakeful .down).link.state = .down) ∧
    (wakeful .waking).link.state = .waking ∧ quiet (exec .wakeDue (wakeful .down)) = true := by decide +kernel

/-- A measurement window of the single lamp group. -/
def window (isBaseline sampling : Bool) : Window :=
  { isBaseline := isBaseline, opened := 999989, skip := 10, sampling := sampling, samples := [] }

/-- The lamp check at its only group, with a window. -/
def measuring (w : Window) : State :=
  { headed up .preparing with
    lamp := { up.lamp with
      state := if w.isBaseline then .baseline else .measuring, checked := some 7, groups := 1, current := some 1,
      baseline := some 3000, newBaseline := w.isBaseline, window := some w, lit := !w.isBaseline, switched := !w.isBaseline } }

theorem witness_WindowsRun :
    ((measuring (window true false)).running = true ∧ (measuring (window true false)).lamp.window = some (window true false) ∧
      (window true false).sampling = false ∧ 999989 + 10 ≤ op.now) ∧
    ((measuring (window true true)).lamp.window = some (window true true) ∧ (window true true).sampling = true ∧
      [29999].length = 2 ^ (measuring (window true true)).headClass.avgExp ∧ (∀ x ∈ [29999], x < 30000) ∧
      999989 + 10 + 1 ≤ op.now ∧ (measuring (window true true)).lamp.current = some 1 ∧
      (measuring (window true true)).link.state = .up ∧ (measuring (window true true)).link.count .lamp < 4) ∧
    quiet (exec (.baselineWindowClose [29999]) (measuring (window true true))) = true := by decide +kernel

/-- `measuring` at a class of four samples, with wide spread. -/
def spreading : State :=
  { measuring (window false true) with
    cfg := some { conf0 with classes := [{ class0 with avgExp := 1 }] },
    lamp := { (measuring (window false true)).lamp with window := some { window false true with opened := 999988 } } }

theorem witness_GroupJudged :
    ((measuring (window false true)).lamp.window = some (window false true) ∧ (window false true).isBaseline = false ∧
      [4000].length = 2 ^ (measuring (window false true)).headClass.avgExp ∧ (∀ x ∈ [4000], x < 30000) ∧
      [4000].map (min 30000) = [4000] ∧ 999989 + 10 + 1 ≤ op.now ∧ (measuring (window false true)).lamp.current = some 1 ∧
      (measuring (window false true)).link.state = .up ∧ (measuring (window false true)).link.count .lamp < 4 ∧
      greatest [4000] - least [4000] ≤ class0.spreadPct * 1000 / 100 ∧ ((1000 / 4 / 2 : Nat) : Int) ≤ 4000 - 3000 ∧
      ((4000 : Int) - 3000 ≤ ((class0.overPct * 1000 / 100 : Nat) : Int)) ∧ lampsOut 1000 4 (4000 - 3000) = 0 ∧
      (measuring (window false true)).lamp.groups ≤ 1 ∧ (measuring (window false true)).lamp.switched = true) ∧
    (spreading.headClass.avgExp = 1 ∧ 999988 + 10 + 2 ≤ spreading.now ∧
      spreading.headClass.spreadPct * 1000 / 100 < greatest [3900, 4001] - least [3900, 4001] ∧ spreading.lamp.retry < 2) ∧
    quiet (exec (.groupWindowClose [4000]) (measuring (window false true))) = true ∧
    quiet (exec (.groupWindowClose [3900, 4001]) spreading) = true := by decide +kernel

theorem witness_GroupJudged_faults :
    ((∃ x ∈ [30000], 30000 ≤ x) ∧ quiet (exec (.groupWindowClose [30000]) (measuring (window false true))) = true) ∧
    (2 ≤ ({ spreading with lamp := { spreading.lamp with retry := 2 } } : State).lamp.retry ∧
      quiet (exec (.groupWindowClose [3900, 4001])
        { spreading with lamp := { spreading.lamp with retry := 2 } }) = true) ∧
    ((3124 : Int) - 3000 < ((1000 / 4 / 2 : Nat) : Int) ∧
      quiet (exec (.groupWindowClose [3124]) (measuring (window false true))) = true) ∧
    (((class0.overPct * 1000 / 100 : Nat) : Int) < 4201 - 3000 ∧
      quiet (exec (.groupWindowClose [4201]) (measuring (window false true))) = true) ∧
    (((1000 / 4 / 2 : Nat) : Int) ≤ 3700 - 3000 ∧ (3700 : Int) - 3000 ≤ ((class0.overPct * 1000 / 100 : Nat) : Int) ∧
      lampsOut 1000 4 (3700 - 3000) = 0 + 1 ∧
      quiet (exec (.groupWindowClose [3700]) (measuring (window false true))) = true) := by
  refine ⟨?_, ?_, ?_, ?_, ?_⟩ <;> decide +kernel

theorem witness_LampsOutRounded :
    (1 ≤ (1 : Nat) ∧ 1 ≤ (1 : Nat) / 1) ∧ (1 ≤ (8 : Nat) ∧ 1 ≤ (4200 : Nat) / 8) ∧ (4200 : Int) ≤ 4200 ∧
    (lampsOut 4200 6 3150 < 6 - 1 ∧ 0 < lampsOut 4200 6 3150) ∧ (lampsOut 4200 6 0 = 6 - 1 ∧ 0 < lampsOut 4200 6 0) := by
  decide

/-- `s` with an input that is about to change. -/
def pinned (s : State) (i : Input) (v : Bool) : State := { s with bay := s.bay.setPin i (turning v) }

theorem turned_of (s : State) (i : Input) (v : Bool) (h : s.now = 1000000) : (pinned s i v).Turned i := by
  have hn : (pinned s i v).now = s.now := rfl
  unfold State.Turned
  rw [hn, h]
  cases i <;> cases v <;> exact ⟨⟨1000000, rfl, le_refl _⟩, Bool.noConfusion⟩

theorem witness_RawLevelsCounted :
    ((up.bay.pin .plugInserted).raw = true) ∧
    ((up.bay.pin .heaterProving).raw ≠ true ∧ up.bay.debouncing = true ∧ true ≠ (up.bay.pin .heaterProving).level) ∧
    (((pinned up .departRequest true).bay.pin .departRequest).raw ≠ false ∧
      false = ((pinned up .departRequest true).bay.pin .departRequest).level) ∧
    (op.bay.pin .departRequest).raw ≠ true ∧ op.bay.debouncing = false ∧
    ((pinned up .departRequest false).Turned .departRequest ∧ (pinned up .departRequest false).bay.request.raw = false) := by
  refine ⟨by decide, by decide, by decide, by decide, by decide, turned_of up .departRequest false rfl, by decide⟩

/-- `waiting for the coach` with the driver in charge and no coach. -/
def charged : State :=
  { headed op .waitingCoach with depart := { op.depart with inCharge := true } }

theorem witness_CoachPresentTurns :
    ((pinned op .coachPresent true).running = true ∧ (pinned op .coachPresent true).Turned .coachPresent ∧
      (pinned op .coachPresent true).bay.coach.raw = true ∧ (pinned op .coachPresent true).bay.heatWatch = none ∧
      (pinned op .coachPresent true).bay.departWatch = none ∧
      ((pinned op .coachPresent true).turn .coachPresent).Settled) ∧
    ((pinned up .coachPresent false).Turned .coachPresent ∧ (pinned up .coachPresent false).bay.coach.raw = false ∧
      (pinned up .coachPresent false).plans.list = []) ∧
    ((pinned charged .coachPresent false).Turned .coachPresent ∧ (pinned charged .coachPresent false).phase = some .waitingCoach ∧
      (pinned charged .coachPresent false).depart.inCharge = true ∧ (pinned charged .coachPresent false).link.coach = none) ∧
    quiet (exec .coachPresentChange (pinned charged .coachPresent false)) = true := by
  unfold State.Settled
  refine ⟨⟨by decide, turned_of op .coachPresent true rfl, by decide, by decide, by decide, by decide +kernel⟩,
    ⟨turned_of up .coachPresent false rfl, by decide, by decide⟩,
    ⟨turned_of charged .coachPresent false rfl, by decide, by decide, by decide⟩, by decide +kernel⟩

/-- CLEARED with DEPART's watch set armed. -/
def leaving : State :=
  { cleared with bay := { cleared.bay with departWatch := some { pairs := [(.coachPresent, true)], armed := true } } }

/-- Coach 7 checked, departure 1 at 11:40 in a phase, its lane HELD where the phase is under way. -/
def checked (p : Phase) : State :=
  { headed up p with
    plans := { up.plans with list := [{ plan1 p with data := { data1 with minute := 700 } }] },
    lamp := { up.lamp with state := .done },
    depart := if p.underWay then { cleared.depart with clearance := none } else up.depart,
    link := { up.link with state := if p = .releasing then .halting else .up } }

theorem witness_CoachPresentTurns_leaving :
    ((pinned leaving .coachPresent false).running = true ∧ (pinned leaving .coachPresent false).Turned .coachPresent ∧
      (pinned leaving .coachPresent false).bay.coach.raw = false ∧ leaving.bay.heatWatch = none ∧
      leaving.bay.departWatch = some { pairs := [(.coachPresent, true)], armed := true } ∧
      leaving.plans.list = [plan1 .cleared] ∧ leaving.depart.current = some 1 ∧
      quiet (exec .coachPresentChange (pinned leaving .coachPresent false)) = true) ∧
    ((pinned (checked .ready) .coachPresent false).Turned .coachPresent ∧ (checked .ready).bay.departWatch = none ∧
      (checked .ready).plans.list = [{ plan1 .ready with data := { data1 with minute := 700 } }] ∧
      (checked .ready).link.coach = some { id := 7, cls := 0, heaterMax := 6, lampGroups := 1 } ∧
      (checked .ready).link.queue = [] ∧ (checked .ready).link.exchange = none ∧ (checked .ready).heat.state = .off ∧
      (checked .ready).lamp.state = .done ∧ (checked .ready).lamp.lit = false ∧
      quiet (exec .coachPresentChange (pinned (checked .ready) .coachPresent false)) = true) ∧
    ((pinned (checked .releasing) .coachPresent false).Turned .coachPresent ∧
      (checked .releasing).bay.departWatch = none ∧ (checked .releasing).depart.own = .held ∧
      (checked .releasing).depart.current = some 1 ∧
      quiet (exec .coachPresentChange (pinned (checked .releasing) .coachPresent false)) = true) := by
  refine ⟨⟨by decide, turned_of leaving .coachPresent false rfl, by decide, by decide, by decide, by decide, by decide,
    by decide +kernel⟩, ⟨turned_of (checked .ready) .coachPresent false rfl, by decide, by decide, by decide, by decide,
    by decide, by decide, by decide, by decide, by decide +kernel⟩,
    ⟨turned_of (checked .releasing) .coachPresent false rfl, by decide, by decide, by decide, by decide +kernel⟩⟩

theorem witness_PlugInsertedTurns :
    ((pinned op .plugInserted true).running = true ∧ (pinned op .plugInserted true).Turned .plugInserted ∧
      (pinned op .plugInserted true).bay.inserted.raw = true ∧ (pinned op .plugInserted true).link.state = .down ∧
      (pinned op .plugInserted true).bay.latchMode = .automatic ∧ (pinned op .plugInserted true).bay.latchClosed = false ∧
      (pinned op .plugInserted true).bay.lampWatch = none ∧ (pinned op .plugInserted true).link.count .ident = 0) ∧
    ((pinned heating .plugInserted false).Turned .plugInserted ∧ (pinned heating .plugInserted false).bay.inserted.raw = false) ∧
    quiet (exec .plugInsertedChange (pinned op .plugInserted true)) = true := by
  refine ⟨⟨by decide, turned_of op .plugInserted true rfl, by decide, by decide, by decide, by decide, by decide,
    by decide⟩, ⟨turned_of heating .plugInserted false rfl, by decide⟩, by decide +kernel⟩

/-- A proving window at its end. -/
def proving : State := { op with bay := { op.bay with provingWindow := some 1000000 } }

theorem witness_ContactsTurn :
    ((pinned up .plugLatched false).running = true ∧ (pinned up .plugLatched false).Turned .plugLatched ∧
      (pinned up .plugLatched false).bay.heatWatch = none ∧ (pinned up .plugLatched false).bay.departWatch = none) ∧
    ((pinned heating .heaterProving true).Turned .heaterProving ∧
      (pinned heating .heaterProving true).bay.proving.raw = decide (0 < (pinned heating .heaterProving true).heat.count)) ∧
    ((pinned op .heaterProving true).Turned .heaterProving ∧ (pinned op .heaterProving true).bay.proving.raw = true ∧
      (pinned op .heaterProving true).heat.count = 0 ∧ (pinned op .heaterProving true).heat.state = .off ∧
      (pinned op .heaterProving true).bay.provingWindow = none ∧ (pinned op .heaterProving true).bay.provingFailed = false) ∧
    (proving.bay.provingWindow = some 1000000 ∧ 1000000 ≤ proving.now ∧
      proving.bay.proving.level = decide (0 < proving.heat.count)) ∧
    quiet (exec .heaterProvingChange (pinned op .heaterProving true)) = true := by
  refine ⟨⟨by decide, turned_of up .plugLatched false rfl, by decide, by decide⟩,
    ⟨turned_of heating .heaterProving true rfl, by decide⟩,
    ⟨turned_of op .heaterProving true rfl, by decide, by decide, by decide, by decide, by decide⟩, by decide,
    by decide +kernel⟩

/-- RELEASING with the latch open, DEPART's watch set armed. -/
def unlatched : State :=
  { releasing with bay := { releasing.bay with
      latchClosed := false, departWatch := some { pairs := [(.plugLatched, true)], armed := true } } }

/-- `heating` with its demand sent, at the end of a proving window in which HEATER PROVING stayed as given. -/
def drawn (p : Pin) : State :=
  { heating with
    share := { heating.share with demandSent := true },
    bay := { heating.bay with proving := p, provingWindow := some 1000000 } }

/-- `drawn` outside a window. -/
def drawing : State := { drawn on with bay := { (drawn on).bay with provingWindow := none } }

/-- OFF with HEATER PROVING active at the end of a proving window, its failure taken or not. -/
def welded (taken : Bool) : State :=
  { op with bay := { op.bay with proving := on, provingWindow := some 1000000, provingFailed := taken } }

theorem witness_ContactsTurn_failures :
    ((pinned unlatched .plugLatched false).running = true ∧ (pinned unlatched .plugLatched false).Turned .plugLatched ∧
      (pinned unlatched .plugLatched false).bay.latched.raw = false ∧ unlatched.bay.heatWatch = none ∧
      unlatched.bay.departWatch = some { pairs := [(.plugLatched, true)], armed := true } ∧
      unlatched.plans.list = [plan1 .releasing] ∧ unlatched.bay.latchClosed = false ∧
      unlatched.bay.coach.level = true ∧
      quiet (exec .plugLatchedChange (pinned unlatched .plugLatched false)) = true) ∧
    ((pinned drawing .heaterProving false).Turned .heaterProving ∧
      (pinned drawing .heaterProving false).bay.proving.raw = false ∧
      drawing.bay.provingWindow = none ∧ drawing.bay.provingFailed = false ∧ drawing.heat.state.drawing = true ∧
      0 < drawing.heat.count ∧ drawing.lamp.state = .idle ∧ drawing.share.announced = true ∧
      drawing.share.demandSent = true ∧ drawing.heat.enableHeld = true ∧ drawing.link.state = .up ∧
      drawing.link.count .heat < 3 ∧
      quiet (exec .heaterProvingChange (pinned drawing .heaterProving false)) = true) ∧
    ((drawn Pin.inactive).bay.provingWindow = some 1000000 ∧ 1000000 ≤ (drawn Pin.inactive).now ∧
      (drawn Pin.inactive).bay.proving.level = false ∧ 0 < (drawn Pin.inactive).heat.count ∧
      quiet (exec .provingWindowEnd (drawn Pin.inactive)) = true) ∧
    ((welded false).bay.proving.level = true ∧ (welded false).heat.count = 0 ∧ (welded false).heat.state = .off ∧
      (welded false).share.announced = false ∧ quiet (exec .provingWindowEnd (welded false)) = true) ∧
    ((welded true).bay.proving.level ≠ decide (0 < (welded true).heat.count) ∧
      (welded true).bay.provingFailed = true ∧ quiet (exec .provingWindowEnd (welded true)) = true) := by
  refine ⟨⟨by decide, turned_of unlatched .plugLatched false rfl, by decide, by decide, by decide, by decide, by decide,
    by decide, by decide +kernel⟩, ⟨turned_of drawing .heaterProving false rfl, ?_⟩, ?_, ?_, ?_⟩ <;> decide +kernel

/-- The second of R160 at its end, and a latch check at its end. -/
def latching : State :=
  { op with bay := { op.bay with
      debouncing := true, inserted := on, closeAt := some 1000000, latchCheck := some 1000000 } }

theorem witness_LatchAndProbe :
    (latching.running = true ∧ latching.bay.debouncing = true ∧ latching.bay.closeAt = some 1000000 ∧
      1000000 ≤ latching.now ∧ latching.bay.latchMode = .automatic ∧ latching.bay.inserted.level = true ∧
      latching.bay.latchClosed = false) ∧ latching.bay.latchCheck = some 1000000 ∧
    ((-100 : Int) ≤ -100 ∧ (-100 : Int) ≤ 120 ∧ (120 : Int) ≤ 120) ∧ ((-101 : Int) < -100 ∧ (120 : Int) < 121) ∧
    quiet (exec .latchCloseDelayEnd latching) = true ∧ quiet (exec (.probeSample none) op) = true := by decide +kernel

/-- A press of the push-button with departure 1 in a phase and at a minute of day. -/
def pressing (p : Phase) (minute : Nat) : State :=
  pinned { headed up p with plans := { op.plans with list := [{ plan1 p with data := { data1 with minute := minute } }] } }
    .departRequest true

theorem witness_PressRefused :
    ((pinned op .departRequest true).running = true ∧ (pinned op .departRequest true).Turned .departRequest ∧
      (pinned op .departRequest true).bay.request.raw = true ∧ (pinned op .departRequest true).phase = none) ∧
    ((pressing .preparing 620).Turned .departRequest ∧ (pressing .preparing 620).phase = some .preparing) ∧
    ((pressing .ready 606).Turned .departRequest ∧ (pressing .ready 606).absMinute = some 2040 ∧
      2040 + (pressing .ready 606).conf.earlyWindow < 1 * 1440 + 606 ∧
      (pressing .ready 606).plans.list.head? = some { plan1 .ready with data := { data1 with minute := 606 } }) ∧
    quiet (exec .departRequestPress (pressing .preparing 620)) = true := by
  refine ⟨⟨by decide, turned_of _ .departRequest true rfl, by decide, by decide⟩,
    ⟨turned_of _ .departRequest true rfl, by decide⟩, ⟨turned_of _ .departRequest true rfl, by decide, by decide, by decide⟩,
    by decide +kernel⟩

/-- A press that is taken: the cabin reading valid, the departure five minutes off. -/
def taking : State :=
  { pressing .ready 605 with heat := { up.heat with reading := some { temp := 30, time := 900000, coach := some 7 } } }

theorem witness_PressTaken :
    (taking.running = true ∧ taking.Turned .departRequest ∧ taking.bay.request.raw = true ∧
      taking.plans.list = [{ plan1 .ready with data := { data1 with minute := 605 } }] ∧ taking.absMinute = some 2040 ∧
      1 * 1440 + 605 ≤ 2040 + taking.conf.earlyWindow) ∧
    (taking.link.state = .up ∧ taking.faults.reader ≠ .counting ∧ taking.faults.reader ≠ .reading ∧
      taking.link.count .fault < 4 ∧ taking.faults.report = none ∧ taking.start.station = .operating ∧
      taking.line.counter < 128 ∧ taking.line.twin = false ∧ taking.bay.latched.level = true ∧
      taking.verdict ≠ .blocked ∧ taking.readingValid = true) ∧ quiet (exec .departRequestPress taking) = true := by
  refine ⟨⟨by decide, turned_of { headed up .ready with
      plans := { op.plans with list := [{ plan1 .ready with data := { data1 with minute := 605 } }] } } .departRequest true rfl,
      by decide, by decide, by decide, by decide⟩, by decide +kernel, by decide +kernel⟩

/-- LISTENING for lane 1 at the end of the claim retry delay, a peer's worse claim in the view. -/
def retrying : State :=
  { claiming with
    depart := { claiming.depart with own := .listening, claimSent := false, holdOff := none, claimRetry := some 1000000 },
    view := { op.view with entries := [{ entry 9 with lane := some { lane := 1, held := false, key := 2060, stamp := 0 } }] } }

/-- `claiming` with an exchange still in flight. -/
def winning : State := flight claiming (request .heat .cabinTemperature 0) 1 (some 1000100)

theorem witness_LaneClaimed :
    (retrying.running = true ∧ retrying.depart.own = .listening ∧ retrying.depart.claimRetry = some 1000000 ∧
      1000000 ≤ retrying.now ∧ retrying.depart.current = some 1 ∧ (∀ m ∈ retrying.view.contested, m.lane ≠ 1) ∧
      retrying.view.entries = [{ entry 9 with lane := some { lane := 1, held := false, key := 2060, stamp := 0 } }] ∧
      retrying.depart.key.getD 0 = 2060 ∧ retrying.conf.station ≤ 9) ∧
    (winning.running = true ∧ winning.depart.own = .claiming ∧ winning.depart.holdOff = some 1000000 ∧
      1000000 ≤ winning.now ∧ winning.depart.current = some 1 ∧ winning.plans.list = [plan1 .claiming] ∧
      winning.heat.state = .off ∧ winning.lamp.state = .done ∧ winning.link.state = .up ∧ winning.link.exchange ≠ none ∧
      winning.link.queue = []) ∧
    quiet (exec .claimRetryDelayEnd retrying) = true ∧ quiet (exec .holdOffExpiry winning) = true := by decide +kernel

theorem witness_DepartureFallsBack :
    (releasing.running = true ∧ releasing.plans.list = [plan1 .releasing] ∧ (plan1 .releasing).held = none ∧
      releasing.depart.own = .held ∧ releasing.depart.current = some 1 ∧ releasing.depart.releaseBegun = true ∧
      1000000 ≤ releasing.now ∧ releasing.depart.unlatchWait = some 1000000) ∧
    (cleared.running = true ∧ cleared.plans.list = [plan1 .cleared] ∧ cleared.depart.clearance = some 1000000 ∧
      cleared.depart.own = .held ∧ cleared.depart.releaseBegun = true) ∧
    ((pinned cleared .departRequest true).Turned .departRequest ∧
      (pinned cleared .departRequest true).bay.request.raw = true) := by
  refine ⟨by decide, by decide, turned_of cleared .departRequest true rfl, by decide⟩

/-- The lane transit at its end. -/
def gone : State :=
  { headed op .gone with
    depart := { op.depart with own := .held, current := some 1, key := some 2060, lanes := [1], releaseBegun := true,
                               transit := some 1000000 } }

theorem witness_TransitCompletes :
    gone.running = true ∧ gone.plans.list = [plan1 .gone] ∧ gone.depart.own = .held ∧ gone.depart.current = some 1 ∧
    gone.depart.transit = some 1000000 ∧ 1000000 ≤ gone.now := by decide

/-! ### Witnesses of the clauses over several blocks -/

/-- `drawing` with HEAT's watch set armed. -/
def armed : State := { drawing with bay := { drawing.bay with heatWatch := some Watch.heat } }

theorem witness_HeaterLimitsKept_watch :
    (armed.HeaterBounds ∧ armed.WatchKept ∧ 0 < armed.heat.count) ∧ ∃ t, step armed = .next t := by
  refine ⟨?_, _, rfl⟩; unfold State.HeaterBounds State.WatchKept; decide

theorem witness_ContactsTurn_armed :
    (pinned armed .plugLatched false).running = true ∧ (pinned armed .plugLatched false).Turned .plugLatched ∧
    (pinned armed .plugLatched false).bay.latched.raw = false ∧ armed.bay.heatWatch = some Watch.heat ∧
    armed.bay.departWatch = none ∧ armed.heat.state.drawing = true ∧ 0 < armed.heat.count ∧
    armed.lamp.state ≠ .baseline ∧ armed.lamp.state ≠ .measuring ∧ armed.share.announced = true ∧
    armed.share.demandSent = true ∧ armed.heat.enableHeld = true ∧ armed.link.state = .up ∧
    armed.link.count .heat < 3 ∧ quiet (exec .plugLatchedChange (pinned armed .plugLatched false)) = true := by
  refine ⟨by decide, turned_of armed .plugLatched false rfl, ?_⟩; decide +kernel

theorem witness_CoachPresentTurns_armed :
    (pinned armed .coachPresent false).Turned .coachPresent ∧ (pinned armed .coachPresent false).bay.coach.raw = false ∧
    (pinned armed .coachPresent false).bay.heatWatch = some Watch.heat ∧ armed.heat.state.drawing = true ∧
    0 < armed.heat.count :=
  ⟨turned_of armed .coachPresent false rfl, by decide⟩

/-- `checked` with an own lane state, its claim sent or not. -/
def owned (p : Phase) (o : OwnLane) (sent : Bool) : State :=
  { checked p with
    depart := { (checked p).depart with own := o, claimSent := sent, current := if o = .free then none else some 1 },
    line := { (checked p).line with lane := waiting claim1 } }

/-- The release wait with the link HALTED and DEPART's watch set armed. -/
def unlatching : State :=
  { owned .releasing .held false with
    bay := { (owned .releasing .held false).bay with
      departWatch := some { pairs := [(.plugLatched, true)], armed := true } },
    link := { (owned .releasing .held false).link with state := .halted } }

theorem witness_CoachPresentTurns_owned :
    (∀ s ∈ [owned .requested .free false, owned .finalRead .free false, owned .claiming .claiming false,
        owned .claiming .claiming true, owned .claiming .listening false, owned .claiming .yielded false, unlatching],
      (pinned s .coachPresent false).running = true ∧ (pinned s .coachPresent false).bay.coach.raw = false ∧
        s.bay.heatWatch = none ∧ s.plans.list.length = 1 ∧
        (∀ h ∈ s.plans.list, h.held = none ∧ h.data.skipLamps = false ∧ h.data.coach = 7 ∧ h.data.cls = 0) ∧
        s.link.coach = some { id := 7, cls := 0, heaterMax := 6, lampGroups := 1 } ∧ s.link.queue = [] ∧
        s.link.exchange = none ∧ s.heat.state = .off ∧ s.lamp.state = .done ∧ s.lamp.lit = false ∧
        quiet (exec .coachPresentChange (pinned s .coachPresent false)) = true) ∧
    (pinned unlatching .coachPresent false).Turned .coachPresent := by
  refine ⟨?_, turned_of unlatching .coachPresent false rfl⟩; decide +kernel

/-- Answers, STATUS, FAULT SUMMARY and HELLO waiting in OPERATING, each as the state says. -/
def offering (answers : List Answer) (status summary : SlotState) (series : Option (List (List Byte))) : State :=
  { op with
    faults := { op.faults with reader := .counting },
    line := { op.line with
      answers := answers, answerSeries := series, statusSeries := series,
      status := { state := status, content := some op.statusContent, written := true },
      summary := { state := summary, content := some Summary.blank, written := true }, hello := waiting hello1 } }

theorem witness_ItemPresented_others :
    ((offering [{ asker := 9, kind := .lane, index := 0 }] .pending .pending none).start.station = .operating ∧
      op.line.lane.state ≠ .pending ∧ op.line.demand.state ≠ .pending ∧
      op.answerParts { asker := 9, kind := .lane, index := 0 } = [answerPart .lane 0 true true 0 []]) ∧
    ((offering [{ asker := 9, kind := .status, index := 0 }] .pending .pending (some [[1], [2]])).line.answerSeries =
      some [[1], [2]]) ∧
    ((offering [{ asker := 9, kind := .faultRecord, index := 1 }] .pending .pending (some [[1]])).faults.reader =
        .counting ∧
      (offering [{ asker := 9, kind := .faultRecord, index := 1 }] .pending .pending (some [[1]])).line.statusSeries =
        some [[1]]) ∧
    ((offering [] .sent .pending none).line.status.state ≠ .pending ∧
      (offering [] .sent .pending none).line.summary.content = some Summary.blank) ∧
    ((offering [] .sent .sent none).line.summary.state ≠ .pending ∧
      (offering [] .sent .sent none).line.hello.content = some hello1) ∧
    quiet (exec .presentItem (offering [] .pending .pending none)) = true := by
  refine ⟨?_, ?_, ?_, ?_, ?_, ?_⟩ <;> decide +kernel

/-- `up` with another coach identified, or none on a link that is DOWN. -/
def hosting (coach : Nat) : State :=
  { up with link := if coach = 0 then op.link else
      { up.link with coach := some { id := coach, cls := 0, heaterMax := 6, lampGroups := 1 } } }

theorem witness_PlanPlaced_matched :
    (∀ s ∈ [hosting 0, hosting 7, hosting 8],
      s.Hears 5 0 5 (planBytes 9 false 700) ∧ s.counted.Settled ∧
        normalisePlan s.conf.lanes (planPayload (planBytes 9 false 700)) = some (data9 700) ∧
        s.plans.list = [] ∧ s.heat.state = .off ∧ s.heat.count = 0 ∧ s.lamp.state = .idle ∧ s.depart.own = .free ∧
        s.bay.latchMode = .automatic ∧ s.absMinute = some 2040 ∧ 2040 ≤ (data9 700).absMinute + s.conf.overdueLimit ∧
        quiet (exec (.planNotice 0 5 (planBytes 9 false 700)) s) = true) ∧
    (hosting 0).link.coach = none ∧ ((hosting 7).link.coach.map (·.id)) = some (data9 700).coach ∧
    (hosting 8).link.coach = some { id := 8, cls := 0, heaterMax := 6, lampGroups := 1 } := by
  refine ⟨?_, ?_, ?_, ?_⟩ <;> (try unfold State.Hears State.Settled) <;> decide +kernel

/-- Departure 9 of a coach as head in a phase, before and after it some other records. -/
def amending (s : State) (coach : Nat) (p : Phase) (before rest : List Plan) : State :=
  { s with
    plans := { s.plans with
      list := before ++ { plan1 p with data := { data9 650 with coach := coach, target := 30 } } :: rest, full := true },
    lamp := { s.lamp with state := if p.pinned then .done else .idle } }

theorem witness_ChangeHeld_applied :
    (∀ s ∈ [amending (hosting 0) 3 .waitingCoach [] [], amending (hosting 8) 3 .wrongCoach [] [],
        amending (hosting 7) 3 .wrongCoach [] [], amending (hosting 7) 7 .preparing [] [plan1 .waitingCoach],
        amending (hosting 6) 6 .preparing [] []],
      s.Hears 5 0 5 (planBytes 9 false 700) ∧ s.counted.Settled ∧
        normalisePlan s.conf.lanes (planPayload (planBytes 9 false 700)) = some (data9 700) ∧
        (s.plans.list.head?.map fun h => (h.data.id, h.held, h.overdue)) = some (9, none, false) ∧
        s.heat.state = .off ∧ s.heat.count = 0 ∧ s.absMinute = some 2040 ∧
        2040 ≤ (data9 700).absMinute + s.conf.overdueLimit ∧ s.link.queue = [] ∧ s.link.exchange = none ∧
        s.lamp.lit = false ∧ quiet (exec (.planNotice 0 5 (planBytes 9 false 700)) s) = true) ∧
    (hosting 0).link.coach = none ∧ ((hosting 6).link.coach.map (·.id)) = some 6 := by
  refine ⟨?_, ?_, ?_⟩ <;> (try unfold State.Hears State.Settled) <;> decide +kernel

theorem witness_ChangeHeld_cancelled :
    (∀ s ∈ [amending (hosting 7) 7 .waitingCoach [{ plan1 .preparing with data := { data1 with minute := 700 } }] [],
        amending (hosting 7) 7 .preparing [] []],
      s.Hears 5 0 5 (planBytes 9 true 700) ∧ s.Hears 5 0 5 (planBytes 9 false 700) ∧ s.counted.Settled ∧
        normalisePlan s.conf.lanes (planPayload (planBytes 9 true 700)) = some (data9 700) ∧
        (planPayload (planBytes 9 true 700)).cancel = true ∧ (∃ x ∈ s.plans.list, x.data.id = 9) ∧
        (∀ x ∈ s.plans.list, x.held = none) ∧ s.phaseIs Phase.underWay = false ∧ s.phaseIs Phase.pinned = true ∧
        s.depart.own = .free ∧ s.bay.latchMode = .automatic ∧
        quiet (exec (.planNotice 0 5 (planBytes 9 true 700)) s) = true) := by
  unfold State.Hears State.Settled; decide +kernel

/-- A LANE payload of a peer in transit or not. -/
def transitBytes (lane key : Nat) (inTransit : Bool) : List Byte :=
  LaneContent.payload { action := .held, lane := lane, key := key, inTransit := inTransit, singleTry := false }

/-- `contended` with its claim unsent and a lane list. -/
def unsent (lanes : List Nat) : State :=
  { contended with
    depart := { contended.depart with claimSent := false, holdOff := none, lanes := lanes },
    line := { contended.line with lane := waiting claim1 } }

/-- Lane 1 HELD in RELEASING, CLEARED or GONE, the link HALTED, station 10 in the view. -/
def holding (p : Phase) : State :=
  { seeing (headed up p) 1 with
    depart := { cleared.depart with
      clearance := if p = .cleared then some 1060000 else none,
      unlatchWait := if p = .releasing then some 1020000 else none,
      transit := if p = .gone then some 1020000 else none },
    link := { up.link with state := .halted }, faults := { up.faults with complete := true } }

theorem witness_HoldOffYields_conflicts :
    (∀ s ∈ [unsent [1], unsent [1, 2]],
      s.Hears 1 10 127 (laneBytes .claim 1 2059) ∧ s.counted.Settled ∧ s.view.entry 10 = some (entry 10) ∧
        s.depart.own = .claiming ∧ s.depart.current = some 1 ∧ s.depart.claimSent = false ∧ s.depart.yielded = [] ∧
        s.view.contested = [] ∧ s.view.entries = [entry 10] ∧
        quiet (exec (.laneNotice 10 127 (laneBytes .claim 1 2059)) s) = true) ∧
    (∀ s ∈ [holding .releasing, holding .cleared, holding .gone],
      s.Hears 1 10 127 (transitBytes 1 2060 true) ∧ s.Hears 1 10 127 (transitBytes 1 2059 false) ∧
        s.Hears 1 10 127 (laneBytes .claim 1 0) ∧ s.counted.Settled ∧ s.view.entry 10 = some (entry 10) ∧
        s.depart.own = .held ∧ s.depart.current = some 1 ∧ s.depart.lanes = [1] ∧ s.depart.key = some 2060 ∧
        s.view.contested = [] ∧ quiet (exec (.laneNotice 10 127 (transitBytes 1 2060 true)) s) = true ∧
        quiet (exec (.laneNotice 10 127 (transitBytes 1 2059 false)) s) = true) ∧
    ((lanePayload (transitBytes 1 2060 true)).inTransit = true ∧
      ¬((lanePayload (transitBytes 1 2060 false)).key < 2060 ∨ 2060 = 2060 ∧ 10 < op.conf.station)) := by
  refine ⟨?_, ?_, ?_⟩ <;> (try unfold State.Hears State.Settled) <;> decide +kernel

/-- `s` with lane 1 taken by station 10 in the view. -/
def taken (s : State) : State :=
  { s with view := { s.view with
      entries := [{ entry 10 with lane := some { lane := 1, held := true, key := 0, stamp := 999000 } }] } }

/-- A search that waits for lane 1. -/
def searching : State :=
  taken { claiming with depart := { claiming.depart with
    own := .yielded, current := none, yielded := [1], claimSent := false, holdOff := none } }

theorem witness_HoldOffYields_released :
    (∀ s ∈ [taken (unsent [1]), taken contended, taken (holding .releasing), taken (holding .cleared),
        taken (holding .gone),
        taken { contended with depart := { contended.depart with own := .yielded, claimSent := false, holdOff := none } }],
      s.Hears 1 0 127 (laneBytes .release 1 0) ∧ s.counted.Settled ∧ s.depart.current = some 1 ∧
        s.depart.lanes = [1] ∧ s.plans.list.length = 1 ∧
        quiet (exec (.laneNotice 0 127 (laneBytes .release 1 0)) s) = true) ∧
    (searching.Hears 1 10 127 (laneBytes .release 1 0) ∧ searching.counted.Settled ∧
      searching.view.entry 10 =
        some { entry 10 with lane := some { lane := 1, held := true, key := 0, stamp := 999000 } } ∧
      searching.phase = some .claiming ∧ searching.depart.own = .yielded ∧ searching.depart.current = none ∧
      searching.depart.yielded = [1] ∧ searching.depart.lanes = [1] ∧ searching.view.contested = [] ∧
      quiet (exec (.laneNotice 10 127 (laneBytes .release 1 0)) searching) = true) := by
  refine ⟨?_, ?_⟩ <;> unfold State.Hears State.Settled <;> decide +kernel

theorem witness_RestartTaken_blocks :
    (∀ s ∈ [flight armed (request .heat .cabinTemperature 0) 1 (some 1000100), holding .releasing, holding .gone,
        unsent [1], { holding .cleared with link := op.link }],
      s.Hears 4 0 5 [] ∧ s.HeaterBounds ∧ s.counted.Settled ∧ s.plans.list.length = 1 ∧
        (∀ h ∈ s.plans.list, h.held = none) ∧ quiet (exec (.restartNotice 0 5 []) s) = true) ∧
    (armed.heat.state ≠ .off ∧ armed.share.announced = true ∧ armed.share.demandSent = true ∧
      (flight armed (request .heat .cabinTemperature 0) 1 (some 1000100)).link.exchange ≠ none) ∧
    op.link.state = .down ∧ (holding .releasing).link.state = .halted := by
  refine ⟨?_, ?_, ?_, ?_⟩ <;> (try unfold State.Hears State.Settled State.HeaterBounds) <;> decide +kernel

/-! ### Requests that the link does not take, and a coach that leaves -/

/-- R88 and R48: HEATER DISABLE offered while the link is not UP is ABORTED at once, which clears heater enable held. -/
theorem test_disable_aborted :
    (({ heating with link := op.link } : State).heatPlace .heaterDisable).heat.enableHeld = false := by decide +kernel

/-- R93 and R111: a closing request that is withdrawn from the queue is ABORTED, and closing request is cleared. -/
theorem test_withdrawn_closing :
    (({ measuring (window true true) with
        link := { up.link with queue := [{ request .lamp .lampsOff 0 with closing := true }] },
        lamp := { (measuring (window true true)).lamp with closing := true } } : State).lampSuspend).lamp.closing =
      false := by decide +kernel

/-- R124 and R88: while the link is HALTING each FAULT RECORD is ABORTED at once, and next index runs past count to read. -/
theorem test_records_aborted :
    let s : State :=
      { up with
        link := { up.link with state := .halting },
        faults := { up.faults with reader := .reading, toRead := 3, next := 2 } }
    (s.readerPlace 4).faults.next = 4 ∧ (s.readerPlace 4).link.queue = [] := by decide +kernel

/-- R47 and R150: a coach that leaves in SCHEDULED takes pre-heat back to OFF before the head is matched anew. -/
theorem test_coach_left_scheduled :
    let s := scheduled 1400 1
    let t := ({ s with heat := { s.heat with enableHeld := true } } : State).setPhase .waitingCoach
    t.heat.state = .off ∧ t.phase = some .waitingCoach := by decide +kernel

end Sys2Proof.Tests
end

