-- ==== Sys2Proof/Proofs/LampCheck.lean ====
section
namespace Sys2Proof.Machine

/-! ## Lamps out (R108): the rounding by remainder, its bounds, and the clamp -/

/-- Step 2 of R108, before the clamp: `d` in whole shares, a remainder of more than half a share counted as one more. -/
def roundedShares (d share : Nat) : Nat :=
  if share < 2 * (d - d / share * share) then d / share + 1 else d / share

/-- Nearest from above, the half toward fewer: `d` is at most half a share over the count. -/
theorem two_mul_le_roundedShares (d : Nat) {share : Nat} (hs : 0 < share) :
    2 * d ≤ (2 * roundedShares d share + 1) * share := by
  have hdiv : d / share * share + d % share = d := Nat.div_add_mod' d share
  have hmod : d % share < share := Nat.mod_lt d hs
  unfold roundedShares
  split
  case isTrue => linarith
  case isFalse hhalf =>
    have : 2 * (d % share) ≤ share := by omega
    linarith

/-- Nearest from below: `d` is more than half a share over every smaller count. -/
theorem lt_two_mul_of_lt_roundedShares {d share j : Nat} (hs : 0 < share) (hj : j < roundedShares d share) :
    (2 * j + 1) * share < 2 * d := by
  have hfits : d / share * share ≤ d := Nat.div_mul_le_self d share
  unfold roundedShares at hj
  split at hj
  case isTrue hhalf =>
    have hjq : j * share ≤ d / share * share := Nat.mul_le_mul_right share (Nat.lt_succ_iff.mp hj)
    have hover : share + 2 * (d / share * share) < 2 * d := by omega
    linarith
  case isFalse =>
    have hjq : (j + 1) * share ≤ d / share * share := Nat.mul_le_mul_right share hj
    linarith

theorem lampsOut_of_le {expected : Nat} {rise : Int} (lamps : Nat) (h : (expected : Int) ≤ rise) :
    lampsOut expected lamps rise = 0 :=
  if_pos (by omega)

theorem lampsOut_of_lt {expected : Nat} {rise : Int} (lamps : Nat) (h : rise < (expected : Int)) :
    lampsOut expected lamps rise =
      min (roundedShares ((expected : Int) - rise).toNat (expected / lamps)) (lamps - 1) :=
  if_neg (by omega)

theorem lampsOut_le (expected lamps : Nat) (rise : Int) : lampsOut expected lamps rise ≤ lamps - 1 := by
  rcases le_or_gt (expected : Int) rise with h | h
  · simp [lampsOut_of_le lamps h]
  · simp [lampsOut_of_lt lamps h]

/-- A count below the clamp is the rounded one. -/
theorem two_mul_le_lampsOut {expected lamps : Nat} {rise : Int} (hs : 0 < expected / lamps)
    (h : rise < (expected : Int)) (hk : lampsOut expected lamps rise < lamps - 1) :
    2 * ((expected : Int) - rise) ≤ (2 * lampsOut expected lamps rise + 1 : Nat) * (expected / lamps : Nat) := by
  have hrounded : lampsOut expected lamps rise = roundedShares ((expected : Int) - rise).toNat (expected / lamps) := by
    have hmin := lampsOut_of_lt lamps h
    omega
  have hnat := two_mul_le_roundedShares ((expected : Int) - rise).toNat hs
  rw [← hrounded] at hnat
  have hd : (((expected : Int) - rise).toNat : Int) = (expected : Int) - rise := Int.toNat_of_nonneg (by omega)
  rw [← hd]
  exact_mod_cast hnat

/-- The clamp only lowers the count, so the bound from below holds with it and without it. -/
theorem lt_two_mul_of_lampsOut_pos {expected lamps : Nat} {rise : Int} (hs : 0 < expected / lamps)
    (h : rise < (expected : Int)) (hk : 0 < lampsOut expected lamps rise) :
    (2 * lampsOut expected lamps rise - 1 : Nat) * (expected / lamps : Nat) < 2 * ((expected : Int) - rise) := by
  have hmin := lampsOut_of_lt lamps h
  have hnat := lt_two_mul_of_lt_roundedShares (d := ((expected : Int) - rise).toNat)
    (j := lampsOut expected lamps rise - 1) hs (by omega)
  rw [show 2 * (lampsOut expected lamps rise - 1) + 1 = 2 * lampsOut expected lamps rise - 1 by omega] at hnat
  have hd : (((expected : Int) - rise).toNat : Int) = (expected : Int) - rise := Int.toNat_of_nonneg (by omega)
  rw [← hd]
  exact_mod_cast hnat

/-- Settles O50: the bounds of the rounding by remainder, carried through the clamp. -/
theorem lampsOutRounded : Obligations.LampsOutRounded := by
  unfold Obligations.LampsOutRounded
  intro expected lamps rise _ hshare
  exact ⟨lampsOut_le expected lamps rise, lampsOut_of_le lamps,
    fun hlt hk => ⟨two_mul_le_lampsOut hshare hlt hk, lt_two_mul_of_lampsOut_pos hshare hlt⟩,
    fun hlt _ hpos => lt_two_mul_of_lampsOut_pos hshare hlt hpos⟩

end Sys2Proof.Machine
end

