-- ==== Sys2Proof/Proofs/FaultTable.lean ====
section
namespace Sys2Proof.Machine

/-! ## Placement in a full table (R120): the branches of `placeRecord`, and what they make of a write -/

/-- Oldest is first in the table, which keeps insertion order. -/
theorem dropOldest_append_cons {v : Severity} {a b : List Record} {r : Record} (hr : r.severity = v)
    (ha : ∀ x ∈ a, x.severity ≠ v) : dropOldest v (a ++ r :: b) = a ++ b := by
  have hnot : ∀ x ∈ a, ¬(x.severity == v) = true := fun x hx => by simpa using ha x hx
  rw [dropOldest, List.eraseP_append_right _ hnot, List.eraseP_cons_of_pos (by simpa using hr)]

theorem any_severity_iff (t : List Record) (v : Severity) :
    (t.any fun x => x.severity == v) = true ↔ ∃ x ∈ t, x.severity = v := by
  simp

theorem not_any_severity {t : List Record} {v : Severity} (h : ∀ x ∈ t, x.severity ≠ v) :
    ¬(t.any fun x => x.severity == v) = true := by
  rw [any_severity_iff]
  exact fun ⟨x, hx, hv⟩ => h x hx hv

section
variable {t : List Record} (hfull : t.length = 32)
include hfull

theorem not_lt_tableSize_of_full : ¬t.length < Config.tableSize := by
  simp [hfull, Config.tableSize]

theorem placeRecord_full_info (r : Record) (hinfo : ∃ x ∈ t, x.severity = .info) :
    placeRecord t r = some (dropOldest .info t ++ [r]) := by
  rw [placeRecord, if_neg (not_lt_tableSize_of_full hfull), if_pos ((any_severity_iff t .info).2 hinfo)]

theorem placeRecord_full_advisory {r : Record} (hinfo : ∀ x ∈ t, x.severity ≠ .info) (hr : r.severity = .blocking)
    (hadvisory : ∃ x ∈ t, x.severity = .advisory) :
    placeRecord t r = some (dropOldest .advisory t ++ [r]) := by
  rw [placeRecord, if_neg (not_lt_tableSize_of_full hfull), if_neg (not_any_severity hinfo),
    (any_severity_iff t .advisory).2 hadvisory, hr]
  rfl

theorem placeRecord_full_none {r : Record} (hinfo : ∀ x ∈ t, x.severity ≠ .info)
    (hadvisory : r.severity = .blocking → ∀ x ∈ t, x.severity ≠ .advisory) : placeRecord t r = none := by
  have hneither : ¬(r.severity == .blocking && t.any fun x => x.severity == .advisory) = true := by
    rw [Bool.and_eq_true, beq_iff_eq]
    exact fun ⟨hr, hany⟩ => not_any_severity (hadvisory hr) hany
  rw [placeRecord, if_neg (not_lt_tableSize_of_full hfull), if_neg (not_any_severity hinfo), if_neg hneither]

end

section
variable {f : Faults} {k : Key} {v : Severity} {c : Option CoachState} {now : Option DepotTime}

theorem Faults.write_of_placed {x : List Record} (hnew : ∀ r ∈ f.table, r.key ≠ k)
    (hplace : placeRecord f.table (Record.fresh k v c now) = some x) :
    f.write k v c now = { f with table := x } := by
  obtain ⟨⟨r, hr, hk⟩, -⟩ | ⟨-, ⟨y, hy, hwrite⟩ | ⟨hnone, -⟩⟩ := f.write_cases k v c now
  · exact absurd hk (hnew r hr)
  · rw [hwrite, Option.some.inj (hy.symm.trans hplace)]
  · simp [hplace] at hnone

theorem Faults.write_of_discarded (hnew : ∀ r ∈ f.table, r.key ≠ k)
    (hplace : placeRecord f.table (Record.fresh k v c now) = none) :
    f.write k v c now = { f with overflow := true } := by
  obtain ⟨⟨r, hr, hk⟩, -⟩ | ⟨-, ⟨y, hy, -⟩ | ⟨-, hwrite⟩⟩ := f.write_cases k v c now
  · exact absurd hk (hnew r hr)
  · simp [hplace] at hy
  · exact hwrite

/-- Step 1 of R120. -/
theorem Faults.write_full_info {a b : List Record} {r : Record} (hfull : f.table.length = 32)
    (hnew : ∀ x ∈ f.table, x.key ≠ k) (htable : f.table = a ++ r :: b) (hr : r.severity = .info)
    (ha : ∀ x ∈ a, x.severity ≠ .info) :
    f.write k v c now = { f with table := a ++ b ++ [Record.fresh k v c now] } := by
  have hplace := placeRecord_full_info hfull (Record.fresh k v c now) ⟨r, by simp [htable], hr⟩
  rw [write_of_placed hnew hplace, htable, dropOldest_append_cons hr ha]

/-- Step 2 of R120. -/
theorem Faults.write_full_advisory {a b : List Record} {r : Record} (hfull : f.table.length = 32)
    (hnew : ∀ x ∈ f.table, x.key ≠ k) (hinfo : ∀ x ∈ f.table, x.severity ≠ .info)
    (hv : v = .blocking) (htable : f.table = a ++ r :: b) (hr : r.severity = .advisory)
    (ha : ∀ x ∈ a, x.severity ≠ .advisory) :
    f.write k v c now = { f with table := a ++ b ++ [Record.fresh k v c now] } := by
  have hplace := placeRecord_full_advisory hfull (r := Record.fresh k v c now) hinfo hv ⟨r, by simp [htable], hr⟩
  rw [write_of_placed hnew hplace, htable, dropOldest_append_cons hr ha]

/-- Step 3 of R120. -/
theorem Faults.write_full_discarded (hfull : f.table.length = 32) (hnew : ∀ x ∈ f.table, x.key ≠ k)
    (hinfo : ∀ x ∈ f.table, x.severity ≠ .info)
    (hadvisory : v = .blocking → ∀ x ∈ f.table, x.severity ≠ .advisory) :
    f.write k v c now = { f with overflow := true } :=
  write_of_discarded hnew (placeRecord_full_none hfull hinfo hadvisory)

end

/-! ## The severity of a coach fault as read (R121) -/

/-- R121's steps, each with what rules out those before it. -/
theorem coachSeverity_cases (c : Configuration) (code level : Nat) :
    (code ∈ c.blockList ∨ c.blockThreshold ≤ level) ∧ coachSeverity c code level = .blocking ∨
      (code ∉ c.blockList ∧ level < c.blockThreshold ∧ c.adviseThreshold ≤ level) ∧
        coachSeverity c code level = .advisory ∨
      (code ∉ c.blockList ∧ level < c.blockThreshold ∧ level < c.adviseThreshold) ∧
        coachSeverity c code level = .info := by
  unfold coachSeverity
  split
  case isTrue hlist => exact .inl ⟨.inl (by simpa using hlist), rfl⟩
  case isFalse hlist =>
    have hlist : code ∉ c.blockList := by simpa using hlist
    split
    case isTrue hblock => exact .inl ⟨.inr hblock, rfl⟩
    case isFalse hblock =>
      have hblock := Nat.lt_of_not_le hblock
      split
      case isTrue hadvise => exact .inr (.inl ⟨⟨hlist, hblock, hadvise⟩, rfl⟩)
      case isFalse hadvise => exact .inr (.inr ⟨⟨hlist, hblock, Nat.lt_of_not_le hadvise⟩, rfl⟩)

/-- R121's conditions exclude each other, so each severity says which of them held. -/
theorem coachSeverity_iff (c : Configuration) (code level : Nat) :
    (coachSeverity c code level = .blocking ↔ code ∈ c.blockList ∨ c.blockThreshold ≤ level) ∧
    (coachSeverity c code level = .advisory ↔
      code ∉ c.blockList ∧ level < c.blockThreshold ∧ c.adviseThreshold ≤ level) ∧
    (coachSeverity c code level = .info ↔
      code ∉ c.blockList ∧ level < c.blockThreshold ∧ level < c.adviseThreshold) := by
  obtain ⟨hlist | hblock, hsev⟩ | ⟨⟨hlist, hblock, hadvise⟩, hsev⟩ | ⟨⟨hlist, hblock, hinfo⟩, hsev⟩ :=
    coachSeverity_cases c code level
  · simp [hsev, hlist]
  · simp [hsev, hblock, hblock.not_gt]
  · simp [hsev, hlist, hblock, hadvise]
  · simp [hsev, hlist, hblock, hinfo]

/-- Settles O34: R120's steps as the branches of `placeRecord` on a full table, and the steps of R121. -/
theorem faultsPlaced : Obligations.FaultsPlaced := by
  unfold Obligations.FaultsPlaced
  refine ⟨fun f k v c now hfull hnew => ⟨?info, ?advisory, ?discarded⟩, fun _ _ => rfl, coachSeverity_iff⟩
  case info => exact fun _ _ _ htable hr ha => Faults.write_full_info hfull hnew htable hr ha
  case advisory =>
    exact fun hinfo hv _ _ _ htable hr ha => Faults.write_full_advisory hfull hnew hinfo hv htable hr ha
  case discarded => exact Faults.write_full_discarded hfull hnew

end Sys2Proof.Machine
end

