-- ==== Sys2Proof/Proofs/Moves.lean ====
section
namespace Sys2Proof.Machine

/-! ## Chains of block moves

A command is a chain of updates of single blocks. `Moves` is the chain with what each link keeps of the limits of its block;
the limits of `Safety` are each an induction over it. -/

/-- What a change of HEAT's registers keeps: the stage count, stages closed only in a drawing state, a computing state begun
only from another one, the ranges of the figures and of the learned table. `d`: pre-heat may begin. -/
structure HeatMove (d : Prop) (t : State) (h : Heat) : Prop where
  count : h.count = t.heat.count
  draws : h.state.drawing = true → t.heat.state.drawing = true ∨ d
  closes : t.heat.state.drawing = true → h.state.drawing = true ∨ t.heat.count = 0
  starts : h.state.computing = true → t.heat.state.computing = true ∨ t.operating = true ∧ d
  figures : t.FigureBounds → ({ t with heat := h } : State).FigureBounds
  learned : t.LearnedBounds → ({ t with heat := h } : State).LearnedBounds

/-- The inputs HEAT watches, and its watch set, are as they were, or no set is needed. -/
def BayQuiet (t : State) (b : Bay) : Prop :=
  (b.heatWatch = t.bay.heatWatch ∨ t.heat.state.drawing = false) ∧ b.latched.level = t.bay.latched.level ∧
    b.coach.level = t.bay.coach.level

/-- A new stage count in HEAT and in BAY (R43, R158). -/
def State.putCount (s : State) (n : Nat) : State :=
  (s.updHeat fun h =>
    { h with count := n, lastChange := some s.now, run := h.run.map fun r => r.upTo h.count s.now }).bayCount n

/-- A new grant, the count falling to it (R75). -/
def State.putGrant (s : State) (g : Nat) : State :=
  let t := s.updShare fun x => { x with grant := g }
  if g < s.heat.count then t.putCount g else t

/-- Every stage opened for a proving failure, BAY-02 written (R159). -/
def State.failProving (s : State) : State :=
  let t := (s.updBay fun b => { b with provingFailed := true, contactors := 0 }).writeFault bay02 .advisory
  if 0 = s.heat.count then t else t.putCount 0

/-- `t` is reached from `s` by updates of single blocks, each within the limits of its block. `d`: pre-heat may begin and the
inputs it watches may turn. -/
inductive Moves (d : Prop) (s : State) : State → Prop
  | refl : Moves d s s
  | cfg {t} (h : Moves d s t) (c : Option Configuration) : Moves d s { t with cfg := c }
  | free {t} (h : Moves d s t) (n : Nat) : Moves d s { t with freeCount := n }
  | start {t} (h : Moves d s t) (f : Start → Start)
      (hf : t.HeaterBounds → t.heat.state.computing = true → (f t.start).station = .operating) : Moves d s (t.updStart f)
  | clock {t} (h : Moves d s t) (f : Clock → Clock) (hf : t.LineBounds → (t.updClock f).LineBounds) :
      Moves d s (t.updClock f)
  | line {t} (h : Moves d s t) (f : Line → Line) (hf : t.LineBounds → (t.updLine f).LineBounds)
      (hc : (f t.line).summary.content = t.line.summary.content) : Moves d s (t.updLine f)
  | view {t} (h : Moves d s t) (f : View → View) (hf : t.ViewBounds → (t.updView f).ViewBounds) : Moves d s (t.updView f)
  | plans {t} (h : Moves d s t) (f : Plans → Plans) (hf : s.PlanBounds → t.PlanBounds → (t.updPlans f).PlanBounds) :
      Moves d s (t.updPlans f)
  | heat {t} (h : Moves d s t) (f : Heat → Heat) (hf : HeatMove d t (f t.heat)) : Moves d s (t.updHeat f)
  | putCount {t} (h : Moves d s t) (n : Nat)
      (hn : n ≤ t.heat.count ∨ n ≤ t.share.grant ∧ t.heat.state.drawing = true) : Moves d s (t.putCount n)
  | putGrant {t} (h : Moves d s t) (g : Nat) : Moves d s (t.putGrant g)
  | share {t} (h : Moves d s t) (f : Share → Share) (hf : (f t.share).grant = t.share.grant) : Moves d s (t.updShare f)
  | link {t} (h : Moves d s t) (f : Link → Link) (hf : t.QueueBounds → (t.updLink f).QueueBounds) : Moves d s (t.updLink f)
  | lamp {t} (h : Moves d s t) (f : Lamp → Lamp) : Moves d s (t.updLamp f)
  | faults {t} (h : Moves d s t) (f : Faults → Faults) (hf : t.TableBounds → (t.updFaults f).TableBounds)
      (hc : (f t.faults).shown = t.faults.shown) : Moves d s (t.updFaults f)
  | summary {t} (h : Moves d s t) : Moves d s t.writeSummary
  | depart {t} (h : Moves d s t) (f : Depart → Depart) : Moves d s (t.updDepart f)
  | bay {t} (h : Moves d s t) (f : Bay → Bay) (hc : (f t.bay).contactors = t.bay.contactors)
      (hw : d ∨ BayQuiet t (f t.bay)) : Moves d s (t.updBay f)
  | failProving {t} (h : Moves d s t) : Moves d s t.failProving

variable {d : Prop} {s t u : State}

/-! ### What each chain keeps -/

/-- The FAULT SUMMARY slot holds the content last announced, or nothing yet (R131). -/
def State.CopyKept (s : State) : Prop :=
  s.line.summary.content = some s.faults.shown ∨ s.line.summary.content = none ∧ s.faults.shown = Summary.blank

theorem drawing_computing {x : HeatState} (h : x.drawing = true) : x.computing = true := by
  cases x <;> simp_all [HeatState.drawing, HeatState.computing]

theorem mapKey_ite_merge (k : Key) (v : Severity) (c : Option CoachState) (n : Option DepotTime) (xs : List Record) :
    (xs.map fun r => if r.key = k then r.merge v c n else r).map Record.key = xs.map Record.key := by
  simp only [List.map_map]
  refine List.map_congr_left fun r _ => ?_
  simp only [Function.comp]; split <;> simp

/-- A write keeps the table within its limits (R118, R120). -/
theorem Faults.write_table_bounds (f : Faults) (k : Key) (v : Severity) (c : Option CoachState) (n : Option DepotTime)
    (h : f.table.length ≤ 32 ∧ (f.table.map Record.key).Nodup) :
    (f.write k v c n).table.length ≤ 32 ∧ ((f.write k v c n).table.map Record.key).Nodup := by
  obtain ⟨-, e⟩ | ⟨hk, ⟨x, hx, e⟩ | ⟨-, e⟩⟩ := f.write_cases k v c n <;> rw [e]
  · exact ⟨by simpa using h.1, by dsimp only; rw [mapKey_ite_merge]; exact h.2⟩
  · obtain ⟨y, rfl, hy, hl⟩ := placeRecord_spec hx
    refine ⟨hl h.1, ?_⟩
    simp only [List.map_append, List.nodup_append]
    refine ⟨(hy.map _).nodup h.2, by simp, ?_⟩
    intro a ha b hb
    obtain ⟨r, hr, rfl⟩ := List.mem_map.1 ha
    simp only [List.map_cons, List.map_nil, List.mem_singleton] at hb
    exact fun e => hk r (hy.subset hr) (e.trans hb)
  · exact h

@[simp] theorem Faults.write_shown (f : Faults) (k : Key) (v : Severity) (c : Option CoachState) (n : Option DepotTime) :
    (f.write k v c n).shown = f.shown := by
  unfold Faults.write; split
  · rfl
  · split <;> rfl

theorem Moves.pending (h : Moves d s t) : t.pending = s.pending := by
  induction h with
  | refl => rfl
  | putGrant h g ih => unfold State.putGrant; dsimp only; split <;> exact ih
  | failProving h ih => unfold State.failProving; dsimp only; split <;> exact ih
  | _ => assumption

theorem Moves.tableBounds (h : Moves d s t) (hs : s.TableBounds) : t.TableBounds := by
  induction h with
  | refl => exact hs
  | putGrant h g ih => unfold State.putGrant; dsimp only; split <;> exact ih
  | failProving h ih =>
    unfold State.failProving; dsimp only
    split <;> exact Faults.write_table_bounds _ _ _ _ _ ih
  | faults h f hf hc ih => exact hf ih
  | _ => assumption

theorem Moves.planBounds (h : Moves d s t) (hs : s.PlanBounds) : t.PlanBounds := by
  induction h with
  | refl => exact hs
  | putGrant h g ih => unfold State.putGrant; dsimp only; split <;> exact ih
  | failProving h ih => unfold State.failProving; dsimp only; split <;> exact ih
  | plans h f hf ih => exact hf hs ih
  | _ => assumption

theorem Moves.queueBounds (h : Moves d s t) (hs : s.QueueBounds) : t.QueueBounds := by
  induction h with
  | refl => exact hs
  | putGrant h g ih => unfold State.putGrant; dsimp only; split <;> exact ih
  | failProving h ih => unfold State.failProving; dsimp only; split <;> exact ih
  | link h f hf ih => exact hf ih
  | _ => assumption

theorem Moves.learnedBounds (h : Moves d s t) (hs : s.LearnedBounds) : t.LearnedBounds := by
  induction h with
  | refl => exact hs
  | putGrant h g ih => unfold State.putGrant; dsimp only; split <;> exact ih
  | failProving h ih => unfold State.failProving; dsimp only; split <;> exact ih
  | heat h f hf ih => exact hf.learned ih
  | _ => assumption

theorem Moves.figureBounds (h : Moves d s t) (hs : s.FigureBounds) : t.FigureBounds := by
  induction h with
  | refl => exact hs
  | putGrant h g ih => unfold State.putGrant; dsimp only; split <;> exact ih
  | failProving h ih => unfold State.failProving; dsimp only; split <;> exact ih
  | heat h f hf ih => exact hf.figures ih
  | _ => assumption

theorem Moves.lineBounds (h : Moves d s t) (hs : s.LineBounds) : t.LineBounds := by
  induction h with
  | refl => exact hs
  | putGrant h g ih => unfold State.putGrant; dsimp only; split <;> exact ih
  | failProving h ih => unfold State.failProving; dsimp only; split <;> exact ih
  | line h f hf hc ih => exact hf ih
  | clock h f hf ih => exact hf ih
  | _ => assumption

theorem Moves.viewBounds (h : Moves d s t) (hs : s.ViewBounds) : t.ViewBounds := by
  induction h with
  | refl => exact hs
  | putGrant h g ih => unfold State.putGrant; dsimp only; split <;> exact ih
  | failProving h ih => unfold State.failProving; dsimp only; split <;> exact ih
  | view h f hf ih => exact hf ih
  | _ => assumption

theorem Moves.copyKept (h : Moves d s t) (hs : s.CopyKept) : t.CopyKept := by
  induction h with
  | refl => exact hs
  | putGrant h g ih => unfold State.putGrant; dsimp only; split <;> exact ih
  | failProving h ih =>
    have e : ∀ x : State, (x.updFaults fun f => f.write bay02 .advisory none x.depotTime).CopyKept ↔ x.CopyKept := by
      intro x; simp [State.CopyKept]
    unfold State.failProving; dsimp only
    split <;> exact (e _).2 ih
  | line h f hf hc ih => unfold State.CopyKept; rw [updLine_line, updLine_faults, hc]; exact ih
  | faults h f hf hc ih => unfold State.CopyKept; rw [updFaults_line, updFaults_faults, hc]; exact ih
  | summary h ih => exact Or.inl rfl
  | _ => assumption

theorem putCount_heaterBounds (n : Nat) (hc : t.heat.state.computing = true → t.operating = true)
    (hg : n ≤ t.share.grant) (hd : 0 < n → t.heat.state.drawing = true) : (t.putCount n).HeaterBounds :=
  ⟨hg, rfl, hd, hc⟩

theorem Moves.heaterBounds (h : Moves d s t) (hs : s.HeaterBounds) : t.HeaterBounds := by
  induction h with
  | refl => exact hs
  | start h f hf ih =>
    obtain ⟨hg, hc, hd, ho⟩ := ih
    exact ⟨hg, hc, hd, fun e => by simp only [State.operating, beq_iff_eq]; exact hf ⟨hg, hc, hd, ho⟩ e⟩
  | heat h f hf ih =>
    obtain ⟨hg, hc, hd, ho⟩ := ih
    refine ⟨hf.count ▸ hg, hc.trans hf.count.symm, fun e => ?_, fun e => ?_⟩
    · have e' := e; rw [updHeat_heat, hf.count] at e'
      exact (hf.closes (hd e')).resolve_right (by omega)
    · rcases hf.starts e with x | x
      · exact ho x
      · exact x.1
  | @putCount t h n hn ih =>
    obtain ⟨hg, hc, hd, ho⟩ := ih
    refine putCount_heaterBounds n ho ?_ fun e => ?_
    · rcases hn with x | x
      · omega
      · exact x.1
    · rcases hn with x | x
      · exact hd (by omega)
      · exact x.2
  | @putGrant t h g ih =>
    obtain ⟨hg, hc, hd, ho⟩ := ih
    unfold State.putGrant; dsimp only
    split
    · exact putCount_heaterBounds g ho (Nat.le_refl g) fun e => hd (by omega)
    · exact ⟨by simpa using ‹¬g < t.heat.count›, hc, hd, ho⟩
  | share h f hf ih =>
    obtain ⟨hg, hc, hd, ho⟩ := ih
    exact ⟨by rw [updShare_share, hf]; exact hg, hc, hd, ho⟩
  | bay h f hf hw ih =>
    obtain ⟨hg, hc, hd, ho⟩ := ih
    exact ⟨hg, hf.trans hc, hd, ho⟩
  | failProving h ih =>
    obtain ⟨hg, hc, hd, ho⟩ := ih
    unfold State.failProving; dsimp only
    split
    · exact ⟨hg, ‹_›, hd, ho⟩
    · exact putCount_heaterBounds 0 ho (Nat.zero_le _) fun e => absurd e (Nat.lt_irrefl 0)
  | _ => assumption

/-- In a drawing state nothing HEAT watches has moved, and the state was a drawing one before. -/
def Calm (s t : State) : Prop :=
  t.heat.state.drawing = true →
    s.heat.state.drawing = true ∧ t.bay.heatWatch = s.bay.heatWatch ∧ t.bay.latched.level = s.bay.latched.level ∧
      t.bay.coach.level = s.bay.coach.level

theorem Moves.calm (h : Moves False s t) : Calm s t := by
  induction h with
  | refl => exact fun e => ⟨e, rfl, rfl, rfl⟩
  | heat h f hf ih => exact fun e => ih ((hf.draws e).resolve_right id)
  | bay h f hc hw ih =>
    intro e
    obtain ⟨h1, h2, h3, h4⟩ := ih e
    obtain ⟨w1, w2, w3⟩ := hw.resolve_left id
    exact ⟨h1, (w1.resolve_right (by rw [updBay_heat] at e; simp [e])).trans h2, w2.trans h3, w3.trans h4⟩
  | putGrant h g ih => unfold State.putGrant; dsimp only; split <;> exact ih
  | failProving h ih => unfold State.failProving; dsimp only; split <;> exact ih
  | _ => assumption

/-- Without a beginning pre-heat stays in OFF or STOPPED. -/
theorem Moves.idle (h : Moves False s t) (hs : s.heat.state.computing = false) : t.heat.state.computing = false := by
  induction h with
  | refl => exact hs
  | heat h f hf ih =>
    rw [Bool.eq_false_iff]
    intro e
    rcases hf.starts e with x | x
    · rw [ih] at x; cases x
    · exact x.2
  | putGrant h g ih => unfold State.putGrant; dsimp only; split <;> exact ih
  | failProving h ih => unfold State.failProving; dsimp only; split <;> exact ih
  | _ => assumption

theorem Calm.watchKept (h : Calm s t) (hs : s.WatchKept) : t.WatchKept := by
  intro e
  obtain ⟨h1, h2, h3, h4⟩ := h e
  obtain ⟨k1, k2, k3⟩ := hs h1
  exact ⟨h2.trans k1, h3.trans k2, h4.trans k3⟩

end Sys2Proof.Machine
end

