-- ==== Sys2Proof/Proofs/LampScope.lean ====
section
namespace Sys2Proof.Machine

/-! ## What LAMP's operations can touch

LAMP's own block, records of the fault table, the request queue with the exchange a placing starts, and LAMP's watch set. -/

/-- `t` is `s` but for what LAMP's operations write; an exchange in flight stays in flight. -/
def LampScope (s t : State) : Prop :=
  ∃ (l : Lamp) (tab : List Record) (ov : Bool) (q : List Request) (n : Nat) (x : Option Exchange) (w : Option Watch),
    t = { s with
      lamp := l, faults := { s.faults with table := tab, overflow := ov },
      link := { s.link with queue := q, number := n, exchange := x }, bay := { s.bay with lampWatch := w } } ∧
      (s.link.exchange ≠ none → x ≠ none)

variable {s t : State}

namespace LampScope

theorem refl (s : State) : LampScope s s := ⟨_, _, _, _, _, _, _, rfl, fun h => h⟩

theorem heat (h : LampScope s t) : t.heat = s.heat := by obtain ⟨_, _, _, _, _, _, _, rfl, -⟩ := h; rfl
theorem share (h : LampScope s t) : t.share = s.share := by obtain ⟨_, _, _, _, _, _, _, rfl, -⟩ := h; rfl
theorem plans (h : LampScope s t) : t.plans = s.plans := by obtain ⟨_, _, _, _, _, _, _, rfl, -⟩ := h; rfl
theorem depart (h : LampScope s t) : t.depart = s.depart := by obtain ⟨_, _, _, _, _, _, _, rfl, -⟩ := h; rfl
theorem line (h : LampScope s t) : t.line = s.line := by obtain ⟨_, _, _, _, _, _, _, rfl, -⟩ := h; rfl
theorem linkState (h : LampScope s t) : t.link.state = s.link.state := by
  obtain ⟨_, _, _, _, _, _, _, rfl, -⟩ := h; rfl
theorem bay (h : LampScope s t) : ∃ w, t.bay = { s.bay with lampWatch := w } := by
  obtain ⟨_, _, _, _, _, _, w, rfl, -⟩ := h; exact ⟨w, rfl⟩

theorem exchange (h : LampScope s t) (hx : s.link.exchange ≠ none) : t.link.exchange ≠ none := by
  obtain ⟨_, _, _, _, _, _, _, rfl, k⟩ := h; exact k hx

theorem trans {u : State} (h : LampScope s t) (k : LampScope t u) : LampScope s u := by
  obtain ⟨_, _, _, _, _, _, _, rfl, hx⟩ := h
  obtain ⟨_, _, _, _, _, _, _, rfl, kx⟩ := k
  exact ⟨_, _, _, _, _, _, _, rfl, fun e => kx (hx e)⟩

theorem ite {c : Prop} [Decidable c] {a b : State} (ha : LampScope s a) (hb : LampScope s b) :
    LampScope s (if c then a else b) := by split <;> assumption

theorem updLamp (h : LampScope s t) (f : Lamp → Lamp) : LampScope s (t.updLamp f) :=
  h.trans ⟨_, _, _, _, _, _, _, rfl, fun h => h⟩

theorem lampWatch (h : LampScope s t) (w : Option Watch) :
    LampScope s (t.updBay fun b => { b with lampWatch := w }) := h.trans ⟨_, _, _, _, _, _, _, rfl, fun h => h⟩

theorem writeFault (h : LampScope s t) (k : Key) (v : Severity) (c : Option CoachState) :
    LampScope s (t.writeFault k v c) := by
  refine h.trans ?_
  obtain ⟨-, e⟩ | ⟨-, ⟨x, -, e⟩ | ⟨-, e⟩⟩ := t.faults.write_cases k v c t.depotTime <;>
    rw [State.writeFault, State.updFaults, e] <;> exact ⟨_, _, _, _, _, _, _, rfl, fun h => h⟩

theorem clearPresent (h : LampScope s t) (p : Record → Bool) : LampScope s (t.clearPresent p) :=
  h.trans ⟨_, _, _, _, _, _, _, rfl, fun h => h⟩

theorem begun (h : LampScope s t) : LampScope s t.begun := by
  refine h.trans ?_
  unfold State.begun State.startExchange
  split
  · split
    · exact refl t
    · exact ⟨_, _, _, _, _, _, _, rfl, fun _ => nofun⟩
  · exact refl t

theorem place (h : LampScope s t) (r : Request) : LampScope s (t.place r) := by
  obtain ⟨e, -⟩ | ⟨e, -⟩ := place_cases t r <;> rw [e]
  · exact LampScope.begun (h.trans ⟨_, _, _, _, _, _, _, rfl, fun h => h⟩)
  · exact h

theorem lampFaults (h : LampScope s t) (g : Nat) (r : LampResult) : LampScope s (t.lampFaults g r) := by
  unfold State.lampFaults; dsimp only
  split
  · exact h
  · split
    · exact (h.clearPresent _).writeFault _ _ _
    · exact h.clearPresent _

theorem lampResult (h : LampScope s t) (g : Nat) (r : LampResult) (i : Option Int) : LampScope s (t.lampResult g r i) :=
  (h.updLamp _).lampFaults _ _

theorem lampAborted (h : LampScope s t) (r : Request) : LampScope s (t.lampAborted r) :=
  ite (h.updLamp _) (ite (h.updLamp _) h)

theorem lampWithdraw (h : LampScope s t) : LampScope s t.lampWithdraw := by
  obtain ⟨_, _, _, e⟩ := lampWithdraw_cases t
  rw [e]
  exact LampScope.updLamp (h.trans ⟨_, _, _, _, _, _, _, rfl, by simp⟩) _

theorem lampAsk (h : LampScope s t) (k : ReqKind) (g : Nat) : LampScope s (t.lampAsk k g) :=
  ite ((h.updLamp _).place _) ((h.updLamp _).lampAborted _)

theorem lampSequence (h : LampScope s t) : LampScope s t.lampSequence := (h.updLamp _).lampAsk _ _

theorem lampGroupOn (h : LampScope s t) : LampScope s t.lampGroupOn := (h.updLamp _).lampAsk _ _

theorem lampClosing (h : LampScope s t) : LampScope s t.lampClosing := ite ((h.updLamp _).place _) (h.updLamp _)

theorem lampDone (h : LampScope s t) : LampScope s t.lampDone := (h.updLamp _).lampWatch _

theorem lampFinish (h : LampScope s t) : LampScope s t.lampFinish := ite h.lampDone.lampClosing h.lampDone

theorem lampTurn (n : Nat) : ∀ {t : State} (_ : LampScope s t) (g : Nat), LampScope s (t.lampTurn n g) := by
  induction n with
  | zero => exact fun h _ => h.lampFinish
  | succ n ih =>
    exact fun h g => ite h.lampFinish (ite (ih ((h.updLamp _).lampResult _ _ _) _)
      (ite (ih ((h.updLamp _).lampResult _ _ _) _) (h.updLamp _).lampSequence))

theorem lampNext (h : LampScope s t) (r : LampResult) (i : Option Int) : LampScope s (t.lampNext r i) :=
  lampTurn 17 (h.lampResult _ _ _) _

theorem lampRepeat (h : LampScope s t) : LampScope s t.lampRepeat := ite (h.lampNext _ _) h.lampSequence

theorem lampSpoil (h : LampScope s t) : LampScope s t.lampSpoil := ite ((h.updLamp _).updLamp _) (h.updLamp _).lampRepeat

theorem lampDecrease (h : LampScope s t) : LampScope s t.lampDecrease := ite h.lampSpoil h

theorem lampEnd (h : LampScope s t) (x : LampState) (dark : Bool) : LampScope s (t.lampEnd x dark) :=
  ite ((h.lampWithdraw.updLamp _).lampWatch _).lampClosing ((h.lampWithdraw.updLamp _).lampWatch _)

theorem lampWait (h : LampScope s t) : LampScope s t.lampWait := by
  unfold State.lampWait; exact h.updLamp _

theorem lampMatched (h : LampScope s t) : LampScope s t.lampMatched := ite h.lampWait h

theorem lampOwed (h : LampScope s t) : LampScope s t.lampOwed := ite h.lampWait h

theorem lampHeadChange (h : LampScope s t) : LampScope s t.lampHeadChange := ite h (h.lampEnd _ _)

theorem lampPhaseLost (h : LampScope s t) : LampScope s t.lampPhaseLost := ite h (h.lampEnd _ _)

theorem lampSuspend (h : LampScope s t) : LampScope s t.lampSuspend := ite (h.lampWithdraw.updLamp _) h

theorem lampUnplugged (h : LampScope s t) : LampScope s t.lampUnplugged := by
  unfold State.lampUnplugged; dsimp only
  refine LampScope.updLamp ?_ _
  split
  · exact h.lampEnd _ _
  · exact h.lampEnd _ _
  · exact h.lampEnd _ _
  · exact h.lampEnd _ _
  · exact h.lampEnd _ _
  · exact h
  · exact h

end LampScope

/-! ### The stage count through a change that LAMP hears of (R43) -/

/-- The new count stands in HEAT; what LAMP does about a fall stays within its scope. -/
theorem setCount_scope (s : State) (n : Nat) :
    n = s.heat.count ∧ s.setCount n = s ∨ n ≠ s.heat.count ∧ LampScope (s.putCount n) (s.setCount n) := by
  obtain h | ⟨hn, t, ht, e⟩ := setCount_spec s n
  · exact Or.inl h
  · refine Or.inr ⟨hn, ?_⟩
    have : s.putCount n = t := ht.symm
    rw [e, this]
    exact .ite (LampScope.refl t).lampDecrease (.refl t)

@[simp] theorem setCount_count (s : State) (n : Nat) : (s.setCount n).heat.count = n := by
  obtain ⟨h, e⟩ | ⟨-, h⟩ := setCount_scope s n
  · rw [e, h]
  · rw [h.heat]; rfl

@[simp] theorem setCount_heatState (s : State) (n : Nat) : (s.setCount n).heat.state = s.heat.state := by
  obtain ⟨-, e⟩ | ⟨-, h⟩ := setCount_scope s n
  · rw [e]
  · rw [h.heat]; rfl

end Sys2Proof.Machine
end

