-- ==== Sys2Proof/Proofs/MoveOps1.lean ====
section
namespace Sys2Proof.Machine

-- The many short proofs below are elaborated one at a time: each in a thread of its own, they exhaust the memory limit.
set_option Elab.async false

/-! ## The operations of the blocks as chains of moves: slots, table, queue, LAMP, BAY -/

/-! ### The queue's quotas (R88) -/

theorem length_eq_jobs (q : List Request) : q.length =
    (q.filter fun r => r.job == .ident).length + (q.filter fun r => r.job == .heat).length +
      (q.filter fun r => r.job == .lamp).length + (q.filter fun r => r.job == .fault).length := by
  induction q with
  | nil => rfl
  | cons r q ih => rcases r with ⟨_ | _ | _ | _, k, a, c⟩ <;> simp [ih] <;> omega

/-- The quotas alone bound the queue (R88). -/
theorem queueBounds_iff (s : State) : s.QueueBounds ↔ ∀ j, s.link.count j ≤ j.quota := by
  refine ⟨fun h => h.2, fun h => ⟨?_, h⟩⟩
  have h1 := h .ident; have h2 := h .heat; have h3 := h .lamp; have h4 := h .fault
  rw [length_eq_jobs]
  simp only [Link.count, Job.quota] at h1 h2 h3 h4
  omega

theorem Link.count_append (l : Link) (r : Request) (j : Job) :
    ({ l with queue := l.queue ++ [r] } : Link).count j = l.count j + if r.job = j then 1 else 0 := by
  unfold Link.count
  simp only [List.filter_append, List.length_append]
  by_cases h : r.job = j <;> simp [h]; omega

/-- Entries that leave, an exchange that ends or stays with its job: no count rises. -/
theorem Link.count_le {a b : Link} (hq : b.queue.Sublist a.queue)
    (hx : ∀ y, b.exchange = some y → ∃ x, a.exchange = some x ∧ x.req.job = y.req.job) (j : Job) :
    b.count j ≤ a.count j := by
  unfold Link.count
  have h1 := (hq.filter fun r => r.job == j).length_le
  cases hb : b.exchange with
  | none => simp only [Nat.add_zero]; omega
  | some y =>
    obtain ⟨x, hxa, e⟩ := hx y hb
    rw [hxa]; dsimp only; rw [e]
    exact Nat.add_le_add_right h1 _

theorem startExchange_count (s : State) (h : s.link.exchange = none) (j : Job) :
    s.startExchange.link.count j = s.link.count j := by
  unfold State.startExchange
  split
  · rfl
  · rename_i r rs hq
    simp only [updLink_link, Link.count, hq, h, List.filter_cons]
    by_cases hj : r.job = j <;> simp [hj]

theorem exchangeDue_exchange {s : State} (h : s.exchangeDue = true) : s.link.exchange = none := by
  simp only [State.exchangeDue, Bool.and_eq_true, Option.isNone_iff_eq_none] at h
  exact h.1.1.1

/-- A window command that does not close its window stores samples at most (log entry 5). -/
theorem lampTake_state (s : State) (b : Bool) (xs : List Nat) :
    (s.lampTake b xs).2 = s ∨ ∃ w, (s.lampTake b xs).2 = s.updLamp fun l => { l with window := w } := by
  unfold State.lampTake
  split
  · split
    · dsimp only; split <;> exact .inr ⟨_, rfl⟩
    · exact .inl rfl
  · exact .inl rfl

/-! ### Block updates that a limit does not read -/

variable {d : Prop} {s t : State}

namespace Moves

theorem ite {c : Prop} [Decidable c] {a b : State} (ha : Moves d s a) (hb : Moves d s b) :
    Moves d s (if c then a else b) := by split <;> assumption

theorem foldl {α : Type} {f : State → α → State} (hf : ∀ {t} (_ : Moves d s t) a, Moves d s (f t a)) (xs : List α) :
    ∀ {t} (_ : Moves d s t), Moves d s (xs.foldl f t) := by
  induction xs with
  | nil => exact fun h => h
  | cons x xs ih => exact fun h => ih (hf h x)

theorem startKept (h : Moves d s t) (f : Start → Start)
    (hf : ∀ x, (f x).station = x.station := by exact fun _ => rfl) : Moves d s (t.updStart f) :=
  h.start f fun hb e => by
    rw [hf]; have := hb.2.2.2 e; simpa [State.operating] using this

theorem lineKept (h : Moves d s t) (f : Line → Line)
    (hf : ∀ x, (f x).counter = x.counter ∧ (f x).recovery = x.recovery ∧ (f x).answers = x.answers ∧
      (f x).summary.content = x.summary.content := by exact fun _ => ⟨rfl, rfl, rfl, rfl⟩) : Moves d s (t.updLine f) := by
  obtain ⟨h1, h2, h3, h4⟩ := hf t.line
  refine h.line f (fun hb => ?_) h4
  simpa only [State.LineBounds, updLine_line, updLine_clock, h1, h2, h3] using hb

theorem plansKept (h : Moves d s t) (f : Plans → Plans)
    (hf : ∀ x, (f x).list = x.list := by exact fun _ => rfl) : Moves d s (t.updPlans f) :=
  h.plans f fun _ hb => by simpa only [State.PlanBounds, updPlans_plans, hf] using hb

theorem heatKept (h : Moves d s t) (f : Heat → Heat)
    (hf : ∀ x, (f x).count = x.count ∧ (f x).state = x.state ∧ (f x).stageMax = x.stageMax ∧
      (f x).holdRequest = x.holdRequest ∧ (f x).blindCount = x.blindCount ∧ (f x).learned = x.learned := by
        exact fun _ => ⟨rfl, rfl, rfl, rfl, rfl, rfl⟩) : Moves d s (t.updHeat f) := by
  obtain ⟨h1, h2, h3, h4, h5, h6⟩ := hf t.heat
  refine h.heat f ⟨h1, fun e => .inl (h2 ▸ e), fun e => .inl (h2 ▸ e), fun e => .inl (h2 ▸ e), fun hb => ?_, fun hb => ?_⟩
  · simpa only [State.FigureBounds, h3, h4, h5] using hb
  · simpa only [State.LearnedBounds, h6] using hb

/-- HEAT moves to a state with the count kept, every other limited register as it is. -/
theorem heatState (h : Moves d s t) (f : Heat → Heat)
    (hdraw : (f t.heat).state.drawing = true → t.heat.state.drawing = true ∨ d)
    (hclose : t.heat.state.drawing = true → (f t.heat).state.drawing = true ∨ t.heat.count = 0)
    (hstart : (f t.heat).state.computing = true → t.heat.state.computing = true ∨ t.operating = true ∧ d)
    (hf : ∀ x, (f x).count = x.count ∧ (f x).stageMax = x.stageMax ∧ (f x).holdRequest = x.holdRequest ∧
      (f x).blindCount = x.blindCount ∧ (f x).learned = x.learned := by exact fun _ => ⟨rfl, rfl, rfl, rfl, rfl⟩) :
    Moves d s (t.updHeat f) := by
  obtain ⟨h1, h3, h4, h5, h6⟩ := hf t.heat
  refine h.heat f ⟨h1, hdraw, hclose, hstart, fun hb => ?_, fun hb => ?_⟩
  · simpa only [State.FigureBounds, h3, h4, h5] using hb
  · simpa only [State.LearnedBounds, h6] using hb

/-- Links of the chain that leave queue and exchange to fewer entries. -/
theorem linkSub (h : Moves d s t) (f : Link → Link) (hq : (f t.link).queue.Sublist t.link.queue)
    (hx : ∀ y, (f t.link).exchange = some y → ∃ x, t.link.exchange = some x ∧ x.req.job = y.req.job) :
    Moves d s (t.updLink f) :=
  h.link f fun hb => (queueBounds_iff _).2 fun j =>
    (Link.count_le hq hx j).trans ((queueBounds_iff _).1 hb j)

theorem linkKept (h : Moves d s t) (f : Link → Link)
    (hf : ∀ x, (f x).queue = x.queue ∧ (f x).exchange = x.exchange := by exact fun _ => ⟨rfl, rfl⟩) :
    Moves d s (t.updLink f) := by
  obtain ⟨h1, h2⟩ := hf t.link
  exact h.linkSub f (h1 ▸ List.Sublist.refl _) fun y hy => ⟨y, h2 ▸ hy, rfl⟩

theorem faultsKept (h : Moves d s t) (f : Faults → Faults)
    (hf : ∀ x, (f x).table = x.table ∧ (f x).shown = x.shown := by exact fun _ => ⟨rfl, rfl⟩) :
    Moves d s (t.updFaults f) := by
  obtain ⟨h1, h2⟩ := hf t.faults
  exact h.faults f (fun hb => by simpa only [State.TableBounds, updFaults_faults, h1] using hb) h2

theorem bayKept (h : Moves d s t) (f : Bay → Bay)
    (hf : ∀ x, (f x).contactors = x.contactors ∧ (f x).heatWatch = x.heatWatch ∧
      (f x).latched.level = x.latched.level ∧ (f x).coach.level = x.coach.level := by
        exact fun _ => ⟨rfl, rfl, rfl, rfl⟩) : Moves d s (t.updBay f) := by
  obtain ⟨h1, h2, h3, h4⟩ := hf t.bay
  exact h.bay f h1 (.inr ⟨.inl h2, h3, h4⟩)

/-! ### Slots, table, queue -/

theorem writeLane (h : Moves d s t) {c : LaneContent} : Moves d s (t.writeLane c) := h.lineKept _
theorem emptyLane (h : Moves d s t) : Moves d s t.emptyLane := h.lineKept _
theorem writeDemand (h : Moves d s t) : Moves d s t.writeDemand := h.lineKept _
theorem emptyDemand (h : Moves d s t) : Moves d s t.emptyDemand := (h.lineKept _).share _ rfl
theorem withdrawDemand (h : Moves d s t) : Moves d s t.withdrawDemand := (ite h.emptyDemand (h.lineKept _)).share _ rfl
theorem writeStatus (h : Moves d s t) : Moves d s t.writeStatus := h.lineKept _
theorem holdSummary (h : Moves d s t) : Moves d s t.holdSummary := h.lineKept _
theorem releaseSummary (h : Moves d s t) : Moves d s t.releaseSummary := (h.lineKept _).summary

theorem writeFault (h : Moves d s t) {k : Key} {v : Severity} {c : Option CoachState} : Moves d s (t.writeFault k v c) :=
  h.faults _ (Faults.write_table_bounds _ _ _ _ _) (Faults.write_shown _ _ _ _ _)

theorem clearPresent (h : Moves d s t) {p : Record → Bool} : Moves d s (t.clearPresent p) := by
  refine h.faults _ (fun hb => ?_) rfl
  have e : ((t.faults.clearPresent p).table.map Record.key) = t.faults.table.map Record.key := by
    simp only [Faults.clearPresent, List.map_map]
    exact List.map_congr_left fun r _ => by simp only [Function.comp]; split <;> rfl
  refine ⟨?_, ?_⟩
  · rw [updFaults_faults, Faults.clearPresent, List.length_map]; exact hb.1
  · rw [updFaults_faults, e]; exact hb.2

theorem clearKey (h : Moves d s t) {k : Key} : Moves d s (t.clearKey k) := h.clearPresent

theorem writeCoachFault (h : Moves d s t) (c : CoachFault) : Moves d s (t.writeCoachFault c) := h.writeFault

theorem startExchange (h : Moves d s t) (hx : t.link.exchange = none) : Moves d s t.startExchange := by
  have e := startExchange_count t hx
  revert e
  unfold State.startExchange
  split
  · exact fun _ => h
  · intro e
    exact h.link _ fun hb => (queueBounds_iff _).2 fun j => (e j).trans_le ((queueBounds_iff _).1 hb j)

theorem begun (h : Moves d s t) : Moves d s t.begun := by
  obtain ⟨e, hd⟩ | ⟨e, -⟩ := begun_cases t <;> rw [e]
  · exact h.startExchange (exchangeDue_exchange hd)
  · exact h

theorem place (h : Moves d s t) {r : Request} : Moves d s (t.place r) := by
  obtain ⟨e, -, hc⟩ | ⟨e, -⟩ := place_cases t r <;> rw [e]
  · refine Moves.begun (h.link _ fun hb => (queueBounds_iff _).2 fun j => ?_)
    have := (queueBounds_iff _).1 hb j
    rw [updLink_link, Link.count_append]
    split
    · rename_i hj; subst hj; omega
    · omega
  · exact h

theorem withdraw (h : Moves d s t) {j : Job} : Moves d s (t.withdraw j) := by
  refine h.linkSub _ List.filter_sublist fun y hy => ?_
  obtain ⟨x, hx, rfl⟩ := Option.map_eq_some_iff.1 hy
  exact ⟨x, hx, by split <;> rfl⟩

theorem heatAborted (h : Moves d s t) {k : ReqKind} : Moves d s (t.heatAborted k) := ite (h.heatKept _) h

theorem heatPlace (h : Moves d s t) {k : ReqKind} : Moves d s (t.heatPlace k) :=
  ite (ite (h.heatKept _) h.place) h.heatAborted

/-! ### LAMP -/

theorem lampFaults (h : Moves d s t) {g : Nat} {r : LampResult} : Moves d s (t.lampFaults g r) := by
  unfold State.lampFaults; dsimp only
  split
  · exact h
  · split
    · exact h.clearPresent.writeFault
    · exact h.clearPresent

theorem lampResult (h : Moves d s t) {g : Nat} {r : LampResult} {i : Option Int} : Moves d s (t.lampResult g r i) :=
  (h.lamp _).lampFaults

theorem lampAborted (h : Moves d s t) (r : Request) : Moves d s (t.lampAborted r) := ite (h.lamp _) (ite (h.lamp _) h)

theorem lampWithdraw (h : Moves d s t) : Moves d s t.lampWithdraw := foldl lampAborted _ h.withdraw

theorem lampAsk (h : Moves d s t) {k : ReqKind} {g : Nat} : Moves d s (t.lampAsk k g) :=
  ite (h.lamp _).place ((h.lamp _).lampAborted _)

theorem lampSequence (h : Moves d s t) : Moves d s t.lampSequence := (h.lamp _).lampAsk
theorem lampGroupOn (h : Moves d s t) : Moves d s t.lampGroupOn := (h.lamp _).lampAsk
theorem lampClosing (h : Moves d s t) : Moves d s t.lampClosing := ite (h.lamp _).place (h.lamp _)
theorem lampDone (h : Moves d s t) : Moves d s t.lampDone := (h.lamp _).bayKept _
theorem lampFinish (h : Moves d s t) : Moves d s t.lampFinish := ite h.lampDone.lampClosing h.lampDone

theorem lampTurn (n : Nat) : ∀ {t : State} (_ : Moves d s t) {g : Nat}, Moves d s (t.lampTurn n g) := by
  induction n with
  | zero => exact fun h => h.lampFinish
  | succ n ih =>
    exact fun h => ite h.lampFinish (ite (ih (h.lamp _).lampResult) (ite (ih (h.lamp _).lampResult) (h.lamp _).lampSequence))

theorem lampGroupTurn (h : Moves d s t) {g : Nat} : Moves d s (t.lampGroupTurn g) := lampTurn 17 h
theorem lampNext (h : Moves d s t) {r : LampResult} {i : Option Int} : Moves d s (t.lampNext r i) := h.lampResult.lampGroupTurn
theorem lampRepeat (h : Moves d s t) : Moves d s t.lampRepeat := ite h.lampNext h.lampSequence
theorem lampSpoil (h : Moves d s t) : Moves d s t.lampSpoil := ite ((h.lamp _).lamp _) (h.lamp _).lampRepeat
theorem lampDecrease (h : Moves d s t) : Moves d s t.lampDecrease := ite h.lampSpoil h
theorem lampOpen (h : Moves d s t) {b : Bool} {k : Nat} : Moves d s (t.lampOpen b k) := h.lamp _

theorem lampCut (n : Nat) : ∀ {t : State} (_ : Moves d s t) {g : Nat}, Moves d s (t.lampCut n g) := by
  induction n with
  | zero => exact fun h => h.lampDone
  | succ n ih => exact fun h => ite h.lampDone (ih h.lampResult)

theorem lampClosed (h : Moves d s t) {e : Ending} : Moves d s (t.lampClosed e) := by
  unfold State.lampClosed
  split
  · exact h.lamp _
  · exact h.lamp _
  · exact h.lamp _
  · exact ite h.lampClosing (h.lamp _)

theorem lampAnswered (h : Moves d s t) {k : ReqKind} {g : Nat} {e : Ending} : Moves d s (t.lampAnswered k g e) := by
  unfold State.lampAnswered; dsimp only
  split
  · exact h.lamp _
  · exact ite (h.lamp _).lampRepeat (h.lamp _).lampAsk
  · exact lampCut 17 (h.lamp _)
  · exact (h.lamp _).lampNext
  · exact ite ((h.lamp _).lamp _).lampRepeat (ite ((h.lamp _).lamp _).lampOpen ((h.lamp _).lamp _).lampGroupOn)
  · exact ite ((h.lamp _).lamp _).lampRepeat ((h.lamp _).lamp _).lampOpen

theorem lampOutcome (h : Moves d s t) {r : Request} {w : Bool} {e : Ending} : Moves d s (t.lampOutcome r w e) :=
  ite (ite (h.lamp _) h) (ite h.lampClosed (ite h.lampAnswered h))

theorem lampEnd (h : Moves d s t) {x : LampState} {dark : Bool} : Moves d s (t.lampEnd x dark) :=
  ite ((h.lampWithdraw.lamp _).bayKept _).lampClosing ((h.lampWithdraw.lamp _).bayKept _)

theorem lampWait (h : Moves d s t) : Moves d s t.lampWait := by unfold State.lampWait; exact h.lamp _
theorem lampMatched (h : Moves d s t) : Moves d s t.lampMatched := ite h.lampWait h
theorem lampOwed (h : Moves d s t) : Moves d s t.lampOwed := ite h.lampWait h
theorem lampHeadChange (h : Moves d s t) : Moves d s t.lampHeadChange := ite h h.lampEnd
theorem lampPhaseLost (h : Moves d s t) : Moves d s t.lampPhaseLost := ite h h.lampEnd

theorem lampUnplugged (h : Moves d s t) : Moves d s t.lampUnplugged := by
  unfold State.lampUnplugged; dsimp only
  refine Moves.lamp ?_ _
  split
  · exact h.lampEnd
  · exact h.lampEnd
  · exact h.lampEnd
  · exact h.lampEnd
  · exact h.lampEnd
  · exact h
  · exact h

theorem lampSuspend (h : Moves d s t) : Moves d s t.lampSuspend := ite (h.lampWithdraw.lamp _) h

theorem lampIdentified (h : Moves d s t) : Moves d s t.lampIdentified :=
  ite (ite (ite h.lampSequence h) (ite h.lampHeadChange.lampWait h.lampHeadChange)) h

theorem lampRevised (h : Moves d s t) {a b : PlanData} : Moves d s (t.lampRevised a b) := by
  unfold State.lampRevised; dsimp only
  exact ite h.lampEnd.lampWait (ite (ite (h.lampEnd.lamp _) (ite (h.lamp _) h)) (ite h.lampWait h))

theorem lampRerun (h : Moves d s t) : Moves d s t.lampRerun := h.lampEnd.lampWait

theorem lampRecheck (h : Moves d s t) : Moves d s t.lampRecheck :=
  ite h (ite h (ite (ite h h.lampRerun) (ite (h.lamp _) h)))

theorem lampStart (h : Moves d s t) : Moves d s t.lampStart := ((h.lamp _).bayKept _).lampGroupTurn

theorem lampTake (h : Moves d s t) {b : Bool} {xs : List Nat} : Moves d s (t.lampTake b xs).2 := by
  obtain e | ⟨w, e⟩ := lampTake_state t b xs <;> rw [e]
  · exact h
  · exact h.lamp _

theorem baselineClosed (h : Moves d s t) {xs : List Nat} : Moves d s (t.baselineClosed xs) :=
  ite h.lampSpoil (h.lamp _).lampGroupOn

theorem groupClosed (h : Moves d s t) {xs : List Nat} : Moves d s (t.groupClosed xs) := by
  unfold State.groupClosed; dsimp only
  split
  · exact (h.lamp _).lampNext
  · exact ((h.lamp _).lamp _).lampSequence

/-! ### BAY -/

theorem startLatchCheck (h : Moves d s t) : Moves d s t.startLatchCheck := h.bayKept _
theorem openLatch (h : Moves d s t) : Moves d s t.openLatch := ite (h.bayKept _) (h.bayKept _)

theorem closeLatch (h : Moves d s t) : Moves d s t.closeLatch := by
  unfold State.closeLatch; exact ite (h.bayKept _) (h.bayKept _).startLatchCheck

theorem latchOpenOrder (h : Moves d s t) : Moves d s t.latchOpenOrder := (h.bayKept _).openLatch

theorem latchCloseOrder (h : Moves d s t) : Moves d s t.latchCloseOrder := by
  unfold State.latchCloseOrder; exact ite (h.bayKept _).closeLatch (h.bayKept _)

theorem latchHeadChange (h : Moves d s t) : Moves d s t.latchHeadChange := ite h.latchCloseOrder h

theorem latchInserted (h : Moves d s t) : Moves d s t.latchInserted := by
  unfold State.latchInserted; dsimp only
  exact ite (ite (ite (h.bayKept _) h).startLatchCheck (ite (h.bayKept _) h)) (ite (h.bayKept _).openLatch (h.bayKept _))

theorem latchContact (h : Moves d s t) : Moves d s t.latchContact := ite (h.bayKept _) (ite (h.bayKept _) h)

end Moves

end Sys2Proof.Machine
end

