-- ==== Sys2Proof/Proofs/MoveOps2.lean ====
section
namespace Sys2Proof.Machine

-- The many short proofs below are elaborated one at a time: each in a thread of its own, they exhaust the memory limit.
set_option Elab.async false

/-! ## The operations of the blocks as chains of moves: HEAT, the reader, the link -/

/-! ### The forms of HEAT's operations that a chain needs -/

theorem holdRequest_range (tt out : Int) (u w m : Nat) : 1 ≤ holdRequest tt out u w m ∧ holdRequest tt out u w m ≤ max m 1 :=
  stageFigure_range _ _

theorem holdNow_range (s : State) : 1 ≤ s.holdNow ∧ s.holdNow ≤ max s.heat.stageMax 1 := by
  unfold State.holdNow; split
  · exact holdRequest_range _ _ _ _ _
  · omega

theorem beginRun_form (s : State) : ∃ r, s.beginRun = s.updHeat fun x => { x with run := r } := by
  unfold State.beginRun; (repeat' split) <;> exact ⟨_, rfl⟩

/-- A write to the learned table keeps its limits (R65). -/
theorem learn_bounds (es : List Learned) (coach old meas now : Nat)
    (h : es.length ≤ 16 ∧ (es.map Learned.coach).Nodup ∧
      ∀ e ∈ es, 100 ≤ e.capacity ∧ e.capacity ≤ 4000 ∧ 1 ≤ e.runs ∧ e.runs ≤ 255) :
    (learn es coach old meas now).length ≤ 16 ∧ ((learn es coach old meas now).map Learned.coach).Nodup ∧
      ∀ e ∈ learn es coach old meas now, 100 ≤ e.capacity ∧ e.capacity ≤ 4000 ∧ 1 ≤ e.runs ∧ e.runs ≤ 255 := by
  obtain ⟨hl, hn, he⟩ := h
  have cap (o : Nat) : 100 ≤ clampNat 100 4000 o ∧ clampNat 100 4000 o ≤ 4000 := by
    unfold clampNat; (repeat' split) <;> omega
  have appended (xs : List Learned) (o : Nat) (hs : xs.Sublist es) (hlen : xs.length < 16)
      (hc : ∀ x ∈ xs, x.coach ≠ coach) :
      (xs ++ [({ coach := coach, capacity := clampNat 100 4000 o, runs := 1, lastUsed := now } : Learned)]).length ≤ 16 ∧
      ((xs ++ [({ coach := coach, capacity := clampNat 100 4000 o, runs := 1, lastUsed := now } : Learned)]).map
        Learned.coach).Nodup ∧
      ∀ e ∈ xs ++ [({ coach := coach, capacity := clampNat 100 4000 o, runs := 1, lastUsed := now } : Learned)],
        100 ≤ e.capacity ∧ e.capacity ≤ 4000 ∧ 1 ≤ e.runs ∧ e.runs ≤ 255 := by
    refine ⟨by rw [List.length_append, List.length_singleton]; omega, ?_, ?_⟩
    · rw [List.map_append, List.nodup_append]
      refine ⟨(hs.map _).nodup hn, by simp, fun a ha b hb => ?_⟩
      obtain ⟨x, hx, rfl⟩ := List.mem_map.1 ha
      simp only [List.map_cons, List.map_nil, List.mem_singleton] at hb
      exact fun e => hc x hx (e.trans hb)
    · intro e hm
      rcases List.mem_append.1 hm with hm | hm
      · exact he e (hs.subset hm)
      · obtain rfl := List.mem_singleton.1 hm
        exact ⟨(cap o).1, (cap o).2, Nat.le_refl 1, show 1 ≤ 255 by omega⟩
  unfold learn; dsimp only
  split
  · refine ⟨by rw [List.length_map]; exact hl, ?_, ?_⟩
    · have : (es.map fun e => if e.coach = coach then
          ({ e with capacity := clampNat 100 4000 ((3 * e.capacity + meas + 2) / 4), runs := min (e.runs + 1) 255,
                    lastUsed := now } : Learned) else e).map Learned.coach = es.map Learned.coach := by
        rw [List.map_map]
        exact List.map_congr_left fun e _ => by simp only [Function.comp]; split <;> rfl
      rw [this]; exact hn
    · intro e hm
      obtain ⟨x, hx, rfl⟩ := List.mem_map.1 hm
      obtain ⟨h1, h2, h3, h4⟩ := he x hx
      split
      · exact ⟨(cap _).1, (cap _).2, by dsimp only; omega, by dsimp only; omega⟩
      · exact ⟨h1, h2, h3, h4⟩
  · rename_i hany
    have hnew : ∀ x ∈ es, x.coach ≠ coach := fun x hx e => hany (List.any_eq_true.2 ⟨x, hx, by simpa using e⟩)
    split
    · exact appended es _ (List.Sublist.refl _) (by assumption) hnew
    · rename_i hfull
      split
      · rename_i o ho
        have hm : o ∈ es := by
          have mem : ∀ (ys : List Learned) (o : Learned), oldestLearned ys = some o → o ∈ ys := by
            intro ys
            induction ys with
            | nil => intro o h; cases h
            | cons y ys ih =>
              intro o h
              unfold oldestLearned at h
              cases hy : oldestLearned ys with
              | none => rw [hy] at h; cases h; exact List.mem_cons_self
              | some z =>
                rw [hy] at h; dsimp only at h
                split at h <;> cases h
                · exact List.mem_cons_of_mem _ (ih _ hy)
                · exact List.mem_cons_self
          exact mem es o ho
        have hlt : (es.filter fun x => x.coach != o.coach).length < es.length := by
          rw [List.length_filter_lt_length_iff_exists]; exact ⟨o, hm, by simp⟩
        exact appended _ _ List.filter_sublist (by omega) fun x hx => hnew x (List.mem_of_mem_filter hx)
      · exact appended [] _ (List.nil_sublist _) (by simp) (by simp)

theorem count_lt_target {s : State} (h : s.heat.count < s.stageTarget) :
    s.heat.count + 1 ≤ s.share.grant ∧ s.heat.state.drawing = true := by
  unfold State.stageTarget at h
  split at h
  · exact ⟨by omega, by assumption⟩
  · omega

theorem riseOpen_target {s : State} (h : s.riseOpen = true) : s.heat.count < s.stageTarget := by
  simp only [State.riseOpen, Bool.and_eq_true, decide_eq_true_eq] at h
  exact h.1.1

theorem heatAllowed_operating {s : State} (h : s.heatAllowed = true) : s.operating = true := by
  simp only [State.heatAllowed, Bool.and_eq_true] at h
  exact h.1.2

theorem waitedRise_open {s : State} (h : s.waitedRise = true) : s.riseOpen = true := by
  unfold State.waitedRise at h
  split at h
  · exact h
  · simp only [Bool.and_eq_true] at h; exact h.1.1.2
  · cases h

theorem riseDue_open {s : State} (h : s.riseDue = true) : s.riseOpen = true := by
  simp only [State.riseDue, Bool.and_eq_true] at h
  exact h.1.2

variable {d : Prop} {s t : State}

namespace Moves

/-! ### HEAT -/

theorem setCount (h : Moves d s t) {n : Nat} (hn : n ≤ t.heat.count ∨ n ≤ t.share.grant ∧ t.heat.state.drawing = true) :
    Moves d s (t.setCount n) :=
  ite h (ite (h.putCount n hn).lampDecrease (h.putCount n hn))

theorem capCount (h : Moves d s t) {n : Nat} : Moves d s (t.capCount n) := by
  unfold State.capCount; split
  · exact h.setCount (.inl (by omega))
  · exact h

theorem figures (h : Moves d s t) (f : Heat → Heat)
    (hf : ∀ x, (f x).count = x.count ∧ (f x).state = x.state ∧ (f x).learned = x.learned)
    (hb : t.FigureBounds → (t.updHeat f).FigureBounds) : Moves d s (t.updHeat f) := by
  obtain ⟨h1, h2, h3⟩ := hf t.heat
  refine h.heat f ⟨h1, fun e => .inl (h2 ▸ e), fun e => .inl (h2 ▸ e), fun e => .inl (h2 ▸ e), hb, fun hl => ?_⟩
  simpa only [State.LearnedBounds, h3] using hl

theorem takeFigures (h : Moves d s t) : Moves d s t.takeFigures := by
  unfold State.takeFigures; split
  · exact h
  · apply Moves.capCount
    apply h.figures
    · exact fun _ => ⟨rfl, rfl, rfl⟩
    intro _
    simp only [State.FigureBounds, updHeat_heat]
    exact ⟨(stageFigure_range _ _).1, (stageFigure_range _ _).2, (stageFigure_range _ _).1, (stageFigure_range _ _).2⟩

theorem endRun (h : Moves d s t) : Moves d s t.endRun := by
  unfold State.endRun; split
  · dsimp only; split
    · refine (h.heatKept _).heat _ ⟨rfl, .inl, .inl, .inl, id, fun hl => ?_⟩
      exact learn_bounds _ _ _ _ _ hl
    · exact h.heatKept _
  · exact h.heatKept _

theorem beginRun (h : Moves d s t) : Moves d s t.beginRun := by
  obtain ⟨r, e⟩ := beginRun_form t
  rw [e]; exact h.heatKept _

/-- What follows when HEAT has left its state: the demand withdrawn, HEATER DISABLE placed (R80, R50). -/
theorem heatLeft (h : Moves d s t) (b : Bool) :
    Moves d s (if b then (if t.share.announced then t.withdrawDemand else t).heatPlace .heaterDisable
      else if t.share.announced then t.withdrawDemand else t) :=
  ite (ite h.withdrawDemand h).heatPlace (ite h.withdrawDemand h)

/-- HEAT leaves for a state that draws nothing. -/
theorem heatLeaveFor (h : Moves d s t) {n : HeatState} (hd : n.drawing = false)
    (hc : n.computing = true → t.heat.state.computing = true) : Moves d s (t.heatLeave n) := by
  have h1 : Moves d s (t.setCount 0) := h.setCount (.inl (Nat.zero_le _))
  have h2 := h1.heatState
    (fun h => { h with state := n, run := none, waiting := none, blindEnd := none, drawingSince := none })
    (fun e => by simp [hd] at e) (fun _ => .inr (setCount_count t 0))
    (fun e => .inl (by rw [setCount_heatState]; exact hc e))
  have h3 := h2.bay (fun b => { b with heatWatch := none }) rfl (.inr ⟨.inr hd, rfl, rfl⟩)
  exact heatLeft (ite (c := n.computing = true) h3 (h3.share (fun x => { x with ranking := none }) rfl)) _

theorem heatLeave (h : Moves d s t) {n : HeatState} (hn : n.computing = false := by rfl) : Moves d s (t.heatLeave n) :=
  h.heatLeaveFor (Bool.eq_false_iff.2 fun e => by rw [drawing_computing e] at hn; cases hn) fun e => by rw [hn] at e; cases e

theorem heatOff (h : Moves d s t) : Moves d s t.heatOff := ite h.heatLeave h

theorem heatHeadChange (h : Moves d s t) : Moves d s t.heatHeadChange := by
  unfold State.heatHeadChange; exact ((ite h h.heatLeave).heatKept _).share _ rfl

theorem heatRestart (h : Moves d s t) : Moves d s t.heatRestart := by
  unfold State.heatRestart; exact (ite h h.heatLeave).heatKept _

theorem heatRematch (h : Moves d s t) : Moves d s t.heatRematch := ite h.heatLeave h
theorem heatDisturbed (h : Moves d s t) : Moves d s t.heatDisturbed := h.heatLeave.writeFault
theorem heatJudged (h : Moves d s t) : Moves d s t.heatJudged := ite h.heatLeave h

/-- The stages of a proving failure are open before HEAT leaves its state. -/
theorem provingFailure (h : Moves d s t) : Moves d s t.provingFailure := by
  unfold State.provingFailure; dsimp only
  generalize hv : ((t.updBay fun b => { b with provingFailed := true, contactors := 0 }).writeFault bay02 .advisory) = v
  have hcount : v.heat.count = t.heat.count := by rw [← hv]; rfl
  have hf : t.failProving = if 0 = t.heat.count then v else v.putCount 0 := by rw [← hv]; rfl
  have h0 : Moves d s (v.setCount 0) := by
    have hm := h.failProving
    rw [hf] at hm
    obtain ⟨hz, e⟩ | ⟨hz, u, hu, e⟩ := setCount_spec v 0
    · rw [e]; rwa [if_pos (hz.trans hcount)] at hm
    · rw [if_neg (by rw [← hcount]; exact hz)] at hm
      rw [e]
      exact ite (Moves.lampDecrease (hu ▸ hm)) (hu ▸ hm)
  have h2 := h0.heatState
    (fun h => { h with state := .stopped, run := none, waiting := none, blindEnd := none, drawingSince := none })
    nofun (fun _ => .inr (setCount_count v 0)) nofun
  have h3 := h2.bay (fun b => { b with heatWatch := none }) rfl (.inr ⟨.inr rfl, rfl, rfl⟩)
  exact heatLeft
    (ite (c := HeatState.stopped.computing = true) h3 (h3.share (fun x => { x with ranking := none }) rfl)) _

theorem judgeProving (h : Moves d s t) : Moves d s t.judgeProving := ite (h.bayKept _) (ite h h.provingFailure)

theorem enterHolding (h : Moves d s t) (hd : t.heat.state.drawing = true) : Moves d s t.enterHolding := by
  unfold State.enterHolding; dsimp only
  refine Moves.capCount (Moves.share (h.heat _ ⟨rfl, fun _ => .inl hd, fun _ => .inl rfl,
    fun _ => .inl (drawing_computing hd), fun hb => ?_, id⟩) _ rfl)
  exact ⟨(holdNow_range t).1, (holdNow_range t).2, hb.2.2⟩

theorem riseOne (h : Moves d s t) (hr : t.heat.count < t.stageTarget) : Moves d s t.riseOne :=
  (h.setCount (.inr (count_lt_target hr))).heatKept _

theorem regulate (h : Moves d s t) {x : Int} : Moves d s (t.regulate x) := by
  unfold State.regulate; dsimp only
  split
  · exact (h.heatKept _).setCount (.inl (by simp))
  · split
    · rename_i hr
      split
      · exact (h.heatKept _).heatKept _
      · exact h.riseOne hr.2.1
    · exact h.heatKept _

theorem heatReading (h : Moves d s t) {x : Int} : Moves d s (t.heatReading x) := by
  unfold State.heatReading; dsimp only
  have hu := h.heatKept fun h => { h with reading := some { temp := x, time := t.now, coach := t.coachId }, compute := true }
  have endRun_state (u : State) : u.endRun.heat.state = u.heat.state := by
    unfold State.endRun
    split
    · dsimp only; split <;> rfl
    · rfl
  split
  · rename_i hs
    split
    · exact hu.endRun.enterHolding (by rw [endRun_state, updHeat_heat, hs]; rfl)
    · exact hu
  · exact hu.regulate
  · rename_i hs
    split
    · exact hu.enterHolding (by rw [updHeat_heat, hs]; rfl)
    · refine Moves.beginRun (hu.heatState _ (fun _ => .inl ?_) (fun _ => .inl rfl) fun _ => .inl ?_)
      · rw [updHeat_heat, hs]; rfl
      · rw [updHeat_heat, hs]; rfl
  · exact hu
  · exact hu
  · exact hu
  · exact hu

theorem enterBlind (h : Moves d s t) (hd : t.heat.state.drawing = true) : Moves d s t.enterBlind := by
  refine h.heat _ ⟨rfl, fun _ => .inl hd, fun _ => .inl rfl, fun _ => .inl (drawing_computing hd), fun hb => ?_, id⟩
  exact ⟨hb.1, hb.2.1, (stageFigure_range _ _).1, (stageFigure_range _ _).2⟩

theorem pollCabin (h : Moves d s t) : Moves d s t.pollCabin := ite h h.heatPlace

theorem offerKept (h : Moves d s t) : Moves d s t.offerKept := foldl (fun h _ => h.heatPlace) _ (h.heatKept _)

theorem heatAnswered (h : Moves d s t) {k : ReqKind} {e : Ending} : Moves d s (t.heatAnswered k e) := by
  unfold State.heatAnswered; split
  · exact ite h.heatReading h
  · exact h.heatKept _
  · exact h.heatLeave.writeFault
  · exact h.heatKept _
  · exact h

theorem heatOutcome (h : Moves d s t) {k : ReqKind} {e : Ending} : Moves d s (t.heatOutcome k e) := h.heatAnswered.offerKept
theorem heatLinkLost (h : Moves d s t) {b : Bool} : Moves d s (t.heatLinkLost b) := h.heatKept _
theorem heatUnplugged (h : Moves d s t) : Moves d s t.heatUnplugged := h.heatKept _

theorem heatIdentified (h : Moves d s t) {i m : Nat} {b : Bool} : Moves d s (t.heatIdentified i m b) := by
  unfold State.heatIdentified; dsimp only
  have h1 := (h.heatKept fun h =>
    { h with coachMax := some m, enableHeld := false,
             reading := match h.reading with
               | some r => if r.coach = some i then some r else none
               | none => none,
             pollDue := t.after Config.cabinPoll }).takeFigures
  exact Moves.pollCabin (ite h1.heatLeave h1)

theorem computeFigures (h : Moves d s t) {p : Plan} : Moves d s (t.computeFigures p) := by
  unfold State.computeFigures; exact ite (h.heatKept _).writeFault (h.heatKept _)

theorem takeSlack (h : Moves d s t) : Moves d s t.takeSlack := h.share _ rfl

theorem moveBySlack (h : Moves d s t) : Moves d s t.moveBySlack := by
  unfold State.moveBySlack; split
  · rename_i hs
    split
    · exact h.heatState _ nofun (fun e => by rw [hs] at e; cases e) fun _ => .inl (by rw [hs]; rfl)
    · exact h
  · rename_i hs
    exact ite (h.heatLeaveFor rfl fun _ => by rw [hs]; rfl) h
  · apply Moves.capCount
    apply h.figures
    · exact fun _ => ⟨rfl, rfl, rfl⟩
    intro hb
    simp only [State.FigureBounds, updHeat_heat]
    exact ⟨(holdNow_range t).1, (holdNow_range t).2, hb.2.2⟩
  · exact h
  · exact h
  · exact h
  · exact h

theorem compute (h : Moves d s t) : Moves d s t.compute := by
  unfold State.compute; split
  · exact ite h.computeFigures.takeSlack.moveBySlack (h.heatKept _)
  · exact h.heatKept _

theorem setGrant (h : Moves d s t) {g : Nat} : Moves d s (t.setGrant g) := by
  refine Moves.heatKept ?_ _
  have hp := h.putGrant g
  unfold State.putGrant at hp; dsimp only at hp
  unfold State.capCount
  split
  · rename_i hg
    rw [updShare_heat] at hg
    rw [if_pos hg] at hp
    obtain ⟨e, -⟩ | ⟨-, u, hu, e⟩ := setCount_spec (t.updShare fun x => { x with grant := g }) g
    · exact absurd hg (by rw [e]; exact Nat.lt_irrefl _)
    · rw [e]; exact ite (Moves.lampDecrease (hu ▸ hp)) (hu ▸ hp)
  · rename_i hg
    rw [updShare_heat] at hg
    rw [if_neg hg] at hp
    exact hp

theorem regrant (h : Moves d s t) : Moves d s t.regrant := by
  unfold State.regrant; dsimp only
  exact ite (h.share _ rfl).setGrant (ite ((h.share _ rfl).free _).setGrant ((h.share _ rfl).free _))

theorem heatSchedule (h : Moves d s t) (hd : d) (ha : t.heat.state = .off) (ho : t.heatAllowed = true) :
    Moves d s t.heatSchedule := by
  refine Moves.share (h.heat _ ⟨rfl, fun e => (by cases e), fun e => (by rw [ha] at e; cases e),
    fun _ => .inr ⟨heatAllowed_operating ho, hd⟩, id, fun hl => ?_⟩) _ rfl
  obtain ⟨h1, h2, h3⟩ := hl
  refine ⟨by simpa using h1, ?_, fun e he => ?_⟩
  · have : (t.heat.learned.map fun e => if some e.coach = t.head.map (·.data.coach) then { e with lastUsed := t.now } else e).map
        Learned.coach = t.heat.learned.map Learned.coach := by
      rw [List.map_map]
      exact List.map_congr_left fun e _ => by simp only [Function.comp]; split <;> rfl
    dsimp only; rw [this]; exact h2
  · obtain ⟨x, hx, rfl⟩ := List.mem_map.1 he
    have := h3 x hx
    split <;> exact this

theorem heatDraw (h : Moves d s t) (hd : d) (hdue : t.drawDue = true) : Moves d s t.heatDraw := by
  simp only [State.drawDue, Bool.and_eq_true, beq_iff_eq, decide_eq_true_eq] at hdue
  obtain ⟨⟨⟨⟨ha, hg⟩, -⟩, -⟩, -⟩ := hdue
  have hcomp : t.heat.state.computing = true := by rw [ha]; rfl
  have hnot : t.heat.state.drawing = true → ∀ {p : Prop}, p := fun e => by rw [ha] at e; cases e
  unfold State.heatDraw; dsimp only
  generalize hv : (if t.cabin < t.target then (t.updHeat fun h => { h with state := .heating }).beginRun
    else t.updHeat fun h => { h with state := .holding, holdRequest := t.holdNow }) = v
  have h1 : Moves d s v ∧ v.heat.state.drawing = true ∧ v.share.grant = t.share.grant := by
    rw [← hv]; split
    · obtain ⟨r, e⟩ := beginRun_form (t.updHeat fun h => { h with state := .heating })
      refine ⟨Moves.beginRun (h.heatState _ (fun _ => .inr hd) (fun e => hnot e) fun _ => .inl hcomp), ?_⟩
      rw [e]; exact ⟨rfl, rfl⟩
    · refine ⟨h.heat _ ⟨rfl, fun _ => .inr hd, fun e => hnot e, fun _ => .inl hcomp, fun hb => ?_, id⟩, rfl, rfl⟩
      exact ⟨(holdNow_range t).1, (holdNow_range t).2, hb.2.2⟩
  obtain ⟨hm, hdraw, hgrant⟩ := h1
  have h2 := hm.heatKept fun h => { h with drawingSince := some t.now }
  have h3 := ite (c := v.lamp.window.isSome = true) (h2.heatKept fun h => { h with waiting := some .first })
    (h2.setCount (n := 1) (.inr ⟨by rw [updHeat_share, hgrant]; exact hg, hdraw⟩))
  rw [updHeat_lamp]
  revert h3
  generalize (if v.lamp.window.isSome = true then _ else _ : State) = u
  intro h3
  have h4 := h3.bay (fun b => { b with
    heatWatch := some (u.newWatch [(.plugLatched, true), (.coachPresent, true)]) }) rfl (.inl hd)
  exact ite h4 h4.heatDisturbed

/-! ### The reader -/

theorem faultAsk (h : Moves d s t) {k : ReqKind} {i : Nat} : Moves d s (t.faultAsk k i) := h.place
theorem beginPass (h : Moves d s t) : Moves d s t.beginPass := (h.faultsKept _).faultAsk

theorem beginRead (h : Moves d s t) {k : ReadKind} : Moves d s (t.beginRead k) := by
  unfold State.beginRead; exact ((ite h h.holdSummary).faultsKept _).beginPass

theorem readerPlace (n : Nat) : ∀ {t : State} (_ : Moves d s t), Moves d s (State.readerPlace n t) := by
  induction n with
  | zero => exact fun h => h
  | succ n ih => exact fun h => ite (ite (h.faultsKept _) (ite (ih (h.faultAsk.faultsKept _)) h)) h

theorem reportRead (h : Moves d s t) {b : Bool} : Moves d s (t.reportRead b) := ite (h.faultsKept _) h

theorem takePass (h : Moves d s t) : Moves d s t.takePass := (foldl writeCoachFault _ h).clearPresent.clearKey

theorem endPass (h : Moves d s t) : Moves d s t.endPass :=
  ite (ite (h.faultsKept _).beginPass (h.faultsKept _).writeFault.releaseSummary.reportRead)
    (h.takePass.faultsKept _).releaseSummary.reportRead

theorem spoilPass (h : Moves d s t) : Moves d s t.spoilPass := h.faultsKept _
theorem afterRecord (h : Moves d s t) {i : Nat} : Moves d s (t.afterRecord i) := ite h.endPass (readerPlace 4 h)

theorem readerOutcome (h : Moves d s t) {r : Request} {w : Bool} {e : Ending} : Moves d s (t.readerOutcome r w e) := by
  unfold State.readerOutcome; split
  · exact ite (readerPlace 4 h) h
  · split
    · exact ite (h.faultsKept _).endPass (readerPlace 4 ((h.faultsKept _).faultsKept _))
    · exact h.spoilPass.endPass
    · exact h.spoilPass.endPass
    · split
      · exact (h.faultsKept _).afterRecord
      · exact h.spoilPass.afterRecord
    · exact h.spoilPass.afterRecord
    · exact h.spoilPass.afterRecord
    · exact readerPlace 4 h
    · exact h

theorem readerLinkLost (h : Moves d s t) : Moves d s t.readerLinkLost :=
  ite (h.faultsKept _).releaseSummary.reportRead h

theorem readerUnplugged (h : Moves d s t) : Moves d s t.readerUnplugged := h.readerLinkLost.faultsKept _

theorem finalReadOrder (h : Moves d s t) : Moves d s t.finalReadOrder :=
  ite (ite h.withdraw.beginRead h.beginRead) (h.faultsKept _)

/-! ### The link -/

theorem deliver (h : Moves d s t) {r : Request} {w : Bool} {e : Ending} : Moves d s (t.deliver r w e) := by
  unfold State.deliver; split
  · exact h
  · exact h.heatOutcome
  · exact h.lampOutcome
  · exact h.readerOutcome

/-- The queue emptied, the exchange as it was. -/
theorem linkEmptied (h : Moves d s t) (f : Link → Link) (hq : (f t.link).queue = [])
    (hx : ∀ y, (f t.link).exchange = some y → ∃ x, t.link.exchange = some x ∧ x.req.job = y.req.job) :
    Moves d s (t.updLink f) := h.linkSub f (hq ▸ List.nil_sublist _) hx

theorem purge (h : Moves d s t) : Moves d s t.purge :=
  foldl (fun h _ => h.deliver) _ (h.linkEmptied _ rfl fun y hy => ⟨y, hy, rfl⟩)

theorem selectClass (h : Moves d s t) : Moves d s t.selectClass := by
  unfold State.selectClass; split
  · exact h
  · exact ite (h.linkKept _) (h.linkKept _).writeFault

theorem linkLeft (h : Moves d s t) {b : Bool} : Moves d s (t.linkLeft b) := h.heatLinkLost.lampSuspend
theorem linkDown (h : Moves d s t) : Moves d s t.linkDown := h.linkKept _
theorem linkHalted (h : Moves d s t) : Moves d s t.linkHalted := (h.linkKept _).readerLinkLost

theorem linkHalt (h : Moves d s t) : Moves d s t.linkHalt := by
  unfold State.linkHalt; split
  · have h1 := (h.linkKept fun l => { l with state := .halting }).linkLeft (b := false) |>.purge
    exact ite h1 h1.linkHalted
  · have h1 := h.linkEmptied (fun l =>
      { l with wakeDue := none, queue := [], state := .halting,
               exchange := l.exchange.map fun x => { x with withdrawn := true } }) rfl fun y hy => by
        obtain ⟨x, hx, rfl⟩ := Option.map_eq_some_iff.1 hy
        exact ⟨x, hx, rfl⟩
    exact ite h1 h1.linkHalted
  · exact (h.linkKept _).linkHalted
  · exact h
  · exact h

theorem linkLost (h : Moves d s t) : Moves d s t.linkLost := by
  unfold State.linkLost
  exact h.linkDown.writeFault.purge.linkLeft.readerLinkLost.linkKept _

theorem identify (h : Moves d s t) : Moves d s t.identify := h.place
theorem wake (h : Moves d s t) : Moves d s t.wake := ((h.linkKept _).startKept _).identify
theorem linkResume (h : Moves d s t) : Moves d s t.linkResume := ite (h.linkKept _) h

end Moves

end Sys2Proof.Machine
end

