-- ==== Sys2Proof/Proofs/MoveOps3.lean ====
section
namespace Sys2Proof.Machine

-- The many short proofs below are elaborated one at a time: each in a thread of its own, they exhaust the memory limit.
set_option Elab.async false

/-! ## The operations of the blocks as chains of moves: DEPART, PLANS, VIEW, the coach, LINE, START -/

/-! ### The plan list's limits (R2, R3, R9) -/

/-- `PlanBounds` of a list of records. -/
def PlansOk (ps : List Plan) : Prop :=
  ps.length ≤ 4 ∧ (ps.map fun p => p.data.id).Nodup ∧
    ∀ p ∈ ps, ∀ d, p.held = some (.revision d) → d.id = p.data.id

theorem planBounds_iff (s : State) : s.PlanBounds ↔ PlansOk s.plans.list := Iff.rfl

theorem insertPlan_perm (p : Plan) (ps : List Plan) : (insertPlan p ps).Perm (p :: ps) := by
  induction ps with
  | nil => exact .refl _
  | cons q qs ih =>
    unfold insertPlan; split
    · exact .refl _
    · exact (ih.cons q).trans (.swap p q qs)

theorem sortPlans_perm (ps : List Plan) : (sortPlans ps).Perm ps := by
  induction ps with
  | nil => exact .refl _
  | cons p ps ih => exact (insertPlan_perm p _).trans (ih.cons p)

theorem orderPlans_perm (ps : List Plan) : (orderPlans ps).Perm ps := by
  unfold orderPlans
  split
  · exact .refl _
  · split
    · exact (sortPlans_perm _).cons _
    · exact sortPlans_perm _

theorem PlansOk.perm {ps qs : List Plan} (h : PlansOk ps) (e : qs.Perm ps) : PlansOk qs :=
  ⟨e.length_eq ▸ h.1, (e.map _).nodup_iff.2 h.2.1, fun p hp => h.2.2 p (e.subset hp)⟩

theorem PlansOk.sublist {ps qs : List Plan} (h : PlansOk ps) (e : qs.Sublist ps) : PlansOk qs :=
  ⟨e.length_le.trans h.1, (e.map _).nodup h.2.1, fun p hp => h.2.2 p (e.subset hp)⟩

/-- Records changed in place, each keeping its departure. -/
theorem PlansOk.map {ps : List Plan} {f : Plan → Plan} (h : PlansOk ps) (hid : ∀ p ∈ ps, (f p).data.id = p.data.id)
    (hheld : ∀ p ∈ ps, ∀ d, (f p).held = some (.revision d) → d.id = p.data.id) : PlansOk (ps.map f) := by
  refine ⟨by rw [List.length_map]; exact h.1, ?_, fun p hp d hd => ?_⟩
  · rw [List.map_map, List.map_congr_left (g := fun p => p.data.id) hid]
    exact h.2.1
  · obtain ⟨q, hq, rfl⟩ := List.mem_map.1 hp
    rw [hid q hq]; exact hheld q hq d hd

theorem PlansOk.append {ps : List Plan} {d : PlanData} (h : PlansOk ps) (hl : ps.length < 4)
    (hd : ∀ p ∈ ps, p.data.id ≠ d.id) : PlansOk (ps ++ [Plan.fresh d]) := by
  refine ⟨by rw [List.length_append, List.length_singleton]; omega, ?_, fun p hp => ?_⟩
  · rw [List.map_append, List.nodup_append]
    refine ⟨h.2.1, by simp, fun a ha b hb => ?_⟩
    obtain ⟨p, hp, rfl⟩ := List.mem_map.1 ha
    obtain rfl := List.mem_singleton.1 hb
    exact hd p hp
  · rcases List.mem_append.1 hp with hp | hp
    · exact h.2.2 p hp
    · obtain rfl := List.mem_singleton.1 hp
      exact fun _ => nofun

theorem head_mem {s : State} {p : Plan} (h : s.head = some p) : p ∈ s.plans.list := List.mem_of_head? h

theorem mapHead_cons {s : State} {p : Plan} {ps : List Plan} (h : s.plans.list = p :: ps) (f : Plan → Plan) :
    (s.mapHead f).plans.list = f p :: ps := by
  unfold State.mapHead; simp [h]

theorem mapHead_nil {s : State} (h : s.plans.list = []) (f : Plan → Plan) : (s.mapHead f).plans.list = [] := by
  unfold State.mapHead; simp [h]

theorem mapHead_head (s : State) (f : Plan → Plan) : (s.mapHead f).head = s.head.map f := by
  unfold State.head
  cases h : s.plans.list with
  | nil => rw [mapHead_nil h]; rfl
  | cons p ps => rw [mapHead_cons h]; rfl

variable {d : Prop} {s t : State}

namespace Moves

/-! ### DEPART's lane -/

theorem writeHeld (h : Moves d s t) : Moves d s t.writeHeld := h.writeLane.depart _
theorem claimLane (h : Moves d s t) {l : Nat} : Moves d s (t.claimLane l) := h.writeLane.depart _

theorem laneRound (ls : List Nat) : ∀ {t : State} (_ : Moves d s t), Moves d s (State.laneRound ls t) := by
  induction ls with
  | nil => exact fun h => h.depart _
  | cons l ls ih => exact fun h => ite (ih h) (ite (ih (h.depart _)) h.claimLane)

theorem startRound (h : Moves d s t) : Moves d s t.startRound := laneRound _ (h.depart _)
theorem yieldOn (h : Moves d s t) {l : Nat} : Moves d s (t.yieldOn l) := laneRound _ (h.depart _)

theorem judgeAgain (h : Moves d s t) : Moves d s t.judgeAgain := by
  unfold State.judgeAgain; split
  · exact laneRound _ h
  · exact h

theorem lanesLeft (h : Moves d s t) {ls : List Nat} : Moves d s (t.lanesLeft ls) := ite h.startRound h
theorem markLeft (h : Moves d s t) {l : Nat} : Moves d s (t.markLeft l) := ite h.startRound h

theorem giveUpLane (h : Moves d s t) : Moves d s t.giveUpLane := by
  unfold State.giveUpLane; dsimp only
  refine Moves.depart ?_ _
  split
  · exact ite h.writeLane h.emptyLane
  · exact h.writeLane
  · exact h
  · exact h
  · exact h

theorem dropSilent (h : Moves d s t) : Moves d s t.dropSilent := by
  unfold State.dropSilent; exact ((ite h.emptyLane h).lineKept _).depart _

theorem discardWaits (h : Moves d s t) : Moves d s t.discardWaits := (h.depart _).bayKept _

theorem departHeadChange (h : Moves d s t) : Moves d s t.departHeadChange := by
  unfold State.departHeadChange; exact ((ite h h.giveUpLane).depart _).bayKept _

theorem refuse (h : Moves d s t) {r : RefusalReason} : Moves d s (t.refuse r) := h.depart _

/-! ### PLANS -/

/-- A change of the head that keeps its departure. -/
theorem mapHeadOk (h : Moves d s t) {f : Plan → Plan}
    (hf : ∀ p, t.head = some p → t.PlanBounds →
      (f p).data.id = p.data.id ∧ ∀ x, (f p).held = some (.revision x) → x.id = p.data.id) : Moves d s (t.mapHead f) := by
  refine h.plans _ fun _ hb => ?_
  rw [planBounds_iff, updPlans_plans]
  rw [planBounds_iff] at hb
  cases hl : t.plans.list with
  | nil => rw [hl] at hb; exact hb
  | cons p ps =>
    obtain ⟨h1, h2⟩ := hf p (by rw [State.head, hl]; rfl) hb
    rw [hl] at hb
    refine ⟨hb.1, ?_, fun q hq => ?_⟩
    · have := hb.2.1
      simp only [List.map_cons] at this ⊢
      rwa [h1]
    · rcases List.mem_cons.1 hq with rfl | hq
      · rw [h1]; exact h2
      · exact hb.2.2 q (List.mem_cons_of_mem _ hq)

theorem mapHead (h : Moves d s t) {f : Plan → Plan}
    (hf : ∀ p, (f p).data.id = p.data.id ∧ (f p).held = p.held := by exact fun _ => ⟨rfl, rfl⟩) :
    Moves d s (t.mapHead f) :=
  h.mapHeadOk fun p hp hb => ⟨(hf p).1, fun x hx => hb.2.2 p (head_mem hp) x ((hf p).2 ▸ hx)⟩

theorem reorder (h : Moves d s t) : Moves d s t.reorder := h.plans _ fun _ hb => PlansOk.perm hb (orderPlans_perm _)

theorem setPhase (h : Moves d s t) {p : Phase} : Moves d s (t.setPhase p) := by
  unfold State.setPhase; dsimp only; split
  · exact h
  · split
    · split
      · exact h.mapHead.lampPhaseLost.heatJudged
      · exact h.mapHead.lampPhaseLost.heatJudged
      · exact h.mapHead.lampOwed
      · exact h.mapHead
    · split
      · exact (h.mapHead.lampMatched.heatRematch.depart _).selectClass
      · exact h.mapHead

theorem matchCoach (h : Moves d s t) : Moves d s t.matchCoach := by
  unfold State.matchCoach; split
  · exact h
  · rename_i p hp
    split
    · exact h
    · have h1 {k : Phase} : Moves d s (State.setPhase (if p.phase = .wrongCoach then t.clearKey plan01 else t) k) :=
        setPhase (ite h.clearKey h)
      dsimp only
      split
      · exact h1
      · exact ite h1 h.setPhase.writeFault

theorem evalOverdue (h : Moves d s t) : Moves d s t.evalOverdue := by
  unfold State.evalOverdue; split
  · exact ite h.mapHead.clearKey (ite h.mapHead.writeFault.heatOff h)
  · exact h

theorem headChanged (h : Moves d s t) {f : Option Nat} : Moves d s (t.headChanged f) := by
  unfold State.headChanged
  refine ite h (Moves.evalOverdue (Moves.matchCoach (Moves.selectClass (Moves.latchHeadChange (Moves.departHeadChange
    (Moves.lampHeadChange (Moves.takeFigures (Moves.heatHeadChange (Moves.clearKey (Moves.clearKey
      (h.plans _ fun _ hb => ?_)))))))))))
  rw [planBounds_iff, updPlans_plans]
  have hid : ∀ p, (demote f p).data.id = p.data.id := fun p => by unfold demote; split <;> rfl
  refine PlansOk.map hb (fun p _ => hid p) fun p hp x hx => ?_
  unfold demote at hx; split at hx
  · cases hx
  · exact hb.2.2 p hp x hx

theorem removePlan (h : Moves d s t) {i : Nat} : Moves d s (t.removePlan i) := by
  refine headChanged (h.plans _ fun _ hb => ?_)
  rw [planBounds_iff, updPlans_plans]
  exact PlansOk.sublist hb List.filter_sublist

theorem headRevised (h : Moves d s t) {a b : PlanData} : Moves d s (t.headRevised a b) := by
  unfold State.headRevised
  have h1 : Moves d s (State.lampRevised _ a b) := lampRevised (((ite (c := a.cls ≠ b.cls ∨ a.target ≠ b.target)
    (h.heatKept fun h => { h with run := none }) h).takeFigures.heatKept fun h => { h with compute := true }).share
      (fun x => { x with fresh := true }) rfl)
  exact ite h1.selectClass h1

theorem replaceHead (h : Moves d s t) {x : PlanData} (hx : s.PlanBounds → ∀ p, t.head = some p → x.id = p.data.id) :
    Moves d s (t.replaceHead x) := by
  unfold State.replaceHead State.mapHead
  refine h.plans _ fun hs hb => ?_
  rw [planBounds_iff, updPlans_plans]
  rw [planBounds_iff] at hb
  cases hl : t.plans.list with
  | nil => rw [hl] at hb; exact hb
  | cons p ps =>
    have h1 := hx hs p (by rw [State.head, hl]; rfl)
    rw [hl] at hb
    refine ⟨hb.1, ?_, fun q hq => ?_⟩
    · have := hb.2.1
      simp only [List.map_cons] at this ⊢
      rwa [h1]
    · rcases List.mem_cons.1 hq with rfl | hq
      · intro e he; exact (hb.2.2 p List.mem_cons_self e he).trans h1.symm
      · exact hb.2.2 q (List.mem_cons_of_mem _ hq)

theorem revisePinned (h : Moves d s t) {a x : PlanData} (hx : s.PlanBounds → ∀ p, t.head = some p → x.id = p.data.id) :
    Moves d s (t.revisePinned a x) := by
  unfold State.revisePinned
  have h1 := h.replaceHead hx
  have h2 := (h1.mapHead (f := fun h => { h with phase := .waitingCoach })).selectClass.heatHeadChange.lampHeadChange.reorder
  exact ite h1.headRevised.evalOverdue (ite h2.takeFigures.matchCoach.evalOverdue h2.headChanged)

theorem reviseHead (h : Moves d s t) {a x : PlanData} (hx : s.PlanBounds → ∀ p, t.head = some p → x.id = p.data.id) :
    Moves d s (t.reviseHead a x) := by
  unfold State.reviseHead
  have h1 := (h.replaceHead hx).reorder
  exact ite h1.headRevised.matchCoach.evalOverdue h1.headChanged

theorem reviseOther (h : Moves d s t) {x : PlanData} : Moves d s (t.reviseOther x) := by
  refine headChanged (reorder (h.plans _ fun _ hb => ?_))
  rw [planBounds_iff, updPlans_plans]
  refine PlansOk.map hb (fun p _ => ?_) fun p hp e he => ?_
  · split
    · rename_i hi; exact hi.symm
    · rfl
  · split at he <;> exact hb.2.2 p hp e he

theorem applyHeld (h : Moves d s t) : Moves d s t.applyHeld := by
  unfold State.applyHeld; split
  · exact h
  · rename_i p hp
    have h1 : Moves d s (t.mapHead fun x => { x with held := none }) :=
      h.mapHeadOk fun q _ _ => ⟨rfl, fun _ hx => by cases hx⟩
    have hx (x : PlanData) (hd : p.held = some (.revision x)) :
        s.PlanBounds → ∀ q, (t.mapHead fun x => { x with held := none }).head = some q → x.id = q.data.id := by
      intro hs q hq
      rw [mapHead_head, hp] at hq
      cases hq
      exact (h.planBounds hs).2.2 p (head_mem hp) x hd
    dsimp only
    split
    · exact h
    · exact ite (h1.revisePinned (hx _ ‹_›)) (h1.reviseHead (hx _ ‹_›))
    · exact h1.removePlan

theorem unpinHead (h : Moves d s t) {r : Bool} : Moves d s (t.unpinHead r) := by
  unfold State.unpinHead; dsimp only; split
  · exact h.setPhase.applyHeld
  · exact ite (ite h.setPhase.reorder.matchCoach h.setPhase.reorder) h.setPhase.reorder.headChanged

theorem newPlan (h : Moves d s t) {x : PlanData} (hx : ∀ p ∈ t.plans.list, p.data.id ≠ x.id) :
    Moves d s (t.newPlan x) := by
  unfold State.newPlan; dsimp only
  split
  · exact h.plansKept _
  · split
    · rename_i hl
      refine headChanged (h.plans _ fun _ hb => ?_)
      rw [planBounds_iff, updPlans_plans]
      exact PlansOk.perm (PlansOk.append hb hl hx) (orderPlans_perm _)
    · split
      · split
        · refine headChanged (h.plans _ fun _ hb => ?_)
          rw [planBounds_iff, updPlans_plans]
          have hs : PlansOk t.plans.list.dropLast := PlansOk.sublist hb (List.dropLast_sublist _)
          refine PlansOk.perm (PlansOk.append hs ?_ fun p hp => hx p ((List.dropLast_sublist _).subset hp)) (orderPlans_perm _)
          have := hb.1
          rw [List.length_dropLast]
          simp only [Config.planSlots] at *
          omega
        · exact h.plansKept _
      · exact h

theorem revisePlan (h : Moves d s t) {x : PlanData} : Moves d s (t.revisePlan x) := by
  unfold State.revisePlan
  have h1 := h.plansKept fun p => { p with stale := false, dropped := 0 }
  split
  · rename_i p hp
    split
    · rename_i hid
      have hx : s.PlanBounds → ∀ q, (t.updPlans fun p => { p with stale := false, dropped := 0 }).head = some q →
          x.id = q.data.id := fun _ q hq => by
        rw [show (t.updPlans fun p => { p with stale := false, dropped := 0 }).head = t.head from rfl, hp] at hq
        cases hq; exact hid.symm
      refine ite (h1.mapHeadOk fun q hq _ => ⟨rfl, fun e he => ?_⟩) (ite (h1.revisePinned hx) (h1.reviseHead hx))
      cases he
      rw [show (t.updPlans fun p => { p with stale := false, dropped := 0 }).head = t.head from rfl, hp] at hq
      cases hq; exact hid.symm
    · exact h1.reviseOther
  · exact h1

theorem cancelPlan (h : Moves d s t) {i : Nat} : Moves d s (t.cancelPlan i) := by
  unfold State.cancelPlan
  exact ite ((h.plansKept _).mapHeadOk fun _ _ _ => ⟨rfl, fun _ hx => by cases hx⟩) (h.plansKept _).removePlan

theorem takePlan (h : Moves d s t) {p : PlanPayload} : Moves d s (t.takePlan p) := by
  unfold State.takePlan; split
  · exact h
  · split
    · rename_i hany _
      refine h.newPlan fun q hq e => ?_
      have : t.plans.list.any (fun x => x.data.id == _) = true := List.any_eq_true.2 ⟨q, hq, by simpa using e⟩
      rw [hany] at this; cases this
    · exact h.plansKept _
    · exact h.revisePlan
    · exact h.cancelPlan

/-! ### DEPART over PLANS, LINK and BAY -/

theorem fallPhase (h : Moves d s t) : Moves d s t.fallPhase := by
  unfold State.fallPhase; dsimp only
  exact setPhase ((ite h.discardWaits.latchCloseOrder.linkResume h.discardWaits).depart _)

theorem fallBack (h : Moves d s t) {r : Option RefusalReason} : Moves d s (t.fallBack r) := by
  unfold State.fallBack; dsimp only; split
  · exact h.giveUpLane.fallPhase.refuse
  · exact h.giveUpLane.fallPhase

theorem fallSilent (h : Moves d s t) : Moves d s t.fallSilent := h.dropSilent.fallPhase.refuse
theorem enterReleasing (h : Moves d s t) : Moves d s t.enterReleasing := (h.setPhase.depart _).heatOff.linkHalt

theorem coachGone (h : Moves d s t) : Moves d s t.coachGone := by
  unfold State.coachGone; exact ((h.setPhase.depart _).bayKept _).writeHeld

theorem enterCleared (h : Moves d s t) : Moves d s t.enterCleared := by
  unfold State.enterCleared
  exact ite ((h.setPhase.depart _).bayKept _) ((h.setPhase.depart _).bayKept _).coachGone

theorem unlatch (h : Moves d s t) : Moves d s t.unlatch := by
  unfold State.unlatch
  exact ite ((h.latchOpenOrder.depart _).bayKept _) ((h.latchOpenOrder.depart _).bayKept _).enterCleared

theorem departDisturbed (h : Moves d s t) : Moves d s t.departDisturbed := ite h.enterCleared (ite h.coachGone h)

theorem completeDeparture (h : Moves d s t) : Moves d s t.completeDeparture := by
  unfold State.completeDeparture; split
  · exact (h.depart _).removePlan
  · exact h

theorem transitOver (h : Moves d s t) : Moves d s t.transitOver := h.writeLane.completeDeparture
theorem laneWon (h : Moves d s t) : Moves d s t.laneWon := (h.depart _).writeHeld.enterReleasing

theorem takeRequest (h : Moves d s t) : Moves d s t.takeRequest := by
  unfold State.takeRequest; split
  · exact (h.depart _).setPhase
  · exact h

theorem pressed (h : Moves d s t) : Moves d s t.pressed := by
  unfold State.pressed; split
  · exact h.refuse
  · exact h.refuse
  · exact h.refuse
  · exact h.refuse
  · exact ite h.refuse h.takeRequest
  · exact h
  · exact h
  · exact h
  · exact h.fallBack
  · exact h.fallBack
  · exact h.fallBack

theorem enterFinalRead (h : Moves d s t) : Moves d s t.enterFinalRead := h.setPhase.finalReadOrder

theorem finalReport (h : Moves d s t) {b : Bool} : Moves d s (t.finalReport b) :=
  ite (ite h.fallBack (ite h.fallBack (ite (h.setPhase.depart _).startRound h.fallBack))) h

theorem coachLeft (h : Moves d s t) : Moves d s t.coachLeft := by
  unfold State.coachLeft; dsimp only; split
  · exact h.coachGone
  · exact (h.depart _).writeFault.unpinHead
  · exact (h.depart _).writeFault.unpinHead
  · exact ((h.depart _).writeFault.giveUpLane.discardWaits.depart _).unpinHead
  · exact ((h.depart _).writeFault.giveUpLane.discardWaits.depart _).unpinHead
  · exact ((h.depart _).writeFault.giveUpLane.discardWaits.depart _).unpinHead
  · exact ((h.depart _).writeFault.giveUpLane.discardWaits.depart _).unpinHead
  · exact ite (h.depart _).writeFault (h.depart _)
  · exact h.depart _
  · exact h.depart _
  · exact h.depart _

theorem departUnplugged (h : Moves d s t) : Moves d s t.departUnplugged := by
  unfold State.departUnplugged; split
  · exact h.unpinHead
  · exact h.unpinHead
  · exact (h.giveUpLane.discardWaits.depart _).unpinHead
  · exact (h.giveUpLane.discardWaits.depart _).unpinHead
  · exact (h.giveUpLane.discardWaits.depart _).unpinHead
  · exact h.enterCleared
  · exact h
  · exact h
  · exact h
  · exact h
  · exact h

theorem loseLane (h : Moves d s t) : Moves d s t.loseLane := by
  unfold State.loseLane; exact ((h.emptyLane.discardWaits.depart _).setPhase.depart _).startRound

theorem heldConflict (h : Moves d s t) {k p : Nat} {i : Bool} : Moves d s (t.heldConflict k p i) :=
  ite (ite h.writeFault h) (ite (ite (h.loseLane.depart _) h.loseLane) h)

theorem laneHeard (h : Moves d s t) {l : Nat} {a i : Bool} {k p : Nat} : Moves d s (t.laneHeard l a i k p) := by
  unfold State.laneHeard; split
  · split
    · exact ite (ite (h.writeLane.depart _) h.emptyLane.yieldOn) h
    · exact ite h.heldConflict h
    · exact h
    · exact h
    · exact h
  · exact h

theorem forcedRelease (h : Moves d s t) {l : Nat} : Moves d s (t.forcedRelease l) := by
  unfold State.forcedRelease; split
  · split
    · exact ite ((ite h h.emptyLane).depart _).startRound h
    · exact ite h.emptyLane.completeDeparture (ite h.loseLane h)
    · exact h
    · exact h
    · exact h
  · exact h

theorem claimReported (h : Moves d s t) {c : LaneContent} {b : Bool} : Moves d s (t.claimReported c b) :=
  ite (h.depart _) (ite h (ite (h.writeLane.depart _) h.writeLane))

theorem laneSent (h : Moves d s t) {c : LaneContent} {b : Bool} : Moves d s (t.laneSent c b) := by
  unfold State.laneSent; split
  · exact h.claimReported
  · exact h
  · exact ite h.yieldOn h

theorem claimFailed (h : Moves d s t) {c : LaneContent} : Moves d s (t.claimFailed c) := ite (h.depart _) h

theorem departRestart (h : Moves d s t) : Moves d s t.departRestart := by
  unfold State.departRestart
  exact ite h ((ite h.giveUpLane.discardWaits.latchCloseOrder h.giveUpLane.discardWaits).depart _)

/-! ### VIEW (R26, R33) -/

/-- Entries changed in place keep the view's limits. -/
theorem viewChange (h : Moves d s t) {p : Nat} {f : Entry → Entry} (hf : ∀ e, (f e).station = e.station := by exact fun _ => rfl) :
    Moves d s (t.updView fun v => v.change p f) := by
  refine h.view _ fun hb => ?_
  have e : (t.view.change p f).entries.map Entry.station = t.view.entries.map Entry.station := by
    simp only [View.change, List.map_map]
    exact List.map_congr_left fun x _ => by simp only [Function.comp]; split <;> simp [hf]
  refine ⟨?_, ?_⟩
  · have := congrArg List.length e
    simp only [List.length_map] at this
    rw [updView_view, this]; exact hb.1
  · rw [updView_view, e]; exact hb.2

/-- A peer's first entry finds its room (R33). -/
theorem viewAppend (h : Moves d s t) {e : Entry} {es : List Entry} {own : Option RankKey}
    (hroom : makeRoom own t.view.entries = some es) (hnew : t.view.entry e.station = none) :
    Moves d s (t.updView fun v => { v with entries := es ++ [e] }) := by
  refine h.view _ fun hb => ?_
  obtain ⟨hs, hl⟩ := makeRoom_spec hroom hb.1
  refine ⟨by rw [updView_view, List.length_append, List.length_singleton]; exact hl, ?_⟩
  rw [updView_view, List.map_append, List.nodup_append]
  refine ⟨(hs.map _).nodup hb.2, by simp, fun a ha b hb' => ?_⟩
  obtain ⟨x, hx, rfl⟩ := List.mem_map.1 ha
  obtain rfl := List.mem_singleton.1 hb'
  simpa using List.find?_eq_none.1 hnew x (hs.subset hx)

theorem viewFilter (h : Moves d s t) {p : Entry → Bool} :
    Moves d s (t.updView fun v => { v with entries := v.entries.filter p }) :=
  h.view _ fun hb => ⟨(List.length_filter_le _ _).trans hb.1, (List.filter_sublist.map _).nodup hb.2⟩

theorem viewKept (h : Moves d s t) (f : View → View) (hf : ∀ v, (f v).entries = v.entries := by exact fun _ => rfl) :
    Moves d s (t.updView f) :=
  h.view f fun hb => by simpa only [State.ViewBounds, updView_view, hf] using hb

theorem takeDemand (h : Moves d s t) {p : Nat} {c : DemandContent} : Moves d s (t.takeDemand p c) := by
  unfold State.takeDemand; split
  · exact h.viewChange
  · split
    · exact h.viewChange
    · dsimp only; split
      · exact h.viewChange
      · split
        · exact h.viewAppend ‹_› ‹_›
        · exact h.viewKept _

theorem contest (h : Moves d s t) {l : Nat} : Moves d s (t.contest l) := h.viewKept _

theorem takeLaneRecord (h : Moves d s t) {p : Nat} {n : LanePayload} : Moves d s (t.takeLaneRecord p n) := by
  unfold State.takeLaneRecord; dsimp only; split
  · exact h.viewChange
  · split
    · exact h.viewAppend ‹_› ‹_›
    · exact (h.viewKept _).contest

theorem viewLane (h : Moves d s t) {p : Nat} {n : LanePayload} : Moves d s (t.viewLane p n) :=
  ite h.viewChange (ite h.viewChange h.takeLaneRecord)

theorem viewRelease (h : Moves d s t) {l : Nat} : Moves d s (t.viewRelease l) := by
  unfold State.viewRelease; split
  · refine h.view _ fun hb => ?_
    have e : (t.view.entries.map fun e => match e.lane with
        | some r => if r.lane = l then { e with lane := none } else e
        | none => e).map Entry.station = t.view.entries.map Entry.station := by
      rw [List.map_map]
      exact List.map_congr_left fun x _ => by
        simp only [Function.comp]; split
        · split <;> rfl
        · rfl
    exact ⟨by rw [updView_view, List.length_map]; exact hb.1, (congrArg List.Nodup e).mpr hb.2⟩
  · exact h

theorem takeLane (h : Moves d s t) {p : Nat} {n : LanePayload} : Moves d s (t.takeLane p n) := by
  unfold State.takeLane
  split
  · split
    · have h1 := h.viewRelease (l := n.lane)
      exact forcedRelease (ite (markLeft (ite h1.lanesLeft h1)) (ite h1.lanesLeft h1))
    · exact h
  · dsimp only
    have h1 := h.viewLane (p := p) (n := n)
    split
    · split
      · exact ite h1 h1.lanesLeft
      · exact h1
    · refine laneHeard ?_
      split
      · exact ite h1 h1.lanesLeft
      · exact h1

theorem ageDemand (h : Moves d s t) {p : Nat} : Moves d s (t.ageDemand p) := h.viewChange
theorem ageLane (h : Moves d s t) {p l : Nat} : Moves d s (t.ageLane p l) := (viewChange h).lanesLeft
theorem removeEntry (h : Moves d s t) {p : Nat} : Moves d s (t.removeEntry p) := h.viewFilter
theorem dropOldEntry (h : Moves d s t) {p : Nat} : Moves d s (t.dropOldEntry p) := ite h.removeEntry h

theorem takeQuery (h : Moves d s t) {p k i : Nat} : Moves d s (t.takeQuery p k i) := by
  unfold State.takeQuery; split
  · split
    · rename_i hl
      refine h.line _ (fun hb => ?_) rfl
      obtain ⟨h1, h2, -, h4⟩ := hb
      exact ⟨h1, h2, by rw [updLine_line, List.length_append, List.length_singleton]; exact hl, h4⟩
    · exact h
  · exact h

/-! ### The coach -/

theorem identifiedAs (h : Moves d s t) {c : Coach} : Moves d s (t.identifiedAs c) := by
  unfold State.identifiedAs
  refine Moves.selectClass (Moves.beginRead (Moves.lampIdentified (Moves.heatIdentified (Moves.matchCoach
    (Moves.faults (h.linkKept _) _ (fun hb => ?_) rfl)))))
  unfold State.TableBounds
  rw [updFaults_faults, Faults.identified]
  dsimp only
  split
  · exact hb
  · simp

theorem identifyEnded (h : Moves d s t) {e : Ending} : Moves d s (t.identifyEnded e) := by
  unfold State.identifyEnded; split
  · split
    · exact h.identifiedAs
    · exact h
  · exact h.linkKept _
  · exact h.linkKept _
  · exact h

theorem endExchange (h : Moves d s t) {x : Exchange} {e : Ending} : Moves d s (t.endExchange x e) := by
  have h1 : Moves d s (t.updLink fun l => { settleFailures l e with exchange := none, lastEnd := some t.now }) := by
    refine h.linkSub _ ?_ fun y hy => by cases hy
    have : (settleFailures t.link e).queue = t.link.queue := by
      unfold settleFailures; split
      · split <;> rfl
      · rfl
    exact this ▸ List.Sublist.refl _
  have close {u : State} (h : Moves d s u) : Moves d s (if t.link.state = .halting then u.linkHalted
      else if u.link.state = .up ∧ Config.lostAfter ≤ u.link.failures then u.linkLost else u) :=
    ite h.linkHalted (ite h.linkLost h)
  unfold State.endExchange
  refine close ?_
  split
  · exact ite h1.identifyEnded h1
  · exact h1.deliver
  · exact h1.deliver
  · exact h1.deliver

/-- The exchange in flight changed without changing its job. -/
theorem exchangeKept (h : Moves d s t) {x y : Exchange} (f : Link → Link) (hx : t.link.exchange = some x)
    (hq : (f t.link).queue = t.link.queue) (hy : (f t.link).exchange = some y) (hj : y.req = x.req) :
    Moves d s (t.updLink f) :=
  h.linkSub f (hq ▸ List.Sublist.refl _) fun z hz => ⟨x, hx, by rw [hy] at hz; cases hz; rw [hj]⟩

theorem failTry (h : Moves d s t) {x : Exchange} {c : Cause} (hx : t.link.exchange = some x) : Moves d s (t.failTry x c) :=
  ite (h.exchangeKept _ hx rfl rfl rfl) h.endExchange

theorem answer (h : Moves d s t) {x : Exchange} {b : Bool} {f : List Byte} (hx : t.link.exchange = some x) :
    Moves d s (t.answer x b f) := by
  unfold State.answer; split
  · exact h
  · exact h.failTry hx
  · exact h.endExchange
  · exact ite (h.failTry hx) h.endExchange

theorem heard (h : Moves d s t) {x : Exchange} {b : Bool} {f : List Byte} (hx : t.link.exchange = some x) :
    Moves d s (t.heard x b f) := ite (h.failTry hx) (h.answer hx)

theorem retryTry (h : Moves d s t) {x : Exchange} (hx : t.link.exchange = some x) : Moves d s (t.retryTry x) := by
  unfold State.retryTry; exact h.exchangeKept _ hx rfl rfl rfl

theorem wakeNow (h : Moves d s t) : Moves d s t.wakeNow := by
  unfold State.wakeNow; split
  · split
    · exact h.wake
    · exact (h.linkKept _).identify
    · exact h
    · exact h
    · exact h
  · exact h

theorem plugIn (h : Moves d s t) : Moves d s t.plugIn := by
  unfold State.plugIn; exact ite (h.linkKept _).wake (h.linkKept _)

theorem plugOut (h : Moves d s t) : Moves d s t.plugOut := by
  have h1 := h.linkSub (fun l =>
    { l with exchange := none, state := .down, lastEnd := if l.exchange.isSome then some t.now else l.lastEnd })
    (List.Sublist.refl _) fun y hy => by cases hy
  have forgotten {u : State} (h : Moves d s u) := ((h.purge.linkDown.linkKept fun l =>
    { l with coach := none, wakeDue := none, resume := false, failures := 0 }).startKept fun x =>
    { x with wakeAfterHalt := false }).heatUnplugged.lampUnplugged.readerUnplugged
  have rematched {u : State} (h : Moves d s u) :
      Moves d s (if u.inPhase .wrongCoach then u.matchCoach else u).departUnplugged := departUnplugged (ite h.matchCoach h)
  unfold State.plugOut
  refine rematched (forgotten ?_)
  split
  · exact h1.deliver
  · exact h1

/-! ### The watched conditions -/

theorem announce (h : Moves d s t) : Moves d s t.announce := h.writeDemand.share _ rfl
theorem announceDemand (h : Moves d s t) : Moves d s t.announceDemand := ite h.withdrawDemand h.announce
theorem fresh (h : Moves d s t) : Moves d s t.fresh := h.share _ rfl

theorem departRule {u : State} (h : Moves d s t) (hu : t.departRule = some u) : Moves d s u := by
  revert hu; unfold State.departRule
  (repeat' split) <;> intro hu <;> cases hu
  · exact (h.faultsKept _).finalReport
  · exact h.fallSilent
  · exact h.fallBack
  · exact h.applyHeld
  · exact h.enterFinalRead
  · exact h.unlatch

theorem linkRule {u : State} (h : Moves d s t) (hu : t.linkRule = some u) : Moves d s u := by
  revert hu; unfold State.linkRule
  split
  · intro hu; cases hu; exact ite h.wake (h.linkDown.startKept _)
  · split <;> intro hu <;> cases hu
    exact h.wake

theorem readyRule {u : State} (h : Moves d s t) (hu : t.readyRule = some u) : Moves d s u := by
  revert hu; unfold State.readyRule
  (repeat' split) <;> intro hu <;> cases hu
  · exact h.setPhase
  · exact h.setPhase
  · exact h.lampRerun
  · exact h.lampStart

/-- HEAT's conditions: pre-heat begins (R46), draws (R49), or a chain that begins nothing. -/
theorem waitedOver (h : Moves d s t) :
    Moves d s (if t.waitedRise then t.riseOne else t.updHeat fun h => { h with waiting := none }) := by
  split
  · exact h.riseOne (riseOpen_target (waitedRise_open ‹_›))
  · exact h.heatKept _

theorem heatRule {u : State} (h : Moves d s t) (hu : t.heatRule = some u) :
    (t.heat.state = .off ∧ t.heatAllowed = true ∧ u = t.heatSchedule) ∨ (t.drawDue = true ∧ u = t.heatDraw) ∨
      Moves d s u := by
  have waited := h.waitedOver
  revert hu; unfold State.heatRule
  (repeat' split) <;> intro hu <;> cases hu
  · exact .inl ⟨(‹_ ∧ _›).1, (‹_ ∧ _›).2, rfl⟩
  · exact .inr (.inr h.heatLeave)
  · exact .inr (.inr h.announceDemand)
  · exact .inr (.inr h.compute)
  · exact .inr (.inr h.regrant)
  · exact .inr (.inr h.heatPlace)
  · exact .inr (.inl ⟨‹_›, rfl⟩)
  · exact .inr (.inr (h.riseOne (riseOpen_target (riseDue_open ‹_›))))
  · exact .inr (.inr (by rwa [if_pos ‹_›] at waited))
  · exact .inr (.inr (by rwa [if_neg ‹_›] at waited))

/-- One condition judged: pre-heat begins, draws, or a chain that begins nothing. -/
theorem stepRule {u : State} (h : Moves d s t) (hu : stepRule t = some u) :
    (t.heat.state = .off ∧ t.heatAllowed = true ∧ u = t.heatSchedule) ∨ (t.drawDue = true ∧ u = t.heatDraw) ∨
      Moves d s u := by
  revert hu; unfold Machine.stepRule
  split
  · rename_i x hx; intro hu; cases hu; exact .inr (.inr (h.departRule hx))
  · split
    · rename_i x hx; intro hu; cases hu; exact .inr (.inr (h.linkRule hx))
    · split
      · rename_i x hx; intro hu; cases hu; exact .inr (.inr (h.readyRule hx))
      · exact h.heatRule

theorem settle (n : Nat) (hd : d) : ∀ {t : State} (_ : Moves d s t), Moves d s (settle n t) := by
  induction n with
  | zero => exact fun h => h
  | succ n ih =>
    intro t h
    unfold Machine.settle; split
    · rename_i u hu
      obtain ⟨h1, h2, rfl⟩ | ⟨h1, rfl⟩ | h1 := h.stepRule hu
      · exact ih (h.heatSchedule hd h1 h2)
      · exact ih (h.heatDraw hd h1)
      · exact ih h1
    · exact h

theorem settled (h : Moves d s t) (hd : d) : Moves d s (settled t) := ite (settle _ hd h.fresh).fresh h

theorem finish (h : Moves d s t) : Moves d s (finish t) := by
  have h1 : Moves d s t.fresh.noteClose := (h.fresh.lineKept _).depart _
  unfold Machine.finish
  have h2 := ite (c := t.fresh.noteClose.faults.shown = t.fresh.noteClose.faults.summary) h1 h1.summary
  have h3 : ∀ {u}, Moves d s u → Moves d s u.statusClose := fun h => ite h h.writeStatus
  have h4 : ∀ {u}, Moves d s u → Moves d s u.signalClose := fun h => ite h (h.bayKept _)
  exact ite (h4 (h3 h2)) (h4 h1)

/-! ### LINE -/

theorem setCounter (h : Moves d s t) {n : Nat} (hn : t.line.counter ≤ 255 → n ≤ 255) : Moves d s (t.setCounter n) := by
  have h1 : Moves d s (t.updLine fun l =>
      { l with counter := n,
               recovery := if lineState n = .detached ∧ t.line' ≠ .detached then 0 else l.recovery }) := by
    refine h.line _ (fun hb => ⟨hn hb.1, ?_, hb.2.2⟩) rfl
    have hr := hb.2.1
    rw [updLine_line]; dsimp only
    split <;> omega
  exact ite (h1.bayKept _) h1

theorem counterUp (h : Moves d s t) {n : Nat} : Moves d s (t.counterUp n) := h.setCounter fun _ => Nat.min_le_right _ _
theorem counterDown (h : Moves d s t) : Moves d s t.counterDown := h.setCounter fun hb => (Nat.sub_le _ _).trans hb

/-- The recovery run moved within its range (R175). -/
theorem recovery (h : Moves d s t) (f : Line → Line) (hr : t.line.recovery < 32 → (f t.line).recovery < 32)
    (hf : ∀ x, (f x).counter = x.counter ∧ (f x).answers = x.answers ∧ (f x).summary.content = x.summary.content := by
      exact fun _ => ⟨rfl, rfl, rfl⟩) : Moves d s (t.updLine f) := by
  obtain ⟨h1, h2, h3⟩ := hf t.line
  refine h.line f (fun hb => ?_) h3
  obtain ⟨b1, b2, b3⟩ := hb
  refine ⟨?_, hr b2, ?_⟩
  · rw [updLine_line, h1]; exact b1
  · rw [updLine_line, h2]; exact b3

theorem countGood (h : Moves d s t) : Moves d s t.countGood := by
  unfold State.countGood; split
  · split
    · rename_i hr
      exact h.recovery _ fun _ => hr
    · exact (h.recovery _ fun _ => Nat.zero_lt_succ _).setCounter fun _ => (by decide : Config.recovered ≤ 255)
  · exact h.counterDown

theorem withdrawItem (h : Moves d s t) : Moves d s t.withdrawItem := by
  unfold State.withdrawItem; dsimp only
  have h1 := h.lineKept Line.withdrawSeries
  split
  · exact h1
  · exact ite h1 ((h1.free _).lineKept _)

theorem barredSince (h : Moves d s t) {was : State} : Moves d s (t.barredSince was) := ite h.withdrawItem h

theorem countFault (h : Moves d s t) : Moves d s t.countFault := by
  unfold State.countFault
  refine barredSince (h.counterUp.recovery _ fun hr => ?_)
  dsimp only
  split <;> omega

theorem present (h : Moves d s t) {i : TxItem} : Moves d s (t.present i) := by
  unfold State.present; dsimp only; split
  · exact h
  · refine h.lineKept _ fun x => ?_
    split
    · cases i <;> exact ⟨rfl, rfl, rfl, rfl⟩
    · exact ⟨rfl, rfl, rfl, rfl⟩

theorem demandReported (h : Moves d s t) : Moves d s t.demandReported := by
  unfold State.demandReported; dsimp only
  exact ite (h.lineKept _).emptyDemand (ite (h.lineKept _) ((h.lineKept _).share _ rfl))

theorem answerTold (h : Moves d s t) {a : Answer} : Moves d s (t.answerTold a) := ite (h.bayKept _) h

theorem answerReported (h : Moves d s t) {a : Answer} : Moves d s (t.answerReported a) := by
  refine answerTold (h.line _ (fun hb => ?_) rfl)
  obtain ⟨h1, h2, h3, h4⟩ := hb
  refine ⟨h1, h2, ?_, h4⟩
  rw [updLine_line, List.length_tail]; omega

theorem helloReported (h : Moves d s t) : Moves d s t.helloReported := by
  unfold State.helloReported; exact ite ((h.lineKept _).start _ fun _ _ => rfl) (h.lineKept _)

theorem itemSent (h : Moves d s t) {x : Tx} : Moves d s (t.itemSent x) := by
  unfold State.itemSent; split
  · exact (h.lineKept _).laneSent
  · exact h.demandReported
  · exact h.answerReported
  · exact h.lineKept _
  · refine h.lineKept _ fun y => ⟨rfl, rfl, rfl, ?_⟩
    obtain e | e := Slot.sent_cases y.summary <;> dsimp only <;> rw [e]
  · exact h.helloReported

theorem orphanSent (h : Moves d s t) {x : Tx} : Moves d s (t.orphanSent x) := by
  obtain e | ⟨e, -⟩ := orphanSent_cases t x <;> rw [e]
  · exact h
  · exact h.bayKept _

theorem setSeries (h : Moves d s t) {i : TxItem} {x : Option (List (List Byte))} :
    Moves d s (t.updLine fun l => l.setSeries i x) :=
  h.lineKept _ fun y => by cases i <;> exact ⟨rfl, rfl, rfl, rfl⟩

theorem sent (h : Moves d s t) {x : Tx} : Moves d s (t.sent x) := by
  unfold State.sent
  exact ite (h.lineKept _).counterDown.orphanSent (ite (h.lineKept _).counterDown.itemSent (h.lineKept _).counterDown.setSeries)

theorem restartSeries (h : Moves d s t) {x : Tx} : Moves d s (t.restartSeries x) :=
  h.lineKept _ fun y => by cases x.item <;> exact ⟨rfl, rfl, rfl, rfl⟩

theorem singleTryFailed (h : Moves d s t) {c : LaneContent} : Moves d s (t.singleTryFailed c) := ite h h.emptyLane.claimFailed

theorem failed (h : Moves d s t) {x : Tx} : Moves d s (t.failed x) := by
  have closed {u : State} (h : Moves d s u) : Moves d s (if x.orphan then u
      else match x.item with
        | .lane c => if c.singleTry then u.singleTryFailed c else u
        | .demand _ | .answer _ | .status | .summary | .hello => u) := by
    refine ite h ?_
    split
    · exact ite h.singleTryFailed h
    all_goals exact h
  exact closed (counterUp (ite (h.lineKept _) h.restartSeries))

theorem heardTwin (h : Moves d s t) {n : Nat} : Moves d s (t.heardTwin n) := ite (h.lineKept _) h

/-! ### START and CLOCK, commands' own effects -/

theorem takeSupply (h : Moves d s t) {p : SupplyPayload} : Moves d s (t.takeSupply p) := ite (h.share _ rfl) h

theorem takeClear (h : Moves d s t) {p : ClearPayload} : Moves d s (t.takeClear p) := by
  unfold State.takeClear
  have h1 : Moves d s (t.updFaults fun f => f.clear p.scope p.source p.code) :=
    h.faults _ (fun hb => ⟨(List.length_filter_le _ _).trans hb.1, (List.filter_sublist.map _).nodup hb.2⟩) rfl
  exact ite h1.lampRecheck h1

theorem periodicNow (h : Moves d s t) : Moves d s t.periodicNow := ite h.beginRead (h.faultsKept _)

theorem startPin (h : Moves d s t) {i : Input} : Moves d s (t.startPin i) :=
  h.bayKept _ fun _ => by cases i <;> exact ⟨rfl, rfl, rfl, rfl⟩

theorem startDebouncing (h : Moves d s t) : Moves d s t.startDebouncing :=
  (h.bayKept _).startPin.startPin.startPin.startPin.startPin

/-- START moves among states other than OPERATING, where pre-heat is in OFF or STOPPED (R46). -/
theorem startNot (h : Moves d s t) (f : Start → Start) (hs : t.start.station ≠ .operating) : Moves d s (t.updStart f) :=
  h.start f fun hb e => absurd (by simpa [State.operating] using hb.2.2.2 e) hs

theorem accept (h : Moves d s t) {c : Configuration} (hs : t.start.station ≠ .operating) : Moves d s (t.accept c) := by
  unfold State.accept
  have h1 : Moves d s ({ t with cfg := some c } : State) := h.cfg _
  have h2 := h1.startNot (fun x => { x with station := .listenIn, listenIn := t.after Config.listenIn }) hs
  exact ((h2.share _ rfl).linkKept _).startDebouncing

theorem reject (h : Moves d s t) (hs : t.start.station ≠ .operating) : Moves d s t.reject := (h.startNot _ hs).startDebouncing

theorem join (h : Moves d s t) (hs : t.start.station ≠ .operating) : Moves d s t.join := (h.startNot _ hs).lineKept _

theorem resend (h : Moves d s t) : Moves d s t.resend := by
  unfold State.resend
  have h1 := ite (c := t.share.announced = true) (h.startKept fun x => { x with stagger := none }).announce
    (h.startKept fun x => { x with stagger := none })
  exact ite h1.writeHeld h1

theorem takeHello (h : Moves d s t) {p : HelloPayload} : Moves d s (t.takeHello p) := ite (h.startKept _) h

theorem plansRestart (h : Moves d s t) : Moves d s t.plansRestart := ite h.unpinHead h

theorem lineRestart (h : Moves d s t) : Moves d s t.lineRestart :=
  h.line _ (fun hb => ⟨hb.1, hb.2.1, Nat.zero_le _, hb.2.2.2⟩) rfl

/-- RESTART up to its new station state. -/
theorem restartBlocks (h : Moves d s t) :
    Moves d s t.departRestart.lampRestart.plansRestart.lineRestart.linkHalt :=
  (lampEnd h.departRestart).plansRestart.lineRestart.linkHalt

theorem heatLeave_state (s : State) (x : HeatState) : (s.heatLeave x).heat.state = x := by
  have placed (u : State) (k : ReqKind) : (u.heatPlace k).heat.state = u.heat.state := by
    have enqueued (r : Request) : (u.enqueue r).heat = u.heat := by
      unfold State.enqueue State.begun State.startExchange; split
      · split <;> rfl
      · rfl
    obtain ⟨-, ⟨-, e⟩ | ⟨-, e⟩⟩ | ⟨-, ⟨-, e⟩ | ⟨-, e⟩⟩ := heatPlace_cases u k <;> rw [e]
    · rfl
    · rw [enqueued]
    · rfl
  have withdrawn (u : State) : u.withdrawDemand.heat = u.heat := by
    unfold State.withdrawDemand State.emptyDemand; split <;> rfl
  have either {c : Prop} [Decidable c] {u v : State} (hu : u.heat.state = x) (hv : v.heat.state = x) :
      (if c then u else v).heat.state = x := by split <;> assumption
  have ranked {c : Prop} [Decidable c] {u : State} (f : Share → Share) (hu : u.heat.state = x) :
      (if c then u else u.updShare f).heat.state = x := either hu hu
  have silent {u : State} (hu : u.heat.state = x) :
      (if u.share.announced then u.withdrawDemand else u).heat.state = x :=
    either ((congrArg Heat.state (withdrawn u)).trans hu) hu
  have closed {c : Prop} [Decidable c] {u : State} {k : ReqKind} (hu : u.heat.state = x) :
      (if c then u.heatPlace k else u).heat.state = x := either ((placed u k).trans hu) hu
  exact closed (silent (ranked _ rfl))

theorem heatRestart_off (s : State) : s.heatRestart.heat.state.computing = false := by
  have off : (if s.heat.state = .off then s else s.heatLeave .off).heat.state = .off := by
    split
    · assumption
    · exact heatLeave_state _ _
  exact congrArg HeatState.computing off

theorem restart (h : Moves d s t) : Moves d s t.restart := by
  unfold State.restart
  refine writeStatus (Moves.start (restartBlocks (h.withdrawItem.startKept _).heatRestart) _ fun _ e => ?_)
  have off := (Moves.refl (d := False)).restartBlocks.idle
    (heatRestart_off (t.withdrawItem.updStart fun x => { x with listenIn := none, stagger := none }))
  exact absurd (off.symm.trans e) (by decide)

/-- Station seconds and depot time go on within their ranges (R17, R18). -/
theorem advance_lineBounds (hb : t.LineBounds) : (t.updClock fun c => c.advance.advanceDepot).LineBounds := by
  obtain ⟨h1, h2, h3, h4, h5, h6⟩ := hb
  refine ⟨h1, h2, h3, ?_, ?_, fun x hx => ?_⟩
  · rw [updClock_clock, Clock.advanceDepot]; split <;> exact Nat.min_le_right _ _
  · rw [updClock_clock, Clock.advanceDepot]; split <;> exact Nat.zero_le _
  · rw [updClock_clock, Clock.advanceDepot] at hx
    split at hx
    · exact h6 x hx
    · obtain ⟨y, hy, rfl⟩ := Option.map_eq_some_iff.1 hx
      have := h6 y hy
      unfold DepotTime.next; split
      · exact ⟨this.1, by dsimp only; omega⟩
      · exact ⟨by dsimp only; omega, Nat.zero_le _⟩

theorem minuteEvent (h : Moves d s t) : Moves d s t.minuteEvent := h.evalOverdue.heatKept _

theorem secondEvent (h : Moves d s t) : Moves d s t.secondEvent := by
  unfold State.secondEvent
  exact ite (h.clock _ advance_lineBounds).minuteEvent (h.clock _ advance_lineBounds)

theorem takeTime (h : Moves d s t) {p : List Byte} : Moves d s (t.takeTime (timePayload p)) := by
  unfold State.takeTime
  split
  · exact h
  · rename_i hp
    have h1 := h.clock (fun c =>
      { c with time := some { day := (timePayload p).day, second := (timePayload p).second }, state := .set,
               lastTime := some t.now }) fun hb => by
        obtain ⟨h1, h2, h3, h4, h5, h6⟩ := hb
        refine ⟨h1, h2, h3, h4, h5, fun x hx => ?_⟩
        cases hx
        refine ⟨?_, by dsimp only; omega⟩
        have b1 := (p.getD 0 0).isLt
        have b2 := (p.getD 1 0).isLt
        simp only [timePayload, word16, byteAt]
        omega
    exact ite h1 h1.minuteEvent

end Moves

end Sys2Proof.Machine
end

