-- ==== Sys2Proof/Proofs/Kept.lean ====
section
namespace Sys2Proof.Machine

/-! ## Every command as a run of moves, and the limits every step keeps -/

/-- `u` is reached from `s` by chains that begin no pre-heat, judgings of the watched conditions, and turns of the inputs HEAT
watches, its watch set judged at once. -/
inductive Run (s : State) : State → Prop
  | refl : Run s s
  | moved {t u} (h : Run s t) (m : Moves False t u) : Run s u
  | settled {t} (h : Run s t) : Run s (settled t)
  | turned {t i} (h : Run s t) (hi : i = .coachPresent ∨ i = .plugLatched) (hdue : t.changeDue i = true) :
      Run s ((t.takeLevel i).heatWatched i)

/-- Nothing that is shown, and nothing it is written from, has moved (R131, R162, R168). -/
structure Quiet (s t : State) : Prop where
  signal : t.bay.signal = s.bay.signal
  own : t.depart.own = s.depart.own
  pattern : t.signalPattern = s.signalPattern
  line : t.line = s.line
  faults : t.faults = s.faults
  running : t.running = s.running
  status : s.running = true → t.statusContent = s.statusContent

/-- The next state of a command: a run and the close, a chain that shows nothing, a level taken while the blocks do not work,
or power-on. -/
inductive Effect (s : State) : State → Prop
  | closed {u} (h : Run s u) : Effect s (finish u)
  | quiet {t} (h : Moves False s t) (hq : Quiet s t) : Effect s t
  | levelled {i} (hr : s.running = false) : Effect s (s.takeLevel i)
  | reset : Effect s s.powerOn

/-- The outcome is a next state, and one of `Effect`. -/
def Answers (s : State) (o : Host.Outcome State Fault Refusal) : Prop := ∃ t, o = .next t ∧ Effect s t

variable {d : Prop} {s t u : State}

/-! ### Inputs turn -/

theorem setPin_bay (b : Bay) (i : Input) (p : Pin) :
    (b.setPin i p).contactors = b.contactors ∧ (b.setPin i p).heatWatch = b.heatWatch ∧ (b.setPin i p).signal = b.signal ∧
      (b.setPin i p).trouble = b.trouble := by cases i <;> exact ⟨rfl, rfl, rfl, rfl⟩

/-- A pin that HEAT's watch set does not read, or one whose level stays. -/
theorem setPin_levels (b : Bay) (i : Input) (p : Pin)
    (hp : i ≠ .coachPresent ∧ i ≠ .plugLatched ∨ p.level = (b.pin i).level) :
    (b.setPin i p).latched.level = b.latched.level ∧ (b.setPin i p).coach.level = b.coach.level := by
  cases i <;> simp_all [Bay.setPin, Bay.pin]

namespace Moves

/-- A level taken, in a chain in which watched inputs may turn. -/
theorem takeLevelAny (h : Moves True s t) (i : Input) : Moves True s (t.takeLevel i) :=
  h.bay _ (setPin_bay _ _ _).1 (.inl trivial)

theorem takeLevel (h : Moves d s t) {i : Input} (hi : i ≠ .coachPresent ∧ i ≠ .plugLatched) : Moves d s (t.takeLevel i) :=
  h.bay _ (setPin_bay _ _ _).1 (.inr ⟨.inl (setPin_bay _ _ _).2.1, setPin_levels _ _ _ (.inl hi)⟩)

theorem rawChange (h : Moves d s t) {i : Input} {v : Bool} : Moves d s (t.rawChange i v) :=
  h.bay _ (setPin_bay _ _ _).1 (.inr ⟨.inl (setPin_bay _ _ _).2.1, setPin_levels _ _ _ (.inr rfl)⟩)

theorem heatWatchedAny (h : Moves True s t) (i : Input) : Moves True s (t.heatWatched i) := by
  have h1 := h.bay (fun b => { b with heatWatch := (t.judgeWatch t.bay.heatWatch i).1 }) rfl (.inl trivial)
  exact ite h1.heatDisturbed h1

theorem lampWatched (h : Moves d s t) {i : Input} : Moves d s (t.lampWatched i) := by
  have h1 := h.bayKept fun b => { b with lampWatch := (t.judgeWatch t.bay.lampWatch i).1 }
  exact ite h1.lampUnplugged h1

theorem departWatched (h : Moves d s t) {i : Input} : Moves d s (t.departWatched i) := by
  have h1 := h.bayKept fun b => { b with departWatch := (t.judgeWatch t.bay.departWatch i).1 }
  exact ite h1.departDisturbed h1

theorem coachTaken (h : Moves d s t) :
    Moves d s (if (t.departWatched .coachPresent).summaryPresence.level .coachPresent then
      (t.departWatched .coachPresent).summaryPresence else (t.departWatched .coachPresent).summaryPresence.coachLeft) := by
  have h1 : Moves d s (t.departWatched .coachPresent).summaryPresence :=
    ite h.departWatched.summary (h.departWatched.faultsKept _)
  exact ite h1 h1.coachLeft

theorem plugChanged (h : Moves d s t) : Moves d s t.plugChanged :=
  latchInserted (ite h.lampWatched.plugIn h.lampWatched.plugOut)

theorem provingChanged (h : Moves d s t) : Moves d s t.provingChanged := ite h.judgeProving (ite (h.bayKept _) h)

theorem latchDelayOver (h : Moves d s t) : Moves d s t.latchDelayOver := ite h.closeLatch (h.bayKept _)

theorem latchCheckOver (h : Moves d s t) : Moves d s t.latchCheckOver := ite (h.bayKept _) (h.bayKept _).writeFault

theorem blindOver (h : Moves d s t) : Moves d s t.blindOver := by
  have h1 := h.figures (fun h => { h with blindCount := 1, blindEnd := none }) (fun _ => ⟨rfl, rfl, rfl⟩) fun hb =>
    ⟨hb.1, hb.2.1, Nat.le_refl 1, Nat.le_max_right _ 1⟩
  exact h1.capCount

theorem takeProbe (h : Moves d s t) {x : Option Int} : Moves d s (t.takeProbe x) := ite (h.bayKept _).writeFault (h.bayKept _)

end Moves

/-! ### A run keeps what every chain keeps -/

/-- A property every chain keeps is kept by a run. -/
theorem Run.keeps {P : State → Prop} (hP : ∀ {d : Prop} {s t}, Moves d s t → P s → P t) (h : Run s u) (hs : P s) : P u := by
  induction h with
  | refl => exact hs
  | moved h m ih => exact hP m ih
  | settled h ih => exact hP ((Moves.refl (d := True)).settled trivial) ih
  | turned h hi hdue ih => exact hP ((Moves.refl.takeLevelAny _).heatWatchedAny _) ih

theorem Effect.keeps {P : State → Prop} (hP : ∀ {d : Prop} {s t}, Moves d s t → P s → P t) (hr : ∀ s, P s → P s.powerOn)
    (h : Effect s t) (hs : P s) : P t := by
  cases h with
  | closed h => exact hP (Moves.refl (d := True)).finish (h.keeps hP hs)
  | quiet h hq => exact hP h hs
  | levelled h => exact hP (Moves.refl.takeLevelAny _) hs
  | reset => exact hr s hs

/-! ### Every command answers with an effect -/

theorem Quiet.refl (s : State) : Quiet s s := ⟨rfl, rfl, rfl, rfl, rfl, rfl, fun _ => rfl⟩

namespace Answers

theorem same (s : State) : Answers s (.next s) := ⟨s, rfl, .quiet .refl (.refl s)⟩
theorem run (h : Run s u) : Answers s (conclude u) := ⟨_, rfl, .closed h.settled⟩
theorem moved (h : Moves False s u) : Answers s (conclude u) := run (Run.refl.moved h)

theorem ite {c : Prop} [Decidable c] {a b : Host.Outcome State Fault Refusal} (ha : c → Answers s a) (hb : Answers s b) :
    Answers s (if c then a else b) := by
  split
  · exact ha ‹_›
  · exact hb

/-- A command of the working blocks: its effect under its guard, nothing else. -/
theorem guarded {c : Prop} [Decidable c] (h : c → Moves False s u) : Answers s (if c then conclude u else .next s) :=
  ite (fun hc => moved (h hc)) (same s)

/-- A notice: counted, the watched conditions judged, and taken by its block. -/
theorem receive {k : Nat} {a b : Byte} {p : List Byte} {f : State → State} (hf : ∀ t, Moves False t (f t)) :
    Answers s (if s.running then conclude (s.receive k a b p f) else .next s) := by
  refine ite (fun _ => run ?_) (same s)
  unfold State.receive
  have h1 : Run s (settled ((s.countGood.heardTwin a.toNat).barredSince s)) :=
    (Run.refl.moved Moves.refl.countGood.heardTwin.barredSince).settled
  split
  · exact .refl
  · split
    · exact Run.refl.moved Moves.refl.countFault
    · dsimp only; split
      · exact h1.moved (hf _)
      · exact h1

end Answers

/-- The signal reads no pin but the debounced level of COACH PRESENT. -/
theorem quiet_setPin (s : State) (i : Input) (p : Pin) (hp : (s.bay.setPin i p).coach.level = s.bay.coach.level) :
    Quiet s (s.updBay fun b => b.setPin i p) := by
  obtain ⟨-, -, h3, h4⟩ := setPin_bay s.bay i p
  refine ⟨h3, rfl, ?_, rfl, rfl, rfl, fun _ => ?_⟩
  · simp only [State.signalPattern, State.level, Bay.pin, updBay_bay, hp, h4]; rfl
  · simp only [State.statusContent, updBay_bay, h4]; rfl

theorem quiet_lampTake (s : State) (b : Bool) (xs : List Nat) : Quiet s (s.lampTake b xs).2 := by
  obtain e | ⟨w, e⟩ := lampTake_state s b xs <;> rw [e]
  · exact .refl s
  · exact ⟨rfl, rfl, rfl, rfl, rfl, rfl, fun _ => rfl⟩

/-- What the latch's own registers are, the signal does not read. -/
theorem quiet_latchDelayOver (s : State) : Quiet s s.latchDelayOver := by
  unfold State.latchDelayOver State.closeLatch State.startLatchCheck
  split
  · dsimp only; split <;> exact ⟨rfl, rfl, rfl, rfl, rfl, rfl, fun _ => rfl⟩
  · exact ⟨rfl, rfl, rfl, rfl, rfl, rfl, fun _ => rfl⟩

theorem quiet_latchInserted (s : State) : Quiet s s.latchInserted := by
  unfold State.latchInserted State.openLatch State.startLatchCheck
  dsimp only
  (repeat' split) <;> exact ⟨rfl, rfl, rfl, rfl, rfl, rfl, fun _ => rfl⟩

theorem Quiet.trans (h : Quiet s t) (k : Quiet t u) : Quiet s u :=
  ⟨k.signal.trans h.signal, k.own.trans h.own, k.pattern.trans h.pattern, k.line.trans h.line, k.faults.trans h.faults,
    k.running.trans h.running, fun hr => (k.status (h.running.trans hr)).trans (h.status hr)⟩

/-- A level taken on a due change, as the running blocks take it, or for itself. -/
theorem Answers.level {i : Input} {u : State} (hi : i = .coachPresent ∨ i = .plugLatched)
    (hu : Moves False ((s.takeLevel i).heatWatched i) u) :
    Answers s (if s.changeDue i then (if s.running then conclude u else .next (s.takeLevel i)) else .next s) := by
  refine ite (fun hdue => ?_) (same s)
  split
  · exact run ((Run.refl.turned hi hdue).moved hu)
  · exact ⟨_, rfl, .levelled (Bool.not_eq_true _ ▸ ‹¬_›)⟩

/-- A millisecond on an empty queue. -/
theorem tick_answers (s : State) : Answers s s.tick := by
  unfold State.tick
  split
  · refine ⟨_, rfl, .quiet (Moves.refl.clock _ fun hb => ?_) ⟨rfl, rfl, rfl, rfl, rfl, rfl, fun _ => rfl⟩⟩
    obtain ⟨h1, h2, h3, h4, -, h6⟩ := hb
    exact ⟨h1, h2, h3, h4, by rw [updClock_clock]; dsimp only; omega, h6⟩
  · exact .moved Moves.refl.secondEvent

open Answers in
/-- Every command answers with one of the effects. -/
theorem exec_answers (c : Instr) (s : State) : Answers s (exec c s) := by
  cases c with
  | powerOnReset => exact ⟨_, rfl, .reset⟩
  | configReadDone image =>
    refine ite (fun hs => ?_) (same s)
    have hn : s.start.station ≠ .operating := by rw [hs]; decide
    split
    · exact moved (Moves.refl.accept hn)
    · exact moved (Moves.refl.reject hn)
  | listenInEnd =>
    refine guarded fun h => Moves.ite (Moves.refl.startKept _) (Moves.refl.join ?_)
    rw [h.1]; decide
  | staggerTimerEnd => exact guarded fun _ => Moves.refl.resend
  | secondEvent => exact moved Moves.refl.secondEvent
  | clockStale => exact guarded fun _ => Moves.refl.clock _ id
  | timeNotice => exact receive fun _ => Moves.refl.takeTime
  | laneNotice => exact receive fun _ => Moves.refl.takeLane
  | demandNotice => exact receive fun _ => Moves.refl.takeDemand
  | supplyNotice => exact receive fun _ => Moves.refl.takeSupply
  | planNotice => exact receive fun _ => Moves.refl.takePlan
  | faultClearNotice => exact receive fun _ => Moves.refl.takeClear
  | queryNotice => exact receive fun _ => Moves.refl.takeQuery
  | helloNotice => exact receive fun _ => Moves.refl.takeHello
  | restartNotice => exact receive fun _ => Moves.refl.restart
  | noticeNotDispatched kind sender target payload =>
    refine ite (fun h => ?_) (same s)
    have := receive (s := s) (k := kind) (a := sender) (b := target) (p := payload) (f := id) fun _ => .refl
    rwa [if_pos h.1] at this
  | receiveFault => exact guarded fun _ => Moves.refl.countFault
  | presentItem =>
    refine ite (fun _ => ?_) (same s)
    split
    · exact moved Moves.refl.present
    · exact same s
  | noticeSent =>
    show Answers s (execNoticeSent s); unfold execNoticeSent; split
    · exact moved Moves.refl.sent
    · exact same s
  | arbitrationLost =>
    show Answers s (execArbitrationLost s); unfold execArbitrationLost; split
    · exact moved (Moves.ite (Moves.refl.lineKept _) Moves.refl.restartSeries)
    · exact same s
  | transmissionFailure =>
    show Answers s (execTransmissionFailure s); unfold execTransmissionFailure; split
    · exact moved Moves.refl.failed.barredSince
    · exact same s
  | statusRefresh => exact guarded fun _ => Moves.refl.writeStatus
  | demandRecordAged => exact guarded fun _ => Moves.refl.ageDemand.dropOldEntry
  | laneRecordAged => exact guarded fun _ => Moves.refl.ageLane.dropOldEntry
  | entryAged => exact guarded fun _ => Moves.refl.removeEntry
  | viewFullClear => exact guarded fun _ => Moves.refl.viewKept _
  | unseenDemandClear => exact guarded fun _ => Moves.refl.viewKept _
  | contestedMarkExpiry => exact guarded fun _ => (Moves.refl.viewKept _).markLeft
  | demandRefresh => exact guarded fun _ => Moves.refl.announce
  | cabinPollDue => exact guarded fun _ => Moves.refl.pollCabin.heatKept _
  | stageRise => exact guarded fun h => Moves.refl.riseOne (riseOpen_target (riseDue_open h.2))
  | blindEntry =>
    refine ite (fun h => moved (Moves.refl.enterBlind ?_)) (guarded fun _ => .refl)
    have hb := h.2
    simp only [State.blindDue, Bool.and_eq_true, Bool.or_eq_true, beq_iff_eq] at hb
    obtain ⟨e | e, -⟩ := hb <;> rw [e] <;> rfl
  | blindTimeout =>
    exact guarded fun _ => Moves.refl.blindOver
  | exchangeStart => exact guarded fun h => Moves.refl.startExchange (exchangeDue_exchange h.2)
  | coachResponse parityGood frame =>
    show Answers s (execCoachResponse parityGood frame s); unfold execCoachResponse; split
    · exact guarded fun _ => Moves.refl.heard ‹_›
    · exact same s
  | responseTimeout =>
    show Answers s (execResponseTimeout s); unfold execResponseTimeout; split
    · exact guarded fun _ => Moves.refl.failTry (Option.filter_eq_some_iff.1 ‹_›).1
    · exact same s
  | tryRetry =>
    show Answers s (execTryRetry s); unfold execTryRetry; split
    · exact guarded fun _ => Moves.refl.retryTry (Option.filter_eq_some_iff.1 ‹_›).1
    · exact same s
  | wakeDue => exact guarded fun _ => Moves.refl.wakeNow
  | periodicDue => exact guarded fun _ => Moves.refl.periodicNow
  | faultSummaryRefresh => exact guarded fun _ => Moves.refl.summary
  | windowSkipEnd =>
    show Answers s (execWindowSkipEnd s); unfold execWindowSkipEnd; split
    · exact guarded fun _ => Moves.refl.lamp _
    · exact same s
  | baselineWindowClose samples =>
    refine ite (fun _ => ?_) (same s)
    have h1 := Moves.refl (d := False) (s := s) |>.lampTake (b := true) (xs := samples)
    have h2 := quiet_lampTake s true samples
    split
    · rename_i e; rw [e] at h1; exact moved h1.baselineClosed
    · rename_i e; rw [e] at h1 h2; exact ⟨_, rfl, .quiet h1 h2⟩
  | groupWindowClose samples =>
    refine ite (fun _ => ?_) (same s)
    have h1 := Moves.refl (d := False) (s := s) |>.lampTake (b := false) (xs := samples)
    have h2 := quiet_lampTake s false samples
    split
    · rename_i e; rw [e] at h1; exact moved h1.groupClosed
    · rename_i e; rw [e] at h1 h2; exact ⟨_, rfl, .quiet h1 h2⟩
  | rawInputChange input level =>
    have hl {p : Pin} (hp : p.level = (s.bay.pin input).level) := (setPin_levels s.bay input p (.inr hp)).2
    exact ite (fun _ => same s) ⟨_, rfl, .quiet Moves.refl.rawChange (quiet_setPin s input _ (hl rfl))⟩
  | coachPresentChange => exact level (.inl rfl) Moves.refl.coachTaken
  | plugInsertedChange =>
    have h1 : Moves False s (s.takeLevel .plugInserted) := Moves.refl.takeLevel (by decide)
    refine ite (fun _ => ?_) (same s)
    refine ite (fun _ => moved h1.plugChanged) ⟨_, rfl, .quiet h1.latchInserted ?_⟩
    have h2 : Quiet s (s.takeLevel .plugInserted) := quiet_setPin s .plugInserted _ rfl
    exact h2.trans (quiet_latchInserted _)
  | plugLatchedChange => exact level (.inr rfl) (Moves.refl.departWatched.latchContact)
  | departRequestPress =>
    have h1 : Moves False s (s.takeLevel .departRequest) := Moves.refl.takeLevel (by decide)
    refine ite (fun _ => ?_) (same s)
    exact ite (fun _ => moved h1.pressed) ⟨_, rfl, .quiet h1 (quiet_setPin s .departRequest _ rfl)⟩
  | departRequestRelease =>
    refine ite (fun _ => ?_) (same s)
    exact ⟨_, rfl, .quiet (Moves.refl.takeLevel (by decide)) (quiet_setPin s .departRequest _ rfl)⟩
  | heaterProvingChange =>
    have h1 : Moves False s (s.takeLevel .heaterProving) := Moves.refl.takeLevel (by decide)
    refine ite (fun _ => ?_) (same s)
    exact ite (fun _ => moved h1.provingChanged) ⟨_, rfl, .quiet h1 (quiet_setPin s .heaterProving _ rfl)⟩
  | provingWindowEnd => exact guarded fun _ => (Moves.refl.bayKept _).judgeProving
  | latchCloseDelayEnd =>
    refine ite (fun _ => ?_) (same s)
    exact ite (fun _ => moved Moves.refl.latchDelayOver) ⟨_, rfl, .quiet Moves.refl.latchDelayOver (quiet_latchDelayOver s)⟩
  | latchCheckTimeout => exact guarded fun _ => Moves.refl.latchCheckOver
  | probeSample => exact guarded fun _ => Moves.refl.takeProbe
  | claimRetryDelayEnd => exact guarded fun _ => (Moves.refl.depart _).judgeAgain
  | holdOffExpiry => exact guarded fun _ => Moves.refl.laneWon
  | heldRefresh => exact guarded fun _ => Moves.refl.writeHeld
  | unlatchWaitExpiry => exact guarded fun _ => Moves.refl.writeFault.fallBack
  | clearanceTimeout => exact guarded fun _ => Moves.refl.fallBack
  | laneTransitExpiry => exact guarded fun _ => Moves.refl.transitOver
  | refusalIndicationEnd => exact guarded fun _ => Moves.refl.depart _

/-! ### The limits -/

theorem reset_lineBounds : State.reset.LineBounds := ⟨by decide, by decide, by decide, by decide, by decide, nofun⟩
theorem reset_viewBounds : State.reset.ViewBounds := ⟨by decide, .nil⟩
theorem reset_tableBounds : State.reset.TableBounds := ⟨by decide, .nil⟩
theorem reset_planBounds : State.reset.PlanBounds := ⟨by decide, .nil, nofun⟩
theorem reset_queueBounds : State.reset.QueueBounds := ⟨by decide, fun _ => Nat.zero_le _⟩
theorem reset_learnedBounds : State.reset.LearnedBounds := ⟨by decide, .nil, nofun⟩
theorem reset_heaterBounds : State.reset.HeaterBounds := ⟨Nat.le_refl 0, rfl, nofun, nofun⟩
theorem reset_figureBounds : State.reset.FigureBounds := by unfold State.FigureBounds; decide
theorem reset_shown : State.reset.Shown := ⟨rfl, .inr ⟨rfl, rfl⟩, nofun⟩

/-- A step answers with an effect on the state whose front command it has taken. -/
theorem step_effect (h : step s = .next t) : ∃ r, Effect { s with pending := r } t := by
  unfold step at h
  split at h
  · obtain ⟨u, hu, he⟩ := tick_answers s
    rw [hu] at h; cases h
    exact ⟨s.pending, he⟩
  · rename_i c rest _
    obtain ⟨u, hu, he⟩ := exec_answers c { s with pending := rest }
    rw [hu] at h; cases h
    exact ⟨rest, he⟩

/-- A step keeps a property that every chain and power-on keep and that does not read the queue. -/
theorem step_keeps {P : State → Prop} (hP : ∀ {d : Prop} {s t}, Moves d s t → P s → P t) (hr : ∀ s, P s → P s.powerOn)
    (hq : ∀ s r, P s → P { s with pending := r }) (hs : P s) (h : step s = .next t) : P t := by
  obtain ⟨r, he⟩ := step_effect h
  exact he.keeps hP hr (hq s r hs)

/-- The signal's last branch lights GREEN only over a held lane (R162). -/
theorem signalPattern_green (h : s.signalPattern.green = true) : s.depart.own = .held := by
  revert h; unfold State.signalPattern; dsimp only
  (repeat' split) <;> intro h <;> simp_all [Pattern.green]

/-- The registers the close writes after the summary are read by neither the signal nor the STATUS content. -/
theorem statusClose_content (s : State) : s.statusClose.line.status.content = some s.statusContent := by
  unfold State.statusClose; split
  · assumption
  · rfl

theorem summaryClose_copy (h : s.CopyKept) :
    s.summaryClose.line.summary.content = some s.faults.summary ∨
      s.summaryClose.line.summary.content = none ∧ s.faults.summary = Summary.blank := by
  unfold State.summaryClose; split
  · rename_i e
    rw [← e]; exact h
  · exact .inl rfl

theorem signalClose_signal (s : State) : s.signalClose.bay.signal = s.signalPattern := by
  unfold State.signalClose; split
  · assumption
  · rfl

theorem finish_signal (s : State) : (finish s).bay.signal = (finish s).signalPattern := by
  have shown (u : State) : u.signalClose.bay.signal = u.signalClose.signalPattern := by
    rw [signalClose_signal]
    obtain ⟨a, b, e⟩ := signalClose_form u
    rw [e]; rfl
  unfold finish; dsimp only
  split <;> exact shown _

/-- What the close shows (R131, R162, R168). -/
theorem finish_shown (h : s.CopyKept) : (finish s).Shown := by
  have hc : (finish s).CopyKept := (Moves.refl (d := True)).finish.copyKept h
  refine ⟨finish_signal s, hc, ?_⟩
  unfold finish; dsimp only
  split
  · intro _
    obtain ⟨a, b, e⟩ := signalClose_form s.fresh.noteClose.summaryClose.statusClose
    obtain ⟨f, g, e2⟩ := statusClose_form s.fresh.noteClose.summaryClose
    obtain ⟨x, y, z, e3⟩ := summaryClose_form s.fresh.noteClose
    have h1 := statusClose_content s.fresh.noteClose.summaryClose
    have h2 := summaryClose_copy (s := s.fresh.noteClose) h
    rw [e]; rw [e2] at h1 ⊢; rw [e3] at h1 h2 ⊢
    exact ⟨h1, h2⟩
  · rename_i hr
    obtain ⟨a, b, e⟩ := signalClose_form s.fresh.noteClose
    rw [e]
    exact fun h => absurd h hr

/-! ### HEAT's watch set (R60, R155) -/

/-- The stage count's limits and the watch set together. -/
def Guarded (s : State) : Prop := s.HeaterBounds ∧ s.WatchKept

theorem Moves.guarded (h : Moves False s t) (hs : Guarded s) : Guarded t :=
  ⟨h.heaterBounds hs.1, h.calm.watchKept hs.2⟩

/-- A state that draws nothing owes HEAT no watch set. -/
theorem watchKept_of_idle (h : s.heat.state.drawing = false) : s.WatchKept := fun e => by rw [h] at e; cases e

/-- HEAT's event leaves the drawing states. -/
theorem heatDisturbed_state (s : State) : s.heatDisturbed.heat.state.drawing = false :=
  congrArg HeatState.drawing (Moves.heatLeave_state s .stopped)

/-- A watch set registered armed is kept; one that does not match is HEAT's event at once. -/
theorem watchKept_registered (s : State) :
    (if (s.newWatch Watch.heat.pairs).armed then s.updBay fun b => { b with heatWatch := some (s.newWatch Watch.heat.pairs) }
      else (s.updBay fun b => { b with heatWatch := some (s.newWatch Watch.heat.pairs) }).heatDisturbed).WatchKept := by
  split
  · rename_i ha
    intro _
    refine ⟨congrArg some (congrArg (Watch.mk _) ha), ?_⟩
    simpa [State.newWatch, State.watchMatches, State.level, Bay.pin, Watch.heat] using ha
  · exact watchKept_of_idle (heatDisturbed_state _)

/-- Drawing begins with the watch set armed, or stops at once (R49, R60). -/
theorem heatDraw_watchKept (s : State) : s.heatDraw.WatchKept := watchKept_registered _

/-- One condition judged keeps the watch set. -/
theorem stepRule_guarded (h : stepRule s = some t) (hs : Guarded s) : Guarded t := by
  obtain ⟨h1, h2, rfl⟩ | ⟨h1, rfl⟩ | h1 := (Moves.refl (d := False)).stepRule h
  · exact ⟨((Moves.refl (d := True)).heatSchedule trivial h1 h2).heaterBounds hs.1, watchKept_of_idle rfl⟩
  · exact ⟨((Moves.refl (d := True)).heatDraw trivial h1).heaterBounds hs.1, heatDraw_watchKept _⟩
  · exact h1.guarded hs

theorem settle_guarded (n : Nat) : ∀ {s : State}, Guarded s → Guarded (settle n s) := by
  induction n with
  | zero => exact fun h => h
  | succ n ih =>
    intro s h
    unfold settle; split
    · exact ih (stepRule_guarded ‹_› h)
    · exact h

theorem settled_guarded (hs : Guarded s) : Guarded (settled s) := by
  unfold settled; split
  · exact settle_guarded _ hs
  · exact hs

/-- A watched input that turns while the set is armed is HEAT's event: pre-heat stops (R60). -/
theorem heatWatched_watchKept {i : Input} (hi : i = .coachPresent ∨ i = .plugLatched) (hdue : s.changeDue i = true)
    (hs : s.WatchKept) : ((s.takeLevel i).heatWatched i).WatchKept := by
  cases hd : s.heat.state.drawing with
  | false =>
    apply watchKept_of_idle
    unfold State.heatWatched; dsimp only
    split
    · exact heatDisturbed_state _
    · exact hd
  | true =>
    obtain ⟨hw, hl, hc⟩ := hs hd
    simp only [State.changeDue, Bool.and_eq_true, bne_iff_ne] at hdue
    apply watchKept_of_idle
    have hev : (State.judgeWatch (s.takeLevel i) (s.takeLevel i).bay.heatWatch i).2 = true := by
      obtain rfl | rfl := hi
      · have e : s.bay.coach.raw = false := by simpa [Bay.pin, hc] using hdue.2
        simp [State.judgeWatch, State.takeLevel, Bay.setPin, hw, Watch.heat, State.watchMatches, State.level, Bay.pin, e]
      · have e : s.bay.latched.raw = false := by simpa [Bay.pin, hl] using hdue.2
        simp [State.judgeWatch, State.takeLevel, Bay.setPin, hw, Watch.heat, State.watchMatches, State.level, Bay.pin, e]
    unfold State.heatWatched; dsimp only
    rw [if_pos hev]
    exact heatDisturbed_state _

theorem Run.guarded (h : Run s u) (hs : Guarded s) : Guarded u := by
  induction h with
  | refl => exact hs
  | moved h m ih => exact m.guarded ih
  | settled h ih => exact settled_guarded ih
  | turned h hi hdue ih =>
    exact ⟨((Moves.refl.takeLevelAny _).heatWatchedAny _).heaterBounds ih.1, heatWatched_watchKept hi hdue ih.2⟩

theorem idle_of_not_running (h : s.HeaterBounds) (hr : s.running = false) : s.heat.state.drawing = false := by
  rw [Bool.eq_false_iff]
  intro e
  have := h.2.2.2 (drawing_computing e)
  simp only [State.operating, beq_iff_eq] at this
  rw [State.running, this] at hr; cases hr

theorem Effect.guarded (h : Effect s t) (hs : Guarded s) : Guarded t := by
  cases h with
  | closed h => exact (Moves.refl.finish).guarded (h.guarded hs)
  | quiet h _ => exact h.guarded hs
  | levelled hr =>
    have idle : s.heat.state.drawing = false := idle_of_not_running hs.1 hr
    exact ⟨(Moves.refl.takeLevelAny _).heaterBounds hs.1, watchKept_of_idle idle⟩
  | reset => exact ⟨reset_heaterBounds, watchKept_of_idle rfl⟩

/-! ### What is shown -/

theorem Effect.copyKept (h : Effect s t) (hs : s.CopyKept) : t.CopyKept := 
  h.keeps Moves.copyKept (fun _ _ => reset_shown.2.1) hs

/-- The signal of a station whose blocks do not work reads no input (R162). -/
theorem signalPattern_takeLevel (i : Input) (h : s.running = false) : (s.takeLevel i).signalPattern = s.signalPattern := by
  have hx : (s.takeLevel i).start = s.start := rfl
  unfold State.signalPattern
  rw [hx]
  cases hs : s.start.station <;> simp_all [State.running]

theorem Effect.shown (h : Effect s t) (hs : s.Shown) : t.Shown := by
  cases h with
  | closed h => exact finish_shown (h.keeps Moves.copyKept hs.2.1)
  | quiet h hq =>
    refine ⟨(hq.signal.trans hs.1).trans hq.pattern.symm, h.copyKept hs.2.1, fun hr => ?_⟩
    rw [hq.running] at hr
    rw [hq.line, hq.faults, hq.status hr]
    exact hs.2.2 hr
  | levelled hr =>
    refine ⟨?_, hs.2.1, fun h => absurd (hr.symm.trans h) (by decide)⟩
    exact (setPin_bay _ _ _).2.2.1.trans (hs.1.trans (signalPattern_takeLevel _ hr).symm)
  | reset => exact reset_shown

theorem Effect.greenHeld (h : Effect s t) (hs : s.GreenHeld) : t.GreenHeld := by
  cases h with
  | @closed u h => exact fun hg => signalPattern_green (finish_signal u ▸ hg)
  | quiet h hq => intro hg; rw [hq.signal] at hg; exact hq.own.trans (hs hg)
  | levelled hr => intro hg; exact hs ((setPin_bay _ _ _).2.2.1 ▸ hg)
  | reset => exact nofun

end Sys2Proof.Machine

open Sys2Proof Sys2Proof.Machine

/-- Settles O6: every chain of moves keeps the limits of LINE and CLOCK. -/
theorem lineLimitsKept : Obligations.LineLimitsKept := fun _ _ hs h =>
  step_keeps Moves.lineBounds (fun _ _ => reset_lineBounds) (fun _ _ h => h) hs h

/-- Settles O7: every chain of moves keeps the view's limits. -/
theorem viewLimitsKept : Obligations.ViewLimitsKept := fun _ _ hs h =>
  step_keeps Moves.viewBounds (fun _ _ => reset_viewBounds) (fun _ _ h => h) hs h

/-- Settles O8: every chain of moves keeps the table's limits. -/
theorem tableLimitsKept : Obligations.TableLimitsKept := fun _ _ hs h =>
  step_keeps Moves.tableBounds (fun _ _ => reset_tableBounds) (fun _ _ h => h) hs h

/-- Settles O9: every chain of moves keeps the plan list's limits. -/
theorem planLimitsKept : Obligations.PlanLimitsKept := fun _ _ hs h =>
  step_keeps Moves.planBounds (fun _ _ => reset_planBounds) (fun _ _ h => h) hs h

/-- Settles O10: every chain of moves keeps the queue's limits. -/
theorem queueLimitsKept : Obligations.QueueLimitsKept := fun _ _ hs h =>
  step_keeps Moves.queueBounds (fun _ _ => reset_queueBounds) (fun _ _ h => h) hs h

/-- Settles O11: every chain of moves keeps the learned table's limits. -/
theorem learnedLimitsKept : Obligations.LearnedLimitsKept := fun _ _ hs h =>
  step_keeps Moves.learnedBounds (fun _ _ => reset_learnedBounds) (fun _ _ h => h) hs h

/-- Settles O12: every chain of moves keeps stages and figures; the watch set is armed where drawing begins, and its event ends
drawing. -/
theorem heaterLimitsKept : Obligations.HeaterLimitsKept := by
  refine ⟨fun _ _ hs h => step_keeps Moves.heaterBounds (fun _ _ => reset_heaterBounds) (fun _ _ h => h) hs h,
    fun _ _ hs h => step_keeps Moves.figureBounds (fun _ _ => reset_figureBounds) (fun _ _ h => h) hs h,
    fun s t hb hw h => ?_⟩
  obtain ⟨r, he⟩ := step_effect h
  obtain ⟨hb', hw'⟩ := he.guarded ⟨hb, hw⟩
  exact ⟨hw', fun hc => (hw' (hb'.2.2.1 hc)).2.1⟩

/-- Settles O13: the close sets the signal to its pattern, and what does not close leaves signal and lane. -/
theorem greenOnlyWhileHeld : Obligations.GreenOnlyWhileHeld := fun _ _ hs h => by
  obtain ⟨_, he⟩ := step_effect h
  exact he.greenHeld hs

/-- Settles O14: the close writes what has moved, and what does not close moves nothing shown. -/
theorem announcementsFollow : Obligations.AnnouncementsFollow := fun _ _ hs h => by
  obtain ⟨_, he⟩ := step_effect h
  exact he.shown hs

/-- Settles O4: a command's effect leaves the queue. -/
theorem commandsAnswerAndLeaveTheQueue : Obligations.CommandsAnswerAndLeaveTheQueue := fun c s => by
  obtain ⟨t, h, he⟩ := exec_answers c s
  refine ⟨t, h, he.keeps (P := fun t => t.pending = s.pending) (fun m h => m.pending.trans h) (fun _ h => h) rfl⟩

/-- Settles O1: a step is `exec` on the front command. -/
theorem stepTakesTheFront : Obligations.StepTakesTheFront := fun _ _ _ => rfl

/-- Settles O2: on an empty queue a step is a tick. -/
theorem emptyQueueLetsTimePass : Obligations.EmptyQueueLetsTimePass := by
  intro s hq
  have tick : step s = s.tick := by unfold step; rw [hq]
  rw [tick]
  exact ⟨fun h => if_pos h, fun h => if_neg (by omega)⟩

/-- Settles O3: the registers of `State.reset` read off, its limits those every step keeps. -/
theorem resetState : Obligations.ResetState := by
  refine ⟨by decide, by decide, by decide, by decide, by decide, by decide, by decide, by decide, by decide, by decide,
    by decide, by decide, reset_lineBounds, reset_viewBounds, reset_tableBounds, reset_planBounds, reset_queueBounds,
    reset_learnedBounds, reset_heaterBounds, reset_figureBounds, watchKept_of_idle rfl, nofun, reset_shown, rfl⟩

/-- Settles O5: power-on is the reset state over what is the outside's. -/
theorem powerOnResets : Obligations.PowerOnResets := fun _ => rfl

end

