-- ==== Sys2Proof/Proofs/Effects.lean ====
section
namespace Sys2Proof.Machine

/-! ## From a command's arm to its effect -/

theorem does_of {o : Host.Outcome State Fault Refusal} {u : State} (h : o = conclude u) : Does o u := h ▸ conclude_does u

/-- A command whose guard holds. -/
theorem does_guarded {c : Prop} [Decidable c] {v u : State} {o : Host.Outcome State Fault Refusal} (hc : c) (e : v = u) :
    Does (if c then conclude v else o) u := does_of (by rw [if_pos hc, e])

/-- What a concluded command leaves in the stable registers, and where nothing under watch calls for anything. -/
theorem concludes {o : Host.Outcome State Fault Refusal} {v u : State} {p : Prop} (ho : o = conclude v)
    (hs : v.stable = u.stable) (he : p → v = u) :
    ∃ t, o = .next t ∧ t.stable = u.stable ∧ (p → (u.running = true → u.Settled) → ClosedFrom u t) := by
  obtain ⟨t, h1, h2, h3⟩ := conclude_does v
  exact ⟨t, ho.trans h1, h2.trans hs, fun hp => he hp ▸ h3⟩

theorem expired_of_le {s : State} {e : Nat} (h : e ≤ s.now) : s.expired (some e) = true := decide_eq_true h

/-- A notice's arm where the notice reaches its block. -/
theorem conclude_of_hears {s : State} {kind : Nat} {sender target : Byte} {payload : List Byte} (take : State → State)
    (h : s.Hears kind sender target payload) (hd : dispatched kind sender.toNat payload = true) :
    (if s.running then conclude (s.receive kind sender target payload take) else .next s) =
      conclude (take (settled s.counted)) := by
  rw [if_pos h.1, receive_of_hears take h hd]

/-- The effect of a notice that reaches its block. -/
theorem doesAfter_of_hears {s u : State} {kind : Nat} {sender target : Byte} {payload : List Byte} (take : State → State)
    (h : s.Hears kind sender target payload) (hd : dispatched kind sender.toNat payload = true)
    (hs : (take (settled s.counted)).stable = u.stable) (hv : take s.counted = u) :
    DoesAfter (if s.running then conclude (s.receive kind sender target payload take) else .next s) s.counted u :=
  doesAfter_of take (conclude_of_hears take h hd) hs settled_counted fun _ => hv

/-- A notice that reaches its block, its effect under a condition. -/
theorem hears_concludes {s u : State} {p : Prop} {kind : Nat} {sender target : Byte} {payload : List Byte}
    (take : State → State) (h : s.Hears kind sender target payload) (hd : dispatched kind sender.toNat payload = true)
    (hs : (take (settled s.counted)).stable = u.stable) (hv : p → take s.counted = u) :
    ∃ t, (if s.running then conclude (s.receive kind sender target payload take) else .next s) = .next t ∧
      t.stable = u.stable ∧ (p → s.counted.Settled → u.Settled → ClosedFrom u t) := by
  obtain ⟨t, h1, h2, h3⟩ := conclude_does (take (settled s.counted))
  refine ⟨t, (conclude_of_hears take h hd).trans h1, h2.trans hs, fun hp hc hu => ?_⟩
  rw [settled_counted hc, hv hp] at h3
  exact h3 fun _ => hu

theorem byte_toNat_ne_zero {b : Byte} (h : b ≠ 0) : b.toNat ≠ 0 := fun e => h (BitVec.eq_of_toNat_eq e)

/-! ### Judging the watched conditions -/

theorem departRule_eq_none (s : State) : s.departRule = none ↔
    s.faults.report = none ∧ (s.phaseIs Phase.departing && (!s.lineGood || s.line.twin)) = false ∧ s.holdFails = none ∧
      s.heldDue = false ∧ (s.inPhase .requested && s.linkUp) = false ∧
      (s.inPhase .releasing && s.link.state == .halted && s.depart.unlatchWait.isNone) = false := by
  unfold State.departRule
  split
  · simp [*]
  · split
    · simp [*]
    · split
      · simp [*]
      · (repeat' split) <;> simp_all [Option.isSome_iff_ne_none]

theorem linkRule_eq_none (s : State) : s.linkRule = none ↔
    ¬(s.link.state = .halted ∧ s.start.wakeAfterHalt = true) ∧
      ¬(s.link.state = .halted ∧ s.link.resume = true ∧ s.level .plugLatched = true) := by
  unfold State.linkRule; (repeat' split) <;> simp_all

theorem readyRule_eq_none (s : State) : s.readyRule = none ↔
    (s.inPhase .preparing && s.readyEntry) = false ∧ (s.inPhase .ready && !s.readyStay) = false ∧
      (s.lamp.recheck && s.phaseIs Phase.matched) = false ∧ s.lampDue = false := by
  unfold State.readyRule; (repeat' split) <;> simp_all

theorem stepRule_eq_none (s : State) : stepRule s = none ↔
    s.departRule = none ∧ s.linkRule = none ∧ s.readyRule = none ∧ s.heatRule = none := by
  unfold stepRule; (repeat' split) <;> simp_all

/-- No condition of DEPART, PLANS, LINK, readiness or LAMP calls for anything. -/
def State.RestCalm (s : State) : Prop := s.departRule = none ∧ s.linkRule = none ∧ s.readyRule = none

theorem stepRule_of_restCalm {s : State} (h : s.RestCalm) : stepRule s = s.heatRule := by
  unfold stepRule; rw [h.1, h.2.1, h.2.2]

theorem State.Settled.restCalm {s : State} (h : s.Settled) : s.RestCalm := by
  obtain ⟨h1, h2, h3, -⟩ := (stepRule_eq_none _).1 h
  exact ⟨(departRule_eq_none _).2 ((departRule_eq_none _).1 h1 :), (linkRule_eq_none _).2 ((linkRule_eq_none _).1 h2 :),
    (readyRule_eq_none _).2 ((readyRule_eq_none _).1 h3 :)⟩

/-- The rest of the conditions reads neither the grant nor whether a computation is called for. -/
theorem State.RestCalm.of_grant {s : State} {c : Bool} {x : Share} (h : s.RestCalm) :
    ({ s with heat := { s.heat with compute := c }, share := x } : State).RestCalm := by
  obtain ⟨h1, h2, h3⟩ := h
  exact ⟨(departRule_eq_none _).2 ((departRule_eq_none _).1 h1 :), (linkRule_eq_none _).2 ((linkRule_eq_none _).1 h2 :),
    (readyRule_eq_none _).2 ((readyRule_eq_none _).1 h3 :)⟩

theorem heatRule_eq_none (s : State) : s.heatRule = none ↔
    ¬(s.heat.state = .off ∧ s.heatAllowed = true) ∧ s.heatBarred = false ∧ s.demandDue = false ∧ s.heat.compute = false ∧
      s.grantDue = false ∧ s.enableDue = false ∧ s.drawDue = false ∧ s.riseDue = false ∧
      (s.heat.waiting.isSome && s.lamp.window.isNone) = false := by
  unfold State.heatRule; (repeat' split) <;> simp_all [Option.isSome_iff_ne_none]

theorem settled_iff (s : State) : s.Settled ↔ s.RestCalm ∧ s.fresh.heatRule = none := by
  refine ⟨fun h => ⟨h.restCalm, ((stepRule_eq_none _).1 h).2.2.2⟩, fun h => ?_⟩
  exact (stepRule_of_restCalm (h.1.of_grant (c := s.heat.compute) (x := s.fresh.share))).trans h.2

/-- A computation called for outside SCHEDULED, ANNOUNCED and the drawing states is struck off (R51). -/
theorem compute_idle {s : State} (h : s.heat.state.computing = false) :
    s.compute = { s with heat := { s.heat with compute := false } } := by
  unfold State.compute State.canCompute
  rw [h]
  split <;> rfl

/-- One condition judged, and the rest. -/
theorem settle_step {s t : State} (n : Nat) (h : stepRule s = some t) : settle (n + 1) s = settle n t := by
  rw [settle, h]

/-- In OFF or STOPPED, where pre-heat may not begin and nothing else is called for but a computation or a grant. -/
structure State.Idle (s : State) : Prop where
  rest : s.RestCalm
  idle : s.heat.state.computing = false
  barred : ¬(s.heat.state = .off ∧ s.heatAllowed = true)
  silent : s.share.announced = false

/-- The state on the way through the judging of computation and grant. -/
def State.judging (s : State) (compute : Bool) (grant rounds : Nat) : State :=
  { s with heat := { s.heat with compute := compute }, share := { s.share with grant := grant, rounds := rounds } }

/-- The state with the computation done and the grant at 0. -/
def State.idled (s : State) (rounds : Nat) : State := s.judging false 0 rounds

section
variable {s : State}

theorem idle_ownRequest (h : s.heat.state.computing = false) : s.ownRequest = 0 := by
  revert h; unfold State.ownRequest; cases s.heat.state <;> simp [HeatState.computing]

theorem idle_computedGrant (h : s.heat.state.computing = false) : s.computedGrant = 0 := by
  unfold State.computedGrant; dsimp only
  rw [idle_ownRequest h]
  split <;> simp [computeGrant]

theorem State.Idle.demand (h : s.Idle) : s.demandDue = false := by
  unfold State.demandDue; rw [if_pos (idle_ownRequest h.idle)]; exact h.silent

theorem State.Idle.bars (h : s.Idle) : s.heatBarred = false := by
  have := h.idle
  unfold State.heatBarred
  cases hs : s.heat.state <;> simp_all [HeatState.computing]

theorem State.Idle.of_grant (h : s.Idle) {c : Bool} {g r : Nat} : (s.judging c g r).Idle :=
  ⟨h.rest.of_grant, h.idle, h.barred, h.silent⟩

theorem State.Idle.compute (h : s.Idle) (hc : s.heat.compute = true) :
    stepRule s = some { s with heat := { s.heat with compute := false } } := by
  rw [stepRule_of_restCalm h.rest, State.heatRule, if_neg h.barred, h.bars, h.demand, hc, ← compute_idle h.idle]
  rfl

theorem State.Idle.grant (h : s.Idle) (hc : s.heat.compute = false) (hg : s.share.grant ≠ 0) (hn : s.heat.count = 0) :
    stepRule s = some { s with
      heat := { s.heat with compute := true }, share := { s.share with grant := 0, rounds := s.share.rounds + 1 } } := by
  have hr := idle_ownRequest h.idle
  have due : s.grantDue = true := by
    simp only [State.grantDue, idle_computedGrant h.idle, hr, Bool.and_eq_true, bne_iff_ne, Bool.or_eq_true,
      decide_eq_true_eq]
    exact ⟨hg, .inr (by omega)⟩
  have e : s.regrant = { s with
      heat := { s.heat with compute := true }, share := { s.share with grant := 0, rounds := s.share.rounds + 1 } } := by
    unfold State.regrant; dsimp only
    rw [if_pos (.inr (by omega)), idle_computedGrant h.idle]
    unfold State.setGrant State.capCount
    rw [if_neg (by rw [updShare_heat, updShare_heat, hn]; omega)]
    rfl
  rw [stepRule_of_restCalm h.rest, State.heatRule, if_neg h.barred, h.bars, h.demand, hc, due, e]
  rfl

theorem State.Idle.of_settled {r : Nat} (h : s.heat.state.computing = false) (hs : (s.idled r).Settled) : s.Idle := by
  obtain ⟨h1, h2⟩ := (settled_iff _).1 hs
  obtain ⟨k1, -, k3, -⟩ := (heatRule_eq_none _).1 h2
  refine ⟨h1.of_grant (c := s.heat.compute) (x := s.share), h, k1, ?_⟩
  have h0 : (s.idled r).fresh.ownRequest = 0 := idle_ownRequest h
  unfold State.demandDue at k3
  rwa [if_pos h0] at k3

/-- The settled state with its grant at 0 stays, however often the grant has been judged. -/
theorem stepRule_idled {r k : Nat} (h : s.heat.state.computing = false) (hs : (s.idled r).Settled) :
    stepRule (s.idled k) = none := by
  obtain ⟨-, h2⟩ := (settled_iff _).1 hs
  obtain ⟨k1, k2, k3, k4, -, k6, k7, k8, k9⟩ := (heatRule_eq_none _).1 h2
  have hg : (s.idled k).grantDue = false := by
    have e : (s.idled k).computedGrant = 0 := idle_computedGrant h
    unfold State.grantDue; rw [e]; rfl
  exact (stepRule_of_restCalm ((State.Idle.of_settled h hs).rest.of_grant)).trans
    ((heatRule_eq_none _).2 ⟨k1, k2, k3, k4, hg, k6, k7, k8, k9⟩)

/-- In OFF and STOPPED judging strikes off the computation and takes the grant to 0, and changes nothing else. -/
theorem settled_idled {r : Nat} (hr : s.running = true) (h : s.heat.state.computing = false)
    (hn : s.heat.count = 0 ∨ s.share.grant = 0) (hs : (s.idled r).Settled) : settled s = s.idled 0 := by
  have hi := State.Idle.of_settled h hs
  have done (n k : Nat) : settle n (s.judging false 0 k) = s.idled k := settle_of_none n (stepRule_idled h hs)
  have computed (n g k : Nat) : settle (n + 1) (s.judging true g k) = settle n (s.judging false g k) :=
    settle_step n (hi.of_grant.compute rfl)
  have granted (n g : Nat) (hg : g ≠ 0) (h0 : s.heat.count = 0) : settle (n + 2) (s.judging false g 0) = s.idled 1 := by
    rw [settle_step (n + 1) (hi.of_grant.grant rfl hg h0)]
    exact (computed n 0 1).trans (done n 1)
  have judged : ∃ k, settle Config.settleFuel (s.judging s.heat.compute s.share.grant 0) = s.idled k := by
    by_cases hg : s.share.grant = 0
    · rw [hg]
      cases s.heat.compute with
      | false => exact ⟨0, done _ _⟩
      | true => exact ⟨0, (computed 127 0 0).trans (done _ _)⟩
    · have h0 := hn.resolve_right hg
      cases s.heat.compute with
      | false => exact ⟨1, granted 126 _ hg h0⟩
      | true => exact ⟨1, (computed 127 _ 0).trans (granted 125 _ hg h0)⟩
  obtain ⟨k, e⟩ := judged
  unfold settled
  rw [if_pos hr]
  exact congrArg State.fresh e

end

/-- A command in OFF or STOPPED, but for the computation it calls for and the grant that falls to 0. -/
theorem does_idled {o : Host.Outcome State Fault Refusal} {v u : State} (hr : v.running = true) (ho : o = conclude v)
    (h : v.heat.state.computing = false) (hn : v.heat.count = 0 ∨ v.share.grant = 0) (e : v.idled v.share.rounds = u) :
    Does o u := by
  refine ⟨_, ho, ?_, fun hs => ?_⟩
  · rw [finish_stable, settled_stable, ← e]; rfl
  · rw [settled_idled hr h hn (r := v.share.rounds) (by rw [e]; exact hs (by rw [← e]; exact hr)), ← finish_fresh]
    have e2 : (v.idled 0).fresh = u.fresh := by rw [← e]; rfl
    rw [e2, finish_fresh]
    exact finish_closed u

/-- In OFF and STOPPED a settled state holds a grant of 0 (R73). -/
theorem State.Settled.grant_zero {s : State} (hs : s.Settled) (h : s.heat.state.computing = false) : s.share.grant = 0 := by
  obtain ⟨-, h2⟩ := (settled_iff _).1 hs
  obtain ⟨-, -, -, -, k5, -⟩ := (heatRule_eq_none _).1 h2
  have e : s.fresh.computedGrant = 0 := idle_computedGrant h
  unfold State.grantDue at k5
  rw [e] at k5
  simpa [State.fresh] using k5

/-- A command in OFF or STOPPED, but for the computation it calls for. -/
theorem does_computed {o : Host.Outcome State Fault Refusal} {v u : State} (hr : v.running = true) (ho : o = conclude v)
    (h : v.heat.state.computing = false) (e : { v with heat := { v.heat with compute := false } } = u) : Does o u := by
  refine ⟨_, ho, ?_, fun hs => ?_⟩
  · rw [finish_stable, settled_stable, ← e]; rfl
  · have hu : u.Settled := hs (by rw [← e]; exact hr)
    have hg : v.share.grant = 0 := by rw [← e] at hu; exact hu.grant_zero h
    have e2 : v.idled v.share.rounds = u := by rw [← e]; unfold State.idled State.judging; rw [← hg]
    have hd := does_idled hr (rfl : conclude v = conclude v) h (.inr hg) e2
    obtain ⟨t, h1, -, h3⟩ := hd
    cases h1
    exact h3 hs

end Sys2Proof.Machine
end

