-- ==== Sys2Proof/Proofs/StartClock.lean ====
section
namespace Sys2Proof.Machine

/-! ## START and CLOCK -/

theorem accept_eq (s : State) (c : Configuration) : s.accept c =
    { s with
      cfg := some c,
      start := { s.start with station := .listenIn, listenIn := some (s.now + 20000) },
      share := { s.share with live := c.allowance },
      link := { s.link with profile := c.wakeProfile },
      bay := { s.bay with
        debouncing := true,
        coach := s.bay.coach.started (s.now + c.debounce.getD 0 0),
        inserted := s.bay.inserted.started (s.now + c.debounce.getD 1 0),
        latched := s.bay.latched.started (s.now + c.debounce.getD 2 0),
        request := s.bay.request.started (s.now + c.debounce.getD 3 0),
        proving := s.bay.proving.started (s.now + c.debounce.getD 4 0) } } := rfl

/-- Without a configuration every input is debounced at 500 ms (R154). -/
theorem reject_eq (s : State) (h : s.cfg = none) : s.reject =
    { s with
      start := { s.start with station := .configFault },
      bay := { s.bay with
        debouncing := true,
        coach := s.bay.coach.started (s.now + 500), inserted := s.bay.inserted.started (s.now + 500),
        latched := s.bay.latched.started (s.now + 500), request := s.bay.request.started (s.now + 500),
        proving := s.bay.proving.started (s.now + 500) } } := by
  obtain ⟨⟩ := s
  obtain rfl := h
  rfl

/-- Announced content re-written (R79). -/
theorem announce_eq {s : State} (h : s.share.announced = true) : s.announce =
    { s with
      line := { s.line with demand := s.line.demand.write s.demandContent },
      share := { s.share with refresh := some (s.now + 20000) } } := by
  simp only [State.announce, State.writeDemand, State.updShare, State.updLine, h]; rfl

/-- What the stagger timer's end writes (R179). -/
theorem resend_eq (s : State) : s.resend =
    { s with
      start := { s.start with stagger := none },
      line := { s.line with
        demand := if s.share.announced then s.line.demand.write s.demandContent else s.line.demand,
        lane := if s.depart.own = .held then
            s.line.lane.write
              { action := .held, lane := s.depart.current.getD 0, key := s.depart.key.getD 0,
                inTransit := s.inPhase .gone, singleTry := false }
          else s.line.lane },
      share := if s.share.announced then { s.share with refresh := some (s.now + 20000) } else s.share,
      depart := if s.depart.own = .held then { s.depart with heldRefresh := some (s.now + 10000) } else s.depart } := by
  by_cases ha : s.share.announced = true <;> by_cases ho : s.depart.own = .held <;>
    simp only [State.resend, State.announce, State.writeDemand, State.writeHeld, State.writeLane, State.updStart,
      State.updLine, State.updShare, State.updDepart, ha, ho, if_true, if_false, Bool.false_eq_true] <;> rfl

/-! ### The image (R185) -/

theorem acceptImage_eq_some {image : List Byte} {c : Configuration} (h : acceptImage image = some c) :
    (image.take 738).length = 738 ∧ (image.take 738).drop 736 = checkBytes ((image.take 738).take 736) ∧
      identityGood (image.take 738) = true ∧ c = imageConfig (image.take 738) := by
  unfold acceptImage at h; dsimp only at h
  split at h
  · rename_i hg; obtain ⟨h1, h2, h3⟩ := hg; cases h; exact ⟨h1, h2, h3, rfl⟩
  · cases h

theorem byteAt_take {p : List Byte} {n i : Nat} (h : i < n) : byteAt (p.take n) i = byteAt p i := by
  simp [byteAt, List.getD_eq_getElem?_getD, h]

theorem identityGood_iff (p : List Byte) : identityGood p = true ↔
    1 ≤ byteAt p 0 ∧ byteAt p 0 ≤ 120 ∧ 1 ≤ byteAt p 1 ∧ byteAt p 1 ≤ 15 ∧ 1 ≤ byteAt p 2 ∧ byteAt p 2 ≤ 8 ∧
      byteAt p 3 ≤ 8 ∧ byteAt p 3 ≠ byteAt p 2 := by
  simp [identityGood, and_assoc]

theorem clampNat_range {lo hi : Nat} (h : lo ≤ hi) (n : Nat) : lo ≤ clampNat lo hi n ∧ clampNat lo hi n ≤ hi := by
  unfold clampNat; split_ifs <;> omega

theorem clampInt_range {lo hi : Int} (h : lo ≤ hi) (n : Int) : lo ≤ clampInt lo hi n ∧ clampInt lo hi n ≤ hi := by
  unfold clampInt; split_ifs <;> omega

theorem imageProfile_range (p : List Byte) (a : Nat) :
    let x := imageProfile p a
    (x.rate = 9600 ∨ x.rate = 19200 ∨ x.rate = 38400 ∨ x.rate = 57600) ∧ 20 ≤ x.timeout ∧ x.timeout ≤ 500 ∧ 1 ≤ x.gap ∧
      x.gap ≤ 50 ∧ x.retries ≤ 3 := by
  have t := clampNat_range (lo := 20) (hi := 500) (by decide) (word16 p (a + 2))
  have g := clampNat_range (lo := 1) (hi := 50) (by decide) (byteAt p (a + 4))
  refine ⟨?_, t.1, t.2, g.1, g.2, (clampNat_range (Nat.zero_le 3) _).2⟩
  unfold imageProfile; dsimp only
  split <;> simp

theorem imageGroup_range (p : List Byte) (a : Nat) :
    let g := imageGroup p a
    g.expected ≤ 20000 ∧ 1 ≤ g.lamps ∧ g.lamps ≤ 8 ∧ g.skip ≤ 63 := by
  have l := clampNat_range (lo := 1) (hi := 8) (by decide) (byteAt p (a + 2))
  exact ⟨(clampNat_range (Nat.zero_le 20000) _).2, l.1, l.2, Nat.le_of_lt_succ (Nat.mod_lt _ (by decide))⟩

theorem imageClass_range (p : List Byte) (a : Nat) :
    let x := imageClass p a
    x.profile ≤ 3 ∧ 1 ≤ x.heaterMax ∧ x.heaterMax ≤ 6 ∧ 2 ≤ x.stageSize ∧ x.stageSize ≤ 16 ∧
      100 ≤ x.capacity ∧ x.capacity ≤ 4000 ∧ 50 ≤ x.loss ∧ x.loss ≤ 2000 ∧ x.margin ≤ 60 ∧
      5 ≤ x.lampLead ∧ x.lampLead ≤ 120 ∧ x.avgExp ≤ 6 ∧ 5 ≤ x.spreadPct ∧ x.spreadPct ≤ 50 ∧ 110 ≤ x.overPct ∧
      x.overPct ≤ 200 ∧ x.groupCount ≤ 16 ∧ x.groups.length = 16 ∧
      ∀ g ∈ x.groups, g.expected ≤ 20000 ∧ 1 ≤ g.lamps ∧ g.lamps ≤ 8 ∧ g.skip ≤ 63 := by
  have hm := clampNat_range (lo := 1) (hi := 6) (by decide) (byteAt p (a + 1))
  have ss := clampNat_range (lo := 2) (hi := 16) (by decide) (byteAt p (a + 2))
  have ca := clampNat_range (lo := 100) (hi := 4000) (by decide) (word16 p (a + 3))
  have lo := clampNat_range (lo := 50) (hi := 2000) (by decide) (word16 p (a + 5))
  have ll := clampNat_range (lo := 5) (hi := 120) (by decide) (byteAt p (a + 8))
  have sp := clampNat_range (lo := 5) (hi := 50) (by decide) (byteAt p (a + 10))
  have ov := clampNat_range (lo := 110) (hi := 200) (by decide) (byteAt p (a + 11))
  refine ⟨(clampNat_range (Nat.zero_le 3) _).2, hm.1, hm.2, ss.1, ss.2, ca.1, ca.2, lo.1, lo.2,
    (clampNat_range (Nat.zero_le 60) _).2, ll.1, ll.2, (clampNat_range (Nat.zero_le 6) _).2, sp.1, sp.2, ov.1, ov.2,
    (clampNat_range (Nat.zero_le 16) _).2, by simp [imageClass], fun g hg => ?_⟩
  obtain ⟨i, -, rfl⟩ := List.mem_map.1 hg
  exact imageGroup_range p _

theorem imageLanes_range {p : List Byte} (h : identityGood p = true) :
    (imageConfig p).lanes ≠ [] ∧ (imageConfig p).lanes.length ≤ 2 ∧ (imageConfig p).lanes.Nodup ∧
      ∀ l ∈ (imageConfig p).lanes, 1 ≤ l ∧ l ≤ 8 := by
  obtain ⟨-, -, -, -, h5, h6, h7, h8⟩ := (identityGood_iff p).1 h
  unfold imageConfig; dsimp only
  split
  · simpa using ⟨h5, h6⟩
  · have : 1 ≤ byteAt p 3 := by omega
    simp [h5, h6, h7, this, Ne.symm h8]

/-! ### Clock (R17 to R21) -/

/-- The clock's registers after a second (R17, R18). -/
theorem secondClock_eq (s : State) : (s.updClock fun c => c.advance.advanceDepot) =
    { s with
      clock := { s.clock with
        seconds := min (s.clock.seconds + 1) 4294967295, millis := 0,
        time := if s.clock.state = .unset then s.clock.time else s.clock.time.map DepotTime.next } } := by
  unfold State.updClock Clock.advanceDepot Clock.advance
  dsimp only
  split <;> rfl

@[simp] theorem stable_minuteEvent (s : State) : s.minuteEvent.stable = s.stable := by simp [State.minuteEvent]

/-- A second that ends no minute of depot time. -/
theorem secondEvent_eq {s : State} (h : s.clock.state = .unset ∨ s.running = false ∨
    ∀ x, (if s.clock.state = .unset then s.clock.time else s.clock.time.map DepotTime.next) = some x → x.second % 60 ≠ 0) :
    s.secondEvent = s.updClock fun c => c.advance.advanceDepot := by
  unfold State.secondEvent; dsimp only
  refine if_neg fun hm => ?_
  rw [secondClock_eq] at hm
  simp only [Clock.onMinute, Bool.and_eq_true, bne_iff_ne] at hm
  obtain ⟨hr, hs, ht⟩ := hm
  obtain h | h | h := h
  · exact hs h
  · exact absurd (h.symm.trans hr) (by decide)
  · split at ht
    · exact h _ ‹_› (by simpa using ht)
    · cases ht

/-- The clock as a TIME notice sets it (R20). -/
def setClock (s : State) (p : TimePayload) : Clock :=
  { s.clock with time := some { day := p.day, second := p.second }, state := .set, lastTime := some s.now }

theorem takeTime_stable {p : TimePayload} (s : State) (h : p.second ≤ 86399) :
    (s.takeTime p).stable = { s.stable with clock := setClock s p } := by
  rw [State.takeTime, if_neg (by omega)]
  dsimp only
  split
  · rfl
  · rw [stable_minuteEvent]; rfl

theorem secondEvent_stable (s : State) : s.secondEvent.stable = (s.updClock fun c => c.advance.advanceDepot).stable := by
  unfold State.secondEvent; dsimp only; split <;> simp

/-- The clock a second on, within the day (R17, R18). -/
def State.secondOn (s : State) (x : DepotTime) : State :=
  { s with
    clock := { s.clock with
      seconds := min (s.clock.seconds + 1) 4294967295, millis := 0, time := some { x with second := x.second + 1 } } }

/-- A second event that ends a minute (R19). -/
theorem secondEvent_minute {s : State} {x : DepotTime} (hr : s.running = true) (hc : s.clock.state ≠ .unset)
    (hx : s.clock.time = some x) (hm : x.second % 60 = 59) (hd : x.second < 86399) :
    s.secondEvent = (s.secondOn x).minuteEvent := by
  have e : (s.updClock fun c => c.advance.advanceDepot) = s.secondOn x := by
    rw [secondClock_eq, State.secondOn, if_neg hc, hx]
    simp only [Option.map_some, DepotTime.next, if_pos (show x.second + 1 < 86400 by omega)]
  unfold State.secondEvent; dsimp only
  rw [e, if_pos]
  have h60 : (x.second + 1) % 60 = 0 := by omega
  rw [show (s.secondOn x).running = true from hr]
  simp [State.secondOn, Clock.onMinute, hc, h60]

/-- The absolute minute a second event has come to (2.2). -/
theorem secondOn_absMinute {s : State} {x : DepotTime} (hc : s.clock.state ≠ .unset) :
    (s.secondOn x).absMinute = some (x.day * 1440 + (x.second + 1) / 60) := by
  unfold State.absMinute State.secondOn
  cases h : s.clock.state with
  | unset => exact absurd h hc
  | set => rfl
  | stale => rfl

theorem mapHead_eq {s : State} {h : Plan} {rest : List Plan} (hl : s.plans.list = h :: rest) (f : Plan → Plan) :
    s.mapHead f = { s with plans := { s.plans with list := f h :: rest } } := by
  simp only [State.mapHead, State.updPlans, hl]

theorem heatOff_idle {s : State} (h : s.heat.state.computing = false) : s.heatOff = s := by
  rw [State.heatOff, h]; rfl

/-- The overdue rule where the overdue limit has passed, pre-heat in OFF (R14). -/
theorem evalOverdue_late {s : State} {h : Plan} {rest : List Plan} {m : Nat} (hl : s.plans.list = h :: rest)
    (hp : h.phase = .waitingCoach ∨ h.phase = .preparing ∨ h.phase = .ready) (ho : h.overdue = false)
    (hs : s.heat.state = .off) (hm : s.absMinute = some m) (hlate : h.data.absMinute + s.conf.overdueLimit < m) :
    s.evalOverdue = { s with
      plans := { s.plans with list := { h with overdue := true } :: rest },
      faults := s.faults.write plan02 .advisory none s.depotTime } := by
  have hd : s.head = some h := by rw [State.head, hl]; rfl
  have hph : (h.phase == .waitingCoach || h.phase == .preparing || h.phase == .ready) = true := by
    obtain e | e | e := hp <;> rw [e] <;> rfl
  unfold State.evalOverdue
  rw [hd, hm]
  simp only [ho, hlate, hph, decide_true, Bool.not_true, Bool.not_false, Bool.and_self, Bool.false_eq_true, if_false, if_true]
  rw [mapHead_eq hl]
  exact heatOff_idle (congrArg HeatState.computing hs)

end Sys2Proof.Machine

open Sys2Proof Sys2Proof.Machine

/-- Settles O15: the arm of an accepted image, its record update read off. -/
theorem imageAccepted : Obligations.ImageAccepted := fun image c s hs ha => by
  refine does_of ?_
  show execConfigReadDone image s = _
  rw [execConfigReadDone, if_pos hs, ha]
  exact congrArg conclude (accept_eq s c)

/-- Settles O17: the twin flag decides between JOINING and silence. -/
theorem listenInEnds : Obligations.ListenInEnds := by
  intro s e hs he hle
  have hg : s.start.station = .listenIn ∧ s.expired s.start.listenIn = true := ⟨hs, by rw [he]; exact expired_of_le hle⟩
  refine ⟨fun ht => does_guarded hg ?_, fun ht => does_guarded hg ?_⟩ <;> rw [ht] <;> rfl

/-- Settles O16: what `acceptImage` asks of an image, the arm of a rejected one, and the clamps of the image's fields. -/
theorem imageChecked : Obligations.ImageChecked := by
  refine ⟨fun image hbad => ?_, fun image s hs hc ha => ?_, fun image c ha => ?_⟩
  · cases ha : acceptImage image with
    | none => rfl
    | some c =>
      obtain ⟨h1, h2, h3, -⟩ := acceptImage_eq_some ha
      rw [identityGood_iff] at h3
      simp only [byteAt_take (show 0 < 738 by decide), byteAt_take (show 1 < 738 by decide),
        byteAt_take (show 2 < 738 by decide), byteAt_take (show 3 < 738 by decide)] at h3
      rw [List.length_take] at h1
      rw [List.take_take] at h2
      obtain hb | hb | hb := hbad
      · omega
      · exact absurd h2 hb
      · omega
  · refine does_of ?_
    show execConfigReadDone image s = _
    rw [execConfigReadDone, if_pos hs, ha]
    exact congrArg conclude (reject_eq s hc)
  · obtain ⟨-, -, h3, rfl⟩ := acceptImage_eq_some ha
    obtain ⟨l1, l2, l3, l4⟩ := imageLanes_range h3
    obtain ⟨i1, i2, i3, i4, -⟩ := (identityGood_iff _).1 h3
    generalize hp : image.take 738 = p at *
    have ov := clampNat_range (lo := 30) (hi := 240) (by decide) (byteAt p 8)
    have cl := clampNat_range (lo := 60) (hi := 900) (by decide) (word16 p 10)
    have tm := clampInt_range (lo := -20) (hi := 30) (by decide) (signed8 p 28)
    have dt := clampInt_range (lo := -100) (hi := 120) (by decide) (signed8 p 30)
    have bt := clampNat_range (lo := 1) (hi := 4) (by decide) (byteAt p 38)
    have at' := clampNat_range (lo := 1) (hi := 4) (by decide) (byteAt p 39)
    refine ⟨hp ▸ byteAt_take (by decide), i1, i2, hp ▸ byteAt_take (by decide), i3, i4, l1, l2, l3, l4,
      (clampNat_range (Nat.zero_le 1000) _).2, (clampNat_range (Nat.zero_le 200) _).2, (clampNat_range (Nat.zero_le 1) _).2,
      ov.1, ov.2, (clampNat_range (Nat.zero_le 30) _).2, cl.1, cl.2, by simp [imageConfig], fun x hx => ?_, tm.1, tm.2,
      (clampNat_range (Nat.zero_le 10) _).2, dt.1, dt.2, by simp [imageConfig], fun x hx => ?_,
      (clampNat_range (Nat.zero_le 3) _).2, bt.1, bt.2, at'.1, at'.2, ?_, by simp [imageConfig], fun x hx => ?_,
      by simp [imageConfig], fun x hx => ?_⟩
    · obtain ⟨i, -, rfl⟩ := List.mem_map.1 hx
      exact clampNat_range (by decide) _
    · obtain ⟨i, -, rfl⟩ := List.mem_map.1 hx
      have := clampNat_range (lo := 1) (hi := 50) (by decide) (byteAt p (32 + i))
      simp only [clamp8]
      omega
    · rw [show (imageConfig p).blockList.length = clamp8 p 40 0 8 by simp [imageConfig]]
      exact (clampNat_range (Nat.zero_le 8) _).2
    · obtain ⟨i, -, rfl⟩ := List.mem_map.1 hx
      exact imageProfile_range p _
    · obtain ⟨i, -, rfl⟩ := List.mem_map.1 hx
      exact imageClass_range p _

/-- Settles O18: a HELLO starts the stagger timer under its three conditions; the timer's end re-writes what is live. -/
theorem helloStaggersAndResends : Obligations.HelloStaggersAndResends := by
  refine ⟨fun sender target payload s hh h0 => ?_, fun s e hr hs he => ?_⟩
  · have hd : dispatched 11 sender.toNat payload = true := by simpa [dispatched] using byte_toNat_ne_zero h0
    have hc (t : State) (h1 : t.conf = s.conf) (h2 : t.start.station = s.start.station)
        (h3 : t.start.stagger = s.start.stagger) :
        (t.operating && t.helloShares (helloPayload payload) && t.start.stagger.isNone) = true ↔
        s.start.station = .operating ∧ s.start.stagger = none ∧ ((helloPayload payload).group = s.conf.group ∨
          (helloPayload payload).lane1 ∈ s.conf.lanes ∨ (helloPayload payload).lane2 ∈ s.conf.lanes) := by
      simp only [State.operating, State.helloShares, Bool.and_eq_true, Bool.or_eq_true, beq_iff_eq, List.contains_iff_mem,
        Option.isNone_iff_eq_none, h1, h2, h3]
      tauto
    have hset := hc (settled s.counted) (by simp) (by simp) (by simp)
    have hcnt := hc s.counted rfl rfl rfl
    refine ⟨fun h => doesAfter_of_hears _ hh hd ?_ ?_, fun h => doesAfter_of_hears _ hh hd ?_ ?_⟩
    · rw [State.takeHello, if_pos (hset.2 h)]
      simp only [settled_conf, State.after, settled_now]
      exact congrArg (fun x : Stable => { x with stagger := some (s.now + s.conf.station % 16 * 100) })
        (settled_stable s.counted)
    · exact if_pos (hcnt.2 h)
    · rw [State.takeHello, if_neg fun hp => by have := hset.1 hp; tauto, settled_stable]
    · exact if_neg fun hp => by have := hcnt.1 hp; tauto
  · refine does_guarded ⟨hr, by rw [hs]; exact expired_of_le he⟩ ?_
    exact resend_eq s

/-- Settles O20: a second event writes the clock alone, unless it ends a minute. -/
theorem secondEventAdvances : Obligations.SecondEventAdvances := by
  intro s
  refine concludes rfl ((secondEvent_stable s).trans (congrArg State.stable (secondClock_eq s))) fun hq => ?_
  exact (secondEvent_eq hq).trans (secondClock_eq s)

/-- Settles O21: the minute event marks the head, and the computation it calls for strikes off. -/
theorem overdueMarked : Obligations.OverdueMarked := by
  intro s h rest x hr hc hx hm hd hl hp ho hs hlate now u hu
  have e : s.secondEvent = { u with heat := { u.heat with compute := true } } := by
    have ht : (s.secondOn x).depotTime = some now := if_neg hc
    rw [secondEvent_minute hr hc hx hm hd, State.minuteEvent,
      evalOverdue_late (s := s.secondOn x) hl hp ho hs (secondOn_absMinute hc) hlate, ht]
    rfl
  obtain ⟨t, h1, -, h3⟩ := does_computed (u := u) (v := s.secondEvent) (o := exec .secondEvent s) (by rw [e]; exact hr) rfl
    (by rw [e]; exact congrArg HeatState.computing hs) (by rw [e])
  exact ⟨t, h1, h3 fun _ => hu⟩

/-- Settles O22: a TIME notice writes the clock alone, unless it changes the minute. -/
theorem timeTaken : Obligations.TimeTaken := by
  intro target payload s hh
  have hd : dispatched 0 (0 : Byte).toNat payload = true := rfl
  refine ⟨fun hp => doesAfter_of_hears _ hh hd ?_ ?_, fun hp => ?_⟩
  · rw [State.takeTime, if_pos hp, settled_stable]
  · exact if_pos hp
  · refine hears_concludes (fun t => t.takeTime (timePayload payload)) hh hd ?_ fun he => ?_
    · rw [takeTime_stable _ hp, setClock, settled_clock, settled_now]
      exact congrArg (fun x : Stable => { x with clock := setClock s (timePayload payload) }) (settled_stable s.counted)
    · rw [State.takeTime, if_neg (by omega)]
      exact if_pos he

end

