-- ==== Sys2Proof/Proofs/ViewRoom.lean ====
section
namespace Sys2Proof.Machine

/-! ## VIEW: what R33 evicts -/

theorem RankKey.ahead_iff (a b : RankKey) : RankKey.ahead a b = true ↔ a.1 < b.1 ∨ a.1 = b.1 ∧ a.2 < b.2 := by
  simp [RankKey.ahead]

theorem RankKey.ahead_asymm {a b : RankKey} (h : RankKey.ahead a b = true) : ¬RankKey.ahead b a = true := by
  rw [ahead_iff] at h ⊢; omega

/-- An entry without a record (R32). -/
def Entry.idle (e : Entry) : Prop := e.demand = none ∧ e.lane = none

theorem oldestIdle_none {es : List Entry} (h : oldestIdle es = none) : ∀ e ∈ es, ¬e.idle := by
  induction es with
  | nil => exact fun _ he => absurd he List.not_mem_nil
  | cons x xs ih =>
    unfold oldestIdle at h
    dsimp only at h
    split at h
    · cases hx : oldestIdle xs with
      | none => rw [hx] at h; cases h
      | some y => rw [hx] at h; dsimp only at h; split at h <;> cases h
    · rename_i hi
      intro e he
      rcases List.mem_cons.1 he with rfl | he
      · exact fun hd => hi (by simp [hd.1, hd.2])
      · exact ih h e he

/-- Oldest heard, then the lower station (R33 step 1). -/
def Entry.older (x e : Entry) : Prop := x.lastHeard < e.lastHeard ∨ x.lastHeard = e.lastHeard ∧ x.station ≤ e.station

theorem oldestIdle_some {es : List Entry} {x : Entry} (h : oldestIdle es = some x) : ∀ e ∈ es, e.idle → x.older e := by
  induction es generalizing x with
  | nil => cases h
  | cons y ys ih =>
    unfold oldestIdle at h
    dsimp only at h
    intro e he hd
    cases hx : oldestIdle ys with
    | none =>
      rw [hx] at h
      split at h
      · cases h
        rcases List.mem_cons.1 he with rfl | he
        · exact .inr ⟨rfl, Nat.le_refl _⟩
        · exact absurd hd (oldestIdle_none hx e he)
      · cases h
    | some z =>
      have hz := ih hx
      rw [hx] at h
      split at h
      · dsimp only at h
        split at h
        · rename_i hlt
          cases h
          rcases List.mem_cons.1 he with rfl | he
          · unfold Entry.older; omega
          · exact hz e he hd
        · rename_i hlt
          cases h
          rcases List.mem_cons.1 he with rfl | he
          · exact .inr ⟨rfl, Nat.le_refl _⟩
          · have := hz e he hd
            unfold Entry.older at this ⊢; omega
      · rename_i hi
        cases h
        rcases List.mem_cons.1 he with rfl | he
        · exact absurd (by simp [hd.1, hd.2]) hi
        · exact hz e he hd

/-- A demand-only entry behind the own key, and its key (R33 step 2). -/
def Entry.behind (own : RankKey) (e : Entry) (k : RankKey) : Prop :=
  ∃ d, e.demand = some d ∧ e.lane = none ∧ k = (d.slack, e.station) ∧ RankKey.ahead own k = true

theorem lowestRanked_cons (own : RankKey) (e : Entry) (es : List Entry) :
    (∃ k, e.behind own k ∧ lowestRanked own (e :: es) =
      match lowestRanked own es with
      | none => some e
      | some x => match x.key with
        | some j => if RankKey.ahead k j then some x else some e
        | none => some e) ∨
    (∀ k, ¬e.behind own k) ∧ lowestRanked own (e :: es) = lowestRanked own es := by
  rw [lowestRanked]
  cases hd : e.demand with
  | none => exact .inr ⟨fun k ⟨d, h, _⟩ => (by rw [hd] at h; cases h), rfl⟩
  | some d =>
    cases hl : e.lane with
    | some r => exact .inr ⟨fun k ⟨d, _, h, _⟩ => (by rw [hl] at h; cases h), rfl⟩
    | none =>
      dsimp only
      by_cases ha : RankKey.ahead own (d.slack, e.station) = true
      · rw [if_pos ha]
        exact .inl ⟨_, ⟨d, hd, hl, rfl, ha⟩, rfl⟩
      · rw [if_neg ha]
        refine .inr ⟨fun k ⟨f, h1, _, h3, h4⟩ => ?_, rfl⟩
        rw [hd] at h1; cases h1
        exact ha (h3 ▸ h4)

theorem lowestRanked_none {own : RankKey} {es : List Entry} (h : lowestRanked own es = none) :
    ∀ e ∈ es, ∀ k, ¬e.behind own k := by
  induction es with
  | nil => exact fun _ he => absurd he List.not_mem_nil
  | cons x xs ih =>
    obtain ⟨k, hk, e⟩ | ⟨hn, e⟩ := lowestRanked_cons own x xs <;> rw [e] at h
    · split at h
      · cases h
      · split at h
        · split at h <;> cases h
        · cases h
    · intro y hy
      rcases List.mem_cons.1 hy with rfl | hy
      · exact hn
      · exact ih h y hy

theorem Entry.behind.key {own : RankKey} {e : Entry} {k : RankKey} (h : e.behind own k) : e.key = some k := by
  obtain ⟨d, h1, -, rfl, -⟩ := h
  rw [Entry.key, h1]; rfl

theorem lowestRanked_some {own : RankKey} {es : List Entry} {x : Entry} (h : lowestRanked own es = some x) :
    ∃ k, x.behind own k ∧ ∀ e ∈ es, ∀ j, e.behind own j → ¬RankKey.ahead k j = true := by
  induction es generalizing x with
  | nil => cases h
  | cons y ys ih =>
    obtain ⟨k, hk, e⟩ | ⟨hn, e⟩ := lowestRanked_cons own y ys <;> rw [e] at h
    · cases hr : lowestRanked own ys with
      | none =>
        rw [hr] at h; cases h
        refine ⟨k, hk, fun e he j hj => ?_⟩
        rcases List.mem_cons.1 he with rfl | he
        · have : k = j := Option.some.inj (hk.key.symm.trans hj.key)
          exact this ▸ fun ha => RankKey.ahead_asymm ha ha
        · exact absurd hj (lowestRanked_none hr e he j)
      | some z =>
        obtain ⟨kz, hz, hmax⟩ := ih hr
        rw [hr] at h; dsimp only at h
        rw [hz.key] at h; dsimp only at h
        split at h
        · rename_i ha
          cases h
          refine ⟨kz, hz, fun e he j hj => ?_⟩
          rcases List.mem_cons.1 he with rfl | he
          · have : k = j := Option.some.inj (hk.key.symm.trans hj.key)
            exact this ▸ RankKey.ahead_asymm ha
          · exact hmax e he j hj
        · rename_i ha
          cases h
          refine ⟨k, hk, fun e he j hj hkj => ?_⟩
          rcases List.mem_cons.1 he with rfl | he
          · have : k = j := Option.some.inj (hk.key.symm.trans hj.key)
            exact RankKey.ahead_asymm (this ▸ hkj) (this ▸ hkj)
          · have hzj := hmax e he j hj
            rw [RankKey.ahead_iff] at ha hzj hkj
            omega
    · obtain ⟨k, hk, hmax⟩ := ih h
      refine ⟨k, hk, fun e he j hj => ?_⟩
      rcases List.mem_cons.1 he with rfl | he
      · exact absurd hj (hn j)
      · exact hmax e he j hj

/-- The evicted entry is of the station the statement names (R33). -/
theorem evictee_of_evicted {own : Option RankKey} {es : List Entry} {x : Entry} (h : Evicted own es x) :
    ∃ e, evictee own es = some e ∧ e.station = x.station := by
  obtain ⟨hx, ⟨hd, hl, hold⟩ | ⟨hrec, hl, k, d, rfl, hd, ha, hmax⟩⟩ := h
  · cases ho : oldestIdle es with
    | none => exact absurd ⟨hd, hl⟩ (oldestIdle_none ho x hx)
    | some e =>
      refine ⟨e, by rw [evictee, ho], ?_⟩
      obtain ⟨he, hed, hel⟩ := oldestIdle_mem ho
      have h1 := oldestIdle_some ho x hx ⟨hd, hl⟩
      have h2 := hold e he hed hel
      unfold Entry.older at h1; omega
  · have ho : oldestIdle es = none := by
      cases ho : oldestIdle es with
      | none => rfl
      | some e =>
        obtain ⟨he, hed, hel⟩ := oldestIdle_mem ho
        exact absurd (hrec e he) (by simp [hed, hel])
    have hxb : x.behind k (d.slack, x.station) := ⟨d, hd, hl, rfl, ha⟩
    cases hr : lowestRanked k es with
    | none => exact absurd hxb (lowestRanked_none hr x hx _)
    | some e =>
      refine ⟨e, by rw [evictee, ho]; exact hr, ?_⟩
      obtain ⟨j, ⟨f, h1, h2, rfl, h4⟩, hj⟩ := lowestRanked_some hr
      obtain h5 | h5 := hmax e (lowestRanked_mem k hr) f h1 h2 h4
      · exact (Prod.ext_iff.1 h5).2
      · exact absurd h5 (hj x hx _ hxb)

theorem evictee_of_noneEvicted {own : Option RankKey} {es : List Entry} (h : NoneEvicted own es) : evictee own es = none := by
  obtain ⟨hrec, hkey⟩ := h
  have ho : oldestIdle es = none := by
    cases ho : oldestIdle es with
    | none => rfl
    | some e =>
      obtain ⟨he, hed, hel⟩ := oldestIdle_mem ho
      exact absurd (hrec e he) (by simp [hed, hel])
  rw [evictee, ho]
  cases own with
  | none => rfl
  | some k =>
    show lowestRanked k es = none
    cases hr : lowestRanked k es with
    | none => rfl
    | some e =>
      obtain ⟨j, ⟨f, h1, h2, rfl, h4⟩, -⟩ := lowestRanked_some hr
      exact absurd h4 (by rw [hkey k rfl e (lowestRanked_mem k hr) f h1 h2]; decide)

theorem makeRoom_of_evicted {own : Option RankKey} {es : List Entry} {x : Entry} (hl : 48 ≤ es.length)
    (h : Evicted own es x) : makeRoom own es = some (es.filter fun e => e.station != x.station) := by
  obtain ⟨e, he, hs⟩ := evictee_of_evicted h
  rw [makeRoom, if_neg (by simpa using hl), he, ← hs]; rfl

theorem makeRoom_of_noneEvicted {own : Option RankKey} {es : List Entry} (hl : 48 ≤ es.length)
    (h : NoneEvicted own es) : makeRoom own es = none := by
  rw [makeRoom, if_neg (by simpa using hl), evictee_of_noneEvicted h]; rfl

theorem makeRoom_of_short {own : Option RankKey} {es : List Entry} (hl : es.length < 48) : makeRoom own es = some es :=
  if_pos hl

end Sys2Proof.Machine
end

