-- ==== Sys2Proof/Proofs/ViewTakes.lean ====
section
namespace Sys2Proof.Machine

/-! ## VIEW: DEMAND and LANE notices, queries, ageing -/

variable {s t : State} {p : Nat}

/-! ### Entries -/

theorem entry_some {v : View} (h : ∃ e ∈ v.entries, e.station = p) : ∃ e, v.entry p = some e := by
  obtain ⟨e, he, hs⟩ := h
  exact Option.isSome_iff_exists.1 (List.find?_isSome.2 ⟨e, he, by simpa using hs⟩)

theorem entry_none {v : View} (h : ∀ e ∈ v.entries, e.station ≠ p) : v.entry p = none :=
  List.find?_eq_none.2 fun e he => by simpa using h e he

/-! ### A command that writes the view alone -/

/-- What a block reads of the state a notice is counted in. -/
structure SeenFrom (s t : State) : Prop where
  conf : t.conf = s.conf
  now : t.now = s.now
  view : t.view = s.view

theorem seenFrom_settled (s : State) : SeenFrom s (settled s.counted) := ⟨by simp, by simp, by simp⟩
theorem seenFrom_counted (s : State) : SeenFrom s s.counted := ⟨rfl, rfl, rfl⟩

/-- The effect of a notice that writes the view alone. -/
theorem doesAfter_view {V : View} {kind : Nat} {sender target : Byte} {payload : List Byte} (take : State → State)
    (h : s.Hears kind sender target payload) (hd : dispatched kind sender.toNat payload = true)
    (hv : ∀ t, t = settled s.counted ∨ t = s.counted → SeenFrom s t → take t = { t with view := V }) :
    DoesAfter (if s.running then conclude (s.receive kind sender target payload take) else .next s) s.counted
      { s.counted with view := V } := by
  refine doesAfter_of_hears take h hd ?_ (hv _ (.inr rfl) (seenFrom_counted s))
  rw [hv _ (.inl rfl) (seenFrom_settled s)]
  exact congrArg (fun x : Stable => { x with view := V }) (settled_stable s.counted)

end Sys2Proof.Machine

open Sys2Proof Sys2Proof.Machine

/-- Settles O23: R27's rows, and R33's room. -/
theorem demandTaken : Obligations.DemandTaken := by
  intro sender target payload s hh h0
  have hd : dispatched 3 sender.toNat payload = true := by simpa [dispatched] using byte_toNat_ne_zero h0
  have own (t : State) (hs : s.counted.Settled) (ht : t = settled s.counted ∨ t = s.counted) : t = s.counted := by
    obtain rfl | rfl := ht
    · exact settled_counted hs
    · rfl
  refine ⟨fun hg => ?_, fun hg hr => ?_, fun hg hr he => ?_, fun hg hr he => ⟨fun hl => ?_, fun hl hs x hx => ?_, fun hl hs hx => ?_⟩⟩
  · refine doesAfter_view _ hh hd fun t _ ht => ?_
    rw [State.takeDemand, ht.conf, if_pos hg, State.updView, ht.view]
  · refine doesAfter_view _ hh hd fun t _ ht => ?_
    rw [State.takeDemand, ht.conf, if_neg (not_not.2 hg), if_pos hr, State.updView, ht.view, ht.now]
  · refine doesAfter_view _ hh hd fun t _ ht => ?_
    obtain ⟨e, he⟩ := entry_some he
    rw [State.takeDemand, ht.conf, if_neg (not_not.2 hg), if_neg (by omega)]
    simp only [ht.view, ht.now, he, State.updView]
  · refine doesAfter_view _ hh hd fun t _ ht => ?_
    rw [State.takeDemand, ht.conf, if_neg (not_not.2 hg), if_neg (by omega)]
    simp only [ht.view, ht.now, entry_none he, makeRoom_of_short hl, State.updView]
  · refine doesAfter_view _ hh hd fun t hts ht => ?_
    obtain rfl := own t hs hts
    rw [State.takeDemand, ht.conf, if_neg (not_not.2 hg), if_neg (by omega)]
    simp only [counted_view, counted_now, entry_none he, makeRoom_of_evicted hl hx, State.updView]
  · refine doesAfter_view _ hh hd fun t hts ht => ?_
    obtain rfl := own t hs hts
    rw [State.takeDemand, ht.conf, if_neg (not_not.2 hg), if_neg (by omega)]
    simp only [counted_view, entry_none he, makeRoom_of_noneEvicted hl hx, State.updView, State.after, counted_now]
    rfl

/-- Settles O26: the two guards of R37. -/
theorem queryTaken : Obligations.QueryTaken := by
  intro sender target payload s hh
  have hd : dispatched 7 sender.toNat payload = true := rfl
  have taken (t : State) (ht : t.line.answers = s.line.answers) {k : AskedKind} (hk : askedKind (byteAt payload 0) = some k)
      (hl : s.line.answers.length < 4) : t.takeQuery sender.toNat (byteAt payload 0) (byteAt payload 1) = t.updLine fun l =>
        { l with answers := s.line.answers ++
          [{ asker := sender.toNat, kind := k, index := if k = .faultRecord then byteAt payload 1 else 0 }] } := by
    simp only [State.takeQuery, hk, ht, if_pos hl, State.updLine]
  have dropped (t : State) (ht : t.line.answers = s.line.answers)
      (h : askedKind (byteAt payload 0) = none ∨ 4 ≤ s.line.answers.length) :
      t.takeQuery sender.toNat (byteAt payload 0) (byteAt payload 1) = t := by
    unfold State.takeQuery
    split
    · rename_i k hk
      rw [hk] at h
      rw [ht, if_neg]
      exact Nat.not_lt.2 (h.resolve_left nofun)
    · rfl
  refine ⟨fun k hk hl => doesAfter_of_hears _ hh hd ?_ (taken s.counted rfl hk hl), fun h =>
    doesAfter_of_hears _ hh hd ?_ (dropped s.counted rfl h)⟩
  · rw [taken _ (by simp) hk hl]
    exact congrArg (fun x : Stable => { x with answers := s.line.answers ++
      [({ asker := sender.toNat, kind := k, index := if k = AskedKind.faultRecord then byteAt payload 1 else 0 } : Answer)] })
      (settled_stable s.counted)
  · rw [dropped _ (by simp) h, settled_stable]

end

