-- ==== Sys2Proof/Proofs/ViewAges.lean ====
section
namespace Sys2Proof.Machine

/-! ## VIEW: what runs out -/

variable {s : State} {p lane : Nat}

theorem entry_change {v : View} (f : Entry → Entry) (hf : ∀ e, (f e).station = e.station) :
    (v.change p f).entry p = (v.entry p).map f := by
  unfold View.entry View.change
  induction v.entries with
  | nil => rfl
  | cons e es ih =>
    by_cases he : e.station = p
    · simp [hf, he]
    · simpa [he] using ih

/-- No search waits: a record that leaves wakes none (R140). -/
theorem lanesLeft_idle (h : s.searchWaits = false) (ls : List Nat) : s.lanesLeft ls = s := by
  rw [State.lanesLeft, h]; rfl

theorem markLeft_idle (h : s.searchWaits = false) : s.markLeft lane = s := by
  rw [State.markLeft, h]; rfl

theorem entryOld_iff {e : Entry} (h : s.view.entry p = some e) :
    s.entryOld p = true ↔ e.demand = none ∧ e.lane = none ∧ e.lastHeard + 180000 ≤ s.now := by
  simp only [State.entryOld, h, Bool.and_eq_true, Option.isNone_iff_eq_none, decide_eq_true_eq, and_assoc]
  rfl

@[simp] theorem lanesLeft_view (ls : List Nat) : (s.lanesLeft ls).view = s.view := congrArg Stable.view (stable_lanesLeft s ls)
theorem lanesLeft_clock (ls : List Nat) : (s.lanesLeft ls).clock = s.clock := congrArg Stable.clock (stable_lanesLeft s ls)
@[simp] theorem lanesLeft_now (ls : List Nat) : (s.lanesLeft ls).now = s.now := by simp only [State.now, lanesLeft_clock]

/-- A record of the peer goes, and its entry with it where that is old (R31, R32). -/
theorem dropOldEntry_change {t : State} {e : Entry} (f : Entry → Entry) (hf : ∀ e, (f e).station = e.station)
    (hv : t.view = s.view.change p f) (hn : t.now = s.now) (he : s.view.entry p = some e) :
    t.dropOldEntry p = { t with view := { s.view with
      entries :=
        let es := s.view.entries.map fun x => if x.station = p then f x else x
        if (f e).demand = none ∧ (f e).lane = none ∧ (f e).lastHeard + 180000 ≤ s.now then
          es.filter fun x => x.station != p
        else es } } := by
  have h : t.view.entry p = some (f e) := by rw [hv, entry_change f hf, he]; rfl
  have ho := entryOld_iff h
  rw [hn] at ho
  unfold State.dropOldEntry
  by_cases hc : t.entryOld p = true
  · rw [if_pos hc, State.removeEntry, State.updView, hv]
    dsimp only
    rw [if_pos (ho.1 hc)]; rfl
  · rw [if_neg hc]
    dsimp only
    rw [if_neg fun x => hc (ho.2 x)]
    rw [show ({ s.view with entries := s.view.entries.map fun x => if x.station = p then f x else x } : View) = t.view from
      hv.symm]

end Sys2Proof.Machine

open Sys2Proof Sys2Proof.Machine

/-- Settles O27: records, entries, flags and marks leave the view when their time has come. -/
theorem recordsAndFlagsRunOut : Obligations.RecordsAndFlagsRunOut := by
  refine ⟨⟨fun s p e r hr he hd hs => ?_, ?_, fun s p e hr he hd hl hs => ?_⟩,
    fun s e hr he => ⟨fun hf => ?_, fun hf => ?_, ?_⟩⟩
  · refine does_guarded ⟨hr, ?_⟩ ?_
    · rw [View.demandStamp, he]
      exact (congrArg s.expired (by rw [Option.bind_some, hd]; rfl)).trans (expired_of_le hs)
    · rw [dropOldEntry_change (t := s.ageDemand p) (fun x => { x with demand := none }) (fun _ => rfl) rfl rfl he]
      simp only [true_and]
      rfl
  · intro s p e r hr he hl hs u
    have hx : s.expired ((s.view.laneStamp p).map (· + Config.laneAge)) = true := by
      rw [View.laneStamp, he]
      exact (congrArg s.expired (by rw [Option.bind_some, hl]; rfl)).trans (expired_of_le hs)
    have e1 := dropOldEntry_change (t := s.ageLane p ((s.view.laneOf p).getD 0)) (fun x => { x with lane := none })
      (fun _ => rfl) (by unfold State.ageLane; rw [lanesLeft_view]; rfl) (by unfold State.ageLane; rw [lanesLeft_now]; rfl) he
    simp only [true_and] at e1
    have e2 : ((s.ageLane p ((s.view.laneOf p).getD 0)).dropOldEntry p).stable = u.stable := by
      rw [e1]
      exact congrArg (fun x : Stable => { x with view := u.view }) (stable_lanesLeft _ _)
    obtain ⟨t, h1, h2, h3⟩ := concludes (o := exec (.laneRecordAged p) s) (u := u) (p := s.searchWaits = false)
      (if_pos ⟨hr, hx⟩) e2 fun hw => by rw [e1, State.ageLane, lanesLeft_idle (s := s.updView _) hw]; rfl
    exact ⟨t, h1, h2, fun hw hu => h3 hw fun _ => hu⟩
  · exact does_guarded ⟨hr, (entryOld_iff he).2 ⟨hd, hl, hs⟩⟩ rfl
  · exact does_guarded ⟨hr, by rw [hf]; exact expired_of_le he⟩ rfl
  · exact does_guarded ⟨hr, by rw [hf]; exact expired_of_le he⟩ rfl
  · intro lane hm u
    have ho : s.markOver lane = true := List.any_eq_true.2 ⟨_, hm, by simpa using he⟩
    obtain ⟨t, h1, h2, h3⟩ := concludes (o := exec (.contestedMarkExpiry lane) s) (u := u) (p := s.searchWaits = false)
      (if_pos ⟨hr, ho⟩) (stable_markLeft _ _) fun hw => markLeft_idle hw
    exact ⟨t, h1, h2, fun hw hu => h3 hw fun _ => hu⟩

end

