-- ==== Sys2Proof/Proofs/ShareTimes.lean ====
section
namespace Sys2Proof.Machine

/-! ## SHARE: the grant, and the refresh times -/

variable {s : State}

theorem aheadOfOwn_iff (own : Option RankKey) (a : RankKey) :
    aheadOfOwn own a = true ↔ ∀ k, own = some k → a.1 < k.1 ∨ a.1 = k.1 ∧ a.2 < k.2 := by
  cases own with
  | none => simp [aheadOfOwn]
  | some o => simp [aheadOfOwn, RankKey.ahead_iff]

/-- The power ranked ahead is the sum over the entries whose demand is ahead (R73 step 3). -/
theorem powerAhead_eq {own : Option RankKey} {es : List Entry} {f : Entry → Nat}
    (hf : ∀ e ∈ es, (e.demand = none → f e = 0) ∧ ∀ d, e.demand = some d →
      (aheadOfOwn own (d.slack, e.station) = true → f e = d.requested * d.stageSize) ∧
      (¬aheadOfOwn own (d.slack, e.station) = true → f e = 0)) : powerAhead own es = (es.map f).sum := by
  unfold powerAhead
  refine congrArg List.sum (List.map_congr_left fun e he => ?_)
  obtain ⟨hn, hd⟩ := hf e he
  cases h : e.demand with
  | none => exact (hn h).symm
  | some d =>
    dsimp only
    split
    · rename_i ha; exact ((hd d h).1 ha).symm
    · rename_i ha; exact ((hd d h).2 ha).symm

theorem computeGrant_eq (request size available ahead : Nat) : computeGrant request size available ahead =
    if request = 0 ∨ 2 * available ≤ ahead then 0 else min request ((2 * available - ahead) / size) := by
  unfold computeGrant
  split_ifs <;> omega

theorem computeGrant_le (request size available ahead : Nat) : computeGrant request size available ahead ≤ request := by
  unfold computeGrant
  split_ifs <;> omega

theorem floor_iff (s : State) : s.floor = true ↔
    128 ≤ s.line.counter ∨ s.line.twin = true ∨ s.view.unseen ≠ none ∨ s.start.station ≠ .operating := by
  simp [State.floor, State.lineGood, State.operating, Option.isSome_iff_ne_none, or_assoc]

/-- A settled state holds the grant of R73. -/
theorem State.Settled.grant (h : s.Settled) : s.share.grant = s.computedGrant := by
  obtain ⟨-, -, -, -, hg, -⟩ := (heatRule_eq_none _).1 ((settled_iff _).1 h).2
  unfold State.grantDue at hg
  have hg : (s.share.grant != s.computedGrant && (true || decide (s.ownRequest < s.share.grant))) = false := hg
  simpa using hg

/-- A slot that holds the STATUS content is not written by the close (R168). -/
theorem finish_status {u : State} (h : u.line.status.content = some u.statusContent) :
    (finish u).line.status = u.line.status ∧ (finish u).line.statusRefresh = u.line.statusRefresh := by
  unfold finish
  dsimp only
  obtain ⟨a, b, c, hs⟩ := summaryClose_form u.fresh.noteClose
  have hc : u.fresh.noteClose.summaryClose.statusClose = u.fresh.noteClose.summaryClose := by
    rw [hs]; exact if_pos h
  obtain ⟨f, g, h3⟩ := signalClose_form u.fresh.noteClose.summaryClose.statusClose
  obtain ⟨f', g', h3'⟩ := signalClose_form u.fresh.noteClose
  split
  · rw [h3, hc, hs]; exact ⟨rfl, rfl⟩
  · rw [h3']; exact ⟨rfl, rfl⟩

/-- A slot that shows the summary of the table is not written by the close (R131). -/
theorem finish_summary {u : State} (h : u.faults.shown = u.faults.summary) :
    (finish u).line.summary = u.line.summary ∧ (finish u).faults.refresh = u.faults.refresh := by
  unfold finish
  dsimp only
  have hc : u.fresh.noteClose.summaryClose = u.fresh.noteClose := if_pos h
  obtain ⟨d, e, hs⟩ := statusClose_form u.fresh.noteClose
  obtain ⟨f, g, h3⟩ := signalClose_form u.fresh.noteClose.statusClose
  obtain ⟨f', g', h3'⟩ := signalClose_form u.fresh.noteClose
  split
  · rw [hc, h3, hs]; exact ⟨rfl, rfl⟩
  · rw [h3']; exact ⟨rfl, rfl⟩

theorem conclude_settled {u : State} (h : u.Settled) : conclude u = .next (finish u) := by
  rw [conclude_eq, ← finish_fresh (settled u), settled_of_settled h, finish_fresh]

/-- The conclusion counts the grant rounds anew, whatever was counted before. -/
theorem conclude_congr {v u : State} (h : v.fresh = u.fresh) : conclude v = conclude u := by
  have fresh (x : State) : conclude x.fresh = conclude x := by
    by_cases hr : x.running = true
    · rw [conclude_eq, settled_fresh hr]; rfl
    · rw [conclude_eq, conclude_eq, settled, settled, running_fresh, if_neg hr, if_neg hr, finish_fresh]
  rw [← fresh v, h, fresh]

theorem does_of_fresh {v u : State} {o : Host.Outcome State Fault Refusal} (ho : o = conclude v) (e : v.fresh = u.fresh) :
    Does o u := does_of (ho.trans (conclude_congr e))

/-- The effect of a notice that reaches its block, its count of grant rounds apart. -/
theorem doesAfter_of_hears_fresh {u : State} {kind : Nat} {sender target : Byte} {payload : List Byte} (take : State → State)
    (h : s.Hears kind sender target payload) (hd : dispatched kind sender.toNat payload = true)
    (hs : (take (settled s.counted)).stable = u.stable) (hv : (take s.counted).fresh = u.fresh) :
    DoesAfter (if s.running then conclude (s.receive kind sender target payload take) else .next s) s.counted u := by
  obtain ⟨t, h1, h2, -⟩ := conclude_does (take (settled s.counted))
  refine ⟨t, (conclude_of_hears take h hd).trans h1, h2.trans hs, fun hc hu => ?_⟩
  obtain ⟨t', h1', -, h3'⟩ := conclude_does u
  rw [settled_counted hc, conclude_congr hv, h1'] at h1
  cases h1
  exact h3' fun _ => hu

end Sys2Proof.Machine

open Sys2Proof Sys2Proof.Machine

/-- Settles O28: a settled state holds the grant of R73; a SUPPLY sets the live allowance. -/
theorem grantComputed : Obligations.GrantComputed := by
  refine ⟨fun s hs => ?_, fun target payload s hh => ?_⟩
  · intro ahead a ⟨f, ha, hf⟩ available g held
    have hp : powerAhead s.ownKey s.view.entries = a := by
      rw [ha]
      refine powerAhead_eq fun e he => ⟨(hf e he).1, fun d hd => ?_⟩
      rw [aheadOfOwn_iff]
      exact (hf e he).2 d hd
    have hg : computeGrant s.ownRequest s.heat.stageSize s.available (powerAhead s.ownKey s.view.entries) = g := by
      rw [hp, computeGrant_eq]; rfl
    have hc : s.share.grant = if s.floor then min g s.conf.silentFloor else g := by rw [hs.grant, ← hg]; rfl
    have hle : g ≤ s.ownRequest := hg ▸ computeGrant_le _ _ _ _
    refine ⟨fun h => by rw [hc, if_pos ((floor_iff s).2 h)], fun h => by rw [hc, if_neg fun x => h ((floor_iff s).1 x)], ?_⟩
    rw [hc]
    split_ifs
    · exact (Nat.min_le_left _ _).trans hle
    · exact hle
  · have hd : dispatched 2 (0 : Byte).toNat payload = true := rfl
    have taken (t : State) (h : (supplyPayload payload).group = 0 ∨ (supplyPayload payload).group = s.conf.group)
        (ht : t.conf = s.conf) : t.takeSupply (supplyPayload payload) =
        { t with share := { t.share with live := min (supplyPayload payload).allowance s.conf.allowance } } := by
      rw [State.takeSupply, ht, if_pos h]; rfl
    have left (t : State) (h : ¬((supplyPayload payload).group = 0 ∨ (supplyPayload payload).group = s.conf.group))
        (ht : t.conf = s.conf) : t.takeSupply (supplyPayload payload) = t := by
      rw [State.takeSupply, ht, if_neg h]
    refine ⟨fun h => doesAfter_of_hears_fresh _ hh hd ?_ ?_, fun h h' => doesAfter_of_hears _ hh hd ?_ ?_⟩
    · rw [taken _ h (by simp)]
      exact congrArg (fun x : Stable => { x with live := min (supplyPayload payload).allowance s.conf.allowance })
        (settled_stable s.counted)
    · exact (congrArg State.fresh (taken s.counted h rfl)).trans rfl
    · rw [left _ (by tauto) (by simp), settled_stable]
    · exact left _ (by tauto) rfl

/-- Settles O29: each time that runs out writes its slot or clears its mark. -/
theorem timedWrites : Obligations.TimedWrites := by
  refine ⟨fun s e hr he => ⟨fun ha hx => ?_, fun ho hx => ?_, fun hx => ?_, fun τ hc hx hs => ?_⟩,
    fun s e hr he => ⟨?_, ?_⟩⟩
  · exact does_guarded ⟨hr, ha, by rw [hx]; exact expired_of_le he⟩ (announce_eq ha)
  · refine does_guarded ⟨hr, ho, by rw [hx]; exact expired_of_le he⟩ ?_
    rfl
  · exact does_guarded ⟨hr, by rw [hx]; exact expired_of_le he⟩ rfl
  · exact does_guarded ⟨hr, hc, by rw [hx]; exact expired_of_le hs⟩ rfl
  · intro hx u
    obtain ⟨t, h1, h2, h3⟩ := does_guarded (o := .next s) (v := s.writeStatus) (u := u) (c := s.running = true ∧ s.expired s.line.statusRefresh = true)
      ⟨hr, by rw [hx]; exact expired_of_le he⟩ rfl
    refine ⟨t, h1, h2, fun hu => ⟨h3 fun _ => hu, ?_⟩⟩
    rw [if_pos ⟨hr, by rw [hx]; exact expired_of_le he⟩, show s.writeStatus = u from rfl, conclude_settled hu] at h1
    cases h1
    exact finish_status rfl
  · intro hx u
    obtain ⟨t, h1, h2, h3⟩ := does_guarded (o := .next s) (v := s.writeSummary) (u := u) (c := s.running = true ∧ s.expired s.faults.refresh = true)
      ⟨hr, by rw [hx]; exact expired_of_le he⟩ rfl
    refine ⟨t, h1, h2, fun hu => ⟨h3 fun _ => hu, ?_⟩⟩
    rw [if_pos ⟨hr, by rw [hx]; exact expired_of_le he⟩, show s.writeSummary = u from rfl, conclude_settled hu] at h1
    cases h1
    exact finish_summary rfl

end

