-- ==== Sys2Proof/Proofs/LineProofs.lean ====
section
namespace Sys2Proof.Machine

/-! ## LINE: counting, presenting, reports -/

variable {s u v : State}

/-- A state concluded after its conditions have been judged already. -/
theorem does_settled {o : Host.Outcome State Fault Refusal} (ho : o = conclude (settled u)) : Does o u := by
  obtain ⟨t, h1, h2, -⟩ := conclude_does (settled u)
  refine ⟨t, ho.trans h1, h2.trans (settled_stable u), fun hu => ?_⟩
  have e : (settled u).fresh = u.fresh := by
    by_cases hr : u.running = true
    · exact settled_of_settled (hu hr)
    · rw [settled, if_neg hr]
  obtain ⟨t', h1', -, h3'⟩ := conclude_does u
  rw [conclude_congr e, h1'] at h1
  cases h1
  exact h3' hu

/-! ### Counting (R172, R174, R175) -/

/-- The station may transmit (R169). -/
theorem mayTransmit_iff (s : State) : s.mayTransmit = true ↔ s.line.counter < 128 ∧ s.line.twin = false ∧
    (s.start.station = .joining ∨ s.start.station = .operating) := by
  simp [State.mayTransmit, State.lineGood, and_assoc]

theorem barredSince_same {was : State} (h : s.mayTransmit = true ∨ ¬was.mayTransmit = true) : s.barredSince was = s := by
  rw [State.barredSince, if_neg]
  simp only [Bool.and_eq_true, Bool.not_eq_true']
  rintro ⟨h1, h2⟩
  rcases h with h | h
  · rw [h] at h2; cases h2
  · exact h h1

theorem barredSince_bars {was : State} (h : was.mayTransmit = true) (h' : ¬s.mayTransmit = true) :
    s.barredSince was = s.withdrawItem := by
  rw [State.barredSince, if_pos]
  simp [h, h']

/-- An item that has won is sent to its end (R169). -/
theorem withdrawItem_kept (h : s.line.tx = none ∨ ∃ x, s.line.tx = some x ∧ x.won = true) :
    s.withdrawItem = s.updLine Line.withdrawSeries := by
  unfold State.withdrawItem
  obtain hx | ⟨x, hx, hw⟩ := h
  · rw [hx]
  · rw [hx]
    exact if_pos hw

theorem detached_iff (s : State) : s.line' = .detached ↔ 224 ≤ s.line.counter := (lineState_range _).1

theorem heardTwin_eq (s : State) (n : Nat) :
    s.heardTwin n = { s with line := { s.line with twin := s.line.twin || n == s.conf.station } } := by
  unfold State.heardTwin
  by_cases h : n = s.conf.station
  · simp [h, State.updLine]
  · simp only [h, if_false, beq_eq_false_iff_ne.2 h, Bool.or_false]

/-- The 32nd notice in DETACHED takes the counter to 127 (R175). -/
theorem setCounter_recovered (h : 224 ≤ s.line.counter) : s.setCounter Config.recovered =
    s.updLine fun l => { l with counter := 127 } := by
  have hd := (detached_iff s).2 h
  unfold State.setCounter
  simp only [hd]
  rfl

/-- A valid notice that reaches no block. -/
theorem noticeNotDispatched_eq {kind : Nat} {sender target : Byte} {payload : List Byte} (hr : s.running = true)
    (hl : lengthGood kind payload = true) (hs : sender.toNat ≤ 120)
    (h : s.reaches kind sender.toNat target.toNat payload = false) :
    exec (.noticeNotDispatched kind sender target payload) s =
      conclude (settled ((s.countGood.heardTwin sender.toNat).barredSince s)) := by
  have hv : noticeValid kind sender payload = true := by simp [noticeValid, hl, hs]
  show execNoticeNotDispatched kind sender target payload s = _
  rw [execNoticeNotDispatched, if_pos ⟨hr, by simp [h]⟩, State.receive]
  simp only [hr, hv, h, Bool.not_true, Bool.false_eq_true, if_false]

theorem reaches_false_of {kind : Nat} {n target : Nat} {payload : List Byte}
    (h : n = s.conf.station ∨ (target ≠ s.conf.station ∧ target ≠ 127) ∨ 12 ≤ kind ∨ 8 ≤ kind ∧ kind ≤ 10) :
    s.reaches kind n target payload = false := by
  have kinds (hk : 12 ≤ kind ∨ 8 ≤ kind ∧ kind ≤ 10) : dispatched kind n payload = false := by
    obtain hk | ⟨h1, h2⟩ := hk
    · obtain ⟨m, rfl⟩ := Nat.exists_eq_add_of_le' hk
      rfl
    · interval_cases kind <;> rfl
  unfold State.reaches
  rcases h with rfl | ⟨h1, h2⟩ | h
  · simp
  · simp [h1, h2]
  · simp [kinds (by omega)]

theorem reaches_detached {kind n target : Nat} {payload : List Byte} (h : 224 ≤ s.line.counter) :
    s.reaches kind n target payload = false := by
  simp [State.reaches, (detached_iff s).2 h]

/-! ### Presenting (R169, R183) -/

/-- The part of an item as it is presented. -/
def State.txOf (s : State) (i : TxItem) (p : List Byte) (rest : List (List Byte)) : Tx :=
  { item := i, frame := noticeFrame i.kind s.conf.station i.target p, rest := rest, orphan := false, dropped := false,
    won := false }

theorem present_first {i : TxItem} {p : List Byte} {ps : List (List Byte)} (h : s.line.series i = none)
    (hc : s.contents i = p :: ps) :
    s.present i = { s with line := { s.line.markPresented i with tx := some (s.txOf i p ps) } } := by
  unfold State.present
  rw [h, Option.getD_none, hc]
  rfl

theorem present_next {i : TxItem} {p : List Byte} {ps : List (List Byte)} (h : s.line.series i = some (p :: ps)) :
    s.present i = { s with line := { s.line with tx := some (s.txOf i p ps) } } := by
  unfold State.present
  rw [h]
  rfl

/-- The candidate is presented. -/
theorem does_present {i : TxItem} (hm : s.mayTransmit = true) (ht : s.line.tx = none) (hc : s.candidate = some i)
    (e : s.present i = u) : Does (exec .presentItem s) u := by
  refine does_of ?_
  show execPresentItem s = _
  rw [execPresentItem, if_pos ⟨hm, ht⟩, hc, ← e]

theorem waits_iff {α : Type} (x : Slot α) : x.waits = true ↔ x.state = .pending ∧ x.content.isSome = true := by
  simp [Slot.waits]

theorem deferred_iff (s : State) (a : Answer) : s.deferred a = true ↔
    (a.kind = .faultSummary ∨ a.kind = .faultRecord) ∧ (s.faults.reader = .counting ∨ s.faults.reader = .reading) := by
  simp [State.deferred, Faults.busy]

/-! ### Reports (R170) -/

/-- What every sent item does first: the presentation ends and the counter falls (R170, R174). -/
def State.told (s : State) : State := { s with line := { s.line with tx := none, counter := s.line.counter - 1 } }

theorem sent_eq {x : Tx} (h : s.line.counter < 224) : s.sent x =
    if x.orphan then s.told.orphanSent x
    else if x.rest.isEmpty then s.told.itemSent x
    else s.told.updLine fun l => l.setSeries x.item (if s.told.mayTransmit then some x.rest else none) := by
  have e : (s.updLine fun l => { l with tx := none }).counterDown = s.told := counterDown_eq _ h
  unfold State.sent
  rw [e]

theorem does_sent {x : Tx} (hx : s.line.tx = some x) (h : s.line.counter < 224) (e : (if x.orphan then s.told.orphanSent x
    else if x.rest.isEmpty then s.told.itemSent x
    else s.told.updLine fun l => l.setSeries x.item (if s.told.mayTransmit then some x.rest else none)).fresh = u.fresh) :
    Does (exec .noticeSent s) u := by
  refine does_of_fresh (v := s.sent x) ?_ ((congrArg State.fresh (sent_eq h)).trans e)
  show execNoticeSent s = _
  rw [execNoticeSent, hx]

theorem does_lost {x : Tx} (hx : s.line.tx = some x) (ho : x.orphan = false) (e : s.restartSeries x = u) :
    Does (exec .arbitrationLost s) u := by
  refine does_of ?_
  show execArbitrationLost s = _
  rw [execArbitrationLost, hx, ← e]
  simp only [ho, Bool.false_eq_true, if_false]

theorem does_failed {x : Tx} (hx : s.line.tx = some x) (e : s.failed x = u) :
    Does (exec .transmissionFailure s) (u.barredSince s) := by
  refine does_of ?_
  show execTransmissionFailure s = _
  rw [execTransmissionFailure, hx, ← e]

end Sys2Proof.Machine

open Sys2Proof Sys2Proof.Machine

/-- Settles O35: what a notice that reaches no block, a receive fault and a bar on the station do. -/
theorem noticesCounted : Obligations.NoticesCounted := by
  refine ⟨fun kind sender target payload s hr hl hs => ?_, fun frame s hr hf => ?_, fun s was => ?_⟩
  · intro twin
    refine ⟨fun hc hn => ?_, fun hc hrec => ?_, fun hc hrec => ?_⟩
    · refine does_settled ((noticeNotDispatched_eq hr hl hs (reaches_false_of hn)).trans ?_)
      have hd : s.line' ≠ .detached := fun h => by have := (detached_iff s).1 h; omega
      rw [State.countGood, if_neg hd, counterDown_eq s hc, heardTwin_eq]
      rfl
    all_goals
      refine does_settled ((noticeNotDispatched_eq hr hl hs (reaches_detached hc)).trans ?_)
      have hb : ¬s.mayTransmit = true := fun h => by have := (mayTransmit_iff s).1 h; omega
      rw [barredSince_same (.inr hb), State.countGood, if_pos ((detached_iff s).2 hc), heardTwin_eq]
    · rw [if_pos (show s.line.recovery + 1 < Config.recoveryRun from by show s.line.recovery + 1 < 32; omega)]
      rfl
    · rw [if_neg (show ¬s.line.recovery + 1 < Config.recoveryRun from by show ¬s.line.recovery + 1 < 32; omega),
        setCounter_recovered (s := s.updLine fun l => { l with recovery := 0 }) hc]
      rfl
  · refine does_guarded ⟨hr, hf⟩ ?_
    rw [State.countFault, counterUp_eq_raised]
    simp only [detached_iff]
    rfl
  · intro may
    have hm (x : State) : may x ↔ x.mayTransmit = true := (mayTransmit_iff x).symm
    refine ⟨fun h => barredSince_same (by rwa [hm, hm] at h), fun h h' => ?_⟩
    rw [hm] at h h'
    rw [barredSince_bars h h']
    refine ⟨fun ht => ?_, fun x hx hw => ?_⟩
    · exact withdrawItem_kept ht
    · unfold State.withdrawItem
      simp only [hx, hw, Bool.false_eq_true, if_false]
      rfl

/-- Settles O36: the lowest candidate, and the part of it that is presented. -/
theorem itemPresented : Obligations.ItemPresented := by
  intro s hc htw ht part tx deferred later unanswered
  have may (h : s.start.station = .joining ∨ s.start.station = .operating) : s.mayTransmit = true :=
    (mayTransmit_iff s).2 ⟨hc, htw, h⟩
  have quiet {α : Type} {x : Slot α} (h : x.state ≠ .pending) : x.waits = false :=
    Bool.eq_false_iff.2 fun hw => h ((waits_iff x).1 hw).1
  have full {α : Type} {x : Slot α} {c : α} (h : x.state = .pending) (hx : x.content = some c) : x.waits = true :=
    (waits_iff x).2 ⟨h, by rw [hx]; rfl⟩
  have unoffered (h : ∀ a ∈ s.line.answers.head?, deferred a) : s.offered = none := by
    unfold State.offered
    split
    · rename_i a _ ha
      rw [if_pos ((deferred_iff s a).2 (h a (by rw [ha]; rfl)))]
    · rfl
  have nj (h : s.start.station = .operating) : ¬s.start.station = .joining := by rw [h]; decide
  refine ⟨fun c ho hl hx => ?_, fun d ho hl hd hx => ?_, fun a rest p ps hlat ha hdef hser => ?_, fun c hun hst hx => ?_,
    fun hun hst => ⟨fun c hsu hx => ?_, fun h hsu hh hx => ?_⟩, fun h hj hh hx => ?_⟩
  · refine does_present (may (.inr ho)) ht ?_ (present_first (i := .lane c) rfl rfl)
    simp only [State.candidate, if_neg (nj ho), full hl hx, if_true, hx]
  · refine does_present (may (.inr ho)) ht ?_ (present_first (i := .demand d) rfl rfl)
    simp only [State.candidate, if_neg (nj ho), quiet hl, full hd hx, if_true, Bool.false_eq_true, if_false, hx]
  · obtain ⟨ho, hl, hd⟩ := hlat
    have hof : s.offered = some a := by
      rw [State.offered, ha]
      exact if_neg fun h => hdef ((deferred_iff s a).1 h)
    have hcand : s.candidate = some (.answer a) := by
      simp only [State.candidate, if_neg (nj ho), quiet hl, quiet hd, Bool.false_eq_true, if_false, hof]
    refine does_present (may (.inr ho)) ht hcand ?_
    obtain hser | ⟨hser, hp⟩ := hser
    · exact present_next (i := .answer a) hser
    · exact present_first (i := .answer a) hser hp
  · obtain ⟨⟨ho, hl, hd⟩, hun⟩ := hun
    have hcand : s.candidate = some .status := by
      simp only [State.candidate, if_neg (nj ho), quiet hl, quiet hd, Bool.false_eq_true, if_false, unoffered hun,
        full hst hx, if_true]
    refine ⟨fun hser => does_present (may (.inr ho)) ht hcand ?_, fun p ps hser =>
      does_present (may (.inr ho)) ht hcand (present_next (i := .status) hser)⟩
    exact present_first (i := .status) hser (by rw [State.contents, hx]; rfl)
  · obtain ⟨⟨ho, hl, hd⟩, hun⟩ := hun
    refine does_present (may (.inr ho)) ht ?_ (present_first (i := .summary) rfl (by rw [State.contents, hx]; rfl))
    simp only [State.candidate, if_neg (nj ho), quiet hl, quiet hd, quiet hst, Bool.false_eq_true, if_false, unoffered hun,
      full hsu hx, if_true]
  · obtain ⟨⟨ho, hl, hd⟩, hun⟩ := hun
    refine does_present (may (.inr ho)) ht ?_ (present_first (i := .hello) rfl (by rw [State.contents, hx]; rfl))
    simp only [State.candidate, if_neg (nj ho), quiet hl, quiet hd, quiet hst, quiet hsu, Bool.false_eq_true, if_false,
      unoffered hun, full hh hx, if_true]
  · refine does_present (may (.inl hj)) ht ?_ (present_first (i := .hello) rfl (by rw [State.contents, hx]; rfl))
    simp only [State.candidate, if_pos hj, full hh hx, if_true]

/-- Settles O37: the counter falls, and the owner of the item is told. -/
theorem noticeSent : Obligations.NoticeSent := by
  refine ⟨fun s x hx ho hc => ⟨fun hi => ?_, fun a hi => ?_⟩, fun s x hx ho hc =>
    ⟨fun hi hrest hj => ?_, fun c hi hrest ha hown hcur => ?_, fun hi hrest => ?_, fun a hi hrest hk has => ?_⟩⟩
  · refine does_sent hx hc ?_
    simp only [ho, if_true, State.orphanSent, hi]
    rfl
  · refine does_sent hx hc ?_
    simp only [ho, if_true, State.orphanSent, hi, State.answerTold, List.isEmpty_iff]
    by_cases hrest : x.rest = [] <;> by_cases hk : a.kind = .status ∧ a.asker = 0 <;> simp only [hrest, hk, true_and,
      false_and, if_true, if_false] <;> rfl
  · refine does_sent hx hc ?_
    have hj' : s.told.start.station = .joining := hj
    simp only [ho, hrest, Bool.false_eq_true, if_false, List.isEmpty_nil, if_true, State.itemSent, hi, State.helloReported, hj']
    rfl
  · refine does_sent hx hc ?_
    have hcl : (s.told.updLine fun l => { l with lane := l.lane.sent }).depart.own = .claiming ∧
        (s.told.updLine fun l => { l with lane := l.lane.sent }).depart.current = some c.lane := ⟨hown, hcur⟩
    simp only [ho, hrest, Bool.false_eq_true, if_false, List.isEmpty_nil, if_true, State.itemSent, hi, State.laneSent, ha,
      State.claimReported, if_pos hcl]
    rfl
  · refine does_sent hx hc ?_
    have hr : x.rest.isEmpty = false := by simpa using hrest
    simp only [ho, hr, Bool.false_eq_true, if_false, hi, mayTransmit_iff]
    rfl
  · refine does_sent hx hc ?_
    simp only [ho, hrest, Bool.false_eq_true, if_false, List.isEmpty_nil, if_true, State.itemSent, hi, State.answerReported,
      State.answerTold, hk, has, and_self]
    rfl

/-- Settles O38: a lost arbitration and a transmission failure. -/
theorem presentationsFail : Obligations.PresentationsFail := by
  intro s x hx ho
  refine ⟨fun c hi => ?_, fun hi => ?_, fun d hi => ?_, fun c hi hst hw hown hcur hsent => ?_⟩
  · refine does_lost hx ho ?_
    rw [State.restartSeries, hi]
    rfl
  · refine does_lost hx ho ?_
    rw [State.restartSeries, hi]
    rfl
  · refine does_failed hx ?_
    simp only [State.failed, ho, Bool.false_eq_true, if_false, hi, counterUp_eq_raised, State.restartSeries]
    rfl
  · refine does_failed hx ?_
    simp only [State.failed, ho, Bool.false_eq_true, if_false, hi, counterUp_eq_raised, State.restartSeries, hst, if_true]
    have hcl : s.depart.own = .claiming ∧ s.depart.current = some c.lane ∧ s.depart.claimSent = false := ⟨hown, hcur, hsent⟩
    rw [State.singleTryFailed, if_neg (by rw [Bool.not_eq_true]; exact hw), State.claimFailed]
    exact (if_pos hcl).trans rfl

end

