-- ==== Sys2Proof/Proofs/HeatSteps.lean ====
section
namespace Sys2Proof.Machine

/-! ## HEAT: polls, rises, BLIND -/

variable {s t u : State}

/-! ### What settling leaves alone -/

/-- What every condition keeps, judging keeps. -/
theorem settle_keeps {P : State → Prop} (hP : ∀ a b, P a → stepRule a = some b → P b) (n : Nat) :
    ∀ {s : State}, P s → P (settle n s) := by
  induction n with
  | zero => exact fun h => h
  | succ n ih =>
    intro s h
    unfold settle
    split
    · exact ih (hP _ _ h ‹_›)
    · exact h

theorem settled_keeps {P : State → Prop} (hP : ∀ a b, P a → stepRule a = some b → P b)
    (hf : ∀ a, P a → P a.fresh) (h : P s) : P (settled s) := by
  unfold settled
  split
  · exact hf _ (settle_keeps hP _ (hf _ h))
  · exact h

/-- HEAT's registers and the plan list are as they were. -/
def Beside (s t : State) : Prop := t.heat = s.heat ∧ t.plans = s.plans

namespace Beside

theorem refl (s : State) : Beside s s := ⟨rfl, rfl⟩
theorem trans (h : Beside s t) (k : Beside t u) : Beside s u := ⟨k.1.trans h.1, k.2.trans h.2⟩
theorem ite {c : Prop} [Decidable c] {a b : State} (ha : Beside s a) (hb : Beside s b) : Beside s (if c then a else b) := by
  split <;> assumption

theorem lamp (h : Beside s t) (k : LampScope t u) : Beside s u := h.trans ⟨k.heat, k.plans⟩
theorem updDepart (h : Beside s t) (f : Depart → Depart) : Beside s (t.updDepart f) := h
theorem updBay (h : Beside s t) (f : Bay → Bay) : Beside s (t.updBay f) := h
theorem updLine (h : Beside s t) (f : Line → Line) : Beside s (t.updLine f) := h
theorem updLink (h : Beside s t) (f : Link → Link) : Beside s (t.updLink f) := h
theorem updFaults (h : Beside s t) (f : Faults → Faults) : Beside s (t.updFaults f) := h
theorem updStart (h : Beside s t) (f : Start → Start) : Beside s (t.updStart f) := h

theorem place (h : Beside s t) (r : Request) : Beside s (t.place r) := h.lamp ((LampScope.refl t).place r)

theorem laneRound (ls : List Nat) : ∀ {t : State}, Beside s t → Beside s (State.laneRound ls t) := by
  induction ls with
  | nil => exact fun h => h.updDepart _
  | cons l ls ih => exact fun h => ite (ih h) (ite (ih (h.updDepart _)) ((h.updLine _).updDepart _))

theorem giveUpLane (h : Beside s t) : Beside s t.giveUpLane := by
  unfold State.giveUpLane
  dsimp only
  refine updDepart ?_ _
  split
  · exact ite (h.updLine _) (h.updLine _)
  · exact h.updLine _
  · exact h
  · exact h
  · exact h

theorem dropSilent (h : Beside s t) : Beside s t.dropSilent := ((ite (h.updLine _) h).updLine _).updDepart _

theorem closeLatch (h : Beside s t) : Beside s t.closeLatch := ite (h.updBay _) ((h.updBay _).updBay _)
theorem latchCloseOrder (h : Beside s t) : Beside s t.latchCloseOrder := ite (h.updBay _).closeLatch (h.updBay _)
theorem latchOpenOrder (h : Beside s t) : Beside s t.latchOpenOrder := ite ((h.updBay _).updBay _) ((h.updBay _).updBay _)
theorem linkResume (h : Beside s t) : Beside s t.linkResume := ite (h.updLink _) h
theorem wake (h : Beside s t) : Beside s t.wake := ((h.updLink _).updStart _).place _
theorem beginPass (h : Beside s t) : Beside s t.beginPass := (h.updFaults _).place _
theorem beginRead (h : Beside s t) (k : ReadKind) : Beside s (t.beginRead k) :=
  ((ite h (h.updLine _)).updFaults _).beginPass
theorem finalReadOrder (h : Beside s t) : Beside s t.finalReadOrder :=
  ite (ite ((h.updLink _).beginRead _) (h.beginRead _)) (h.updFaults _)

theorem phaseIs (h : Beside s t) (f : Phase → Bool) : t.phaseIs f = s.phaseIs f := by
  unfold State.phaseIs State.phase State.head
  rw [h.2]

end Beside

/-- HEAT's registers are as they were, no plan record takes a change to hold, and the departures stand in the same order. -/
structure Aside (s t : State) : Prop where
  heat : t.heat = s.heat
  unheld : (∀ x ∈ s.plans.list, x.held = none) → ∀ x ∈ t.plans.list, x.held = none
  data : t.plans.list.map Plan.data = s.plans.list.map Plan.data
  full : t.plans.full = s.plans.full

theorem Beside.aside (h : Beside s t) : Aside s t := ⟨h.1, fun x => by rw [h.2]; exact x, by rw [h.2], by rw [h.2]⟩

theorem phaseIs_pinned {p : Phase} (h : s.inPhase p = true) (hp : p.pinned = true) : s.phaseIs Phase.pinned = true := by
  unfold State.phaseIs
  rw [eq_of_beq h]
  exact hp

namespace Aside

theorem trans (h : Aside s t) (k : Aside t u) : Aside s u := 
  ⟨k.heat.trans h.heat, k.unheld ∘ h.unheld, k.data.trans h.data, k.full.trans h.full⟩

theorem mapPhase (s : State) (p : Phase) : Aside s (s.mapHead fun x => { x with phase := p }) := by
  refine ⟨rfl, fun hs => ?_, ?_, rfl⟩
  case refine_2 =>
    unfold State.mapHead
    rw [updPlans_plans]
    split <;> (rename_i e; rw [e])
    rfl
  unfold State.mapHead
  simp only [updPlans_plans]
  split
  · exact fun _ hx => absurd hx List.not_mem_nil
  · rename_i x xs e
    rw [e] at hs
    intro y hy
    rcases List.mem_cons.1 hy with rfl | hy
    · exact hs x List.mem_cons_self
    · exact hs y (List.mem_cons_of_mem _ hy)

/-- The phase of a pinned head moves within the pinned phases (R3). -/
theorem setPhase {p : Phase} (hp : p.pinned = true) (hs : s.phaseIs Phase.pinned = true) : Aside s (s.setPhase p) := by
  unfold State.phaseIs at hs
  unfold State.setPhase
  dsimp only
  split
  · exact (Beside.refl s).aside
  · rename_i old e
    rw [e] at hs
    rw [if_pos (by exact hs)]
    cases p with
    | waitingCoach => cases hp
    | wrongCoach => cases hp
    | preparing => exact (mapPhase s _).trans ((Beside.refl _).lamp (LampScope.refl _).lampOwed).aside
    | _ => exact mapPhase s _

theorem fallPhase (hs : s.phaseIs Phase.pinned = true) : Aside s s.fallPhase := by
  unfold State.fallPhase
  dsimp only
  have h1 : Beside s s.discardWaits := ((Beside.refl s).updDepart _).updBay _
  have h2 := (Beside.ite (c := s.depart.releaseBegun = true) h1.latchCloseOrder.linkResume h1).updDepart
    fun d => { d with releaseBegun := false, key := none, lanes := [] }
  have pinned (b : Bool) : (if b = true then Phase.ready else Phase.preparing).pinned = true := by cases b <;> rfl
  exact h2.aside.trans (setPhase (pinned _) (by rw [h2.phaseIs]; exact hs))

theorem fallBack (hs : s.phaseIs Phase.pinned = true) (r : Option RefusalReason) : Aside s (s.fallBack r) := by
  have h1 := (Beside.refl s).giveUpLane
  have h2 : Aside s s.giveUpLane.fallPhase := h1.aside.trans (fallPhase (by rw [h1.phaseIs]; exact hs))
  unfold State.fallBack
  dsimp only
  split
  · exact h2.trans ((Beside.refl _).updDepart _).aside
  · exact h2

theorem fallSilent (hs : s.phaseIs Phase.pinned = true) : Aside s s.fallSilent := by
  have h1 := (Beside.refl s).dropSilent
  exact (h1.aside.trans (fallPhase (by rw [h1.phaseIs]; exact hs))).trans ⟨rfl, id, rfl, rfl⟩

theorem finalReport (b : Bool) : Aside s (s.finalReport b) := by
  unfold State.finalReport
  split
  · have hp := phaseIs_pinned (s := s) (p := .finalRead) ‹_› rfl
    split
    · exact fallBack hp _
    · split
      · exact fallBack hp _
      · split
        · exact (setPhase rfl hp).trans (Beside.laneRound _ (((Beside.refl _).updDepart _).updDepart _)).aside
        · exact fallBack hp _
  · exact (Beside.refl s).aside

theorem coachGone (hs : s.phaseIs Phase.pinned = true) : Aside s s.coachGone :=
  (setPhase (p := .gone) rfl hs).trans ⟨rfl, id, rfl, rfl⟩

theorem mapHead_pinned {p : Phase} (hp : p.pinned = true) (hs : s.phaseIs Phase.pinned = true) :
    (s.setPhase p).phaseIs Phase.pinned = true := by
  obtain ⟨h, hh⟩ : ∃ h, s.head = some h := by
    cases e : s.head with
    | none => rw [State.phaseIs, State.phase, e] at hs; cases hs
    | some h => exact ⟨h, rfl⟩
  have hm : (s.mapHead fun x => { x with phase := p }).phaseIs Phase.pinned = true := by
    rw [State.phaseIs, State.phase, mapHead_head, hh]
    exact hp
  have ho : h.phase.pinned = true := by
    rw [State.phaseIs, State.phase, hh] at hs
    exact hs
  unfold State.setPhase
  dsimp only
  rw [State.phase, hh]
  simp only [Option.map_some, if_pos ho]
  cases p with
  | waitingCoach => cases hp
  | wrongCoach => cases hp
  | preparing => exact (((Beside.refl _).lamp (LampScope.refl _).lampOwed).phaseIs _).trans hm
  | _ => exact hm

theorem enterCleared (hs : s.phaseIs Phase.pinned = true) : Aside s s.enterCleared := by
  have h1 : Aside s (s.setPhase .cleared) := setPhase rfl hs
  have h2 : Aside s (((s.setPhase .cleared).updDepart fun d =>
    { d with unlatchWait := none, refusal := none, clearance := s.after (s.conf.clearance * Config.second) }).updBay fun b =>
      { b with departWatch := some (((s.setPhase .cleared).updDepart fun d =>
        { d with unlatchWait := none, refusal := none,
                 clearance := s.after (s.conf.clearance * Config.second) }).newWatch [(.coachPresent, true)]) }) :=
    h1.trans (((Beside.refl _).updDepart _).updBay _).aside
  unfold State.enterCleared
  dsimp only
  split
  · exact h2
  · exact h2.trans (coachGone (mapHead_pinned (s := s) rfl hs))

theorem unlatch (hs : s.phaseIs Phase.pinned = true) : Aside s s.unlatch := by
  unfold State.unlatch
  dsimp only
  have h1 := (Beside.refl s).latchOpenOrder
  split
  · exact ((h1.updDepart _).updBay _).aside
  · refine Aside.trans (Beside.aside ((h1.updDepart _).updBay _)) (enterCleared ?_)
    exact (h1.phaseIs _).trans hs

end Aside

theorem pinned_of_departing (h : s.phaseIs Phase.departing = true) : s.phaseIs Phase.pinned = true := by
  unfold State.phaseIs at h ⊢
  split <;> rename_i e <;> rw [e] at h
  · rename_i p
    cases p <;> simp_all [Phase.departing, Phase.pinned]
  · cases h

/-- No condition of DEPART and PLANS changes HEAT, where no record holds a change. -/
theorem departRule_aside (hn : ∀ x ∈ s.plans.list, x.held = none) (h : s.departRule = some t) : Aside s t := by
  unfold State.departRule at h
  split at h
  · cases h
    exact Aside.trans ((Beside.refl s).updFaults _).aside (Aside.finalReport _)
  · split at h
    · rename_i hd
      cases h
      simp only [Bool.and_eq_true] at hd
      exact Aside.fallSilent (pinned_of_departing hd.1)
    · split at h
      · rename_i r hr
        cases h
        refine Aside.fallBack ?_ _
        unfold State.holdFails at hr
        dsimp only at hr
        split at hr
        · rename_i hp
          simp only [Bool.or_eq_true] at hp
          obtain (hp | hp) | hp := hp <;> exact phaseIs_pinned hp rfl
        · cases hr
      · have hheld : s.heldDue = false := by
          unfold State.heldDue State.head
          cases hl : s.plans.list with
          | nil => simp
          | cons x xs => simp [hn x (by rw [hl]; exact List.mem_cons_self)]
        rw [hheld] at h
        split at h
        · exact absurd ‹false = true› (by decide)
        · split at h
          · rename_i hp
            cases h
            simp only [Bool.and_eq_true] at hp
            exact (Aside.setPhase rfl (phaseIs_pinned hp.1 rfl)).trans (Beside.refl _).finalReadOrder.aside
          · split at h
            · rename_i hp
              cases h
              simp only [Bool.and_eq_true] at hp
              exact Aside.unlatch (phaseIs_pinned hp.1.1 rfl)
            · cases h

theorem linkRule_beside (h : s.linkRule = some t) : Beside s t := by
  unfold State.linkRule at h
  split at h
  · cases h
    exact Beside.ite (Beside.refl s).wake (((Beside.refl s).updLink _).updStart _)
  · split at h
    · cases h
      exact (Beside.refl s).wake
    · cases h

theorem readyRule_aside (h : s.readyRule = some t) : Aside s t := by
  unfold State.readyRule at h
  split at h
  · rename_i hp
    cases h
    simp only [Bool.and_eq_true] at hp
    exact Aside.setPhase rfl (phaseIs_pinned hp.1 rfl)
  · split at h
    · rename_i hp
      cases h
      simp only [Bool.and_eq_true] at hp
      exact Aside.setPhase rfl (phaseIs_pinned hp.1 rfl)
    · split at h
      · cases h
        exact ((Beside.refl s).lamp ((LampScope.refl s).lampEnd _ _).lampWait).aside
      · split at h
        · cases h
          exact ((Beside.refl s).lamp (LampScope.lampTurn 17 (((LampScope.refl s).updLamp _).lampWatch _) 1)).aside
        · cases h

end Sys2Proof.Machine
end

