-- ==== Sys2Proof/Proofs/HeatProofs.lean ====
section
namespace Sys2Proof.Machine

/-! ## HEAT: what its commands do -/

variable {s t : State}

/-! ### The first part of BLIND over (R58) -/

/-- BLIND in its second part, at most one stage on, no record holding a change. -/
structure BlindOver (s : State) : Prop where
  state : s.heat.state = .blind
  figure : s.heat.blindCount = 1
  ended : s.heat.blindEnd = none
  stages : s.heat.count ≤ 1
  unheld : ∀ x ∈ s.plans.list, x.held = none

theorem BlindOver.aside (h : BlindOver s) (k : Aside s t) : BlindOver t :=
  ⟨by rw [k.heat]; exact h.state, by rw [k.heat]; exact h.figure, by rw [k.heat]; exact h.ended,
    by rw [k.heat]; exact h.stages, k.unheld h.unheld⟩

/-- A new count leaves the rest of HEAT's figures (R43). -/
theorem setCount_heat (s : State) (n : Nat) : ∃ l r,
    (s.setCount n).heat = { s.heat with count := n, lastChange := l, run := r } ∧ (s.setCount n).plans = s.plans := by
  obtain ⟨rfl, e⟩ | ⟨-, h⟩ := setCount_scope s n
  · rw [e]; exact ⟨_, _, rfl, rfl⟩
  · exact ⟨_, _, h.heat, h.plans⟩

theorem BlindOver.setCount (h : BlindOver s) {n : Nat} (hn : n ≤ 1) : BlindOver (s.setCount n) := by
  obtain ⟨l, r, e, hp⟩ := setCount_heat s n
  exact ⟨by rw [e]; exact h.state, by rw [e]; exact h.figure, by rw [e]; exact h.ended, by rw [e]; exact hn,
    by rw [hp]; exact h.unheld⟩

theorem BlindOver.capCount (h : BlindOver s) (n : Nat) : BlindOver (s.capCount n) := by
  have := h.stages
  unfold State.capCount
  split
  · exact h.setCount (by omega)
  · exact h

theorem BlindOver.rise (h : BlindOver s) (hr : s.riseOpen = true) : BlindOver s.riseOne := by
  have hb : s.ownRequest ≤ 1 := by
    unfold State.ownRequest
    rw [h.state, h.figure]
    exact Nat.min_le_left _ _
  have ht : s.stageTarget ≤ 1 := by
    unfold State.stageTarget
    rw [h.state]
    exact (Nat.min_le_right _ _).trans hb
  simp only [State.riseOpen, Bool.and_eq_true, decide_eq_true_eq] at hr
  obtain ⟨⟨hlt, -⟩, -⟩ := hr
  have k := h.setCount (n := s.heat.count + 1) (by omega)
  exact ⟨k.state, k.figure, k.ended, k.stages, k.unheld⟩

theorem BlindOver.compute (h : BlindOver s) : BlindOver s.compute := by
  have figures (x : Plan) : BlindOver (s.computeFigures x) := by
    unfold State.computeFigures
    dsimp only
    split <;> exact ⟨h.state, h.figure, h.ended, h.stages, h.unheld⟩
  have moved (x : Plan) : BlindOver (s.computeFigures x).takeSlack.moveBySlack := by
    unfold State.moveBySlack
    rw [show (s.computeFigures x).takeSlack.heat.state = .blind from (figures x).state]
    exact (figures x).aside ⟨rfl, id, rfl, rfl⟩
  unfold State.compute
  split
  · split
    · exact moved _
    · exact ⟨h.state, h.figure, h.ended, h.stages, h.unheld⟩
  · exact ⟨h.state, h.figure, h.ended, h.stages, h.unheld⟩

theorem BlindOver.setGrant (h : BlindOver s) (g : Nat) : BlindOver (s.setGrant g) := by
  have h1 : BlindOver (s.updShare fun x => { x with grant := g }) := h.aside ⟨rfl, id, rfl, rfl⟩
  have k := h1.capCount g
  exact ⟨k.state, k.figure, k.ended, k.stages, k.unheld⟩

theorem BlindOver.regrant (h : BlindOver s) : BlindOver s.regrant := by
  have h1 : BlindOver (s.updShare fun x => { x with rounds := x.rounds + 1 }) := h.aside ⟨rfl, id, rfl, rfl⟩
  have h2 : BlindOver { (s.updShare fun x => { x with rounds := x.rounds + 1 }) with freeCount := s.freeCount + 1 } :=
    h.aside ⟨rfl, id, rfl, rfl⟩
  unfold State.regrant
  dsimp only
  split
  · exact h1.setGrant _
  · split
    · exact h2.setGrant _
    · exact h2

theorem BlindOver.heatPlace (h : BlindOver s) (k : ReqKind) : BlindOver (s.heatPlace k) := by
  obtain ⟨-, ⟨-, e⟩ | ⟨-, e⟩⟩ | ⟨-, ⟨-, e⟩ | ⟨-, e⟩⟩ := heatPlace_cases s k <;> rw [e]
  · exact ⟨h.state, h.figure, h.ended, h.stages, h.unheld⟩
  · exact h.aside ((Beside.refl s).lamp (LampScope.begun ⟨_, _, _, _, _, _, _, rfl, fun h => h⟩)).aside
  · exact ⟨h.state, h.figure, h.ended, h.stages, h.unheld⟩
  · exact h

theorem BlindOver.heatRule (h : BlindOver s) (e : s.heatRule = some t) : BlindOver t := by
  have hs := h.state
  have hb : s.heatBarred = false := by simp [State.heatBarred, hs]
  have hd : s.drawDue = false := by simp [State.drawDue, hs]
  rw [State.heatRule, if_neg (by rw [hs]; simp), hb, hd] at e
  simp only [Bool.false_eq_true, if_false] at e
  split at e
  · cases e
    have announced : Beside s s.announceDemand :=
      Beside.ite (Beside.ite (c := (!s.share.demandSent && !s.demandOnLine) = true) ⟨rfl, rfl⟩ ⟨rfl, rfl⟩) ⟨rfl, rfl⟩
    exact h.aside announced.aside
  · split at e
    · cases e
      exact h.compute
    · split at e
      · cases e
        exact h.regrant
      · split at e
        · cases e
          exact h.heatPlace _
        · split at e
          · rename_i hr
            cases e
            simp only [State.riseDue, Bool.and_eq_true] at hr
            exact h.rise hr.1.2
          · split at e
            · cases e
              split
              · rename_i hw
                refine h.rise ?_
                unfold State.waitedRise at hw
                split at hw
                · exact hw
                · rw [hs] at hw; simp at hw
                · cases hw
              · exact ⟨hs, h.figure, h.ended, h.stages, h.unheld⟩
            · cases e

theorem BlindOver.stepRule (h : BlindOver s) (e : stepRule s = some t) : BlindOver t := by
  unfold Machine.stepRule at e
  split at e
  · cases e
    exact h.aside (departRule_aside h.unheld ‹_›)
  · split at e
    · cases e
      exact h.aside (linkRule_beside ‹_›).aside
    · split at e
      · cases e
        exact h.aside (readyRule_aside ‹_›)
      · exact h.heatRule e

theorem BlindOver.settled (h : BlindOver s) : BlindOver (settled s) :=
  settled_keeps (fun _ _ ha e => ha.stepRule e) (fun _ ha => ha.aside ⟨rfl, id, rfl, rfl⟩) h

/-- The close writes neither HEAT nor the plan list. -/
theorem finish_heat (s : State) : (finish s).heat = s.heat := by
  have h := finish_closed s
  rw [h]

/-- Nothing that starts an exchange reads HEAT. -/
theorem begun_updHeat (s : State) (f : Heat → Heat) : s.begun.updHeat f = (s.updHeat f).begun := by
  have e : (s.updHeat f).exchangeDue = s.exchangeDue := rfl
  unfold State.begun
  rw [e]
  split
  · unfold State.startExchange
    rw [updHeat_link]
    split <;> rfl
  · rfl

/-! ### A rise (R55) -/

/-- The state after a rise: one more contactor, the proving window begun (R55, R158, R159, log entry 52). -/
def State.risen (s : State) : State :=
  { s with
    heat := { s.heat with
      count := s.heat.count + 1, lastChange := some s.now, waiting := none,
      run := s.heat.run.map fun r => { r with acc := r.acc + s.heat.count * (s.now - r.mark), mark := s.now } },
    bay := { s.bay with
      contactors := s.heat.count + 1, provingWindow := some (s.now + 2000),
      provingFailed := s.bay.provingFailed && !s.bay.proving.level } }

theorem riseOne_eq (s : State) : s.riseOne = s.risen := by
  have hn : ¬s.heat.count + 1 = s.heat.count := by omega
  have hl : ¬s.heat.count + 1 < s.heat.count := by omega
  unfold State.riseOne State.setCount
  rw [if_neg hn]
  dsimp only
  rw [if_neg hl]
  unfold State.bayCount
  simp [State.provingMatches, State.level, Bay.pin, State.risen, State.updHeat, State.updBay, State.after, HeatRun.upTo]
  rfl

/-- DEMAND with the present content, and its refresh. -/
def State.announced (s : State) : State :=
  { s with
    line := { s.line with demand := s.line.demand.write s.demandContent },
    share := { s.share with refresh := some (s.now + 20000) } }

/-- The rest of the conditions reads neither the DEMAND slot nor its refresh. -/
theorem State.RestCalm.of_demand {x : Slot DemandContent} {y : Share}
    (h : ({ s with line := { s.line with demand := x }, share := y } : State).RestCalm) : s.RestCalm := by
  obtain ⟨h1, h2, h3⟩ := h
  exact ⟨(departRule_eq_none _).2 ((departRule_eq_none _).1 h1 :), (linkRule_eq_none _).2 ((linkRule_eq_none _).1 h2 :),
    (readyRule_eq_none _).2 ((readyRule_eq_none _).1 h3 :)⟩

/-- A rise re-writes DEMAND with the new count before anything else is judged (R79). -/
theorem settled_risen (hr : s.running = true) (hs : s.heat.state = .heating ∨ s.heat.state = .blind)
    (ho : s.ownRequest ≠ 0) (ha : s.share.announced = true) (hd : s.line.demand.content = some s.demandContent)
    (hu : s.risen.announced.Settled) : settled s.risen = s.risen.announced.fresh := by
  have calm : s.risen.RestCalm := State.RestCalm.of_demand hu.restCalm
  have hoff : ¬s.heat.state = .off := by obtain h | h := hs <;> rw [h] <;> decide
  have hbar : s.risen.fresh.heatBarred = false := by
    have e : s.risen.fresh.heat.state = s.heat.state := rfl
    obtain h | h := hs <;> rw [State.heatBarred, e, h] <;> rfl
  have hdue : s.risen.fresh.demandDue = true := by
    have e1 : s.risen.fresh.ownRequest = s.ownRequest := rfl
    have e2 : s.risen.fresh.line.demand.content = some s.demandContent := hd
    unfold State.demandDue
    rw [e1, if_neg ho, e2]
    have moved : (s.risen.fresh.demandContent.stagesOn != s.demandContent.stagesOn) = true := by
      show (s.heat.count + 1 != s.heat.count) = true
      simp
    simp only [demandMoved, moved, Bool.or_true, Bool.true_or]
  have first : stepRule s.risen.fresh = some s.risen.announced.fresh := by
    rw [stepRule_of_restCalm (s := s.risen.fresh) (calm.of_grant (c := s.risen.heat.compute) (x := s.risen.fresh.share)), State.heatRule, if_neg fun h => hoff h.1, hbar, hdue, State.announceDemand,
      if_neg (show s.risen.fresh.ownRequest ≠ 0 from ho), announce_eq (s := s.risen.fresh) ha]
    rfl
  exact settled_of_step (t := s.risen.announced.fresh) hr first hu

end Sys2Proof.Machine

open Sys2Proof Sys2Proof.Machine

/-- Settles O39: the poll is placed, or skipped while one is in hand. -/
theorem cabinPolled : Obligations.CabinPolled := by
  intro s e hr hl hp he
  have hx : s.running = true ∧ s.linkUp = true ∧ s.expired s.heat.pollDue = true :=
    ⟨hr, by rw [State.linkUp, hl]; rfl, by rw [hp]; exact expired_of_le he⟩
  refine ⟨fun hh hc => does_guarded hx ?_, fun hh => does_guarded hx ?_⟩
  · have ha : s.link.allows .cabinTemperature = true := by simp [Link.allows, hl]
    rw [State.pollCabin, hh, hp]
    simp only [Bool.false_eq_true, if_false]
    rw [State.heatPlace, if_pos ha, if_neg (by show ¬3 ≤ s.link.count .heat; omega), State.place,
      if_pos (by rw [ha, Bool.true_and]; exact decide_eq_true hc)]
    exact begun_updHeat _ _
  · rw [State.pollCabin, hh, hp]
    rfl

/-- Settles O40: a rise and its announcement; BLIND entered, and its first part over. -/
theorem stagesAndBlind : Obligations.StagesAndBlind := by
  refine ⟨fun s hr hs hlt hen hw hc ha hd => ?_, fun s hr hs hb => ?_, fun s e hr hs hx he => ⟨fun hn => ?_, fun hn hh => ?_⟩⟩
  · intro n u
    have hopen : s.riseDue = true := by
      have ht : s.riseTime = true := by
        unfold State.riseTime
        split
        · rename_i c hc'
          exact decide_eq_true (hc c hc')
        · rfl
      have hst : (s.heat.state == .heating || s.heat.state == .blind) = true := by
        obtain h | h := hs <;> rw [h] <;> rfl
      simp only [State.riseDue, State.riseOpen, hst, ht, hen, hw, Option.isNone_none, decide_eq_true hlt, Bool.and_self]
    have ho : s.ownRequest ≠ 0 := by
      have : s.stageTarget ≤ s.ownRequest := by
        unfold State.stageTarget
        split
        · exact Nat.min_le_right _ _
        · exact Nat.zero_le _
      omega
    refine ⟨_, if_pos ⟨hr, hopen⟩, by rw [finish_stable, settled_stable, riseOne_eq]; rfl, fun hu => ?_⟩
    rw [riseOne_eq, settled_risen hr hs ho ha hd hu, finish_fresh]
    exact finish_closed u
  · have hst : (s.heat.state == .heating || s.heat.state == .holding) = true := by
      obtain h | h := hs <;> rw [h] <;> rfl
    have hdue : s.blindDue = true := by
      unfold State.blindDue
      rw [hst]
      obtain ⟨r, h1, h2⟩ | ⟨h1, d, h2, h3⟩ := hb
      · rw [h1]; exact decide_eq_true h2
      · rw [h1, h2]; exact decide_eq_true h3
    have hf : stageFigure s.heat.stageMax s.heat.count = min (max s.heat.count 1) (max s.heat.stageMax 1) := by
      unfold stageFigure clampNat
      split_ifs <;> omega
    refine does_of ?_
    show execBlindEntry s = _
    rw [execBlindEntry, if_pos ⟨hr, hdue⟩, State.enterBlind, ← hf]
    rfl
  · refine does_guarded ⟨hr, hs, by rw [hx]; exact expired_of_le he⟩ ?_
    rw [State.blindOver, State.capCount, if_neg (by show ¬1 < s.heat.count; omega)]
    rfl
  · have h0 : BlindOver s.blindOver := by
      obtain ⟨l, r, e1, e2⟩ := setCount_heat (s.updHeat fun h => { h with blindCount := 1, blindEnd := none }) 1
      have e : s.blindOver = (s.updHeat fun h => { h with blindCount := 1, blindEnd := none }).setCount 1 := if_pos hn
      exact ⟨by rw [e, e1]; exact hs, by rw [e, e1]; rfl, by rw [e, e1]; rfl, by rw [e, e1], by rw [e, e2]; exact hh⟩
    obtain ⟨k1, k2, k3, k4, -⟩ := h0.settled
    refine ⟨_, if_pos ⟨hr, hs, by rw [hx]; exact expired_of_le he⟩, ?_, ?_⟩
    · rw [finish_stable, settled_stable, State.blindOver, stable_capCount, stable_updHeat]
    · rw [finish_heat]
      exact ⟨k1, k2, k3, k4⟩

end

