-- ==== Sys2Proof/Proofs/Figures.lean ====
section
namespace Sys2Proof.Machine

/-! ## HEAT: the computation and its figures -/

variable {s : State}

/-! ### Arithmetic (R52, R53, R56) -/

/-- The ceiling is the least number of divisors that reaches the dividend. -/
theorem ceilDiv_eq {a b n : Nat} (hb : 0 < b) (h : a ≤ n * b) (hl : ∀ k, k < n → k * b < a) : ceilDiv a b = n := by
  unfold ceilDiv
  refine Nat.div_eq_of_lt_le ?_ ?_
  · cases n with
    | zero => omega
    | succ n =>
      have := hl n (by omega)
      rw [Nat.add_mul]; omega
  · rw [Nat.add_mul]; omega

theorem heatLoss_eq (tc tt out : Int) (u : Nat) : heatLoss tc tt out u =
    if tc + tt - 2 * out ≤ 0 then 0 else u * (tc + tt - 2 * out).toNat / 4 := by
  unfold heatLoss
  split
  · rw [Int.toNat_of_nonpos ‹_›]; simp
  · rfl

/-- A lead that is worked out, from the least number of minutes the net power takes (R52 steps 4 to 6). -/
theorem computeLead_eq {tc tt out : Int} {h u m p n : Nat} (ht : tc < tt)
    (h1 : heatLoss tc tt out u < p) (h2 : p / 20 ≤ p - heatLoss tc tt out u)
    (hn : h * (tt - tc).toNat * 500 ≤ n * ((p - heatLoss tc tt out u) * 60))
    (hl : ∀ k, k < n → k * ((p - heatLoss tc tt out u) * 60) < h * (tt - tc).toNat * 500) :
    computeLead tc tt out h u m p =
      { lead := if 720 < n + m then 720 else max (n + m) 1, unreachable := false, longHeat := decide (720 < n + m) } := by
  have hc := ceilDiv_eq (by omega) hn hl
  unfold computeLead
  dsimp only
  rw [if_neg (by omega), if_neg (by omega), hc]
  by_cases hx : 720 < n + m
  · rw [if_pos hx, if_pos hx, decide_eq_true hx]
  · rw [if_neg hx, if_neg hx, decide_eq_false hx]

theorem slackOf_some (start : Int) (m : Nat) (now : Bool) : slackOf start (some m) now =
    if now then min 0 (max (-720) (min 720 (start - m))) else max (-720) (min 720 (start - m)) := by
  unfold slackOf clampInt
  dsimp only
  split_ifs <;> omega

theorem holdRequest_eq {tt out : Int} {u w stageMax n : Nat} (hw : 0 < w) (h : (u : Int) * (tt - out) ≤ n * (2 * w))
    (hl : ∀ k : Nat, k < n → (k : Int) * (2 * w) < u * (tt - out)) :
    holdRequest tt out u w stageMax = min (max n 1) (max stageMax 1) := by
  have hc : ceilDiv (u * (tt - out).toNat) (2 * w) = n := by
    by_cases hp : 0 ≤ tt - out
    · have e : ((u * (tt - out).toNat : Nat) : Int) = u * (tt - out) := by
        push_cast; rw [Int.toNat_of_nonneg hp]
      refine ceilDiv_eq (by omega) ?_ fun k hk => ?_
      · rw [← e] at h; exact_mod_cast h
      · have := hl k hk
        rw [← e] at this; exact_mod_cast this
    · have hz : n = 0 := by
        by_contra hn
        have := hl 0 (by omega)
        have h2 : (u : Int) * (tt - out) ≤ 0 := Int.mul_nonpos_of_nonneg_of_nonpos (by omega) (by omega)
        simp only [Nat.cast_zero, zero_mul] at this
        omega
      rw [hz, Int.toNat_of_nonpos (by omega), Nat.mul_zero]
      unfold ceilDiv
      exact Nat.div_eq_of_lt (by omega)
  unfold holdRequest
  rw [hc]
  unfold stageFigure clampNat
  split_ifs <;> omega

/-! ### The computation of a state (R51 to R53, R71) -/

/-- The figures a computation leaves, from the planning power. -/
def State.figured (s : State) (h : Plan) (power : Nat) : State :=
  let c := s.classCfg h.data.cls
  let l := computeLead s.cabin h.data.target s.outside s.capacity c.loss c.margin power
  let start : Int := (h.data.absMinute : Int) - l.lead
  { s with
    heat := { s.heat with
      lead := l.lead, startMin := some start, slack := slackOf start s.absMinute h.data.heatNow,
      unreachable := l.unreachable, longHeat := l.longHeat, compute := false,
      unreachableRecorded := s.heat.unreachableRecorded || l.unreachable },
    faults := if l.unreachable = true ∧ s.heat.unreachableRecorded = false then
        s.faults.write preheat01 .advisory none s.depotTime else s.faults }

theorem computeFigures_eq (s : State) (h : Plan) : s.computeFigures h = s.figured h s.planPower := by
  unfold State.computeFigures State.figured
  dsimp only
  generalize computeLead s.cabin h.data.target s.outside s.capacity (s.classCfg h.data.cls).loss (s.classCfg h.data.cls).margin
    s.planPower = l
  by_cases hc : l.unreachable = true ∧ s.heat.unreachableRecorded = false
  · rw [if_pos hc, if_pos (by simp [hc.1, hc.2])]
    rfl
  · rw [if_neg hc, if_neg (by simpa using hc)]
    rfl

theorem compute_eq {h : Plan} (hh : s.head = some h) (hc : s.heat.state.computing = true)
    (hm : s.absMinute ≠ none ∨ h.data.heatNow = true) :
    s.compute = ((s.figured h s.planPower).takeSlack).moveBySlack := by
  have can : s.canCompute = true := by
    rw [State.canCompute, hc, hh, Bool.true_and, Bool.or_eq_true]
    exact hm.imp (fun x => Option.isSome_iff_ne_none.2 x) id
  unfold State.compute
  rw [hh]
  dsimp only
  rw [if_pos can, computeFigures_eq]

/-- SHARE takes the slack in force, lower than before in HEATING and BLIND unless the computation began anew (R71). -/
def State.ranked (s : State) : State :=
  { s with share := { s.share with
      fresh := false,
      ranking := some (if (s.heat.state = .heating ∨ s.heat.state = .blind) ∧ s.share.fresh = false then
        s.share.ranking.elim s.heat.slack fun r => min r s.heat.slack else s.heat.slack) } }

theorem takeSlack_eq (s : State) : s.takeSlack = s.ranked := by
  unfold State.takeSlack State.ranked State.updShare
  dsimp only
  have hc : ((s.heat.state == .heating || s.heat.state == .blind) && !s.share.fresh) = true ↔
      (s.heat.state = .heating ∨ s.heat.state = .blind) ∧ s.share.fresh = false := by simp
  by_cases h : (s.heat.state = .heating ∨ s.heat.state = .blind) ∧ s.share.fresh = false
  · simp only [hc, if_pos h]
    cases s.share.ranking <;> rfl
  · simp only [hc, if_neg h]
    cases s.share.ranking <;> rfl

/-- The computation leaves the state it is made in, but for the ANNOUNCED it may leave or enter (R47) and HOLDING's hold
request (R56). -/
theorem moveBySlack_eq (h : s.heat.state = .heating ∨ s.heat.state = .blind ∨ s.heat.state = .scheduled ∧ 15 < s.heat.slack) :
    s.moveBySlack = s := by
  unfold State.moveBySlack
  obtain h | h | ⟨h, hs⟩ := h <;> rw [h]
  exact if_neg (by omega)

theorem moveBySlack_holding {n : Nat} (h : s.heat.state = .holding) (hn : s.holdNow = n) (hc : s.heat.count ≤ n) :
    s.moveBySlack = s.updHeat fun x => { x with holdRequest := n } := by
  unfold State.moveBySlack
  rw [h, hn]
  exact if_neg (by rw [updHeat_heat]; dsimp only; omega)

theorem holdNow_eq {h : Plan} (hh : s.head = some h) : s.holdNow =
    holdRequest h.data.target s.outside (s.classCfg h.data.cls).loss s.stageWatts s.heat.stageMax := by
  rw [State.holdNow, hh]

/-! ### A minute event in SCHEDULED (R47, R51) -/

/-- The state a minute event in SCHEDULED comes to, its computation called for. -/
def State.minuteOn (s : State) (x : DepotTime) : State := (s.secondOn x).updHeat fun y => { y with compute := true }

/-- The overdue rule where the limit has not passed. -/
theorem evalOverdue_early {h : Plan} {m : Nat} (hh : s.head = some h) (ho : h.overdue = false)
    (hm : s.absMinute = some m) (hle : m ≤ h.data.absMinute + s.conf.overdueLimit) : s.evalOverdue = s := by
  unfold State.evalOverdue
  rw [hh, hm]
  simp only [ho, decide_eq_false (Nat.not_lt.2 hle), Bool.false_and, Bool.false_eq_true, if_false]

/-- Judging the rest of the conditions reads none of the computation's figures. -/
theorem State.RestCalm.of_figured {h : Plan} {p : Nat} {x : Share} (k : ({ s.figured h p with faults := s.faults, share := x } : State).RestCalm) :
    s.RestCalm := by
  obtain ⟨h1, h2, h3⟩ := k
  exact ⟨(departRule_eq_none _).2 ((departRule_eq_none _).1 h1 :), (linkRule_eq_none _).2 ((linkRule_eq_none _).1 h2 :),
    (readyRule_eq_none _).2 ((readyRule_eq_none _).1 h3 :)⟩

/-- A computation called for in SCHEDULED, the head staying there: the figures and the ranking slack. -/
theorem settled_scheduled {h : Plan} (hr : s.running = true) (hh : s.head = some h) (hs : s.heat.state = .scheduled)
    (hm : s.absMinute ≠ none) (hc : s.heat.compute = true) (hsl : 15 < (s.figured h s.planPower).heat.slack)
    (hu0 : ({ (s.figured h s.planPower).ranked with faults := s.faults } : State).Settled)
    (hu : (s.figured h s.planPower).ranked.Settled) : settled s = (s.figured h s.planPower).ranked.fresh := by
  have calm : s.RestCalm := State.RestCalm.of_figured (h := h) (p := s.planPower) hu0.restCalm
  obtain ⟨-, h2⟩ := (settled_iff _).1 hu0
  obtain ⟨k1, k2, k3, -⟩ := (heatRule_eq_none _).1 h2
  have hbar : s.fresh.heatBarred = false := k2
  have hdem : s.fresh.demandDue = false := by
    have h0 : s.fresh.ownRequest = 0 := by unfold State.ownRequest; rw [show s.fresh.heat.state = .scheduled from hs]
    unfold State.demandDue at k3 ⊢
    rw [if_pos h0]
    rwa [if_pos (by exact h0)] at k3
  have e : s.fresh.compute = (s.figured h s.planPower).ranked.fresh := by
    rw [compute_eq (s := s.fresh) hh (by rw [show s.fresh.heat.state = .scheduled from hs]; rfl) (.inl hm), takeSlack_eq,
      moveBySlack_eq (s := (s.fresh.figured h s.fresh.planPower).ranked) (.inr (.inr ⟨hs, hsl⟩))]
    rfl
  have first : stepRule s.fresh = some (s.figured h s.planPower).ranked.fresh := by
    rw [stepRule_of_restCalm (s := s.fresh) (calm.of_grant (c := s.heat.compute) (x := s.fresh.share)), State.heatRule,
      if_neg (by rw [show s.fresh.heat.state = .scheduled from hs]; simp), hbar, hdem, show s.fresh.heat.compute = true from hc, e]
    rfl
  exact settled_of_step (t := (s.figured h s.planPower).ranked.fresh) hr first hu

end Sys2Proof.Machine

open Sys2Proof Sys2Proof.Machine

/-- Settles O41: the arithmetic of lead, slack and hold request; the computation of a drawing state and of SCHEDULED. -/
theorem figuresComputed : Obligations.FiguresComputed := by
  refine ⟨fun tc tt out cap loss margin power => ?_, fun start m heatNow => ⟨rfl, slackOf_some _ _ _, slackOf_some _ _ _⟩,
    fun tt out loss watts stageMax n hw h hl => holdRequest_eq hw h hl, fun s h rest hl hm hd => ?_,
    fun s h rest x hr hc hx hm hd => ?_⟩
  · intro bracket mean net l
    have hmean : heatLoss tc tt out loss = mean := heatLoss_eq tc tt out loss
    refine ⟨fun h => if_pos h, fun h hn => ?_, fun h h1 h2 n hn hl => ?_⟩
    · show computeLead tc tt out cap loss margin power = _
      unfold computeLead
      dsimp only
      rw [if_neg (by omega), if_pos (by rw [hmean]; omega)]
    · have hnet : ((power - heatLoss tc tt out loss : Nat) : Int) = net := by rw [hmean]; omega
      have e : ((cap * (tt - tc).toNat * 500 : Nat) : Int) = (cap : Int) * (tt - tc) * 500 := by
        push_cast; rw [Int.toNat_of_nonneg (by omega)]
      refine computeLead_eq h (by rw [hmean]; omega) (by omega) ?_ fun k hk => ?_
      · rw [← e, ← hnet] at hn; exact_mod_cast hn
      · have := hl k hk
        rw [← e, ← hnet] at this; exact_mod_cast this
  · have hh : s.head = some h := by rw [State.head, hl]; rfl
    have hp : s.planPower = s.share.grant * s.stageWatts := by rw [State.planPower, hd]; rfl
    intro c l start slack hold figures faults ranked
    have hcomp := drawing_computing hd
    have e : s.compute = ((s.figured h (s.share.grant * s.stageWatts)).ranked).moveBySlack := by
      rw [compute_eq hh hcomp hm, takeSlack_eq, hp]
    refine ⟨fun hn => ?_, fun hn hcount => ?_⟩
    · have hst : s.heat.state = .heating ∨ s.heat.state = .blind := by
        revert hd hn; cases s.heat.state <;> simp [HeatState.drawing]
      rw [e, moveBySlack_eq (s := (s.figured h _).ranked) (hst.imp id .inl)]
      have hk : (if (s.heat.state = .heating ∨ s.heat.state = .blind) ∧ s.share.fresh = false then
          s.share.ranking.elim slack fun r => min r slack else slack) =
          if s.share.fresh then slack else s.share.ranking.elim slack fun r => min r slack := by
        cases s.share.fresh <;> simp [hst]
      exact congrArg (fun k => ({ s.figured h (s.share.grant * s.stageWatts) with share := ranked k } : State)) hk
    · rw [e, moveBySlack_holding (s := (s.figured h _).ranked) (n := hold) hn (holdNow_eq (s := (s.figured h _).ranked) hh) hcount]
      have hk : (if (s.heat.state = .heating ∨ s.heat.state = .blind) ∧ s.share.fresh = false then
          s.share.ranking.elim slack fun r => min r slack else slack) = slack := by simp [hn]
      exact congrArg (fun k => ({ s.figured h (s.share.grant * s.stageWatts) with
        heat := { figures s.heat with holdRequest := hold }, share := ranked k } : State)) hk
  · intro m hl ho hle hs now c l start slack u hsl hu0 hu
    have ht : (s.secondOn x).absMinute = some m := secondOn_absMinute hc
    have hh : (s.secondOn x).head = some h := by rw [State.head, show (s.secondOn x).plans.list = h :: rest from hl]; rfl
    have e : s.secondEvent = s.minuteOn x := by
      rw [secondEvent_minute hr hc hx hm hd, State.minuteEvent, evalOverdue_early hh ho ht hle]
      rfl
    have hdt : (s.secondOn x).depotTime = some now := if_neg hc
    have hp : (s.minuteOn x).planPower = s.heat.stageMax * s.stageWatts := by
      rw [State.planPower, show (s.minuteOn x).heat.state = .scheduled from hs]
      rfl
    have ht' : (s.minuteOn x).absMinute = some m := ht
    have hdt' : (s.minuteOn x).depotTime = some now := hdt
    have hst : (s.minuteOn x).heat.state = .scheduled := hs
    have hslack : ((s.minuteOn x).figured h (s.heat.stageMax * s.stageWatts)).heat.slack = slack := by
      unfold State.figured
      dsimp only
      rw [ht']
      rfl
    have eu : ((s.minuteOn x).figured h (s.heat.stageMax * s.stageWatts)).ranked = u := by
      unfold State.ranked
      rw [if_neg (by rw [show ((s.minuteOn x).figured h (s.heat.stageMax * s.stageWatts)).heat.state = .scheduled from hs]; simp),
        hslack]
      unfold State.figured
      dsimp only
      rw [ht', hdt']
      rfl
    have hset := settled_scheduled (s := s.minuteOn x) hr hh hs
      (by rw [show (s.minuteOn x).absMinute = some m from ht]; simp) rfl
    rw [hp, eu] at hset
    refine ⟨_, congrArg conclude e, ?_⟩
    rw [hset (hslack ▸ hsl) hu0 hu, finish_fresh]
    exact finish_closed u

end

