-- ==== Sys2Proof/Proofs/LinkFrames.lean ====
section
namespace Sys2Proof.Machine

/-! ## LINK: frames judged, exchanges -/

variable {s u : State}

/-! ### Response frames (R90, R184) -/

theorem byte_toNat {n : Nat} (h : n < 256) : (byte n).toNat = n := by
  rw [byte, BitVec.toNat_ofNat, Nat.mod_eq_of_lt (by omega)]

theorem checkBytes_length (h : List Byte) : (checkBytes h).length = 2 := rfl

/-- A response frame without its check. -/
def responseHead (k : ReqKind) (refusal : Bool) (number : Nat) (content : List Byte) : List Byte :=
  byte (k.code + flag refusal 128) :: bytes16 number ++ [byte content.length] ++ content

theorem responseFrame_eq (k : ReqKind) (refusal : Bool) (number : Nat) (content : List Byte) :
    responseFrame k refusal number content =
      responseHead k refusal number content ++ checkBytes (responseHead k refusal number content) := rfl

theorem responseHead_length (k : ReqKind) (refusal : Bool) (number : Nat) (content : List Byte) :
    (responseHead k refusal number content).length = content.length + 4 := by
  simp [responseHead, bytes16]

theorem reqKind_range (k : ReqKind) : 1 ≤ k.code ∧ k.code ≤ 8 ∧ k.length ≤ 8 := by cases k <;> decide

theorem frame_kind (k : ReqKind) (refusal : Bool) (number : Nat) (content : List Byte) :
    byteAt (responseFrame k refusal number content) 0 = k.code + flag refusal 128 := by
  obtain ⟨-, h, -⟩ := reqKind_range k
  refine (byte_toNat ?_ :)
  cases refusal <;> simp only [flag, if_true, Bool.false_eq_true, if_false] <;> omega

theorem frame_number (k : ReqKind) (refusal : Bool) {number : Nat} (content : List Byte) (h : number < 65536) :
    word16 (responseFrame k refusal number content) 1 = number := by
  have h1 : byteAt (responseFrame k refusal number content) 1 = (byte (number / 256)).toNat := rfl
  have h2 : byteAt (responseFrame k refusal number content) 2 = (byte number).toNat := rfl
  rw [word16, h1, h2, byte_toNat (by omega), byte, BitVec.toNat_ofNat]
  omega

theorem frame_length (k : ReqKind) (refusal : Bool) (number : Nat) {content : List Byte} (h : content.length < 256) :
    byteAt (responseFrame k refusal number content) 3 = content.length := (byte_toNat h :)

theorem frame_content (k : ReqKind) (refusal : Bool) (number : Nat) (content : List Byte) :
    ((responseFrame k refusal number content).drop 4).take content.length = content := by
  show (content ++ checkBytes _).take content.length = content
  exact List.take_left

/-- A whole frame of the kind asked for, of the length of an acceptance or a refusal: judged by its echo and by what it
answers (R90). -/
theorem judge_frame {k : ReqKind} {refusal : Bool} {number echo : Nat} {content : List Byte} (he : echo < 65536)
    (hc : content.length = if refusal then 1 else k.length) :
    judgeResponse k number true (responseFrame k refusal echo content) =
      if echo ≠ number then .failed .wrongEcho
      else if refusal then .refused (byteAt content 0)
      else .accepted content := by
  obtain ⟨h1, h2, h3⟩ := reqKind_range k
  have hl : content.length ≤ 8 := by rw [hc]; split <;> omega
  have k0 := frame_kind k refusal echo content
  have k1 := frame_number k refusal content he
  have k3 := frame_length k refusal echo (content := content) (by omega)
  have kc := frame_content k refusal echo content
  have kl : (responseFrame k refusal echo content).length = content.length + 6 := by
    rw [responseFrame_eq, List.length_append, responseHead_length, checkBytes_length]
  have kt : (responseFrame k refusal echo content).take (content.length + 4) = responseHead k refusal echo content := by
    rw [responseFrame_eq, ← responseHead_length k refusal echo content]; exact List.take_left
  have kd : (responseFrame k refusal echo content).drop (content.length + 4) =
      checkBytes (responseHead k refusal echo content) := by
    rw [responseFrame_eq, ← responseHead_length k refusal echo content]; exact List.drop_left
  have kr : decide (128 ≤ k.code + flag refusal 128) = refusal := by
    cases refusal <;> simp only [flag, if_true, Bool.false_eq_true, if_false, decide_eq_true_eq, decide_eq_false_iff_not] <;>
      omega
  have km : (k.code + flag refusal 128) % 128 = k.code := by
    cases refusal <;> simp only [flag, if_true, Bool.false_eq_true, if_false] <;> omega
  have k4 : byteAt (responseFrame k refusal echo content) 4 = byteAt (content ++ checkBytes (responseHead k refusal echo content)) 0 := rfl
  unfold judgeResponse
  dsimp only
  rw [k3, k0, kr, km, kl, kt, kd, k1, kc, ← hc]
  simp only [Bool.not_true, bne_self_eq_false, Bool.and_false, Bool.or_self, Bool.false_eq_true, if_false, bne_iff_ne]
  rw [if_neg (by omega)]
  congr 1
  cases refusal with
  | false => rfl
  | true =>
    rw [k4]
    cases content with
    | nil => cases hc
    | cons b bs => rfl

end Sys2Proof.Machine

open Sys2Proof Sys2Proof.Machine

/-- Settles O44: a whole frame is judged by its echo and by what it answers. -/
theorem responsesJudged : Obligations.ResponsesJudged := by
  intro k number echo code content hn he h1 h2 hc
  refine ⟨?_, ?_, fun hne => ?_, rfl⟩
  · rw [judge_frame hn (by rw [hc]; rfl)]
    simp
  · rw [judge_frame hn (by rfl)]
    simp [byteAt, byte_toNat h2]
  · rw [judge_frame he (by rw [hc]; rfl), if_pos hne]

end

