-- ==== Sys2Proof/Proofs/LinkProofs.lean ====
section
namespace Sys2Proof.Machine

/-! ## LINK: exchanges, timeouts, wakes -/

variable {s u : State}

theorem exchangeDue_iff (s : State) : s.exchangeDue = true ↔
    s.link.exchange = none ∧ s.link.queue ≠ [] ∧ (s.link.state = .waking ∨ s.link.state = .up) ∧
      ∀ e, s.link.lastEnd = some e → e + (s.profileCfg s.link.profile).gap ≤ s.now := by
  unfold State.exchangeDue
  cases s.link.lastEnd <;> simp [and_assoc]

theorem begun_of_not_due (h : s.exchangeDue = false) : s.begun = s := by rw [State.begun, h]; rfl

/-- Directly after the end of an exchange no other one starts: the gap counts from it (R89). -/
theorem exchangeDue_ended (h : s.link.lastEnd = some s.now) (hg : 1 ≤ (s.profileCfg s.link.profile).gap) :
    s.exchangeDue = false := by
  rw [Bool.eq_false_iff]
  intro hd
  have := ((exchangeDue_iff s).1 hd).2.2.2 _ h
  omega

/-- A request within the quota joins the queue and starts where it may (R88, R89). -/
theorem place_taken {r : Request} (ha : s.link.allows r.kind = true) (hc : s.link.count r.job < r.job.quota) :
    s.place r = (s.updLink fun l => { l with queue := l.queue ++ [r] }).begun := by
  rw [State.place, if_pos (by rw [ha, Bool.true_and]; exact decide_eq_true hc)]
  rfl

/-- HEAT keeps nothing back: an outcome offers nothing again (R88). -/
theorem offerKept_nil (h : s.heat.kept = []) : s.offerKept = s := by
  have e : ({ s.heat with kept := [] } : Heat) = s.heat := congrArg (fun k => { s.heat with kept := k }) h.symm
  unfold State.offerKept
  rw [h]
  exact congrArg (fun x => ({ s with heat := x } : State)) e

theorem timedOut_eq {x : Exchange} {e : Nat} (hx : s.link.exchange = some x) (ht : x.timeoutAt = some e) (he : e ≤ s.now) :
    s.timedOut = some x := by
  rw [State.timedOut, hx, Option.filter_some, if_pos (by rw [ht]; exact expired_of_le he)]

/-- The next try waits for its gap (R91). -/
theorem failTry_retry {x : Exchange} (c : Cause) (h : x.tries < (s.profileCfg x.profile).retries + 1) : s.failTry x c =
    { s with link := { s.link with exchange := some { x with timeoutAt := none, cause := some c }, lastEnd := some s.now } } :=
  if_pos h

@[simp] theorem Faults.write_reader (f : Faults) (k : Key) (v : Severity) (c : Option CoachState) (t : Option DepotTime) :
    (f.write k v c t).reader = f.reader := by
  obtain ⟨-, e⟩ | ⟨-, ⟨y, -, e⟩ | ⟨-, e⟩⟩ := f.write_cases k v c t <;> rw [e]

/-- A check that measures nothing is not suspended (R112). -/
theorem lampSuspend_idle (h : s.lamp.state = .idle ∨ s.lamp.state = .waiting ∨ s.lamp.state = .suspended ∨
    s.lamp.state = .done ∨ s.lamp.state = .abandoned) : s.lampSuspend = s := by
  rw [State.lampSuspend, if_neg]
  obtain h | h | h | h | h := h <;> rw [h] <;> decide

theorem purge_nil (h : s.link.queue = []) : s.purge = s := by
  have e : ({ s.link with queue := [] } : Link) = s.link := congrArg (fun k => { s.link with queue := k }) h.symm
  unfold State.purge
  rw [h]
  exact congrArg (fun x => ({ s with link := x } : State)) e

theorem busy_iff (f : Faults) : f.busy = true ↔ f.reader = .counting ∨ f.reader = .reading := by simp [Faults.busy]

theorem readerLinkLost_idle (h : s.faults.busy = false) : s.readerLinkLost = s := by
  rw [State.readerLinkLost, h]; rfl

theorem wakeNow_down (hp : s.level .plugInserted = true) (hs : s.link.state = .down) : s.wakeNow = s.wake := by
  rw [State.wakeNow, if_pos hp, hs]

theorem wakeNow_waking (hp : s.level .plugInserted = true) (hs : s.link.state = .waking) :
    s.wakeNow = (s.updLink fun l => { l with wakeDue := none }).identify := by
  rw [State.wakeNow, if_pos hp, hs]

/-- The exchange in flight is over (R92). -/
def State.exchanged (s : State) (l : Link) : State :=
  { s with link := { l with exchange := none, lastEnd := some s.now } }

/-- What follows the outcome told: the third failure in a row loses the coach (R94). -/
def State.judgedLoss (s : State) : State := if s.link.state = .up ∧ 3 ≤ s.link.failures then s.linkLost else s

/-- The end of an IDENTIFY (R84). -/
theorem endExchange_ident {x : Exchange} {e : Ending} (hj : x.req.job = .ident) (hw : x.withdrawn = false)
    (hs : s.link.state = .waking) : s.endExchange x e = ((s.exchanged s.link).identifyEnded e).judgedLoss := by
  have hl : settleFailures s.link e = s.link := if_neg (by rw [hs]; decide)
  unfold State.endExchange
  dsimp only
  rw [hj, hw, hs]
  simp only [if_true, Bool.false_eq_true, if_false]
  have k : (s.updLink fun l => { settleFailures l e with exchange := none, lastEnd := some s.now }) = s.exchanged s.link :=
    congrArg s.exchanged hl
  rw [k]
  rfl

/-- The end of any other exchange in UP (R92). -/
theorem endExchange_up {x : Exchange} {e : Ending} (hj : x.req.job ≠ .ident) (hs : s.link.state = .up) :
    s.endExchange x e = ((s.exchanged (settleFailures s.link e)).deliver x.req x.withdrawn
      (if x.withdrawn then .aborted else e)).judgedLoss := by
  unfold State.endExchange
  dsimp only
  rw [if_neg (by rw [hs]; decide)]
  cases hr : x.req.job with
  | ident => exact absurd hr hj
  | _ => rfl

/-- A cabin temperature's failure tells HEAT nothing (R44). -/
theorem heatOutcome_cabin {e : Ending} (hk : s.heat.kept = []) (he : ∀ c, e ≠ .ok c) :
    s.heatOutcome .cabinTemperature e = s := by
  cases e with
  | ok c => exact absurd rfl (he c)
  | _ => exact offerKept_nil hk

/-- The coach is lost with nothing queued, no read in progress and no lamp check (R94). -/
theorem linkLost_idle (hq : s.link.queue = []) (hk : s.heat.kept = []) (hl : s.lamp.state = .idle)
    (hb : s.faults.busy = false) : s.linkLost =
    { s with
      link := { s.link with
        state := .down, cls := none, profile := s.conf.wakeProfile, wakeDue := some (s.now + 5000), failures := 0 },
      heat := { s.heat with pollDue := none, enableHeld := false },
      faults := s.faults.write link02 .advisory none s.depotTime } := by
  have hp := purge_nil (s := s.linkDown.writeFault link02 .advisory) hq
  have hlamp := lampSuspend_idle (s := (s.linkDown.writeFault link02 .advisory).heatLinkLost true) (.inl hl)
  have hbusy : (((s.linkDown.writeFault link02 .advisory).heatLinkLost true)).faults.busy = false := by
    show (s.faults.write link02 .advisory none s.depotTime).busy = false
    rw [Faults.busy, Faults.write_reader]
    exact hb
  have he : ({ s.heat with pollDue := none, kept := [], enableHeld := s.heat.enableHeld && !true } : Heat) =
      { s.heat with pollDue := none, enableHeld := false } := by
    rw [Bool.not_true, Bool.and_false]
    exact congrArg (fun k => ({ s.heat with pollDue := none, kept := k, enableHeld := false } : Heat)) hk.symm
  unfold State.linkLost
  dsimp only
  rw [hp, State.linkLeft, hlamp, readerLinkLost_idle hbusy]
  exact congrArg (fun h => ({ s with
    link := { s.link with
      state := .down, cls := none, profile := s.conf.wakeProfile, wakeDue := some (s.now + 5000), failures := 0 },
    heat := h, faults := s.faults.write link02 .advisory none s.depotTime } : State)) he

/-- The judging of a response in time (R90). -/
theorem does_heard {x : Exchange} {good : Bool} {frame : List Byte} (hr : s.running = true) (hx : s.link.exchange = some x)
    (e : s.heard x good frame = u) : Does (exec (.coachResponse good frame) s) u := by
  refine does_of ?_
  show execCoachResponse good frame s = _
  rw [execCoachResponse, hx]
  simp only [hr, if_true, e]

theorem heard_late {x : Exchange} {e : Nat} {good : Bool} {frame : List Byte} (ht : x.timeoutAt = some e) (he : e < s.now) :
    s.heard x good frame = s.failTry x .timeout := by
  rw [State.heard, if_pos (by rw [State.overran, ht]; exact decide_eq_true he)]

theorem heard_inTime {x : Exchange} {good : Bool} {frame : List Byte} (h : ∀ e, x.timeoutAt = some e → s.now ≤ e) :
    s.heard x good frame = s.answer x good frame := by
  rw [State.heard, if_neg]
  unfold State.overran
  split
  · rename_i e he
    have := h e he
    simp; omega
  · simp

end Sys2Proof.Machine

open Sys2Proof Sys2Proof.Machine

/-- Settles O43: when an exchange starts, what it is, and a retry. -/
theorem exchangesRun : Obligations.ExchangesRun := by
  refine ⟨fun s r rest hx hq hs hg => ?_, fun s h => ?_, fun s x e hr hx ht hl he => ?_⟩
  · intro p n u
    have hdue : s.exchangeDue = true := (exchangeDue_iff s).2 ⟨hx, by rw [hq]; simp, hs, hg⟩
    have hst : s.startExchange = u := by
      rw [State.startExchange, hq]; rfl
    exact ⟨by rw [State.begun, if_pos hdue, hst], fun hr => does_guarded ⟨hr, hdue⟩ hst⟩
  · refine begun_of_not_due (Bool.eq_false_iff.2 fun hd => ?_)
    obtain ⟨h1, h2, h3, h4⟩ := (exchangeDue_iff s).1 hd
    obtain h | h | ⟨k1, k2⟩ | ⟨e, k1, k2⟩ := h
    · exact h h1
    · exact h2 h
    · exact h3.elim k1 k2
    · have := h4 e k1; omega
  · have hd : s.retryDue = some x := by
      rw [State.retryDue, hx, Option.filter_some, if_pos]
      rw [ht, hl]
      exact decide_eq_true he
    intro p
    refine does_of ?_
    show execTryRetry s = _
    rw [execTryRetry, hd]
    simp only [hr, if_true]
    rfl

/-- Settles O46: a failed try, a failed IDENTIFY, the coach lost. -/
theorem timeoutsFail : Obligations.TimeoutsFail := by
  intro s x τ hr hx ht hτ last
  have out {u : State} (e : s.failTry x .timeout = u) : Does (exec .responseTimeout s) u := by
    refine does_of ?_
    show execResponseTimeout s = _
    rw [execResponseTimeout, timedOut_eq hx ht hτ]
    simp only [hr, if_true, e]
  refine ⟨fun hn => out (failTry_retry _ (by omega)), fun hn hj hw hs => out ?_, fun hn hj hk hs hf hq hkept hl h1 h2 => out ?_⟩
  · rw [State.failTry, if_neg (by omega), endExchange_ident (x := { x with cause := some .timeout }) hj hw hs]
    exact if_neg fun h => absurd (hs.symm.trans h.1) (by decide)
  · have hbusy : s.faults.busy = false := Bool.eq_false_iff.2 fun h => ((busy_iff _).1 h).elim h1 h2
    have hl3 : settleFailures s.link (.failed .timeout) = { s.link with failures := 3 } := by
      rw [settleFailures, if_pos hs, hf]
      rfl
    have hd : ∀ t : State, t.heat.kept = [] → t.deliver x.req x.withdrawn
        (if x.withdrawn then .aborted else .failed .timeout) = t := by
      intro t ht
      unfold State.deliver
      rw [hj, hk]
      refine heatOutcome_cabin ht fun c h => ?_
      split at h <;> cases h
    rw [State.failTry, if_neg (by omega), endExchange_up (x := { x with cause := some .timeout }) (by rw [hj]; decide) hs, hl3]
    refine (congrArg State.judgedLoss (hd (s.exchanged { s.link with failures := 3 }) hkept)).trans ?_
    refine (if_pos ⟨hs, Nat.le_refl 3⟩).trans ?_
    exact linkLost_idle (s := s.exchanged { s.link with failures := 3 }) hq hkept hl hbusy

/-- Settles O47: the wake, or IDENTIFY again. -/
theorem wakeComesDue : Obligations.WakeComesDue := by
  intro s e hr hw he hp hc queue
  have hx : s.running = true ∧ s.expired s.link.wakeDue = true := ⟨hr, by rw [hw]; exact expired_of_le he⟩
  have hin : s.level .plugInserted = true := hp
  have hone : s.link.count .ident < Job.quota .ident := by rw [hc]; decide
  refine ⟨fun hs => does_guarded hx ?_, fun hs => does_guarded hx ?_⟩
  · rw [wakeNow_down hin hs]
    refine (place_taken ?_ ?_).trans ?_
    · rfl
    · exact hone
    · rfl
  · rw [wakeNow_waking hin hs]
    refine (place_taken ?_ ?_).trans ?_
    · simp [Link.allows, hs]
    · exact hone
    · rfl

end

