-- ==== Sys2Proof/Proofs/LinkTakes.lean ====
section
namespace Sys2Proof.Machine

/-! ## Cabin temperatures: readings, runs, the learned table -/

variable {s : State}

theorem judgedLoss_zero (h : s.link.failures = 0) : s.judgedLoss = s :=
  if_neg fun k => by omega

/-- A cabin temperature accepted in UP, as HEAT takes it (R44, R90). -/
theorem heard_cabin {x : Exchange} {b : Byte} {t : State} (ht : ∀ e, x.timeoutAt = some e → s.now ≤ e)
    (hw : x.withdrawn = false) (hj : x.req.job = .heat) (hk : x.req.kind = .cabinTemperature) (hn : x.number < 65536)
    (hs : s.link.state = .up) (h1 : -100 ≤ b.toInt) (h2 : b.toInt ≤ 120)
    (e : (s.exchanged { s.link with failures := 0 }).heatReading b.toInt = t) (hkept : t.heat.kept = [])
    (hf : t.link.failures = 0) :
    s.heard x true (responseFrame .cabinTemperature false x.number [b]) = t := by
  have hlink : settleFailures s.link (.ok [b]) = { s.link with failures := 0 } := if_pos hs
  have htake : (s.exchanged { s.link with failures := 0 }).heatAnswered .cabinTemperature (.ok [b]) = t := by
    rw [← e]
    exact if_pos ⟨h1, h2⟩
  rw [heard_inTime ht, State.answer, hk, judge_frame hn (by rfl)]
  simp only [ne_eq, not_true_eq_false, if_false, Bool.false_eq_true, reduceCtorEq, false_and]
  rw [endExchange_up (by rw [hj]; decide) hs, hlink, State.deliver, hj]
  simp only [hw, Bool.false_eq_true, if_false]
  rw [hk, State.heatOutcome, htake, offerKept_nil hkept, judgedLoss_zero hf]

/-- A computation called for beside nothing else is made, and where it calls for nothing more it is all that is done. -/
theorem settled_computes {w : State} (hr : w.running = true) (hw : w.Settled)
    (hc : (w.updHeat fun h => { h with compute := true }).fresh.compute =
      (w.updHeat fun h => { h with compute := true }).compute.fresh)
    (hu : (w.updHeat fun h => { h with compute := true }).compute.Settled) :
    settled (w.updHeat fun h => { h with compute := true }) = (w.updHeat fun h => { h with compute := true }).compute.fresh := by
  obtain ⟨calm, h2⟩ := (settled_iff _).1 hw
  obtain ⟨k1, k2, k3, -⟩ := (heatRule_eq_none _).1 h2
  have first : stepRule (w.updHeat fun h => { h with compute := true }).fresh =
      some (w.updHeat fun h => { h with compute := true }).compute.fresh := by
    rw [stepRule_of_restCalm (s := (w.updHeat fun h => { h with compute := true }).fresh)
      (calm.of_grant (c := true) (x := w.fresh.share)), State.heatRule, if_neg (by exact k1),
      show (w.updHeat fun h => { h with compute := true }).fresh.heatBarred = false from k2,
      show (w.updHeat fun h => { h with compute := true }).fresh.demandDue = false from k3, hc]
    rfl
  exact settled_of_step (t := (w.updHeat fun h => { h with compute := true }).compute.fresh) hr first hu

theorem compute_fresh (h : s.heat.state = .heating ∨ s.heat.state = .holding ∧ s.heat.count ≤ s.holdNow) :
    s.fresh.compute = s.compute.fresh := by
  have moved (p : Plan) : ((s.fresh.computeFigures p).takeSlack).moveBySlack =
      (((s.computeFigures p).takeSlack).moveBySlack).fresh := by
    rw [computeFigures_eq, computeFigures_eq, takeSlack_eq, takeSlack_eq]
    obtain h | ⟨h, hc⟩ := h
    · rw [moveBySlack_eq (s := (s.fresh.figured p _).ranked) (.inl h), moveBySlack_eq (s := (s.figured p _).ranked) (.inl h)]
      rfl
    · rw [moveBySlack_holding (s := (s.fresh.figured p _).ranked) (n := s.holdNow) h rfl hc,
        moveBySlack_holding (s := (s.figured p _).ranked) (n := s.holdNow) h rfl hc]
      rfl
  have can : s.fresh.canCompute = s.canCompute := rfl
  have head : s.fresh.head = s.head := rfl
  unfold State.compute
  rw [head, can]
  split
  · split
    · exact moved _
    · rfl
  · rfl

/-! ### What a run measures, and the learned table (R64, R65) -/

theorem clampNat_eq {lo hi : Nat} (h : lo ≤ hi) (x : Nat) : clampNat lo hi x = max lo (min hi x) := by
  unfold clampNat; split_ifs <;> omega

theorem oldestLearned_spec {es : List Learned} {o : Learned} (h : oldestLearned es = some o) :
    o ∈ es ∧ ∀ x ∈ es, o.lastUsed < x.lastUsed ∨ o.lastUsed = x.lastUsed ∧ o.coach ≤ x.coach := by
  induction es generalizing o with
  | nil => cases h
  | cons x xs ih =>
    unfold oldestLearned at h
    cases hx : oldestLearned xs with
    | none =>
      rw [hx] at h; cases h
      refine ⟨List.mem_cons_self, fun y hy => ?_⟩
      rcases List.mem_cons.1 hy with rfl | hy
      · exact .inr ⟨rfl, Nat.le_refl _⟩
      · cases xs with
        | nil => cases hy
        | cons z zs =>
          unfold oldestLearned at hx
          split at hx
          · cases hx
          · split at hx <;> cases hx
    | some y =>
      rw [hx] at h
      obtain ⟨hm, hy⟩ := ih hx
      dsimp only at h
      split at h
      · rename_i hc
        cases h
        refine ⟨List.mem_cons_of_mem _ hm, fun z hz => ?_⟩
        rcases List.mem_cons.1 hz with rfl | hz
        · omega
        · exact hy z hz
      · rename_i hc
        cases h
        refine ⟨List.mem_cons_self, fun z hz => ?_⟩
        rcases List.mem_cons.1 hz with rfl | hz
        · exact .inr ⟨rfl, Nat.le_refl _⟩
        · have := hy z hz; omega

theorem oldestLearned_isSome {es : List Learned} (h : es ≠ []) : ∃ o, oldestLearned es = some o := by
  cases es with
  | nil => exact absurd rfl h
  | cons x xs =>
    unfold oldestLearned
    split
    · exact ⟨_, rfl⟩
    · split <;> exact ⟨_, rfl⟩

theorem any_coach {es : List Learned} {c : Nat} : (es.any fun e => e.coach == c) = true ↔ ∃ x ∈ es, x.coach = c := by
  simp

/-- What a run has measured, its loss spelled out (R64). -/
theorem measured_eq (r : HeatRun) (tt : Int) (count now watts u : Nat) : measured r tt count now watts u =
    let dt := Int.tdiv (tt - r.tc0) 2
    let t := (now - r.start) / 1000
    let bracket := r.tc0 + tt - 2 * r.to0
    let lost : Nat := if bracket ≤ 0 then 0 else u * (bracket.toNat / 4) * t / 1000
    let h := Int.tdiv (((r.acc + count * (now - r.mark)) / 1000 * watts / 1000 : Nat) - (lost : Int)) dt
    if 5 ≤ dt ∧ 600 ≤ t ∧ 0 < h then some h.toNat else none := by
  have hl : u * ((r.tc0 + tt - 2 * r.to0).toNat / 4) * ((now - r.start) / 1000) / 1000 =
      if r.tc0 + tt - 2 * r.to0 ≤ 0 then 0 else u * ((r.tc0 + tt - 2 * r.to0).toNat / 4) * ((now - r.start) / 1000) / 1000 := by
    split
    · rw [Int.toNat_of_nonpos ‹_›]; simp
    · rfl
  unfold measured
  dsimp only
  rw [← hl]
  by_cases h1 : 5 ≤ Int.tdiv (tt - r.tc0) 2 ∧ 600 ≤ (now - r.start) / 1000
  · rw [if_pos h1]
    exact if_congr (by tauto) rfl rfl
  · rw [if_neg h1, if_neg (by tauto)]

/-- A valid reading begins a run on entry to HEATING (R63). -/
theorem beginRun_eq {h : Plan} {r : Reading} (hh : s.head = some h) (hr : s.heat.reading = some r) (ht : r.time = s.now) :
    s.beginRun = s.updHeat fun x => { x with
      run := some { tc0 := r.temp, to0 := s.outside, start := s.now, acc := 0, mark := s.now, coach := h.data.coach } } := by
  have hv : s.readingValid = true := by
    rw [State.readingValid, hr]
    exact decide_eq_true (by rw [ht]; exact Nat.lt_add_of_pos_right (by decide))
  unfold State.beginRun
  rw [hr, hh]
  dsimp only
  rw [if_pos hv]

/-- A run ends complete; what it measured is learned (R64, R65). -/
theorem endRun_eq {h : Plan} {r : HeatRun} (hh : s.head = some h) (hr : s.heat.run = some r) (hc : s.heat.compute = true) :
    s.endRun = s.updHeat fun x => { x with
      run := none,
      learned := match measured r h.data.target s.heat.count s.now s.stageWatts (s.classCfg h.data.cls).loss with
        | some m => learn s.heat.learned r.coach (s.classCfg h.data.cls).capacity m s.now
        | none => s.heat.learned } := by
  unfold State.endRun
  rw [hr, hh]
  dsimp only
  cases measured r h.data.target s.heat.count s.now s.stageWatts (s.classCfg h.data.cls).loss with
  | some m =>
    exact congrArg (fun c => s.updHeat fun x => { x with
      run := none, learned := learn s.heat.learned r.coach (s.classCfg h.data.cls).capacity m s.now, compute := c }) hc.symm
  | none => rfl

theorem enterHolding_eq {n : Nat} (hn : s.holdNow = n) (hc : s.heat.count ≤ n) : s.enterHolding =
    { s with heat := { s.heat with state := .holding, holdRequest := n, blindEnd := none },
             share := { s.share with fresh := true } } := by
  unfold State.enterHolding
  dsimp only
  rw [hn]
  exact if_neg (Nat.not_lt.2 hc)

/-! ### Identification (R85, R86, R130) -/

theorem stable_judgedLoss : s.judgedLoss.stable = s.stable := by
  unfold State.judgedLoss; split <;> simp

/-- Of the registers that other blocks leave alone, an identification gives LINK's record and the last coach's id. -/
theorem stable_identifiedAs (c : Coach) :
    (s.identifiedAs c).stable = { s.stable with coach := some c, identified := true, lastId := some c.id } := by
  unfold State.identifiedAs
  simp only [stable_selectClass, stable_beginRead, stable_lampIdentified, stable_heatIdentified, stable_matchCoach]
  rfl

/-- Without a head the class in force is the one reported (R86). -/
theorem selectClass_headless {c : Coach} (hc : s.link.coach = some c) (hh : s.head = none) (hs : s.link.state = .up) :
    s.selectClass = s.updLink fun l => { l with cls := some c.cls, profile := (s.classCfg c.cls).profile } := by
  unfold State.selectClass
  rw [hc]
  dsimp only
  rw [hh]
  dsimp only
  rw [Option.getD_none, if_pos rfl]
  exact congrArg (fun p => s.updLink fun l => { l with cls := some c.cls, profile := p }) (if_neg (by rw [hs]; decide))

theorem takeFigures_headless (hh : s.head = none) : s.takeFigures = s := by
  unfold State.takeFigures; rw [hh]

/-- A request joins the queue directly after the end of an exchange, where none starts (R88, R89). -/
theorem place_waits {r : Request} (ha : s.link.allows r.kind = true) (hc : s.link.count r.job < r.job.quota)
    (he : s.link.lastEnd = some s.now) (hg : 1 ≤ (s.profileCfg s.link.profile).gap) :
    s.place r = s.updLink fun l => { l with queue := l.queue ++ [r] } := by
  rw [place_taken ha hc]
  exact begun_of_not_due (exchangeDue_ended (s := s.updLink fun l => { l with queue := l.queue ++ [r] }) he hg)

/-- A cabin poll while nothing is queued, directly after the end of an exchange (R44, R89). -/
theorem pollCabin_waits (hk : s.heat.kept = []) (hs : s.link.state = .up) (hq : s.link.queue = [])
    (hx : s.link.exchange = none) (he : s.link.lastEnd = some s.now) (hg : 1 ≤ (s.profileCfg s.link.profile).gap) :
    s.pollCabin = s.updLink fun l =>
      { l with queue := [{ job := .heat, kind := .cabinTemperature, arg := 0, closing := false }] } := by
  have hcount : s.link.count .heat = 0 := by simp [Link.count, hq, hx]
  rw [State.pollCabin, if_neg (by simp [State.heatHolds, Link.holds, hq, hx, hk]), State.heatPlace,
    if_pos (by exact beq_iff_eq.2 hs), if_neg (by rw [hcount]; decide),
    place_waits (by exact beq_iff_eq.2 hs) (by rw [hcount]; decide) he hg]
  exact congrArg (fun q => s.updLink fun l =>
    { l with queue := q ++ [{ job := .heat, kind := .cabinTemperature, arg := 0, closing := false }] }) hq

/-- What HEAT takes of an identification before it polls (R85, R44, R62). -/
def State.coachTold (s : State) (id m : Nat) : State := s.updHeat fun h => { h with
  coachMax := some m, enableHeld := false, reading := s.heat.reading.filter fun r => r.coach == some id,
  pollDue := some (s.now + 30000) }

theorem heatIdentified_eq (id m : Nat) (first : Bool) : s.heatIdentified id m first =
    (if (first && (s.coachTold id m).takeFigures.heat.state == .stopped) = true
      then (s.coachTold id m).takeFigures.heatLeave .off else (s.coachTold id m).takeFigures).pollCabin := by
  have hr : (match s.heat.reading with
      | some r => if r.coach = some id then some r else none
      | none => none) = s.heat.reading.filter fun r => r.coach == some id := by
    cases s.heat.reading with
    | none => rfl
    | some r => simp [Option.filter]
  rw [State.coachTold, ← hr]
  rfl

theorem heatIdentified_idle {id m : Nat} {first : Bool} (hh : s.head = none) (ho : s.heat.state = .off)
    (hk : s.heat.kept = []) (hs : s.link.state = .up) (hq : s.link.queue = []) (hx : s.link.exchange = none)
    (he : s.link.lastEnd = some s.now) (hg : 1 ≤ (s.profileCfg s.link.profile).gap) : s.heatIdentified id m first =
    { s with
      heat := { s.heat with
        coachMax := some m, enableHeld := false, reading := s.heat.reading.filter fun r => r.coach == some id,
        pollDue := some (s.now + 30000) },
      link := { s.link with queue := [{ job := .heat, kind := .cabinTemperature, arg := 0, closing := false }] } } := by
  have ho2 : (s.coachTold id m).heat.state = .off := ho
  rw [heatIdentified_eq, takeFigures_headless (s := s.coachTold id m) hh, ho2, if_neg (by simp)]
  exact pollCabin_waits (s := s.coachTold id m) hk hs hq hx he hg

/-- What the fault reader holds once a read has begun, before its request (R122, R131). -/
def State.readOpened (s : State) (k : ReadKind) : State :=
  { s with
    line := { s.line with summary := { s.line.summary with state := .held } },
    faults := { s.faults with
      restarts := 0, periodicDue := none, kind := k, reader := .counting, pass := [], spoilt := false } }

/-- A read begins while none is in progress (R122, R131). -/
theorem beginRead_idle {k : ReadKind} (hb : s.faults.busy = false) :
    s.beginRead k = (s.readOpened k).place { job := .fault, kind := .faultCount, arg := 0, closing := false } := by
  rw [State.beginRead, hb]; rfl

/-- An identification without a head, with nothing else under way (R85). -/
theorem identifiedAs_idle {c : Coach} (hh : s.plans.list = []) (ho : s.heat.state = .off) (hk : s.heat.kept = [])
    (hl : s.lamp.state ≠ .suspended) (hq : s.link.queue = []) (hx : s.link.exchange = none)
    (hb : s.faults.busy = false) (he : s.link.lastEnd = some s.now) (hg : 1 ≤ (s.profileCfg s.link.profile).gap) :
    s.identifiedAs c =
      { s with
        line := { s.line with summary := { s.line.summary with state := .held } },
        link := { s.link with
          coach := some c, identified := true, failures := 0, wakeDue := none,
          state := .up, cls := some c.cls, profile := (s.classCfg c.cls).profile,
          queue := [{ job := .heat, kind := .cabinTemperature, arg := 0, closing := false },
                    { job := .fault, kind := .faultCount, arg := 0, closing := false }] },
        heat := { s.heat with
          coachMax := some c.heaterMax, enableHeld := false,
          reading := s.heat.reading.filter fun r => r.coach == some c.id,
          pollDue := some (s.now + 30000) },
        faults := { s.faults with
          table := if s.faults.lastId = some c.id then s.faults.table else [],
          overflow := if s.faults.lastId = some c.id then s.faults.overflow else false,
          lastId := some c.id, complete := false, reader := .counting, kind := .identification, pass := [],
          spoilt := false, restarts := 0, periodicDue := none } } := by
  have hhead : s.head = none := by rw [State.head, hh]; rfl
  unfold State.identifiedAs
  dsimp only
  have hm : ∀ {t : State}, t.head = none → t.matchCoach = t := fun h => by rw [State.matchCoach, h]
  have hp : ∀ {t : State}, t.lamp.state ≠ .suspended → t.lampIdentified = t := fun h => if_neg h
  rw [hm (by exact hhead), heatIdentified_idle (by exact hhead) (by exact ho) (by exact hk) (by rfl) (by exact hq)
    (by exact hx) (by exact he) (by exact hg), hp (by exact hl), beginRead_idle (by exact hb),
    place_waits (by rfl) (by simp [State.readOpened, Link.count, Job.quota, hx]) (by exact he) (by exact hg),
    selectClass_headless (c := c) (by rfl) (by exact hhead) (by rfl)]
  rfl

end Sys2Proof.Machine

open Sys2Proof Sys2Proof.Machine

/-- Settles O42: what a run measures, the learned table, and the readings that end BLIND and HEATING. -/
theorem runsLearned : Obligations.RunsLearned := by
  refine ⟨fun r tt count now watts loss => ?_, fun es coach old meas now => ?_, ?_⟩
  · intro dt t stageSeconds bracket lost h
    have e := measured_eq r tt count now watts loss
    refine ⟨fun hno => e.trans (if_neg ?_), fun h1 h2 n hn hh => e.trans ((if_pos ?_).trans ?_)⟩
    · rintro ⟨k1, k2, k3⟩
      have k3 : 0 < h := k3
      have k1 : 5 ≤ dt := k1
      have k2 : 600 ≤ t := k2
      omega
    · exact ⟨h1, h2, by show 0 < h; omega⟩
    · exact congrArg some (show h.toNat = n by omega)
  · intro cap e
    have hcap (o : Nat) : clampNat 100 4000 ((3 * o + meas + 2) / 4) = cap o := clampNat_eq (by decide) _
    refine ⟨fun hx => ?_, fun hx hl => ?_, fun hx hl o ho hold => ?_⟩
    · unfold learn
      dsimp only
      rw [if_pos (any_coach.2 hx)]
      simp only [hcap]
    · unfold learn
      dsimp only
      rw [if_neg (fun h => (any_coach.1 h).elim fun x k => hx x k.1 k.2), if_pos (show es.length < Config.learnedSize from hl),
        hcap]
    · obtain ⟨y, hy⟩ := oldestLearned_isSome (es := es) (List.ne_nil_of_mem ho)
      obtain ⟨k1, k2⟩ := oldestLearned_spec hy
      have hyo : y.coach = o.coach := by
        have := hold y k1
        have := k2 o ho
        omega
      unfold learn
      dsimp only
      rw [if_neg (fun h => (any_coach.1 h).elim fun x k => hx x k.1 k.2),
        if_neg (show ¬es.length < Config.learnedSize from Nat.not_lt.2 hl), hy, hcap, ← hyo]
  · intro s x τ b h rest hr hx ht hle hw hj hk hn hs hl hkept h1 h2 o v taken
    have hh : s.head = some h := by rw [State.head, hl]; rfl
    have htime : ∀ e, x.timeoutAt = some e → s.now ≤ e := fun e he => by rw [ht] at he; cases he; exact hle
    have out {w : State} (hrw : w.running = true) (e : (s.exchanged { s.link with failures := 0 }).heatReading b.toInt =
        w.updHeat fun y => { y with compute := true }) (hk2 : w.heat.kept = []) (hf : w.link.failures = 0)
        (hst : w.heat.state = .heating ∨ w.heat.state = .holding ∧ w.heat.count ≤ w.holdNow) : taken w := by
      intro hws hus
      have hheard := heard_cabin htime hw hj hk hn hs h1 h2 e hk2 hf
      refine ⟨finish (settled (w.updHeat fun y => { y with compute := true })), ?_, ?_⟩
      · show execCoachResponse true _ s = _
        rw [execCoachResponse, hx]
        simp only [hr, if_true, hheard]
        rfl
      · rw [settled_computes hrw hws (compute_fresh (s := w.updHeat fun y => { y with compute := true }) hst) hus, finish_fresh]
        exact finish_closed _
    have target (t : State) (ht : t.head = some h) : t.target = h.data.target := by rw [State.target, ht]; rfl
    refine ⟨fun hst hc hlt => out hr ?_ hkept rfl (.inl rfl), ?_⟩
    · unfold State.heatReading
      dsimp only
      rw [show (s.exchanged { s.link with failures := 0 }).heat.state = .blind from hst]
      dsimp only
      rw [target (s.exchanged _) hh, if_neg (by omega),
        beginRun_eq (s := State.updHeat (State.updHeat (s.exchanged _) _) _) (h := h) hh rfl rfl]
      rfl
    · intro r hst hc hge hrun c hold hcount
      refine out hr ?_ hkept rfl (.inr ⟨rfl, ?_⟩)
      · unfold State.heatReading
        dsimp only
        rw [show (s.exchanged { s.link with failures := 0 }).heat.state = .heating from hst]
        dsimp only
        rw [target (s.exchanged _) hh, if_pos hge,
          endRun_eq (s := State.updHeat (s.exchanged _) _) (h := h) (r := r) hh (by exact hrun) (by rfl),
          enterHolding_eq (n := hold) (by exact holdNow_eq hh) (by exact hcount)]
        rfl
      · exact hcount.trans (Nat.le_of_eq (holdNow_eq hh).symm)

/-- Settles O45: an identification, a cabin temperature, a wrong echo and a late response. -/
theorem responsesTaken : Obligations.ResponsesTaken := by
  refine ⟨fun s x content c hr hx ht hw hj hk hn hs hlen hid => ?_, fun s x b hr hx ht hw hj hk hn hs ho hkept h1 h2 => ?_,
    fun s x echo content hr hx ht hn he hne hlen htry => ?_, fun s x τ good frame hr hx ht hlt htry => ?_⟩
  · intro u
    have e : s.heard x true (responseFrame .identify false x.number content) =
        ((s.exchanged s.link).identifiedAs c).judgedLoss := by
      rw [heard_inTime ht, State.answer, hk, judge_frame hn hlen]
      simp only [ne_eq, not_true_eq_false, if_false, Bool.false_eq_true]
      rw [if_neg (by rw [hid]; simp), endExchange_ident hj hw hs, State.identifyEnded, hid]
    obtain ⟨t, hrun, hstable, hclosed⟩ := does_heard hr hx e
    refine ⟨t, hrun, ?_, fun hl ho hkept hlamp hq h1 h2 hg hu => ?_⟩
    · rw [hstable, stable_judgedLoss, stable_identifiedAs]
      rfl
    · have hb : s.faults.busy = false := Bool.eq_false_iff.2 fun h => ((busy_iff _).1 h).elim h1 h2
      have hi : (s.exchanged s.link).identifiedAs c = u :=
        identifiedAs_idle (s := s.exchanged s.link) hl ho hkept hlamp hq rfl hb rfl hg
      rw [hi, judgedLoss_zero (s := u) rfl] at hclosed
      exact hclosed fun _ => hu
  · intro u
    have e := heard_cabin (t := (s.exchanged { s.link with failures := 0 }).updHeat fun h =>
      { h with reading := some { temp := b.toInt, time := s.now, coach := s.coachId }, compute := true })
      ht hw hj hk hn hs h1 h2 (by
        unfold State.heatReading
        rw [show (s.exchanged { s.link with failures := 0 }).heat.state = .off from ho]
        rfl) hkept rfl
    obtain ⟨t, hrun, hstable, hclosed⟩ :
        Does (exec (.coachResponse true (responseFrame .cabinTemperature false x.number [b])) s) u := by
      refine does_computed (v := (s.exchanged { s.link with failures := 0 }).updHeat fun h =>
        { h with reading := some { temp := b.toInt, time := s.now, coach := s.coachId }, compute := true }) hr ?_
        (show s.heat.state.computing = false by rw [ho]; rfl) rfl
      show execCoachResponse true _ s = _
      rw [execCoachResponse, hx]
      simp only [hr, if_true, e]
    exact ⟨t, hrun, hstable, fun hu => hclosed fun _ => hu⟩
  · refine does_heard hr hx ?_
    rw [heard_inTime ht, State.answer, judge_frame he hlen, if_pos hne]
    exact failTry_retry _ htry
  · exact does_heard hr hx ((heard_late ht hlt).trans (failTry_retry _ htry))

end

