-- ==== Sys2Proof/Proofs/LampProofs.lean ====
section
namespace Sys2Proof.Machine

/-! ## LAMP: windows and the judging of the last group -/

variable {s u : State}

theorem linkUp_eq (h : s.link.state = .up) : s.linkUp = true := by
  rw [State.linkUp, h]; rfl

/-- A request LAMP places while the link is UP and its quota is not reached (R88, R89). -/
theorem lampAsk_taken {k : ReqKind} {g : Nat} (hk : k ≠ .identify) (hs : s.link.state = .up)
    (hc : s.link.count .lamp < 4) : s.lampAsk k g =
    ({ s with
      lamp := { s.lamp with outstanding := some (k, g) },
      link := { s.link with
        queue := s.link.queue ++ [{ job := .lamp, kind := k, arg := g, closing := false }] } } : State).begun := by
  have ha : s.link.allows k = true := by
    cases k <;> simp [Link.allows, hs] at hk ⊢
  unfold State.lampAsk
  dsimp only
  rw [if_pos (by exact ha), place_taken (by exact ha) (by exact hc)]
  rfl

/-! ### Samples -/

/-- The samples of a window that holds none and takes its N, their time passed (log entry 5). -/
theorem lampTake_all {w : Window} {b : Bool} {xs : List Nat} (hw : s.lamp.window = some w) (hs : w.sampling = true)
    (hb : w.isBaseline = b) (he : w.samples = []) (hl : xs.length = 2 ^ s.headClass.avgExp)
    (ht : w.opened + w.skip + xs.length ≤ s.now) : s.lampTake b xs =
      (some (xs.map (min 30000)), s.updLamp fun l => { l with window := some { w with samples := xs.map (min 30000) } }) := by
  have hn : s.lampSamples = xs.length := hl.symm
  have hall : (w.samples ++ xs.map (min Config.saturation)).take s.lampSamples = xs.map (min 30000) := by
    rw [he, hn, List.nil_append]
    exact List.take_of_length_le (by simp)
  unfold State.lampTake
  rw [hw]
  dsimp only
  rw [if_pos ⟨hb, hs⟩, hall, hn, if_pos ⟨by simp, ht⟩]

theorem map_min_eq {xs : List Nat} {m : Nat} (h : ∀ x ∈ xs, x < m) : xs.map (min m) = xs := by
  conv_rhs => rw [← List.map_id xs]
  exact List.map_congr_left fun x hx => Nat.min_eq_right (h x hx).le

theorem saturated_iff (xs : List Nat) :
    ((xs.map (min 30000)).any fun x => decide (Config.saturation ≤ x)) = true ↔ ∃ x ∈ xs, 30000 ≤ x := by
  simp [Config.saturation]

theorem unsaturated {xs : List Nat} (h : ∀ x ∈ xs, x < 30000) :
    ((xs.map (min 30000)).any fun x => decide (Config.saturation ≤ x)) = false :=
  Bool.eq_false_iff.2 fun k => by
    obtain ⟨x, hx, hb⟩ := (saturated_iff xs).1 k
    exact absurd (h x hx) (Nat.not_lt.2 hb)

/-! ### The lines of R107 -/

section
variable {g : LampGroup} {a b n : Nat} {xs : List Nat} {rise : Int}

theorem classify_saturated (h : (xs.any fun x => decide (Config.saturation ≤ x)) = true) :
    classify g a b xs rise n = some .overload := if_pos h

/-- A group whose samples spread too far: retried, or UNSTABLE. -/
theorem classify_spread (h : (xs.any fun x => decide (Config.saturation ≤ x)) = false)
    (hs : a * g.expected / 100 < greatest xs - least xs) :
    classify g a b xs rise n = if n < 2 then none else some .unstable := by
  rw [classify, h, if_neg (by decide), if_pos hs]

/-- A group measured: by its rise. -/
theorem classify_rise (h : (xs.any fun x => decide (Config.saturation ≤ x)) = false)
    (hs : greatest xs - least xs ≤ a * g.expected / 100) :
    classify g a b xs rise n =
      if rise < ((g.expected / g.lamps / 2 : Nat) : Int) then some .opened
      else if ((b * g.expected / 100 : Nat) : Int) < rise then some .overload
      else match lampsOut g.expected g.lamps rise with
        | 0 => some .ok
        | k + 1 => some (.partialOut (k + 1)) :=
  (if_neg (by rw [h]; decide)).trans (if_neg (Nat.not_lt.2 hs))
end

/-! ### A result in the fault table (R114) -/

/-- Lamp records of a group other than the result's lose their present marks. -/
def Faults.lampLeft (f : Faults) (g code : Nat) : Faults :=
  { f with table := f.table.map fun r =>
      if r.key.source = .lamp g ∧ r.key.code ≠ code then { r with present := false } else r }

theorem lampFaults_code {g c : Nat} {r : LampResult} (hc : r.code = some c) : s.lampFaults g r =
    { s with
      faults := (s.faults.lampLeft g c).write { source := .lamp g, code := c } (lampSeverity (s.lampGroup g).cls r) none
        s.depotTime } := by
  have hclear : s.faults.clearPresent (fun x => x.key.source == .lamp g && some x.key.code != some c) =
      s.faults.lampLeft g c := by
    refine congrArg (fun t => ({ s.faults with table := t } : Faults)) (List.map_congr_left fun x _ => ?_)
    exact if_congr (by simp) rfl rfl
  have hn : r ≠ .skipped := fun h => by rw [h] at hc; cases hc
  rw [State.lampFaults, if_neg hn, hc]
  dsimp only
  exact congrArg (fun f : Faults => ({ s with
    faults := f.write { source := .lamp g, code := c } (lampSeverity (s.lampGroup g).cls r) none s.depotTime } : State)) hclear

theorem lampFaults_ok (g : Nat) : s.lampFaults g .ok =
    { s with
      faults := { s.faults with
        table := s.faults.table.map fun r => if r.key.source = .lamp g then { r with present := false } else r } } := by
  refine congrArg (fun t => ({ s with faults := { s.faults with table := t } } : State))
    (List.map_congr_left fun x _ => if_congr ?_ rfl rfl)
  simp [LampResult.code]

/-! ### The last group has its result (R111) -/

/-- The check DONE behind the last group's result, LAMPS OFF placed (R111). -/
def State.lampJudged (s : State) (g : Nat) (r : LampResult) (rise : Int) (f : Faults) : State :=
  ({ s with
    lamp := { s.lamp with
      state := .done, current := none, window := none, outstanding := none, restart := false,
      doneBySkip := false, closing := true, switched := false,
      results := s.lamp.results ++ [{ group := g, result := r, rise := some rise }] },
    bay := { s.bay with lampWatch := none }, faults := f,
    link := { s.link with
      queue := s.link.queue ++ [{ job := .lamp, kind := .lampsOff, arg := 0, closing := true }] } } : State).begun

theorem lampFinish_lit (hl : s.lamp.switched = true) (hs : s.link.state = .up) (hc : s.link.count .lamp < 4) :
    s.lampFinish =
    ({ s with
      lamp := { s.lamp with
        state := .done, current := none, window := none, outstanding := none, restart := false,
        doneBySkip := false, closing := true, switched := false },
      bay := { s.bay with lampWatch := none },
      link := { s.link with
        queue := s.link.queue ++ [{ job := .lamp, kind := .lampsOff, arg := 0, closing := true }] } } : State).begun := by
  rw [State.lampFinish, if_pos hl, State.lampClosing, linkUp_eq (s := s.lampDone) hs, if_pos rfl,
    place_taken (by exact beq_iff_eq.2 hs) (by exact hc)]
  rfl

/-- The last group takes its result, its record written as `f` (R111, R114). -/
theorem lampNext_last {g : Nat} {r : LampResult} {rise : Int} {f : Faults} (hg : s.lamp.current = some g)
    (hl : s.lamp.groups ≤ g) (hw : s.lamp.switched = true) (hs : s.link.state = .up) (hc : s.link.count .lamp < 4)
    (hf : (State.lampFaults (s.updLamp fun l =>
        { l with results := l.results ++ [{ group := g, result := r, rise := some rise }] }) g r) =
      { s.updLamp fun l => { l with results := l.results ++ [{ group := g, result := r, rise := some rise }] } with
        faults := f }) : s.lampNext r (some rise) = s.lampJudged g r rise f := by
  unfold State.lampNext
  rw [hg]
  dsimp only
  rw [Option.getD_some, State.lampResult, hf, State.lampGroupTurn, State.lampTurn, if_pos (by exact Nat.lt_succ_of_le hl),
    lampFinish_lit (by exact hw) (by exact hs) (by exact hc)]
  rfl

theorem groupClosed_judged {g : Nat} {xs : List Nat} {r : LampResult} (hg : s.lamp.current = some g)
    (h : classify (s.lampGroup g) s.headClass.spreadPct s.headClass.overPct xs
      ((average xs : Int) - ((s.lamp.baseline.getD 0 : Nat) : Int)) s.lamp.retry = some r) :
    s.groupClosed xs = (s.updLamp fun l => { l with window := none }).lampNext r
      (some ((average xs : Int) - ((s.lamp.baseline.getD 0 : Nat) : Int))) := by
  unfold State.groupClosed
  dsimp only
  rw [hg, Option.getD_some, h]

/-- A group measured again (R109). -/
theorem groupClosed_again {g : Nat} {xs : List Nat} (hg : s.lamp.current = some g)
    (h : classify (s.lampGroup g) s.headClass.spreadPct s.headClass.overPct xs
      ((average xs : Int) - ((s.lamp.baseline.getD 0 : Nat) : Int)) s.lamp.retry = none) :
    s.groupClosed xs = (s.updLamp fun l => { l with window := none, retry := l.retry + 1 }).lampSequence := by
  unfold State.groupClosed
  dsimp only
  rw [hg, Option.getD_some, h]
  rfl

/-- Severities of OPEN and OVERLOAD, and of UNSTABLE and PARTIAL (R114). -/
theorem lampSeverity_serious {r : LampResult} (h : r = .opened ∨ r = .overload) (c : LampClass) :
    lampSeverity c r = match c with
      | .safety => .blocking
      | .other => .advisory
      | .interior => .info := by
  rcases h with rfl | rfl <;> cases c <;> rfl

theorem lampSeverity_minor {r : LampResult} (h : r = .unstable ∨ ∃ n, r = .partialOut n) (c : LampClass) :
    lampSeverity c r = if c = .safety then .blocking else .info := by
  obtain rfl | ⟨n, rfl⟩ := h <;> cases c <;> rfl

end Sys2Proof.Machine

open Sys2Proof Sys2Proof.Machine

/-- Settles O48: the end of a skip, and the baseline window. -/
theorem windowsRun : Obligations.WindowsRun := by
  refine ⟨fun s w hr hw hn ht => ?_, fun s w xs g hr hw hs hb he hl hx ht hg hu hc => ?_⟩
  · refine does_of ?_
    show execWindowSkipEnd s = _
    rw [execWindowSkipEnd, hw]
    dsimp only
    rw [if_pos ⟨hr, by simp [Window.skipOver, hn, ht]⟩]
    rfl
  · refine does_of ?_
    show execBaselineWindowClose xs s = _
    rw [execBaselineWindowClose, if_pos hr, lampTake_all hw hs hb he hl ht]
    dsimp only
    rw [State.baselineClosed, unsaturated hx, if_neg (by decide), map_min_eq hx, State.lampGroupOn,
      lampAsk_taken (by decide) (by exact hu) (by exact hc)]
    simp only [updLamp_lamp, hg]
    rfl

/-- Settles O49: the lines of R107 at the last group, and a retry. -/
theorem groupJudged : Obligations.GroupJudged := by
  intro s w xs g hr hw hs hb he hl ht hg hu hc ys k rise spread limit most half cleared serious minor done judged written
  have closes {u : State} (e : State.groupClosed (s.updLamp fun l => { l with window := some { w with samples := ys } }) ys = u) :
      Does (exec (.groupWindowClose xs) s) u := by
    refine does_of ?_
    show execGroupWindowClose xs s = _
    rw [execGroupWindowClose, if_pos hr, lampTake_all hw hs hb he hl ht, ← e]
  have judge {r : LampResult} {f : Faults}
      (hcl : classify k s.headClass.spreadPct s.headClass.overPct ys rise s.lamp.retry = some r)
      (hf : ∀ t : State, t.faults = s.faults → t.depotTime = s.depotTime → t.lampGroup g = k →
        t.lampFaults g r = { t with faults := f }) : judged r f := by
    intro hlast hsw
    refine closes ((groupClosed_judged (by exact hg) (by exact hcl)).trans ?_)
    exact lampNext_last hg hlast hsw hu hc (hf _ rfl rfl rfl)
  have record {r : LampResult} {c : Nat} {v : Severity}
      (hcl : classify k s.headClass.spreadPct s.headClass.overPct ys rise s.lamp.retry = some r)
      (hcode : r.code = some c) (hv : lampSeverity k.cls r = v) : judged r (written c v) :=
    judge hcl fun t h1 h2 h3 => by
      rw [lampFaults_code hcode, h1, h2, h3, hv]
      rfl
  refine ⟨fun hx => record (classify_saturated ((saturated_iff xs).2 hx)) rfl (lampSeverity_serious (.inr rfl) _),
    fun hx => ⟨fun h1 h2 => ?_, fun h1 h2 => ?_, fun h1 h2 => ?_, fun h1 h2 h3 => ?_, fun h1 h2 h3 => ?_⟩⟩
  · exact record ((classify_spread (unsaturated hx) h1).trans (if_neg (by omega))) rfl (lampSeverity_minor (.inl rfl) _)
  · refine closes ((groupClosed_again (by exact hg)
      (by exact (classify_spread (unsaturated hx) h1).trans (if_pos h2))).trans ?_)
    rw [State.lampSequence, lampAsk_taken (by decide) (by exact hu) (by exact hc)]
    rfl
  · exact record ((classify_rise (unsaturated hx) h1).trans (if_pos h2)) rfl (lampSeverity_serious (.inl rfl) _)
  · exact record ((classify_rise (unsaturated hx) h1).trans ((if_neg (by omega)).trans (if_pos h3))) rfl
      (lampSeverity_serious (.inr rfl) _)
  · have hcl := (classify_rise (n := s.lamp.retry) (b := s.headClass.overPct) (unsaturated hx) h1).trans
      ((if_neg (show ¬rise < half by omega)).trans (if_neg (show ¬most < rise by omega)))
    refine ⟨fun h0 => ?_, fun n hn => ?_⟩
    · rw [h0] at hcl
      exact judge hcl fun t h4 _ _ => by rw [lampFaults_ok, h4]
    · rw [hn] at hcl
      exact record hcl (congrArg some (by omega)) (lampSeverity_minor (.inr ⟨_, rfl⟩) _)

end

