-- ==== Sys2Proof/Proofs/FaultProofs.lean ====
section
namespace Sys2Proof.Machine

/-! ## FAULTS: FAULT CLEAR, periodic reads -/

variable {s u : State}

/-- A FAULT CLEAR without RECHECK LAMPS writes the fault table alone. -/
theorem doesAfter_clear {target : Byte} {payload : List Byte} {table : List Record} {overflow : Bool}
    (h : s.Hears 6 0 target payload) (hr : (clearPayload payload).recheck = false)
    (e : s.faults.clear (clearPayload payload).scope (clearPayload payload).source (clearPayload payload).code =
      { s.faults with table := table, overflow := overflow }) :
    DoesAfter (exec (.faultClearNotice 0 target payload) s) s.counted
      { s.counted with faults := { s.faults with table := table, overflow := overflow } } := by
  have take (t : State) : t.takeClear (clearPayload payload) = t.updFaults fun f =>
      f.clear (clearPayload payload).scope (clearPayload payload).source (clearPayload payload).code := by
    rw [State.takeClear, hr]; rfl
  refine doesAfter_of_hears (fun t => t.takeClear (clearPayload payload)) h rfl ?_ ?_
  · rw [take]
    refine (stable_updFaults _ _ fun _ => ?_).trans (settled_stable s.counted)
    rfl
  · exact (take _).trans (congrArg (fun f => ({ s.counted with faults := f } : State)) e)

/-- A slot marked HELD stays so under a write (R167). -/
theorem Slot.write_held {α : Type} {x : Slot α} (c : α) (h : x.state = .held) : (x.write c).state = .held := by
  rw [Slot.write, h]; rfl

/-- The close of a command leaves a HELD FAULT SUMMARY slot HELD (R131). -/
theorem finish_held (h : u.line.summary.state = .held) : (finish u).line.summary.state = .held := by
  have close : u.fresh.noteClose.summaryClose.line.summary.state = .held := by
    unfold State.summaryClose
    split
    · exact h
    · exact Slot.write_held _ h
  unfold finish
  dsimp only
  obtain ⟨d, e, hs⟩ := statusClose_form u.fresh.noteClose.summaryClose
  obtain ⟨f, g, h3⟩ := signalClose_form u.fresh.noteClose.summaryClose.statusClose
  obtain ⟨f', g', h3'⟩ := signalClose_form u.fresh.noteClose
  split
  · rw [h3, hs]; exact close
  · rw [h3']; exact h

theorem begun_line : s.begun.line = s.line := by
  unfold State.begun State.startExchange
  split
  · split <;> rfl
  · rfl

end Sys2Proof.Machine

open Sys2Proof Sys2Proof.Machine

/-- Settles O32: the records a FAULT CLEAR removes, scope by scope. -/
theorem faultsCleared : Obligations.FaultsCleared := by
  intro target payload s hh c hr
  have keeps (p : Record → Prop) [DecidablePred p] (overflow : Bool)
      (h : ∀ r, clearMatches c.scope c.source c.code r = decide (p r)) (ho : (if c.scope = 0 then false else s.faults.overflow) = overflow) :
      s.faults.clear c.scope c.source c.code =
        { s.faults with table := s.faults.table.filter fun r => decide ¬p r, overflow := overflow } := by
    rw [Faults.clear, ho]
    simp only [h, decide_not]
  refine ⟨fun h0 => doesAfter_clear hh hr ?_, fun h1 => doesAfter_clear hh hr ?_, fun h2 => doesAfter_clear hh hr ?_⟩
  · rw [keeps (fun _ => True) false (fun r => by rw [h0]; rfl) (if_pos h0)]
    simp
  · refine keeps _ _ (fun r => ?_) (if_neg (by omega))
    rw [h1, Bool.eq_iff_iff]
    by_cases h0 : c.source = 0
    · simp [clearMatches, h0]
    · by_cases h64 : c.source = 64
      · simp [clearMatches, h64]
      · simp [clearMatches, h0, h64]
  · refine keeps _ _ (fun r => ?_) (if_neg (by omega))
    rw [h2, Bool.eq_iff_iff]
    simp [clearMatches, and_assoc]

/-- Settles O33: a periodic read, or the due time moved. -/
theorem periodicRead : Obligations.PeriodicRead := by
  intro s e hr he hle reading
  have hx : s.running = true ∧ s.expired s.faults.periodicDue = true := ⟨hr, by rw [he]; exact expired_of_le hle⟩
  refine ⟨fun hs hl hn hc => ?_, fun h => does_guarded hx ?_⟩
  · intro u
    have hb : s.faults.busy = false := Bool.eq_false_iff.2 fun h => hn ((busy_iff _).1 h)
    have hp : s.periodicNow = u := by
      rw [State.periodicNow, linkUp_eq hs, show s.level .plugLatched = true from hl, hb, if_pos (by rfl), beginRead_idle hb,
        place_taken (by exact beq_iff_eq.2 hs) (by exact hc)]
      rfl
    obtain ⟨t, h1, h2, h3⟩ := does_guarded hx hp (o := .next s)
    refine ⟨t, h1, h2, fun hu => ⟨h3 fun _ => hu, ?_⟩⟩
    have h1 : (if s.running = true ∧ s.expired s.faults.periodicDue = true then conclude s.periodicNow else .next s) =
      .next t := h1
    rw [if_pos hx, hp, conclude_settled hu] at h1
    cases h1
    exact finish_held (by rw [begun_line])
  · have hn : (s.linkUp && s.level .plugLatched && !s.faults.busy) = false := by
      refine Bool.eq_false_iff.2 fun k => ?_
      simp only [Bool.and_eq_true, Bool.not_eq_true'] at k
      obtain ⟨⟨k1, k2⟩, k3⟩ := k
      obtain h | h | h := h
      · exact h (beq_iff_eq.1 k1)
      · rw [show s.bay.latched.level = true from k2] at h; cases h
      · rw [(busy_iff _).2 h] at k3; cases k3
    rw [State.periodicNow, hn, if_neg (by decide)]
    exact congrArg (fun d => s.updFaults fun f => { f with periodicDue := d }) (by rw [he]; rfl)

end

