-- ==== Sys2Proof/Proofs/BayProofs.lean ====
section
namespace Sys2Proof.Machine

/-! ## BAY: raw levels, turns, latch and probe -/

variable {s u : State} {i : Input}

theorem takeLevel_eq (s : State) (i : Input) : s.takeLevel i = s.turn i := rfl

theorem changeDue_of_turned (h : s.Turned i) : s.changeDue i = true := by
  obtain ⟨⟨d, hd, hle⟩, hne⟩ := h
  rw [State.changeDue, hd, expired_of_le hle]
  simpa using hne

end Sys2Proof.Machine

open Sys2Proof Sys2Proof.Machine

/-- Settles O51: raw levels counted, and a released button. -/
theorem rawLevelsCounted : Obligations.RawLevelsCounted := by
  refine ⟨fun i v s => ⟨fun h => if_pos h, fun h hd hv => (if_neg h).trans ?_, fun h hv => (if_neg h).trans ?_⟩,
    fun s ht hr => if_pos ⟨changeDue_of_turned ht, hr⟩⟩
  · unfold State.rawChange State.updBay
    dsimp only
    rw [hd, if_pos (by simpa using hv)]
    rfl
  · unfold State.rawChange State.updBay
    dsimp only
    rw [if_neg (by rcases hv with h | h <;> simp [h])]

/-- Settles O55: the latch closed, its check over, a probe sample. -/
theorem latchAndProbe : Obligations.LatchAndProbe := by
  intro s hr
  refine ⟨fun e hd hc he hm hp hl => ?_, fun e hc he => ?_, fun x h1 h2 => ?_, fun x hx => ?_⟩
  · have hdue : s.bay.debouncing = true ∧ s.expired s.bay.closeAt = true := ⟨hd, by rw [hc]; exact expired_of_le he⟩
    refine does_of ((if_pos hdue).trans ((if_pos hr).trans (congrArg conclude ?_)))
    rw [State.latchDelayOver, if_pos ⟨hm, hp⟩, State.closeLatch, hl]
    rfl
  · refine does_guarded ⟨hr, by rw [hc]; exact expired_of_le he⟩ ?_
    unfold State.latchCheckOver
    rw [show s.level .plugLatched = s.bay.latched.level from rfl]
    cases s.bay.latched.level <;> rfl
  · refine does_guarded hr ?_
    have hp : probeOf (some x) = .inRange x := if_pos ⟨h1, h2⟩
    rw [State.takeProbe, hp]
    rfl
  · have hp : probeOf x = .outOfRange := by
      cases x with
      | none => rfl
      | some y => exact if_neg fun h => (hx y rfl).elim (by omega) (by omega)
    refine does_guarded hr ?_
    unfold State.takeProbe
    rw [hp]
    by_cases h : s.bay.probe = .outOfRange
    · rw [h]; rfl
    · simp only [h, ne_eq, not_false_eq_true, and_self, if_true, if_false]
      rfl

end

