-- ==== Sys2Proof/Proofs/DepartProofs.lean ====
section
namespace Sys2Proof.Machine

/-! ## DEPART: the driver's request, the lane claimed and won -/

variable {s u : State} {h : Plan} {rest : List Plan}

theorem head_of_list (hl : s.plans.list = h :: rest) : s.head = some h := by rw [State.head, hl]; rfl

theorem phase_of_list (hl : s.plans.list = h :: rest) : s.phase = some h.phase := by rw [State.phase, head_of_list hl]; rfl

theorem inPhase_of_list (hl : s.plans.list = h :: rest) (p : Phase) : s.inPhase p = (h.phase == p) := by
  rw [State.inPhase, phase_of_list hl]; rfl

theorem phaseIs_of_list (hl : s.plans.list = h :: rest) (f : Phase → Bool) : s.phaseIs f = f h.phase := by
  rw [State.phaseIs, phase_of_list hl]

/-- A pinned head's phase moves on, to one no block acts on (R3). -/
theorem setPhase_on {p : Phase} (hl : s.plans.list = h :: rest) (hp : h.phase.pinned = true) (hn : p ≠ .preparing)
    (hq : p.pinned = true) : s.setPhase p = { s with plans := { s.plans with list := { h with phase := p } :: rest } } := by
  unfold State.setPhase
  dsimp only
  rw [phase_of_list hl, mapHead_eq hl]
  dsimp only
  rw [if_pos hp]
  cases p with
  | waitingCoach => cases hq
  | wrongCoach => cases hq
  | preparing => exact absurd rfl hn
  | _ => rfl

/-- A round over lanes whose first is free takes it (R140, R141). -/
theorem laneRound_free {l : Nat} {ls : List Nat} (hc : s.isContested l = false) (ht : s.laneTaken l = false) :
    State.laneRound (l :: ls) s = s.claimLane l := by
  rw [State.laneRound, hc, ht]; rfl

theorem isContested_iff (l : Nat) : s.isContested l = true ↔ ∃ m ∈ s.view.contested, m.lane = l := by
  simp [State.isContested]

theorem isContested_not {l : Nat} (hm : ∀ m ∈ s.view.contested, m.lane ≠ l) : s.isContested l = false :=
  Bool.eq_false_iff.2 fun h => (isContested_iff l).1 h |>.elim fun m hx => hm m hx.1 hx.2

theorem laneTaken_not {l : Nat} (hx : ∀ x ∈ s.view.entries, ∀ r, x.lane = some r → r.lane = l →
    s.stands r.held r.key x.station = false) : s.laneTaken l = false := by
  refine Bool.eq_false_iff.2 fun h => ?_
  obtain ⟨e, he, h⟩ := List.any_eq_true.1 h
  cases hr : e.lane with
  | none => rw [hr] at h; cases h
  | some r =>
    rw [hr] at h
    simp only [Bool.and_eq_true, beq_iff_eq] at h
    rw [hx e he r hr h.1] at h
    exact absurd h.2 (by decide)

theorem stands_not {held : Bool} {key p : Nat} (hh : held = false)
    (hk : s.depart.key.getD 0 < key ∨ s.depart.key.getD 0 = key ∧ s.conf.station ≤ p) : s.stands held key p = false := by
  rw [State.stands, hh, Bool.false_or, LaneKey.ahead, State.ownLaneKey]
  simp only [Bool.or_eq_false_iff, decide_eq_false_iff_not, Bool.and_eq_false_iff]
  omega

/-- A halt ordered while an exchange runs, with nothing queued and no lamp check running (R95). -/
theorem linkHalt_halting (hs : s.link.state = .up) (hx : s.link.exchange ≠ none) (hq : s.link.queue = [])
    (hl : s.lamp.state = .idle ∨ s.lamp.state = .waiting ∨ s.lamp.state = .suspended ∨ s.lamp.state = .done ∨
      s.lamp.state = .abandoned) :
    s.linkHalt = { s with heat := { s.heat with pollDue := none, kept := [] }, link := { s.link with state := .halting } } := by
  have hp := purge_nil (s := (State.heatLinkLost (s.updLink fun l => { l with state := .halting }) false)) hq
  have hlamp := lampSuspend_idle (s := (State.heatLinkLost (s.updLink fun l => { l with state := .halting }) false)) hl
  have he : ({ s.heat with pollDue := none, kept := [], enableHeld := s.heat.enableHeld && !false } : Heat) =
      { s.heat with pollDue := none, kept := [] } :=
    congrArg (fun b => ({ s.heat with pollDue := none, kept := [], enableHeld := b } : Heat)) (Bool.and_true _)
  unfold State.linkHalt
  rw [hs]
  dsimp only
  rw [State.linkLeft, hlamp, hp, if_pos (by exact Option.isSome_iff_ne_none.2 hx)]
  exact congrArg (fun k => ({ s with heat := k, link := { s.link with state := .halting } } : State)) he

/-- The HELD of a lane, its refresh begun (R143). -/
theorem writeHeld_eq {l : Nat} (hl : s.depart.current = some l) : s.writeHeld =
    { s with
      line := { s.line with
        lane := s.line.lane.write
          { action := .held, lane := l, key := s.depart.key.getD 0, inTransit := s.inPhase .gone, singleTry := false } },
      depart := { s.depart with heldRefresh := some (s.now + 10000) } } := by
  unfold State.writeHeld State.laneContent
  rw [hl]
  rfl

theorem does_pressed {u : State} (hr : s.running = true) (ht : s.Turned .departRequest) (hp : s.bay.request.raw = true)
    (e : (s.turn .departRequest).pressed = u) : Does (exec .departRequestPress s) u :=
  does_of ((if_pos ⟨changeDue_of_turned ht, hp⟩).trans ((if_pos hr).trans (congrArg conclude e)))

/-- A request taken: the phase REQUESTED, key and lanes fixed (R138). -/
def State.requestTaken (s : State) (h : Plan) (rest : List Plan) : State :=
  { s with
    plans := { s.plans with list := { h with phase := .requested } :: rest },
    depart := { s.depart with
      key := some h.data.absMinute, lastRefusal := .none,
      lanes := if h.data.lanes = [] then s.conf.lanes else h.data.lanes } }

theorem pressed_ready (hl : s.plans.list = h :: rest) (hp : h.phase = .ready)
    (he : ∀ m, s.absMinute = some m → h.data.absMinute ≤ m + s.conf.earlyWindow) : s.pressed = s.requestTaken h rest := by
  have early : s.tooEarly = false := by
    unfold State.tooEarly
    rw [head_of_list hl]
    cases hm : s.absMinute with
    | none => rfl
    | some m => exact decide_eq_false (Nat.not_lt.2 (he m hm))
  rw [State.pressed, phase_of_list hl, hp]
  dsimp only
  rw [early, State.takeRequest, head_of_list hl]
  dsimp only
  rw [if_neg (by decide), setPhase_on (by exact hl) (by rw [hp]; rfl) (by decide) rfl]
  rfl

/-- Where nothing bars the departure, the phase is READY to go on: FINAL READ follows once the link is UP (R138, R126). -/
theorem departRule_requested (hl : s.plans.list = h :: rest) (hp : h.phase = .requested) (hrep : s.faults.report = none)
    (hline : s.lineGood = true) (htwin : s.line.twin = false) (hhold : s.holdFails = none) (hs : s.link.state = .up) :
    s.departRule = some s.enterFinalRead := by
  unfold State.departRule
  rw [hrep, hline, htwin, hhold, phaseIs_of_list hl, inPhase_of_list hl, hp, linkUp_eq hs]
  dsimp only
  rw [if_neg (by decide), if_neg (by simp [State.heldDue, phaseIs_of_list hl, hp, Phase.underWay]), if_pos (by rfl)]

theorem begun_fresh : s.fresh.begun = s.begun.fresh := by
  unfold State.begun State.startExchange
  rw [show s.fresh.exchangeDue = s.exchangeDue from rfl, show s.fresh.link.queue = s.link.queue from rfl]
  split
  · split <;> rfl
  · rfl

end Sys2Proof.Machine

open Sys2Proof Sys2Proof.Machine

/-- Settles O56: what a press finds when it is refused. -/
theorem pressRefused : Obligations.PressRefused := by
  intro s hr ht hp refused
  have verdict : (s.turn .departRequest).verdict = s.verdict := rfl
  have hphase : (s.turn .departRequest).phase = s.phase := rfl
  refine ⟨fun h => ?_, fun h => ?_, fun h m hh hp' hm hlt => ?_⟩
  · exact does_pressed hr ht hp (by rw [State.pressed, hphase, h]; rfl)
  · refine does_pressed hr ht hp ?_
    rw [State.pressed, hphase]
    rcases h with h | h | h <;> rw [h, verdict] <;> rfl
  · refine does_pressed hr ht hp ?_
    have hhead : s.head = some h := hh
    have early : (s.turn .departRequest).tooEarly = true := by
      rw [State.tooEarly, show (s.turn .departRequest).head = some h from hhead,
        show (s.turn .departRequest).absMinute = some m from hm]
      exact decide_eq_true hlt
    rw [State.pressed, hphase, State.phase, hhead, Option.map_some, hp']
    exact (if_pos early).trans rfl

/-- Settles O58: a lane claimed again, and won. -/
theorem laneClaimed : Obligations.LaneClaimed := by
  refine ⟨fun s e l hr ho hc he hl hm hx => ?_, fun s e l h rest hr ho hc he hl hlist hp hh hlamp hs hex hq => ?_⟩
  · refine does_guarded ⟨hr, ho, by rw [hc]; exact expired_of_le he⟩ ?_
    have hround : ∀ ls, State.laneRound (l :: ls) (s.updDepart fun d => { d with claimRetry := none }) = _ := fun ls =>
      laneRound_free (isContested_not (by exact hm)) (laneTaken_not fun x hx' r hr' hl' => by
        obtain ⟨k1, k2⟩ := hx x hx' r hr' hl'
        exact stands_not k1 k2)
    unfold State.judgeAgain
    rw [updDepart_depart]
    dsimp only
    rw [hl]
    exact hround _
  · refine does_guarded ⟨hr, ho, by rw [hc]; exact expired_of_le he⟩ ?_
    have hgone : (h.phase == Phase.gone) = false := by rw [hp]; rfl
    have hgoing : (s.updDepart fun d => { d with own := .held, holdOff := none }).inPhase .gone = false :=
      (inPhase_of_list (s := s.updDepart _) hlist _).trans hgone
    rw [State.laneWon, writeHeld_eq (s := s.updDepart _) (by exact hl), hgoing, State.enterReleasing, setPhase_on (by exact hlist) (by rw [hp]; rfl) (by decide) rfl,
      heatOff_idle (by rw [updDepart_heat]; exact hh ▸ rfl), linkHalt_halting (by exact hs) (by exact hex) (by exact hq)
        (by exact .inr (.inr (.inr (.inl hlamp))))]
    rfl

/-- Settles O57: a request taken, and the final read it begins. -/
theorem pressTaken : Obligations.PressTaken := by
  intro s h rest hr ht hp hl hready hearly hs h1 h2 hc hrep hst hcount htwin hlatch hv hread u
  have hb : s.faults.busy = false := Bool.eq_false_iff.2 fun k => ((busy_iff _).1 k).elim h1 h2
  have hw : (s.turn .departRequest).pressed = (s.turn .departRequest).requestTaken h rest := pressed_ready hl hready hearly
  have hhold : ((s.turn .departRequest).requestTaken h rest).fresh.holdFails = none := by
    have hclaim : ((s.turn .departRequest).requestTaken h rest).fresh.inPhase .claiming = false := rfl
    have hop : ((s.turn .departRequest).requestTaken h rest).fresh.operating = true := beq_iff_eq.2 hst
    have hlevel : ((s.turn .departRequest).requestTaken h rest).fresh.level .plugLatched = true := hlatch
    have hvalid : ((s.turn .departRequest).requestTaken h rest).fresh.readingValid = true := hread
    unfold State.holdFails
    dsimp only
    rw [hclaim, hop, hlevel, hvalid, if_pos (by rfl), if_neg (by exact hv)]
    simp
  have hfinal : ((s.turn .departRequest).requestTaken h rest).fresh.enterFinalRead = u.fresh := by
    rw [State.enterFinalRead, setPhase_on (by rfl) (by rfl) (by decide) rfl, State.finalReadOrder,
      linkUp_eq (by exact hs), if_pos rfl, if_neg (by exact Bool.eq_false_iff.1 hb),
      beginRead_idle (by exact hb), place_taken (by exact beq_iff_eq.2 hs) (by exact hc)]
    refine Eq.trans ?_ begun_fresh
    rfl
  have first : stepRule ((s.turn .departRequest).requestTaken h rest).fresh = some u.fresh := by
    rw [stepRule, departRule_requested (by rfl) (by rfl) (by exact hrep) (by exact decide_eq_true hcount) (by exact htwin)
      hhold (by exact hs), hfinal]
  obtain ⟨t, h3, h4, -⟩ := does_pressed hr ht hp hw
  refine ⟨t, h3, h4.trans ?_, fun hu => ?_⟩
  · symm
    refine (stable_begun _).trans ?_
    rfl
  · have h5 : exec .departRequestPress s = conclude ((s.turn .departRequest).requestTaken h rest) :=
      (if_pos ⟨changeDue_of_turned ht, hp⟩).trans ((if_pos hr).trans (congrArg conclude hw))
    rw [h3, conclude_eq, settled_of_step (by exact hr) first hu, finish_fresh, finish_fresh] at h5
    cases h5
    exact finish_closed u

end

