-- ==== Sys2Proof/Proofs/RestSteps.lean ====
section
namespace Sys2Proof.Machine

/-! ## What judging leaves alone while no departure is under way -/

variable {s t u : State}

/-- DEPART, the plan list, the LANE slot and DEPART's watch set are as they were; so is a latch not held open. -/
structure Apart (s t : State) : Prop where
  depart : t.depart = s.depart
  plans : t.plans = s.plans
  lane : t.line.lane = s.line.lane
  watch : t.bay.departWatch = s.bay.departWatch
  latch : s.bay.heldOpen = false → t.bay.latchClosed = s.bay.latchClosed ∧ t.bay.heldOpen = false

namespace Apart

theorem refl (s : State) : Apart s s := ⟨rfl, rfl, rfl, rfl, fun h => ⟨rfl, h⟩⟩

theorem trans (h : Apart s t) (k : Apart t u) : Apart s u :=
  ⟨k.depart.trans h.depart, k.plans.trans h.plans, k.lane.trans h.lane, k.watch.trans h.watch, fun e =>
    ⟨(k.latch (h.latch e).2).1.trans (h.latch e).1, (k.latch (h.latch e).2).2⟩⟩

theorem ite {c : Prop} [Decidable c] {a b : State} (ha : Apart s a) (hb : Apart s b) : Apart s (if c then a else b) := by
  split <;> assumption

theorem updHeat (h : Apart s t) (f : Heat → Heat) : Apart s (t.updHeat f) := ⟨h.1, h.2, h.3, h.4, h.5⟩
theorem updShare (h : Apart s t) (f : Share → Share) : Apart s (t.updShare f) := ⟨h.1, h.2, h.3, h.4, h.5⟩
theorem updLink (h : Apart s t) (f : Link → Link) : Apart s (t.updLink f) := ⟨h.1, h.2, h.3, h.4, h.5⟩
theorem updStart (h : Apart s t) (f : Start → Start) : Apart s (t.updStart f) := ⟨h.1, h.2, h.3, h.4, h.5⟩
theorem updFaults (h : Apart s t) (f : Faults → Faults) : Apart s (t.updFaults f) := ⟨h.1, h.2, h.3, h.4, h.5⟩
theorem free (h : Apart s t) (n : Nat) : Apart s { t with freeCount := n } := ⟨h.1, h.2, h.3, h.4, h.5⟩
theorem demand (h : Apart s t) (f : Line → Line) (e : (f t.line).lane = t.line.lane) : Apart s (t.updLine f) :=
  ⟨h.1, h.2, e.trans h.3, h.4, h.5⟩
theorem heatWatch (h : Apart s t) (w : Option Watch) : Apart s (t.updBay fun b => { b with heatWatch := w }) :=
  ⟨h.1, h.2, h.3, h.4, h.5⟩

theorem lamp (h : Apart s t) (k : LampScope t u) : Apart s u := by
  refine h.trans ⟨k.depart, k.plans, by rw [k.line], ?_, fun e => ?_⟩ <;> obtain ⟨w, hb⟩ := k.bay <;> rw [hb]
  exact ⟨rfl, e⟩

theorem place (h : Apart s t) (r : Request) : Apart s (t.place r) := h.lamp ((LampScope.refl t).place r)

theorem setCount (h : Apart s t) (n : Nat) : Apart s (t.setCount n) := by
  obtain ⟨-, e⟩ | ⟨-, k⟩ := setCount_scope t n
  · rw [e]; exact h
  · have hput : Apart t (t.putCount n) := by
      refine ⟨rfl, rfl, rfl, rfl, fun e => ?_⟩
      unfold State.putCount State.bayCount
      simp [e]
    exact h.trans (hput.lamp k)

theorem capCount (h : Apart s t) (n : Nat) : Apart s (t.capCount n) := ite (h.setCount n) h

theorem heatPlace (h : Apart s t) (k : ReqKind) : Apart s (t.heatPlace k) :=
  ite (ite (h.updHeat _) (h.place _)) (ite (h.updHeat _) h)

theorem withdrawDemand (h : Apart s t) : Apart s t.withdrawDemand :=
  (ite ((h.demand _ rfl).updShare _) (h.demand _ rfl)).updShare _

theorem heatLeave (h : Apart s t) (x : HeatState) : Apart s (t.heatLeave x) := by
  unfold State.heatLeave
  dsimp only
  have h1 := ((h.setCount 0).updHeat fun h =>
    { h with state := x, run := none, waiting := none, blindEnd := none, drawingSince := none }).heatWatch none
  have h2 := ite (c := x.computing = true) h1 (h1.updShare fun y => { y with ranking := none })
  exact ite ((ite h2.withdrawDemand h2).heatPlace _) (ite h2.withdrawDemand h2)

theorem writeFault (h : Apart s t) (k : Key) (v : Severity) (c : Option CoachState) : Apart s (t.writeFault k v c) :=
  h.updFaults _

theorem announceDemand (h : Apart s t) : Apart s t.announceDemand :=
  ite h.withdrawDemand ((h.demand _ rfl).updShare _)

theorem compute (h : Apart s t) : Apart s t.compute := by
  have figures (p : Plan) : Apart s (t.computeFigures p) := ite ((h.updHeat _).writeFault _ _ _) (h.updHeat _)
  have moved {u : State} (k : Apart s u) : Apart s u.moveBySlack := by
    unfold State.moveBySlack
    split
    · exact ite (k.updHeat _) k
    · exact ite (k.heatLeave _) k
    · exact (k.updHeat _).capCount _
    all_goals exact k
  unfold State.compute
  split
  · exact ite (moved ((figures _).updShare _)) (h.updHeat _)
  · exact h.updHeat _

theorem setGrant (h : Apart s t) (g : Nat) : Apart s (t.setGrant g) := ((h.updShare _).capCount g).updHeat _

theorem regrant (h : Apart s t) : Apart s t.regrant :=
  ite ((h.updShare _).setGrant _) (ite (((h.updShare _).free _).setGrant _) ((h.updShare _).free _))

theorem beginRun (h : Apart s t) : Apart s t.beginRun := by
  obtain ⟨r, e⟩ := beginRun_form t
  rw [e]; exact h.updHeat _

theorem heatDisturbed (h : Apart s t) : Apart s t.heatDisturbed := (h.heatLeave _).writeFault _ _ _

theorem heatDraw (h : Apart s t) : Apart s t.heatDraw := by
  unfold State.heatDraw
  dsimp only
  have h1 := (ite (c := t.cabin < t.target) (h.updHeat fun h => { h with state := .heating }).beginRun
    (h.updHeat fun h => { h with state := .holding, holdRequest := t.holdNow })).updHeat
      fun h => { h with drawingSince := some t.now }
  have h2 {c : Prop} [Decidable c] := (ite (c := c) (h1.updHeat fun h => { h with waiting := some .first }) (h1.setCount 1))
  exact ite (h2.heatWatch _) (h2.heatWatch _).heatDisturbed

theorem riseOne (h : Apart s t) : Apart s t.riseOne := (h.setCount _).updHeat _

theorem wake (h : Apart s t) : Apart s t.wake := ((h.updLink _).updStart _).place _

end Apart

/-- HEAT's and SHARE's conditions leave DEPART and PLANS alone. -/
theorem heatRule_apart (h : s.heatRule = some t) : Apart s t := by
  have r := Apart.refl s
  unfold State.heatRule at h
  split at h
  · cases h; exact (r.updHeat _).updShare _
  · split at h
    · cases h; exact r.heatLeave _
    · split at h
      · cases h; exact r.announceDemand
      · split at h
        · cases h; exact r.compute
        · split at h
          · cases h; exact r.regrant
          · split at h
            · cases h; exact r.heatPlace _
            · split at h
              · cases h; exact r.heatDraw
              · split at h
                · cases h; exact r.riseOne
                · split at h
                  · cases h; exact Apart.ite r.riseOne (r.updHeat _)
                  · cases h

theorem linkRule_apart (h : s.linkRule = some t) : Apart s t := by
  have r := Apart.refl s
  unfold State.linkRule at h
  split at h
  · cases h; exact Apart.ite r.wake ((r.updLink _).updStart _)
  · split at h
    · cases h; exact r.wake
    · cases h

/-! ### No departure under way -/

/-- No departure that could fall back is under way, and the head holds no change. -/
def State.AtRest (s : State) : Prop := s.phaseIs Phase.departing = false ∧ s.head.bind Plan.held = none

/-- The plan list is as it was, but for the move of a head between PREPARING and READY (R136). -/
def PhaseMoved (s t : State) : Prop :=
  t.plans = s.plans ∨ ∃ h rest p, s.plans.list = h :: rest ∧ h.phase.matched = true ∧ p.matched = true ∧
    t.plans = { s.plans with list := { h with phase := p } :: rest }

/-- DEPART, the LANE slot and DEPART's watch set are as they were, and the plan list but for its head's readiness. -/
structure Rests (s t : State) : Prop where
  depart : t.depart = s.depart
  plans : PhaseMoved s t
  lane : t.line.lane = s.line.lane
  watch : t.bay.departWatch = s.bay.departWatch
  latch : s.bay.heldOpen = false → t.bay.latchClosed = s.bay.latchClosed ∧ t.bay.heldOpen = false

theorem Apart.rests (h : Apart s t) : Rests s t := ⟨h.depart, .inl h.plans, h.lane, h.watch, h.latch⟩

theorem head_of_plans (h : t.plans = s.plans) : t.head = s.head := by rw [State.head, h]; rfl

theorem PhaseMoved.atRest (h : PhaseMoved s t) (hs : s.AtRest) : t.AtRest := by
  obtain h | ⟨x, rest, p, hl, -, hp, h⟩ := h
  · unfold State.AtRest State.phaseIs State.phase
    rw [head_of_plans h]
    exact hs
  · have ht : t.plans.list = { x with phase := p } :: rest := by rw [h]
    refine ⟨?_, ?_⟩
    · rw [phaseIs_of_list ht]
      cases p <;> simp_all [Phase.departing, Phase.matched]
    · have := hs.2
      rw [head_of_list hl] at this
      rw [head_of_list ht]
      exact this

theorem inPhase_departing {p : Phase} (hp : p.departing = true) (hs : s.phaseIs Phase.departing = false) :
    s.inPhase p = false := by
  refine Bool.eq_false_iff.2 fun h => ?_
  rw [State.phaseIs, eq_of_beq h] at hs
  dsimp only at hs
  rw [hp] at hs
  cases hs

/-- At rest DEPART's conditions only take an unasked report. -/
theorem departRule_atRest (hs : s.AtRest) (h : s.departRule = some t) : Apart s t := by
  obtain ⟨hd, hheld⟩ := hs
  have phase {p : Phase} (hp : p.departing = true) : s.inPhase p = false := inPhase_departing hp hd
  have hold : s.holdFails = none := by
    unfold State.holdFails
    dsimp only
    rw [phase (p := .requested) rfl, phase (p := .claiming) rfl, phase (p := .finalRead) rfl]
    rfl
  unfold State.departRule at h
  split at h
  · cases h
    rw [State.finalReport, if_neg (by exact Bool.eq_false_iff.1 (phase (p := .finalRead) rfl))]
    exact (Apart.refl s).updFaults _
  · rw [hd, hold, show s.heldDue = false by rw [State.heldDue, hheld, Option.isSome_none, Bool.and_false],
      phase (p := .requested) rfl, phase (p := .releasing) rfl] at h
    cases h

theorem list_of_inPhase {p : Phase} (h : s.inPhase p = true) : ∃ x rest, s.plans.list = x :: rest ∧ x.phase = p := by
  unfold State.inPhase State.phase State.head at h
  cases hl : s.plans.list with
  | nil => rw [hl] at h; cases h
  | cons x rest => rw [hl] at h; exact ⟨x, rest, rfl, by simpa using h⟩

theorem readyRule_rests (h : s.readyRule = some t) : Rests s t := by
  unfold State.readyRule at h
  split at h
  · rename_i hp
    cases h
    simp only [Bool.and_eq_true] at hp
    obtain ⟨x, rest, hl, hx⟩ := list_of_inPhase hp.1
    rw [setPhase_on hl (by rw [hx]; rfl) (by decide) rfl]
    exact ⟨rfl, .inr ⟨x, rest, .ready, hl, by rw [hx]; rfl, rfl, rfl⟩, rfl, rfl, fun e => ⟨rfl, e⟩⟩
  · split at h
    · rename_i hp
      cases h
      simp only [Bool.and_eq_true] at hp
      obtain ⟨x, rest, hl, hx⟩ := list_of_inPhase hp.1
      have e : s.setPhase .preparing = ({ s with plans := { s.plans with list := { x with phase := .preparing } :: rest } } :
          State).lampOwed := by
        unfold State.setPhase
        dsimp only
        rw [phase_of_list hl, mapHead_eq hl, hx]
        rfl
      have k := (Apart.refl ({ s with plans := { s.plans with list := { x with phase := .preparing } :: rest } } : State)).lamp
        (LampScope.refl _).lampOwed
      rw [e]
      exact ⟨k.depart, .inr ⟨x, rest, .preparing, hl, by rw [hx]; rfl, rfl, k.plans⟩, k.lane, k.watch, k.latch⟩
    · split at h
      · cases h
        exact ((Apart.refl s).lamp ((LampScope.refl s).lampEnd _ _).lampWait).rests
      · split at h
        · cases h
          exact ((Apart.refl s).lamp (LampScope.lampTurn 17 (((LampScope.refl s).updLamp _).lampWatch _) 1)).rests
        · cases h

/-- At rest the conditions leave DEPART, the LANE slot and the plan list alone, but for the head's readiness. -/
theorem stepRule_rests (hs : s.AtRest) (h : stepRule s = some t) : Rests s t := by
  unfold stepRule at h
  split at h
  · cases h; exact (departRule_atRest hs ‹_›).rests
  · split at h
    · cases h; exact (linkRule_apart ‹_›).rests
    · split at h
      · cases h; exact readyRule_rests ‹_›
      · exact (heatRule_apart h).rests

/-- What judging keeps at rest. -/
theorem settled_atRest {P : State → Prop} (hP : ∀ a b, P a → Rests a b → P b) (hs : s.AtRest) (h : P s) :
    P (settled s) ∧ (settled s).AtRest := by
  refine settled_keeps (P := fun a => P a ∧ a.AtRest) (fun a b ha hab => ?_) (fun a ha => ?_) ⟨h, hs⟩
  · have hc := stepRule_rests ha.2 hab
    exact ⟨hP a b ha.1 hc, hc.plans.atRest ha.2⟩
  · exact ⟨hP a _ ha.1 ⟨rfl, .inl rfl, rfl, rfl, fun e => ⟨rfl, e⟩⟩, ha.2⟩

/-- The close of a command leaves DEPART but for the verdict noted, the plans, the LANE slot, watch set and latch alone. -/
theorem finish_apart (s : State) : (finish s).plans = s.plans ∧ (finish s).line.lane = s.line.lane ∧
    (finish s).bay.departWatch = s.bay.departWatch ∧ (finish s).bay.latchClosed = s.bay.latchClosed ∧
    (finish s).depart = { s.depart with verdictSeen := s.verdict } := by
  have h := finish_closed s
  unfold ClosedFrom at h
  rw [h]
  exact ⟨rfl, rfl, rfl, rfl, rfl⟩

end Sys2Proof.Machine
end

