-- ==== Sys2Proof/Proofs/FallProofs.lean ====
section
namespace Sys2Proof.Machine

/-! ## Fall-backs and completions -/

variable {s t u : State} {h : Plan} {rest : List Plan}

/-- DEPART, the plan list and the LANE slot are as they were. -/
structure Standing (s t : State) : Prop where
  depart : t.depart = s.depart
  plans : t.plans = s.plans
  lane : t.line.lane = s.line.lane

theorem Apart.standing (h : Apart s t) : Standing s t := ⟨h.depart, h.plans, h.lane⟩

namespace Standing

theorem refl (s : State) : Standing s s := ⟨rfl, rfl, rfl⟩
theorem trans (h : Standing s t) (k : Standing t u) : Standing s u :=
  ⟨k.depart.trans h.depart, k.plans.trans h.plans, k.lane.trans h.lane⟩
theorem ite {c : Prop} [Decidable c] {a b : State} (ha : Standing s a) (hb : Standing s b) :
    Standing s (if c then a else b) := by
  split <;> assumption
theorem apart (h : Standing s t) (k : Apart t u) : Standing s u := h.trans k.standing
theorem lamp (h : Standing s t) (k : LampScope t u) : Standing s u := h.apart ((Apart.refl t).lamp k)
theorem updBay (h : Standing s t) (f : Bay → Bay) : Standing s (t.updBay f) := h.trans ⟨rfl, rfl, rfl⟩
theorem updLink (h : Standing s t) (f : Link → Link) : Standing s (t.updLink f) := h.trans ⟨rfl, rfl, rfl⟩
theorem updHeat (h : Standing s t) (f : Heat → Heat) : Standing s (t.updHeat f) := h.trans ⟨rfl, rfl, rfl⟩
theorem updShare (h : Standing s t) (f : Share → Share) : Standing s (t.updShare f) := h.trans ⟨rfl, rfl, rfl⟩
theorem updFaults (h : Standing s t) (f : Faults → Faults) : Standing s (t.updFaults f) := h.trans ⟨rfl, rfl, rfl⟩

theorem closeLatch (h : Standing s t) : Standing s t.closeLatch := ite (h.updBay _) ((h.updBay _).updBay _)
theorem latchCloseOrder (h : Standing s t) : Standing s t.latchCloseOrder := ite (h.updBay _).closeLatch (h.updBay _)
theorem latchHeadChange (h : Standing s t) : Standing s t.latchHeadChange := ite h.latchCloseOrder h
theorem linkResume (h : Standing s t) : Standing s t.linkResume := ite (h.updLink _) h

theorem selectClass (h : Standing s t) : Standing s t.selectClass := by
  unfold State.selectClass
  split
  · exact h
  · exact ite (h.updLink _) ((h.updLink _).updFaults _)

theorem heatHeadChange (h : Standing s t) : Standing s t.heatHeadChange := by
  have h1 := ite (c := t.heat.state = .off) h (h.apart ((Apart.refl t).heatLeave .off))
  exact (h1.updHeat fun h => { h with unreachableRecorded := false }).updShare fun x => { x with fresh := true }

theorem takeFigures (h : Standing s t) : Standing s t.takeFigures := by
  unfold State.takeFigures
  split
  · exact h
  · exact h.apart (((Apart.refl t).updHeat _).capCount _)

theorem lampHeadChange (h : Standing s t) : Standing s t.lampHeadChange := h.lamp (LampScope.refl t).lampHeadChange

end Standing

/-! ### A change of head (R11, R134, R135) -/

/-- What a change of head leaves in DEPART while the own lane state is FREE. -/
def Depart.left (d : Depart) : Depart :=
  { d.stopTimers with key := none, lanes := [], yielded := [], releaseBegun := false, inCharge := false }

/-- The list left empty by a change of head: DEPART is done with it (R134, R135, R146). -/
theorem headChanged_empty {id : Nat} (hl : s.plans.list = []) (ho : s.depart.own = .free) :
    (s.headChanged (some id)).plans = s.plans ∧ (s.headChanged (some id)).line.lane = s.line.lane ∧
      (s.headChanged (some id)).depart = s.depart.left := by
  have hplans : ({ s.plans with list := s.plans.list.map (demote (some id)) } : Plans) = s.plans := by
    rw [hl]; exact congrArg (fun l => ({ s.plans with list := l } : Plans)) hl.symm
  have nohead {t : State} (ht : t.plans = s.plans) : t.head = none := by rw [State.head, ht, hl]; rfl
  have hid : s.headId ≠ some id := by rw [State.headId, nohead rfl]; simp
  have ha : Standing s (s.updPlans fun p => { p with list := p.list.map (demote (some id)) }) := ⟨rfl, hplans, rfl⟩
  have hb := (((ha.updFaults (Faults.clearPresent · fun r => r.key == plan01)).updFaults
    (Faults.clearPresent · fun r => r.key == plan02)).heatHeadChange.takeFigures).lampHeadChange
  generalize hx : State.lampHeadChange _ = x at hb
  have hd : x.departHeadChange = (x.updDepart Depart.left).updBay fun b => { b with departWatch := none } := by
    rw [State.departHeadChange, if_pos (by rw [hb.depart]; exact ho)]
    rfl
  have hy := ((Standing.refl x.departHeadChange).latchHeadChange).selectClass
  generalize hyy : (x.departHeadChange.latchHeadChange).selectClass = y at hy
  have hyp : y.plans = s.plans := by rw [hy.plans, hd]; exact hb.plans
  have he : s.headChanged (some id) = y := by
    rw [State.headChanged, if_neg hid]
    unfold State.clearKey State.clearPresent
    dsimp only
    rw [hx, hyy, State.matchCoach, nohead hyp]
    dsimp only
    rw [State.evalOverdue, nohead hyp]
  rw [he, hy.lane, hy.depart, hd]
  exact ⟨hyp, hb.lane, congrArg Depart.left hb.depart⟩

/-! ### Completion (R146, R15) -/

/-- The departure of the only record completes: the list is empty, DEPART is done (R146). -/
theorem completeDeparture_last (hl : s.plans.list = [h]) :
    s.completeDeparture.plans = { s.plans with list := [], full := false } ∧
      s.completeDeparture.line.lane = s.line.lane ∧
      s.completeDeparture.depart =
        ({ s.depart.freed with key := none, lanes := [], releaseBegun := false, inCharge := false } : Depart).left := by
  have hid : s.headId = some h.data.id := by rw [State.headId, head_of_list hl]; rfl
  unfold State.completeDeparture
  rw [hid]
  dsimp only
  unfold State.removePlan
  dsimp only
  rw [show (s.updDepart _).headId = some h.data.id from hid]
  obtain ⟨h1, h2, h3⟩ := headChanged_empty (id := h.data.id)
    (s := (s.updDepart fun d => { d.freed with key := none, lanes := [], releaseBegun := false, inCharge := false }).updPlans
      fun p => { p with list := p.list.filter (·.data.id != h.data.id), full := false })
    (by rw [updPlans_plans, show (s.updDepart _).plans.list = [h] from hl]; simp) rfl
  rw [h1, h2, h3]
  refine ⟨?_, rfl, rfl⟩
  exact congrArg (fun l => ({ s.plans with list := l, full := false } : Plans))
    (by rw [show (s.updDepart _).plans.list = [h] from hl]; simp)

theorem atRest_of_empty (hl : s.plans.list = []) : s.AtRest := by
  have hh : s.head = none := by rw [State.head, hl]; rfl
  exact ⟨by rw [State.phaseIs, State.phase, hh]; rfl, by rw [hh]; rfl⟩

/-- A command that leaves the list empty leaves DEPART, the list and the LANE slot as they then are. -/
theorem conclude_empty (hl : s.plans.list = []) :
    (finish (settled s)).plans = s.plans ∧ (finish (settled s)).line.lane = s.line.lane ∧
      ∃ v, (finish (settled s)).depart = { s.depart with verdictSeen := v } := by
  have hk := (settled_atRest (P := fun a => a.plans = s.plans ∧ a.line.lane = s.line.lane ∧ a.depart = s.depart)
    (fun a b ⟨h1, h2, h3⟩ hab => ⟨?_, hab.lane.trans h2, hab.depart.trans h3⟩) (atRest_of_empty hl) ⟨rfl, rfl, rfl⟩).1
  · obtain ⟨h1, h2, h3⟩ := hk
    obtain ⟨k1, k2, -, -, k5⟩ := finish_apart (settled s)
    exact ⟨k1.trans h1, k2.trans h2, _, k5.trans (by rw [h3])⟩
  · obtain h | ⟨x, rest, p, hx, -⟩ := hab.plans
    · exact h.trans h1
    · rw [h1, hl] at hx; cases hx

/-! ### Fall-back with the lane held (R148) -/

/-- The latch after an order to close (R160). -/
theorem latchCloseOrder_form (s : State) : ∃ b, s.latchCloseOrder = { s with bay := b } ∧
    b.departWatch = s.bay.departWatch ∧
      (s.bay.inserted.level = true → b.latchClosed = true ∧ b.heldOpen = false) := by
  unfold State.latchCloseOrder
  dsimp only
  split
  · unfold State.closeLatch
    dsimp only
    split
    · exact ⟨_, rfl, rfl, fun _ => ⟨rfl, rfl⟩⟩
    · exact ⟨_, rfl, rfl, fun _ => ⟨rfl, rfl⟩⟩
  · rename_i hn
    exact ⟨_, rfl, rfl, fun k => absurd k hn⟩

theorem linkResume_form (s : State) : ∃ l, s.linkResume = { s with link := l } := by
  unfold State.linkResume
  split <;> exact ⟨_, rfl⟩

/-- A pinned head's phase falls to PREPARING or READY. -/
theorem setPhase_matched {p : Phase} (hl : s.plans.list = h :: rest) (hp : h.phase.pinned = true) (hm : p.matched = true) :
    Apart { s with plans := { s.plans with list := { h with phase := p } :: rest } } (s.setPhase p) := by
  cases p with
  | ready => rw [setPhase_on hl hp (by decide) rfl]; exact Apart.refl _
  | preparing =>
    have e : s.setPhase .preparing = ({ s with plans := { s.plans with list := { h with phase := .preparing } :: rest } } :
        State).lampOwed := by
      unfold State.setPhase
      dsimp only
      rw [phase_of_list hl, mapHead_eq hl]
      dsimp only
      rw [if_pos hp]
    rw [e]
    exact (Apart.refl _).lamp (LampScope.refl _).lampOwed
  | _ => cases hm

/-- What a fall-back of a departure that holds its lane leaves (R147, R148). -/
structure FallenBack (s t : State) (h : Plan) (rest : List Plan) (l : Nat) : Prop where
  list : ∃ p, p.matched = true ∧ t.plans.list = { h with phase := p } :: rest
  lane : t.line.lane = s.line.lane.write
    { action := .release, lane := l, key := s.depart.key.getD 0, inTransit := false, singleTry := false }
  depart : t.depart = { s.depart.freed with
    unlatchWait := none, clearance := none, releaseBegun := false, key := none, lanes := [] }
  watch : t.bay.departWatch = none
  latch : s.bay.inserted.level = true → t.bay.latchClosed = true ∧ t.bay.heldOpen = false

/-- The lane given up with its RELEASE (R148, log entry 66). -/
def State.laneReleased (s : State) (l : Nat) : State :=
  (s.writeLane { action := .release, lane := l, key := s.depart.key.getD 0, inTransit := false, singleTry := false }).updDepart
    Depart.freed

theorem giveUpLane_held {l : Nat} (ho : s.depart.own = .held) (hc : s.depart.current = some l) :
    s.giveUpLane = s.laneReleased l := by
  unfold State.giveUpLane
  dsimp only
  rw [ho, hc]
  rfl

/-- Steps 2 to 4 of R148 once the release has begun. -/
theorem fallPhase_begun (hl : s.plans.list = h :: rest) (hp : h.phase.pinned = true) (hb : s.depart.releaseBegun = true) :
    (∃ p, p.matched = true ∧ s.fallPhase.plans.list = { h with phase := p } :: rest) ∧
      s.fallPhase.line.lane = s.line.lane ∧
      s.fallPhase.depart =
        { s.depart with unlatchWait := none, clearance := none, releaseBegun := false, key := none, lanes := [] } ∧
      s.fallPhase.bay.departWatch = none ∧
      (s.bay.inserted.level = true → s.fallPhase.bay.latchClosed = true ∧ s.fallPhase.bay.heldOpen = false) := by
  obtain ⟨b, e1, k1, k2⟩ := latchCloseOrder_form s.discardWaits
  obtain ⟨x, e2⟩ := linkResume_form { s.discardWaits with bay := b }
  have matched (y : Bool) : (if y = true then Phase.ready else Phase.preparing).matched = true := by cases y <;> rfl
  unfold State.fallPhase
  dsimp only
  rw [if_pos hb, e1, e2]
  generalize hy : State.readyEntry _ = y
  have k := setPhase_matched (p := if y = true then .ready else .preparing) (s := State.updDepart
    { s.discardWaits with bay := b, link := x } fun d => { d with releaseBegun := false, key := none, lanes := [] })
    hl hp (matched y)
  refine ⟨⟨_, matched y, by rw [k.plans]⟩, k.lane, k.depart, k.watch.trans k1, fun hi => ?_⟩
  obtain ⟨h1, h2⟩ := k2 hi
  exact ⟨(k.latch h2).1.trans h1, (k.latch h2).2⟩

theorem fallBack_held {l : Nat} (hl : s.plans.list = h :: rest) (hp : h.phase.pinned = true) (ho : s.depart.own = .held)
    (hc : s.depart.current = some l) (hb : s.depart.releaseBegun = true) : FallenBack s (s.fallBack none) h rest l := by
  obtain ⟨k1, k2, k3, k4, k5⟩ := fallPhase_begun (s := s.laneReleased l) hl hp hb
  rw [State.fallBack, giveUpLane_held ho hc]
  exact ⟨k1, k2, k3, k4, k5⟩

/-- Judging and close leave a fall-back as it is, but for the head's readiness. -/
theorem FallenBack.concluded {l : Nat} (k : FallenBack s t h rest l) (hn : h.held = none) :
    ∃ u v, FallenBack s u h rest l ∧ finish (settled t) = finish u ∧ (finish u).depart = { u.depart with verdictSeen := v } := by
  obtain ⟨p, hp, hl⟩ := k.list
  have rest' : t.AtRest := by
    refine ⟨?_, by rw [head_of_list hl]; exact hn⟩
    rw [phaseIs_of_list hl]
    cases p <;> simp_all [Phase.departing, Phase.matched]
  refine ⟨settled t, _, (settled_atRest (P := fun a => FallenBack s a h rest l) (fun a b ha hab => ?_) rest' k).1, rfl,
    (finish_apart _).2.2.2.2⟩
  refine ⟨?_, hab.lane.trans ha.lane, hab.depart.trans ha.depart, hab.watch.trans ha.watch, fun hi => ?_⟩
  · obtain e | ⟨x, r, q, hx, -, hq, e⟩ := hab.plans
    · rw [e]; exact ha.list
    · obtain ⟨p, -, hl⟩ := ha.list
      rw [hx] at hl
      cases hl
      exact ⟨q, hq, by rw [e]⟩
  · obtain ⟨h1, h2⟩ := ha.latch hi
    obtain ⟨h3, h4⟩ := hab.latch h2
    exact ⟨h3.trans h1, h4⟩

end Sys2Proof.Machine

open Sys2Proof Sys2Proof.Machine

/-- Settles O60: the only departure complete, and nothing under watch stirs DEPART or the list again. -/
theorem transitCompletes : Obligations.TransitCompletes := by
  intro s h e l hr hl hp ho hc ht he
  have hrel : s.laneContent .release (s.depart.current.getD 0) =
      { action := .release, lane := l, key := s.depart.key.getD 0, inTransit := false, singleTry := false } := by
    rw [hc]; rfl
  obtain ⟨h1, h2, h3⟩ := completeDeparture_last (h := h)
    (s := s.writeLane { action := .release, lane := l, key := s.depart.key.getD 0, inTransit := false, singleTry := false }) hl
  have hover : s.transitOver = (s.writeLane
      { action := .release, lane := l, key := s.depart.key.getD 0, inTransit := false, singleTry := false }).completeDeparture := by
    rw [State.transitOver, hrel]
  obtain ⟨k1, k2, v, k3⟩ := conclude_empty (s := s.transitOver) (by rw [hover, h1])
  have hg : s.running = true ∧ s.inPhase .gone = true ∧ s.expired s.depart.transit = true :=
    ⟨hr, by rw [inPhase_of_list hl, hp]; rfl, by rw [ht]; exact expired_of_le he⟩
  refine ⟨finish (settled s.transitOver), if_pos hg, ?_⟩
  · rw [k1, k2, k3, hover, h1, h2, h3]
    exact ⟨by rw [finish_stable, settled_stable, stable_completeDeparture]; rfl, rfl, rfl, rfl, rfl, rfl, rfl, rfl, rfl, rfl, rfl⟩

/-- Settles O59: the three ways back, and what judging leaves of them. -/
theorem departureFallsBack : Obligations.DepartureFallsBack := by
  intro c s h rest e l hr hl hn ho hc hb he hway
  have done {w t : State} (k : FallenBack w t h rest l) (hw : w.line = s.line) (hd : w.depart = s.depart)
      (hi : w.bay.inserted = s.bay.inserted) (hx : exec c s = conclude t) (hs : t.stable =
        (if c = .departRequestPress then s.turn .departRequest else s).stable) :
      ∃ t, exec c s = .next t ∧
        t.stable = (if c = .departRequestPress then s.turn .departRequest else s).stable ∧
        t.line.lane = s.line.lane.write
          { action := .release, lane := l, key := s.depart.key.getD 0, inTransit := false, singleTry := false } ∧
        t.depart.own = .free ∧ t.depart.current = none ∧ t.depart.key = none ∧ t.depart.lanes = [] ∧
        t.depart.releaseBegun = false ∧ t.depart.unlatchWait = none ∧ t.depart.clearance = none ∧
        t.depart.lastRefusal = s.depart.lastRefusal ∧ t.bay.departWatch = none ∧
        (s.bay.inserted.level = true → t.bay.latchClosed = true) ∧
        (t.phase = some .preparing ∨ t.phase = some .ready) := by
    obtain ⟨u, v, ku, hu, hv⟩ := k.concluded hn
    obtain ⟨k1, k2, k3, k4, -⟩ := finish_apart u
    obtain ⟨p, hp, hlist⟩ := ku.list
    refine ⟨finish (settled t), hx, by rw [finish_stable, settled_stable, hs], ?_⟩
    rw [hu, k2, hv, k3, k4, ku.lane, ku.depart, ku.watch, hw, hd]
    refine ⟨rfl, rfl, rfl, rfl, rfl, rfl, rfl, rfl, rfl, rfl, fun hin => (ku.latch (by rw [hi]; exact hin)).1, ?_⟩
    rw [phase_of_list (s := finish u) (by rw [k1]; exact hlist)]
    cases p <;> simp_all [Phase.matched]
  obtain ⟨rfl, hp, hw⟩ | ⟨rfl, hp, hw⟩ | ⟨rfl, hp, ht, hraw⟩ := hway
  · refine done (fallBack_held (s := s.writeFault bay01 .advisory) hl (by rw [hp]; rfl) ho hc hb) rfl rfl rfl (if_pos ?_) ?_
    · exact ⟨hr, by rw [inPhase_of_list hl, hp]; rfl, by rw [hw]; exact expired_of_le he⟩
    · rw [if_neg (by decide)]; simp
  · refine done (fallBack_held hl (by rw [hp]; rfl) ho hc hb) rfl rfl rfl (if_pos ?_) ?_
    · exact ⟨hr, by rw [inPhase_of_list hl, hp]; rfl, by rw [hw]; exact expired_of_le he⟩
    · rw [if_neg (by decide)]; simp
  · have hpin : h.phase.pinned = true := by rcases hp with hp | hp <;> rw [hp] <;> rfl
    refine done (fallBack_held (s := s.turn .departRequest) hl hpin ho hc hb) rfl rfl rfl ?_ ?_
    · have hpress : (s.turn .departRequest).pressed = (s.turn .departRequest).fallBack none := by
        rw [State.pressed, show (s.turn .departRequest).phase = some h.phase from phase_of_list hl]
        rcases hp with hp | hp <;> rw [hp]
      exact (if_pos ⟨changeDue_of_turned ht, hraw⟩).trans ((if_pos hr).trans (congrArg conclude hpress))
    · rw [if_pos rfl]; simp

end

