-- ==== Sys2Proof/Proofs/LaneTakes.lean ====
section
namespace Sys2Proof.Machine

/-! ## VIEW: LANE notices -/

variable {s t : State} {p lane : Nat} {n : LanePayload}

/-- DEPART has nothing to do with a lane that is not its current one (R141, R151). -/
theorem laneHeard_other {held transit : Bool} {key : Nat} (h : s.depart.current ≠ some lane) :
    s.laneHeard lane held transit key p = s := if_neg h

theorem forcedRelease_other (h : s.depart.current ≠ some lane) : s.forcedRelease lane = s := if_neg h

theorem laneOf_none {v : View} (h : v.entry p = none) : v.laneOf p = none := by rw [View.laneOf, h]; rfl

/-- Of the registers that other blocks leave alone, a peer's LANE notice gives the view. -/
theorem stable_takeLane_peer (h : p ≠ 0) : (s.takeLane p n).stable = (s.viewLane p n).stable := by
  unfold State.takeLane
  rw [if_neg h]
  dsimp only
  (repeat' split) <;> simp

/-- VIEW alone takes the notice while DEPART neither has the lane as its current one nor waits on one (R28, R30). -/
theorem takeLane_peer (h : p ≠ 0) (hc : s.depart.current ≠ some n.lane)
    (hw : s.searchWaits = false ∨ s.view.laneOf p = none) (hv : (s.viewLane p n) = { s with view := (s.viewLane p n).view }) :
    s.takeLane p n = s.viewLane p n := by
  have hd : (s.viewLane p n).depart = s.depart := by rw [hv]
  have waits : (s.viewLane p n).searchWaits = s.searchWaits := by rw [hv]; rfl
  unfold State.takeLane
  rw [if_neg h]
  dsimp only
  have told : (match s.view.laneOf p with
      | some l => if (s.viewLane p n).view.laneOf p = some l then s.viewLane p n else (s.viewLane p n).lanesLeft [l]
      | none => s.viewLane p n) = s.viewLane p n := by
    obtain hw | hw := hw
    · split
      · rw [lanesLeft_idle (waits.trans hw)]; exact ite_self _
      · rfl
    · rw [hw]
  split
  · exact told
  · refine (congrArg (fun t : State => t.laneHeard n.lane (n.action == 1) n.inTransit n.key p) told).trans ?_
    exact laneHeard_other (by rw [hd]; exact hc)

/-! ### What VIEW does with the notice (R28) -/

theorem viewLane_outside (h : n.lane ∉ s.conf.lanes) :
    s.viewLane p n = { s with view := s.view.change p fun e => { e with lane := none } } := by
  rw [State.viewLane, if_pos (by simpa using h)]; rfl

theorem viewLane_release (h : n.lane ∈ s.conf.lanes) (ha : n.action = 2) :
    s.viewLane p n = { s with view := s.view.change p fun e =>
      { e with lastHeard := s.now, lane := e.lane.filter fun x => x.lane != n.lane } } := by
  have hf : ∀ e : Entry, ({ e with
      lastHeard := s.now,
      lane := match e.lane with
        | some r => if r.lane = n.lane then none else some r
        | none => none } : Entry) = { e with lastHeard := s.now, lane := e.lane.filter fun x => x.lane != n.lane } := by
    intro e
    cases e.lane with
    | none => rfl
    | some r => by_cases hr : r.lane = n.lane <;> simp [hr, Option.filter]
  rw [State.viewLane, if_neg (by simpa using h), if_pos ha]
  exact congrArg (fun f => s.updView fun v => v.change p f) (funext hf)

theorem viewLane_known (h : n.lane ∈ s.conf.lanes) (ha : n.action ≠ 2) {e : Entry} (he : s.view.entry p = some e) :
    s.viewLane p n = { s with view := s.view.change p fun e =>
      { e with lane := some { lane := n.lane, held := n.action == 1, key := n.key, stamp := s.now }, lastHeard := s.now } } := by
  rw [State.viewLane, if_neg (by simpa using h), if_neg ha]
  simp only [State.takeLaneRecord, he]
  rfl

theorem viewLane_new (h : n.lane ∈ s.conf.lanes) (ha : n.action ≠ 2) (he : s.view.entry p = none) {es : List Entry}
    (hm : makeRoom s.ownKey s.view.entries = some es) :
    s.viewLane p n = { s with view := { s.view with entries := es ++
      [{ station := p, lastHeard := s.now, demand := none,
         lane := some { lane := n.lane, held := n.action == 1, key := n.key, stamp := s.now } }] } } := by
  rw [State.viewLane, if_neg (by simpa using h), if_neg ha]
  simp only [State.takeLaneRecord, he, hm]
  rfl

theorem viewLane_refused (h : n.lane ∈ s.conf.lanes) (ha : n.action ≠ 2) (he : s.view.entry p = none)
    (hm : makeRoom s.ownKey s.view.entries = none) :
    s.viewLane p n = { s with view := { s.view with
      full := some (s.now + 60000),
      contested := (s.view.contested.filter fun m => m.lane != n.lane) ++ [{ lane := n.lane, expiry := s.now + 40000 }] } } := by
  rw [State.viewLane, if_neg (by simpa using h), if_neg ha]
  simp only [State.takeLaneRecord, he, hm]
  rfl

/-- A RELEASE of station 0 in the view (R29). -/
theorem viewRelease_eq (h : lane ∈ s.conf.lanes) : s.viewRelease lane =
    { s with view := { s.view with
      contested := s.view.contested.filter fun m => m.lane != lane,
      entries := s.view.entries.map fun e => { e with lane := e.lane.filter fun x => x.lane != lane } } } := by
  have hf : ∀ e : Entry, (match e.lane with
      | some r => if r.lane = lane then { e with lane := none } else e
      | none => e) = { e with lane := e.lane.filter fun x => x.lane != lane } := by
    intro e
    obtain ⟨st, lh, d, l⟩ := e
    cases l with
    | none => rfl
    | some r => by_cases hr : r.lane = lane <;> simp [hr, Option.filter]
  rw [State.viewRelease, if_pos (by simpa using h)]
  exact congrArg (fun f => s.updView fun v =>
    { v with contested := v.contested.filter fun m => m.lane != lane, entries := v.entries.map f }) (funext hf)

theorem stable_takeLane_zero (ha : n.action = 2) : (s.takeLane 0 n).stable = (s.viewRelease n.lane).stable := by
  unfold State.takeLane
  rw [if_pos rfl, if_pos ha]
  dsimp only
  (repeat' split) <;> simp

theorem takeLane_zero (ha : n.action = 2) (hc : s.depart.current ≠ some n.lane) (hw : s.searchWaits = false)
    (hl : n.lane ∈ s.conf.lanes) : s.takeLane 0 n = s.viewRelease n.lane := by
  have hv := viewRelease_eq (s := s) hl
  have hd : (s.viewRelease n.lane).depart = s.depart := by rw [hv]
  have waits : (s.viewRelease n.lane).searchWaits = false := by rw [hv]; exact hw
  unfold State.takeLane
  rw [if_pos rfl, if_pos ha]
  dsimp only
  rw [lanesLeft_idle waits, ite_self, markLeft_idle waits, ite_self]
  exact forcedRelease_other (by rw [hd]; exact hc)

end Sys2Proof.Machine

open Sys2Proof Sys2Proof.Machine

/-- Settles O24: R28's rows, R33's room, and R29. -/
theorem laneTaken : Obligations.LaneTaken := by
  refine ⟨fun sender target payload s hh h0 => ?_, fun target payload s hh => ?_⟩
  · have hp : sender.toNat ≠ 0 := byte_toNat_ne_zero h0
    have hd : dispatched 1 sender.toNat payload = true := by simp [dispatched, hp]
    intro n p v r has view
    have own (t : State) (hs : s.counted.Settled) (ht : t = settled s.counted ∨ t = s.counted) : t = s.counted := by
      obtain rfl | rfl := ht
      · exact settled_counted hs
      · rfl
    have entry : has = false → s.view.entry p = none := fun h => entry_none fun e he hs => by
      have := List.any_eq_false.1 h e he
      simp [hs] at this
    have seen (t : State) (ht : SeenFrom s t)
        (h : n.lane ∉ s.conf.lanes ∨ n.action = 2 ∨ has = true ∨ s.view.entries.length < 48) :
        t.viewLane p n = { t with view := view } := by
      have hv : t.view = s.view := ht.view
      by_cases hl : n.lane ∈ s.conf.lanes
      · have hl' : n.lane ∈ t.conf.lanes := by rw [ht.conf]; exact hl
        by_cases ha : n.action = 2
        · rw [viewLane_release hl' ha, hv, ht.now]
          exact congrArg (fun v => ({ t with view := v } : State)) ((if_neg (not_not.2 hl)).trans (if_pos ha)).symm
        · by_cases hhas : has = true
          · obtain ⟨e, he⟩ := entry_some (v := s.view) (p := p) (by simpa [has] using hhas)
            rw [viewLane_known hl' ha (by rw [hv]; exact he), hv, ht.now]
            exact congrArg (fun v => ({ t with view := v } : State))
              ((if_neg (not_not.2 hl)).trans ((if_neg ha).trans (if_pos hhas))).symm
          · have hlen : s.view.entries.length < 48 := ((h.resolve_left (not_not.2 hl)).resolve_left ha).resolve_left hhas
            rw [viewLane_new hl' ha (by rw [hv]; exact entry (Bool.eq_false_iff.2 hhas))
              (by rw [hv]; exact makeRoom_of_short hlen), hv, ht.now]
            exact congrArg (fun v => ({ t with view := v } : State))
              ((if_neg (not_not.2 hl)).trans ((if_neg ha).trans (if_neg hhas))).symm
      · rw [viewLane_outside (by rw [ht.conf]; exact hl), hv]
        exact congrArg (fun v => ({ t with view := v } : State)) (if_pos hl).symm
    refine ⟨fun h => ?_, fun hl ha hn hlen hs x hx hc => ?_, fun hl ha hn hlen hs hx hc => ?_⟩
    · have stable : ((settled s.counted).takeLane p n).stable = ({ v with view := view } : State).stable := by
        rw [stable_takeLane_peer hp, seen _ (seenFrom_settled s) h]
        exact congrArg (fun x : Stable => { x with view := view }) (settled_stable s.counted)
      have alone (hc : s.depart.current ≠ some n.lane ∧ v.searchWaits = false) :
          s.counted.takeLane p n = { v with view := view } := by
        have e := seen _ (seenFrom_counted s) h
        exact (takeLane_peer (s := s.counted) hp hc.1 (.inl hc.2) (by rw [e])).trans e
      obtain ⟨t, h1, h2, h3⟩ := hears_concludes (fun t => t.takeLane p n) hh hd stable alone
      exact ⟨t, h1, h2, fun hc hw hv hu => h3 ⟨hc, hw⟩ hv hu⟩
    · refine doesAfter_view (fun t => t.takeLane p n) hh hd fun t hts ht => ?_
      obtain rfl := own t hs hts
      have e := viewLane_new (s := s.counted) (p := p) (n := n) hl (by omega) (entry hn) (makeRoom_of_evicted hlen hx)
      exact (takeLane_peer (s := s.counted) hp hc (.inr (laneOf_none (entry hn))) (by rw [e])).trans e
    · refine doesAfter_view (fun t => t.takeLane p n) hh hd fun t hts ht => ?_
      obtain rfl := own t hs hts
      have e := viewLane_refused (s := s.counted) (p := p) (n := n) hl (by omega) (entry hn) (makeRoom_of_noneEvicted hlen hx)
      exact (takeLane_peer (s := s.counted) hp hc (.inr (laneOf_none (entry hn))) (by rw [e])).trans e
  · intro n v u ha hl
    have hd : dispatched 1 (0 : Byte).toNat payload = true := by simp [dispatched, n, ha]
    have seen (t : State) (ht : SeenFrom s t) : t.viewRelease n.lane = { t with view := u.view } := by
      rw [viewRelease_eq (by rw [ht.conf]; exact hl), ht.view]
    have stable : ((settled s.counted).takeLane 0 n).stable = u.stable := by
      rw [stable_takeLane_zero ha, seen _ (seenFrom_settled s)]
      exact congrArg (fun x : Stable => { x with view := u.view }) (settled_stable s.counted)
    have alone (hc : s.depart.current ≠ some n.lane ∧ v.searchWaits = false) : s.counted.takeLane 0 n = u :=
      (takeLane_zero (s := s.counted) ha hc.1 hc.2 hl).trans (seen _ (seenFrom_counted s))
    obtain ⟨t, h1, h2, h3⟩ := hears_concludes (fun t => t.takeLane 0 n) hh hd stable alone
    exact ⟨t, h1, h2, fun hc hw hv hu => h3 ⟨hc, hw⟩ hv hu⟩

end

