-- ==== Sys2Proof/Proofs/LaneJudged.lean ====
section
namespace Sys2Proof.Machine

/-! ## DEPART: what it does on LANE notices (R141, R142, R151, R152, R140) -/

variable {s t u : State} {p lane : Nat} {n : LanePayload} {h : Plan} {rest : List Plan}

/-- The effect of a notice that reaches its block while nothing under watch is called for. -/
theorem does_heardBy {kind : Nat} {sender target : Byte} {payload : List Byte} (take : State → State)
    (hh : s.Hears kind sender target payload) (hd : dispatched kind sender.toNat payload = true) (hs : s.counted.Settled)
    (e : take s.counted = u) :
    Does (if s.running then conclude (s.receive kind sender target payload take) else .next s) u :=
  does_of (by rw [conclude_of_hears take hh hd, settled_counted hs, e])

/-- The view with a peer's claim or hold of a lane (R28). -/
def State.laneNoted (s : State) (p : Nat) (n : LanePayload) : State :=
  { s with view := s.view.change p fun e =>
    { e with lane := some { lane := n.lane, held := n.action == 1, key := n.key, stamp := s.now }, lastHeard := s.now } }

/-- No search waits while a lane is current (R140). -/
theorem searchWaits_current (hc : s.depart.current = some lane) : s.searchWaits = false := by
  simp [State.searchWaits, hc]

/-- A claim or hold of a known peer is noted, then heard (R28, R141, R151). -/
theorem takeLane_noted (hp : p ≠ 0) (hl : n.lane ∈ s.conf.lanes) (ha : n.action < 2) {e : Entry}
    (he : s.view.entry p = some e) (hc : s.depart.current = some n.lane) :
    s.takeLane p n = (s.laneNoted p n).laneHeard n.lane (n.action == 1) n.inTransit n.key p := by
  have hv : s.viewLane p n = s.laneNoted p n := viewLane_known hl (by omega) he
  unfold State.takeLane
  rw [if_neg hp, hv, if_neg (by omega)]
  have told : (match s.view.laneOf p with
      | some l => if (s.laneNoted p n).view.laneOf p = some l then s.laneNoted p n else (s.laneNoted p n).lanesLeft [l]
      | none => s.laneNoted p n) = s.laneNoted p n := by
    split
    · rw [lanesLeft_idle (searchWaits_current (s := s.laneNoted p n) hc)]; exact ite_self _
    · rfl
  exact congrArg (fun t : State => t.laneHeard n.lane (n.action == 1) n.inTransit n.key p) told

/-- A better key: the earlier departure, the lower station for equal ones (9.5). -/
theorem ahead_own (key p : Nat) : LaneKey.ahead (key, p) s.ownLaneKey = true ↔
    key < s.depart.key.getD 0 ∨ key = s.depart.key.getD 0 ∧ p < s.conf.station := by
  rw [LaneKey.ahead, State.ownLaneKey, Bool.or_eq_true, Bool.and_eq_true]
  exact or_congr decide_eq_true_iff (and_congr decide_eq_true_iff decide_eq_true_iff)

theorem stands_iff (held : Bool) (key p : Nat) : s.stands held key p = true ↔
    held = true ∨ key < s.depart.key.getD 0 ∨ key = s.depart.key.getD 0 ∧ p < s.conf.station := by
  rw [State.stands, Bool.or_eq_true, ahead_own]

theorem laneTaken_held {e : Entry} {r : LaneRec} (he : e ∈ s.view.entries) (hr : e.lane = some r) (hl : r.lane = lane)
    (hh : r.held = true) : s.laneTaken lane = true :=
  List.any_eq_true.2 ⟨e, he, by simp [hr, hl, State.stands, hh]⟩

theorem laneRound_taken {l : Nat} {ls : List Nat} (hc : s.isContested l = false) (ht : s.laneTaken l = true) :
    State.laneRound (l :: ls) s = State.laneRound ls (s.updDepart fun d => { d with yielded := joinYielded d.yielded l }) := by
  rw [State.laneRound, hc, ht]; rfl

/-! ### A claim heard in the own claim (R141, R142) -/

theorem laneHeard_claiming {held transit : Bool} {key : Nat} (hc : s.depart.current = some lane)
    (ho : s.depart.own = .claiming) (hs : s.stands held key p = true) : s.laneHeard lane held transit key p =
      if s.depart.claimSent then
        { s with
          line := { s.line with
            lane := s.line.lane.write
              { action := .release, lane := lane, key := s.depart.key.getD 0, inTransit := false, singleTry := false } },
          depart := { s.depart with own := .yielded, claimSent := false, holdOff := none } }
      else s.emptyLane.yieldOn lane := by
  rw [State.laneHeard, if_pos hc, ho]
  dsimp only
  rw [if_pos hs]
  rfl

theorem laneHeard_worse {held transit : Bool} {key : Nat} (ho : s.depart.own = .claiming)
    (hs : s.stands held key p = false) : s.laneHeard lane held transit key p = s := by
  unfold State.laneHeard
  split
  · rw [ho, hs]; rfl
  · rfl

theorem laneHeard_held {held transit : Bool} {key : Nat} (hc : s.depart.current = some lane) (ho : s.depart.own = .held) :
    s.laneHeard lane held transit key p = if held then s.heldConflict key p transit else s := by
  rw [State.laneHeard, if_pos hc, ho]

/-- The lane lost in RELEASING or CLEARED, before the search begins again (R151, R152). -/
def State.laneLost (s : State) (h : Plan) (rest : List Plan) : State :=
  { s with
    plans := { s.plans with list := { h with phase := .claiming } :: rest },
    line := { s.line with lane := { state := .empty, content := none, written := true } },
    depart := { s.depart.freed with unlatchWait := none, clearance := none, own := .listening },
    bay := { s.bay with departWatch := none } }

theorem loseLane_eq (hl : s.plans.list = h :: rest) (hp : h.phase.pinned = true) :
    s.loseLane = (s.laneLost h rest).startRound := by
  unfold State.loseLane
  dsimp only
  rw [setPhase_on (by exact hl) hp (by decide) rfl]
  rfl

/-- The search over the only lane of the list, which the view keeps the station off: it waits (R140). -/
theorem startRound_taken (hls : s.depart.lanes = [lane]) (hm : ∀ m ∈ s.view.contested, m.lane ≠ lane) {e : Entry}
    {r : LaneRec} (he : e ∈ s.view.entries) (hr : e.lane = some r) (hl : r.lane = lane) (hh : r.held = true) :
    s.startRound = { s with depart := { s.depart with
      own := .yielded, current := none, yielded := [lane], claimSent := false, holdOff := none, claimRetry := none } } := by
  rw [State.startRound, hls, laneRound_taken (isContested_not (by exact hm)) (laneTaken_held (by exact he) hr hl hh)]
  rfl

/-- The search over the only lane of the list, free in the view: it is claimed (R140, R141). -/
theorem startRound_free (hls : s.depart.lanes = [lane]) (hm : ∀ m ∈ s.view.contested, m.lane ≠ lane)
    (hx : ∀ x ∈ s.view.entries, ∀ r, x.lane = some r → r.lane ≠ lane) : s.startRound =
    { s with
      line := { s.line with
        lane := s.line.lane.write
          { action := .claim, lane := lane, key := s.depart.key.getD 0, inTransit := false, singleTry := true } },
      depart := { s.depart with
        own := .claiming, current := some lane, yielded := [], claimSent := false, holdOff := none, claimRetry := none } } := by
  rw [State.startRound, hls, laneRound_free (s := s.updDepart _) (isContested_not (by exact hm))
    (laneTaken_not fun x hx' r hr hl => absurd hl (hx x hx' r hr))]
  rfl

/-- A HELD heard while the own lane is HELD and the departure not yet under way (R151). -/
theorem heldConflict_here {key : Nat} {transit : Bool} (hl : s.plans.list = h :: rest)
    (hp : h.phase = .releasing ∨ h.phase = .cleared) : s.heldConflict key p transit =
      if transit = true ∨ LaneKey.ahead (key, p) s.ownLaneKey = true then
        (if h.phase = .cleared then s.loseLane.updDepart fun d => { d with refusal := s.after Config.refusalShow }
          else s.loseLane)
      else s := by
  have hn : s.inTransit = false := by
    rw [State.inTransit, inPhase_of_list hl]
    rcases hp with hp | hp <;> rw [hp] <;> exact Bool.and_false _
  unfold State.heldConflict
  rw [hn, inPhase_of_list hl]
  simp only [Bool.false_eq_true, if_false, Bool.or_eq_true, beq_iff_eq]

theorem heldConflict_gone {key : Nat} {transit : Bool} (ho : s.depart.own = .held) (hp : s.phase = some .gone) :
    s.heldConflict key p transit = if transit then s.writeFault lane01 .advisory else s := by
  have hn : s.inTransit = true := by
    rw [State.inTransit, ho, State.inPhase, hp]; rfl
  unfold State.heldConflict
  rw [hn, if_pos rfl]

/-- The peer's noted record is in the view. -/
theorem laneNoted_entry {e : Entry} (he : s.view.entry p = some e) : ∃ x ∈ (s.laneNoted p n).view.entries,
    x.lane = some { lane := n.lane, held := n.action == 1, key := n.key, stamp := s.now } := by
  have hm := List.mem_of_find?_eq_some he
  have hs : e.station = p := by simpa using List.find?_some he
  exact ⟨_, List.mem_map.2 ⟨e, hm, rfl⟩, by rw [if_pos hs]⟩

/-- Records of another lane are the ones the view held before. -/
theorem laneNoted_free {l : Nat} (hl : l ≠ n.lane) (hx : ∀ x ∈ s.view.entries, x.station ≠ p → ∀ r, x.lane = some r → r.lane ≠ l) :
    ∀ x ∈ (s.laneNoted p n).view.entries, ∀ r, x.lane = some r → r.lane ≠ l := by
  intro x hm r hr
  obtain ⟨e, he, rfl⟩ := List.mem_map.1 hm
  by_cases hs : e.station = p
  · rw [if_pos hs] at hr
    cases hr
    exact fun k => hl k.symm
  · rw [if_neg hs] at hr
    exact hx e he hs r hr

/-- A lane yielded that is the last of the list: the search waits (R140, R141). -/
theorem yieldOn_last (hls : s.depart.lanes = [lane]) (hy : s.depart.yielded = []) : s.yieldOn lane =
    { s with depart := { s.depart with
      own := .yielded, current := none, yielded := [lane], claimSent := false, holdOff := none, claimRetry := none } } := by
  have hj : joinYielded s.depart.yielded lane = [lane] := by rw [hy]; rfl
  rw [State.yieldOn, hls, show lanesAfter [lane] lane = [] by simp [lanesAfter], State.laneRound]
  exact congrArg (fun y => ({ s with depart := { s.depart with
    own := .yielded, current := none, yielded := y, claimSent := false, holdOff := none, claimRetry := none } } : State)) hj

/-- A lane yielded, the other one of the list is free in the view (R140, R141). -/
theorem yieldOn_next {l : Nat} (hls : s.depart.lanes = [lane, l]) (hy : s.depart.yielded = [])
    (hm : ∀ m ∈ s.view.contested, m.lane ≠ l) (hx : ∀ x ∈ s.view.entries, ∀ r, x.lane = some r → r.lane ≠ l) :
    s.yieldOn lane =
    { s with
      line := { s.line with
        lane := s.line.lane.write
          { action := .claim, lane := l, key := s.depart.key.getD 0, inTransit := false, singleTry := true } },
      depart := { s.depart with
        own := .claiming, current := some l, yielded := [lane], claimSent := false, holdOff := none, claimRetry := none } } := by
  have hj : joinYielded s.depart.yielded lane = [lane] := by rw [hy]; rfl
  rw [State.yieldOn, hls, show lanesAfter [lane, l] lane = [l] by simp [lanesAfter],
    laneRound_free (s := s.updDepart _) (isContested_not (by exact hm))
      (laneTaken_not fun x hx' r hr hl => absurd hl (hx x hx' r hr))]
  exact congrArg (fun y => ({ s with
      line := { s.line with
        lane := s.line.lane.write
          { action := .claim, lane := l, key := s.depart.key.getD 0, inTransit := false, singleTry := true } },
      depart := { s.depart with
        own := .claiming, current := some l, yielded := y, claimSent := false, holdOff := none, claimRetry := none } } :
    State)) hj

/-- A RELEASE of station 0 wakes no search while none waits: DEPART takes it for its current lane (R29, R152). -/
theorem takeLane_forced (ha : n.action = 2) (hw : s.searchWaits = false) (hl : n.lane ∈ s.conf.lanes) :
    s.takeLane 0 n = (s.viewRelease n.lane).forcedRelease n.lane := by
  have waits : (s.viewRelease n.lane).searchWaits = false := by rw [viewRelease_eq hl]; exact hw
  unfold State.takeLane
  rw [if_pos rfl, if_pos ha]
  dsimp only
  rw [lanesLeft_idle waits, ite_self, markLeft_idle waits, ite_self]

/-- The claim dropped by a forced release, before the lane is claimed anew (R152). -/
theorem forcedRelease_claiming (hc : s.depart.current = some lane) (ho : s.depart.own = .claiming)
    (hp : s.inPhase .claiming = true) : s.forcedRelease lane =
      ({ s with
        line := { s.line with
          lane := if s.depart.claimSent then s.line.lane else { state := .empty, content := none, written := true } },
        depart := { s.depart with own := .listening, claimSent := false, holdOff := none, claimRetry := none } } :
        State).startRound := by
  rw [State.forcedRelease, if_pos hc, ho]
  dsimp only
  rw [if_pos hp]
  cases s.depart.claimSent <;> rfl

theorem forcedRelease_held (hc : s.depart.current = some lane) (ho : s.depart.own = .held) (hl : s.plans.list = h :: rest) :
    (h.phase = .gone → s.forcedRelease lane = s.emptyLane.completeDeparture) ∧
      (h.phase = .releasing ∨ h.phase = .cleared → s.forcedRelease lane = s.loseLane) := by
  rw [State.forcedRelease, if_pos hc, ho]
  dsimp only
  rw [inPhase_of_list hl, inPhase_of_list hl, inPhase_of_list hl]
  refine ⟨fun h => by rw [h]; rfl, fun h => ?_⟩
  rcases h with h | h <;> rw [h] <;> rfl

/-- The peer's record of a released lane has left the view (R28). -/
theorem laneOf_released {v : View} {now : Nat} {e : Entry} {r : LaneRec} (he : v.entry p = some e) (hr : e.lane = some r)
    (hl : r.lane = lane) :
    (v.change p fun e => { e with lastHeard := now, lane := e.lane.filter fun x => x.lane != lane }).laneOf p = none := by
  rw [View.laneOf, entry_change (fun e : Entry => { e with lastHeard := now, lane := e.lane.filter fun x => x.lane != lane })
    fun _ => rfl, he]
  simp [Option.filter, hr, hl]

end Sys2Proof.Machine

open Sys2Proof Sys2Proof.Machine

/-- Settles O25: claims and holds heard, forced releases, and a search that goes on. -/
theorem holdOffYields : Obligations.HoldOffYields := by
  refine ⟨fun sender target payload s e hh h0 => ?_, fun target payload s h rest hh => ?_,
    fun sender target payload s e r hh h0 => ?_⟩
  · have hp : sender.toNat ≠ 0 := byte_toNat_ne_zero h0
    have hd : dispatched 1 sender.toNat payload = true := by simp [dispatched, hp]
    intro n v better seen emptied free o hv hl ha he hc
    have does {u : State} (e : (s.counted.laneNoted sender.toNat n).laneHeard n.lane (n.action == 1) n.inTransit n.key sender.toNat = u) :
        Does o u :=
      does_heardBy (fun t => t.takeLane sender.toNat (lanePayload payload)) hh hd hv
        ((takeLane_noted (s := s.counted) hp hl ha he hc).trans e)
    have stands : n.action = 1 ∨ better → seen.stands (n.action == 1) n.key sender.toNat = true := fun h =>
      (stands_iff _ _ _).2 (h.imp beq_iff_eq.2 id)
    have stands_not (h0 : n.action = 0) (h : ¬better) : seen.stands (n.action == 1) n.key sender.toNat = false :=
      Bool.eq_false_iff.2 fun k => ((stands_iff _ _ _).1 k).elim (by rw [h0]; decide) h
    refine ⟨fun ho hb => ⟨fun hsent => ?_, fun hsent hy => ⟨fun hls => ?_, fun l hls hne hfree => ?_⟩⟩, fun ho h0 hb => ?_,
      fun ho h0 => ?_, fun ho h1 => ⟨fun hg => ⟨fun ht => ?_, fun ht => ?_⟩, fun h rest hlist hph => ⟨fun ht hb => ?_, fun ht hls hm => ?_⟩⟩⟩
    · exact does ((laneHeard_claiming (s := seen) hc ho (stands hb)).trans (if_pos hsent))
    · refine does ((laneHeard_claiming (s := seen) hc ho (stands hb)).trans ((if_neg (Bool.eq_false_iff.1 hsent)).trans ?_))
      refine (yieldOn_last (s := seen.emptyLane) hls hy).trans ?_
      exact congrArg (fun b => ({ seen with
        line := emptied v.line,
        depart := { s.depart with
          own := .yielded, current := none, yielded := [n.lane], claimSent := b, holdOff := none, claimRetry := none } } :
        State)) hsent.symm
    · refine does ((laneHeard_claiming (s := seen) hc ho (stands hb)).trans ((if_neg (Bool.eq_false_iff.1 hsent)).trans ?_))
      refine (yieldOn_next (s := seen.emptyLane) hls hy hfree.1 (laneNoted_free (s := s.counted) hne hfree.2)).trans ?_
      refine congrArg₂ (fun b w => ({ seen with
        line := { emptied v.line with
          lane := (emptied v.line).lane.write
            { action := .claim, lane := l, key := s.depart.key.getD 0, inTransit := false, singleTry := true } },
        depart := { s.depart with
          own := w, current := some l, yielded := [n.lane], claimSent := b, holdOff := none, claimRetry := none } } :
        State)) hsent.symm ho.symm
    · exact does (laneHeard_worse (s := seen) ho (stands_not h0 hb))
    · refine does ((laneHeard_held (s := seen) hc ho).trans ?_)
      rw [h0]; rfl
    · refine does ((laneHeard_held (s := seen) hc ho).trans ?_)
      rw [h1, if_pos (by rfl), heldConflict_gone (s := seen) ho hg, ht]
      rfl
    · refine does ((laneHeard_held (s := seen) hc ho).trans ?_)
      rw [h1, if_pos (by rfl), heldConflict_gone (s := seen) ho hg, ht]
      rfl
    · refine does ((laneHeard_held (s := seen) hc ho).trans ?_)
      rw [h1, if_pos (by rfl), heldConflict_here (s := seen) hlist hph, if_neg]
      rintro (k | k)
      · rw [ht] at k; cases k
      · exact hb ((ahead_own (s := seen) _ _).1 k)
    · have hpin : h.phase.pinned = true := by rcases hph with hph | hph <;> rw [hph] <;> rfl
      obtain ⟨x, hx, hr⟩ := laneNoted_entry (n := n) he
      have hlost : seen.loseLane = { seen.laneLost h rest with depart := { (seen.laneLost h rest).depart with
          own := .yielded, current := none, yielded := [n.lane], claimSent := false, holdOff := none, claimRetry := none } } :=
        (loseLane_eq (s := seen) hlist hpin).trans
          (startRound_taken (s := seen.laneLost h rest) hls hm hx hr rfl (by rw [h1]; rfl))
      refine does ((laneHeard_held (s := seen) hc ho).trans ?_)
      rw [h1, if_pos (by rfl), heldConflict_here (s := seen) hlist hph,
        if_pos (ht.imp id (ahead_own (s := seen) _ _).2), hlost]
      by_cases hcl : h.phase = .cleared
      · rw [if_pos hcl, if_pos hcl]; rfl
      · rw [if_neg hcl, if_neg hcl]; rfl
  · have hd : dispatched 1 (0 : Byte).toNat payload = true ∨ (lanePayload payload).action ≠ 2 := by
      by_cases ha : (lanePayload payload).action = 2
      · exact .inl (by simp [dispatched, ha])
      · exact .inr ha
    intro n v empty claim seen anew o hv ha hl hc hlist
    have hd := hd.resolve_right (not_not.2 ha)
    have hseen : s.counted.viewRelease n.lane = seen := viewRelease_eq (s := s.counted) hl
    have take : s.counted.takeLane 0 n = seen.forcedRelease n.lane := by
      rw [takeLane_forced (s := s.counted) ha (searchWaits_current (s := s.counted) hc) hl, hseen]
    have does {u : State} (e : seen.forcedRelease n.lane = u) : Does o u :=
      does_heardBy (fun t => t.takeLane 0 (lanePayload payload)) hh hd hv (take.trans e)
    have hm : ∀ m ∈ seen.view.contested, m.lane ≠ n.lane := fun m hm => by
      simpa using (List.mem_filter.1 hm).2
    have hx : ∀ x ∈ seen.view.entries, ∀ r, x.lane = some r → r.lane ≠ n.lane := fun x hx r hr => by
      obtain ⟨e, -, rfl⟩ := List.mem_map.1 hx
      simpa using (Option.filter_eq_some_iff.1 hr).2
    refine ⟨fun ho => does ?_, fun ho hp hls => does ?_, fun ho hp hls => does ?_, fun ho hp hrest => ?_⟩
    · rw [State.forcedRelease, if_pos (by exact hc)]
      rcases ho with ho | ho <;> rw [show seen.depart.own = _ from ho]
    · rw [forcedRelease_claiming (s := seen) hc ho (by rw [inPhase_of_list (s := seen) hlist, hp]; rfl)]
      exact startRound_free hls hm hx
    · have hpin : h.phase.pinned = true := by rcases hp with hp | hp <;> rw [hp] <;> rfl
      rw [(forcedRelease_held (s := seen) hc ho hlist).2 hp, loseLane_eq (s := seen) hlist hpin]
      exact startRound_free (s := seen.laneLost h rest) hls hm hx
    · have e := (forcedRelease_held (s := seen) hc ho hlist).1 hp
      obtain ⟨h1, h2, h3⟩ := completeDeparture_last (s := seen.emptyLane) (h := h) (by rw [← hrest]; exact hlist)
      obtain ⟨k1, k2, w, k3⟩ := conclude_empty (s := seen.forcedRelease n.lane) (by rw [e, h1])
      refine ⟨finish (settled (seen.forcedRelease n.lane)), ?_, ?_⟩
      · have ho := conclude_of_hears (fun t => t.takeLane 0 (lanePayload payload)) hh hd
        rw [settled_counted hv] at ho
        exact ho.trans (congrArg conclude take)
      · rw [k1, k2, k3, e, h1, h2, h3]
        exact ⟨by rw [finish_stable, settled_stable, stable_completeDeparture]; rfl, rfl, rfl, rfl, rfl, rfl, rfl, rfl, rfl, rfl⟩
  · have hp : sender.toNat ≠ 0 := byte_toNat_ne_zero h0
    have hd : dispatched 1 sender.toNat payload = true := by simp [dispatched, hp]
    intro n v hv ha hl he hr hrl hph ho hc hy hls hm hx
    have hview := viewLane_release (s := s.counted) (p := sender.toNat) hl ha
    have before : s.view.laneOf sender.toNat = some n.lane := by
      rw [View.laneOf, he, Option.bind_some, hr, Option.map_some, hrl]
    have after : (s.counted.viewLane sender.toNat n).view.laneOf sender.toNat = none := by
      rw [hview]
      exact laneOf_released he hr hrl
    have waits : (s.counted.viewLane sender.toNat n).searchWaits = true := by
      rw [hview]
      simp only [State.searchWaits, Bool.and_eq_true, beq_iff_eq, Option.isNone_iff_eq_none]
      exact ⟨⟨beq_iff_eq.2 hph, ho⟩, hc⟩
    refine does_heardBy (fun t => t.takeLane sender.toNat (lanePayload payload)) hh hd hv ?_
    have take : s.counted.takeLane sender.toNat n = (s.counted.viewLane sender.toNat n).startRound := by
      unfold State.takeLane
      rw [if_neg hp, if_pos ha]
      rw [show s.counted.view.laneOf sender.toNat = some n.lane from before]
      simp only
      rw [after, if_neg (by simp), State.lanesLeft, waits, if_pos]
      rw [hview]
      simpa using hy
    refine take.trans ?_
    rw [hview]
    refine (startRound_free (by exact hls) (by exact hm) ?_).trans rfl
    intro x hx' q hq
    obtain ⟨y, hym, rfl⟩ := List.mem_map.1 hx'
    by_cases hs : y.station = sender.toNat
    · rw [if_pos hs] at hq
      simpa using (Option.filter_eq_some_iff.1 hq).2
    · rw [if_neg hs] at hq
      exact hx y hym hs q hq

end

