-- ==== Sys2Proof/Proofs/ContactProofs.lean ====
section
namespace Sys2Proof.Machine

/-! ## BAY: the watched contacts turn (R155, R159 to R161) -/

variable {s t u : State} {h : Plan} {rest : List Plan} {i : Input}

/-! ### What the start of an exchange reads -/

theorem begun_form (s : State) : s.begun = { s with link := s.begun.link } := by
  unfold State.begun State.startExchange
  split
  · split <;> rfl
  · rfl

/-- The state of a link at a time, all else as at reset. -/
def Link.alone (l : Link) (c : Option Configuration) (k : Clock) : State := { State.reset with link := l, cfg := c, clock := k }

theorem begun_link_alone (s : State) : s.begun.link = (s.link.alone s.cfg s.clock).begun.link := by
  have hd : (s.link.alone s.cfg s.clock).exchangeDue = s.exchangeDue := rfl
  unfold State.begun
  rw [hd]
  by_cases h : s.exchangeDue = true
  · rw [if_pos h, if_pos h]
    unfold State.startExchange
    rw [show (s.link.alone s.cfg s.clock).link = s.link from rfl]
    cases s.link.queue <;> rfl
  · rw [if_neg h, if_neg h]; rfl

theorem begun_link_congr (hl : t.link = s.link) (hc : t.cfg = s.cfg) (hn : t.clock = s.clock) : t.begun.link = s.begun.link := by
  rw [begun_link_alone t, begun_link_alone s, hl, hc, hn]

/-- What leaves the link, the configuration and the clock alone commutes with the start of an exchange. -/
theorem begun_through (f : State → State) (hf : ∀ l, f { s with link := l } = { f s with link := l })
    (hl : (f s).link = s.link) (hc : (f s).cfg = s.cfg) (hn : (f s).clock = s.clock) : f s.begun = (f s).begun := by
  rw [begun_form s, hf, begun_form (f s), begun_link_congr hl hc hn]

/-! ### Watch sets that are not registered -/

theorem heatWatched_none (hw : s.bay.heatWatch = none) : s.heatWatched i = s := by
  have e : ({ s.bay with heatWatch := none } : Bay) = s.bay := congrArg (fun w => { s.bay with heatWatch := w }) hw.symm
  unfold State.heatWatched State.judgeWatch
  rw [hw]
  exact congrArg (fun b => ({ s with bay := b } : State)) e

theorem departWatched_none (hw : s.bay.departWatch = none) : s.departWatched i = s := by
  have e : ({ s.bay with departWatch := none } : Bay) = s.bay := congrArg (fun w => { s.bay with departWatch := w }) hw.symm
  unfold State.departWatched State.judgeWatch
  rw [hw]
  exact congrArg (fun b => ({ s with bay := b } : State)) e

theorem lampWatched_none (hw : s.bay.lampWatch = none) : s.lampWatched i = s := by
  have e : ({ s.bay with lampWatch := none } : Bay) = s.bay := congrArg (fun w => { s.bay with lampWatch := w }) hw.symm
  unfold State.lampWatched State.judgeWatch
  rw [hw]
  exact congrArg (fun b => ({ s with bay := b } : State)) e

/-- DEPART's armed set of one input, which has gone (R155). -/
theorem departWatched_gone {v : Bool} (hw : s.bay.departWatch = some { pairs := [(i, v)], armed := true }) (hl : s.level i ≠ v) :
    s.departWatched i =
      (s.updBay fun b => { b with departWatch := some { pairs := [(i, v)], armed := false } }).departDisturbed := by
  have hm : s.watchMatches [(i, v)] = false := by simp [State.watchMatches, hl]
  unfold State.departWatched State.judgeWatch
  rw [hw]
  simp only [List.any_cons, beq_self_eq_true, Bool.true_or, if_true, hm]
  rfl

/-- HEAT's armed set, one of whose inputs has gone (R155, R60). -/
theorem heatWatched_gone (hw : s.bay.heatWatch = some Watch.heat) (hi : i = .plugLatched ∨ i = .coachPresent)
    (hl : s.level i = false) :
    s.heatWatched i = (s.updBay fun b => { b with heatWatch := some { Watch.heat with armed := false } }).heatDisturbed := by
  have hm : s.watchMatches Watch.heat.pairs = false := by
    rcases hi with rfl | rfl <;> simp [State.watchMatches, Watch.heat, hl]
  have ha : (Watch.heat.pairs.any (·.1 == i)) = true := by rcases hi with rfl | rfl <;> rfl
  unfold State.heatWatched State.judgeWatch
  rw [hw]
  simp only [ha, if_true, hm]
  rfl

/-! ### A drawing state left (R47, R50, R60, R80) -/

/-- HEAT in a drawing state with stages closed, its demand announced and sent, the heater enabled, the link free for one more
request, and no lamp window that a fall could spoil. -/
structure State.Drawn (s : State) : Prop where
  drawing : s.heat.state.drawing = true
  closed : 0 < s.heat.count
  unlit : s.lamp.state ≠ .baseline ∧ s.lamp.state ≠ .measuring
  told : s.share.announced = true ∧ s.share.demandSent = true
  enabled : s.heat.enableHeld = true
  up : s.link.state = .up
  room : s.link.count .heat < 3

/-- What HEAT leaves behind as it stops, before its HEATER DISABLE starts (R60, R80, R50). -/
def State.drawnStopped (s : State) : State :=
  { s with
    bay := { s.bay with
      contactors := 0, provingWindow := some (s.now + 2000),
      provingFailed := s.bay.provingFailed && s.bay.proving.level, heatWatch := none,
      latchClosed := s.bay.latchClosed && !s.bay.heldOpen,
      latchCheck := if s.bay.heldOpen then none else s.bay.latchCheck, heldOpen := false },
    heat := { s.heat with
      state := .stopped, count := 0, lastChange := some s.now, run := none, waiting := none, blindEnd := none,
      drawingSince := none },
    line := { s.line with
      demand := s.line.demand.write
        { group := s.conf.group, requested := 0, stageSize := s.heat.stageSize, slack := 0, drawing := false, stagesOn := 0 } },
    share := { s.share with ranking := none, announced := false, refresh := none },
    link := { s.link with
      queue := s.link.queue ++ [{ job := .heat, kind := .heaterDisable, arg := 0, closing := false }] } }

/-- Every stage opened at once (R43, R158 to R160). -/
theorem setCount_zero (hc : 0 < s.heat.count) (hl : s.lamp.state ≠ .baseline ∧ s.lamp.state ≠ .measuring) : s.setCount 0 =
    { s with
      heat := { s.heat with
        count := 0, lastChange := some s.now, run := s.heat.run.map fun r => r.upTo s.heat.count s.now },
      bay := { s.bay with
        contactors := 0, provingWindow := some (s.now + 2000),
        provingFailed := s.bay.provingFailed && s.bay.proving.level,
        latchClosed := s.bay.latchClosed && !s.bay.heldOpen,
        latchCheck := if s.bay.heldOpen then none else s.bay.latchCheck, heldOpen := false } } := by
  have hlamp : (s.putCount 0).lampDecrease = s.putCount 0 := by
    rw [State.lampDecrease]
    exact if_neg (by simp [State.putCount, State.bayCount, hl.1, hl.2])
  have hput : s.setCount 0 = (s.putCount 0).lampDecrease := (if_neg (by omega)).trans (if_pos hc)
  rw [hput, hlamp]
  have hm : (State.updHeat s fun h => { h with
      count := 0, lastChange := some s.now, run := h.run.map fun r => r.upTo h.count s.now }).provingMatches 0 =
        !s.bay.proving.level := by
    show (s.bay.proving.level == decide (0 < 0)) = _
    cases s.bay.proving.level <;> rfl
  unfold State.putCount State.bayCount
  rw [hm, Bool.not_not]
  simp only [decide_true, Bool.true_and, true_and, ne_eq, not_true_eq_false, decide_false, Bool.and_false]
  rfl

theorem heatLeave_drawn (k : s.Drawn) : s.heatLeave .stopped = s.drawnStopped.begun := by
  have hd : (s.heat.state.wants && s.linkUp && (s.heat.enableHeld || s.heatHolds .heaterEnable)) = true := by
    rw [linkUp_eq k.up, k.enabled, HeatState.wants, k.drawing]; simp
  unfold State.heatLeave
  dsimp only
  rw [hd, setCount_zero k.closed k.unlit, if_pos rfl]
  simp only [HeatState.computing, Bool.false_eq_true, if_false]
  rw [if_pos (by exact k.told.1)]
  unfold State.withdrawDemand
  rw [if_neg (by simp [k.told.2]), State.heatPlace, if_pos (by exact beq_iff_eq.2 k.up),
    if_neg (by exact Nat.not_le.2 k.room), place_taken (by exact beq_iff_eq.2 k.up) (by exact k.room)]
  rfl

/-- A command whose effect leaves pre-heat stopped, HEATER DISABLE starting where it may: the grant falls to 0 (R73). -/
theorem does_stopped {o : Host.Outcome State Fault Refusal} {v u : State} (hr : v.running = true) (ho : o = conclude v.begun)
    (h : v.heat.state = .stopped) (hn : v.heat.count = 0) (e : v.idled v.share.rounds = u) : Does o u.begun := by
  have hb := begun_form v
  refine does_idled (hb ▸ hr) ho (by rw [hb]; exact congrArg HeatState.computing h) (by rw [hb]; exact Or.inl hn) ?_
  have hrounds : v.begun.share.rounds = v.share.rounds := by rw [hb]
  rw [hrounds, ← e]
  exact begun_through (fun x => x.idled v.share.rounds) (fun _ => rfl) rfl rfl rfl

/-! ### HEATER PROVING judged (R159) -/

theorem judgeProving_match (h : s.bay.proving.level = decide (0 < s.heat.count)) :
    s.judgeProving = { s with bay := { s.bay with provingFailed := false } } := if_pos (beq_iff_eq.2 h)

theorem judgeProving_again (h : s.bay.proving.level ≠ decide (0 < s.heat.count)) (hf : s.bay.provingFailed = true) :
    s.judgeProving = s := (if_neg (mt beq_iff_eq.1 h)).trans (if_pos hf)

theorem judgeProving_fails (h : s.bay.proving.level ≠ decide (0 < s.heat.count)) (hf : s.bay.provingFailed = false) :
    s.judgeProving = s.provingFailure := (if_neg (mt beq_iff_eq.1 h)).trans (if_neg (by simp [hf]))

/-- HEAT stops from OFF with no stage closed and nothing announced (R60). -/
theorem heatLeave_off (ho : s.heat.state = .off) (hc : s.heat.count = 0) (ha : s.share.announced = false) :
    s.heatLeave .stopped =
      { s with
        bay := { s.bay with heatWatch := none },
        heat := { s.heat with state := .stopped, run := none, waiting := none, blindEnd := none, drawingSince := none },
        share := { s.share with ranking := none } } := by
  have hcount : s.setCount 0 = s := if_pos hc.symm
  have hwants : s.heat.state.wants = false := by rw [ho]; rfl
  unfold State.heatLeave
  dsimp only
  rw [hcount, hwants]
  simp only [HeatState.computing, Bool.false_and, Bool.false_eq_true, if_false]
  exact if_neg (by simp [State.updShare, State.updBay, State.updHeat, ha])

/-- A failure in OFF: a welded contactor (R159, R60). -/
theorem provingFailure_off (ho : s.heat.state = .off) (hc : s.heat.count = 0) (ha : s.share.announced = false)
    (hw : s.bay.provingWindow = none) : s.provingFailure =
      { s with
        bay := { s.bay with provingWindow := none, provingFailed := true, contactors := 0, heatWatch := none },
        faults := s.faults.write bay02 .advisory none s.depotTime,
        heat := { s.heat with
          state := .stopped, run := none, waiting := none, blindEnd := none, drawingSince := none },
        share := { s.share with ranking := none } } := by
  refine (heatLeave_off (s := (s.updBay fun b => { b with provingFailed := true, contactors := 0 }).writeFault bay02 .advisory)
    ho hc ha).trans ?_
  exact congrArg (fun w => ({ s with
    bay := { s.bay with provingWindow := w, provingFailed := true, contactors := 0, heatWatch := none },
    faults := s.faults.write bay02 .advisory none s.depotTime,
    heat := { s.heat with state := .stopped, run := none, waiting := none, blindEnd := none, drawingSince := none },
    share := { s.share with ranking := none } } : State)) hw

/-- A failure in a drawing state: every stage opens at once (R159, R60). -/
theorem provingFailure_drawn (k : s.Drawn) : s.provingFailure =
    ({ s.drawnStopped with
      bay := { s.drawnStopped.bay with provingFailed := s.bay.proving.level },
      faults := s.faults.write bay02 .advisory none s.depotTime } : State).begun := by
  obtain ⟨k1, k2, k3, k4, k5, k6, k7⟩ := k
  have k' : ((s.updBay fun b => { b with provingFailed := true, contactors := 0 }).writeFault bay02 .advisory).Drawn :=
    ⟨k1, k2, k3, k4, k5, k6, k7⟩
  exact heatLeave_drawn k'

/-- HEATER PROVING judged outside a window, with no failure taken yet and a mismatch (R159): from OFF and from a drawing state. -/
theorem does_judged {o : Host.Outcome State Fault Refusal} (hr : s.running = true) (ho : o = conclude s.judgeProving)
    (hw : s.bay.provingWindow = none) (hf : s.bay.provingFailed = false) :
    (s.bay.proving.level = true → s.heat.count = 0 → s.heat.state = .off → s.share.announced = false →
      Does o { s with
        bay := { s.bay with provingWindow := none, provingFailed := true, contactors := 0, heatWatch := none },
        faults := s.faults.write bay02 .advisory none s.depotTime,
        heat := { s.heat with
          state := .stopped, run := none, waiting := none, blindEnd := none, drawingSince := none },
        share := { s.share with ranking := none } }) ∧
    (s.bay.proving.level = false → s.Drawn →
      Does o ({ s.drawnStopped.idled s.share.rounds with
        bay := { s.drawnStopped.bay with provingFailed := false },
        faults := s.faults.write bay02 .advisory none s.depotTime } : State).begun) := by
  refine ⟨fun hl hc hs ha => does_of (ho.trans (congrArg conclude ?_)), fun hl k => ?_⟩
  · rw [judgeProving_fails (by rw [hl, hc]; decide) hf, provingFailure_off hs hc ha hw]
  · have hne : s.bay.proving.level ≠ decide (0 < s.heat.count) := by rw [hl, decide_eq_true k.closed]; decide
    refine does_stopped (v := { s.drawnStopped with
      bay := { s.drawnStopped.bay with provingFailed := false },
      faults := s.faults.write bay02 .advisory none s.depotTime }) hr (ho.trans (congrArg conclude ?_)) rfl rfl rfl
    rw [judgeProving_fails hne hf, provingFailure_drawn k, hl]

/-- A match ends a failure whether the window runs or not (R159). -/
theorem provingChanged_match (h : s.bay.proving.level = decide (0 < s.heat.count)) :
    s.provingChanged = { s with bay := { s.bay with provingFailed := false } } := by
  unfold State.provingChanged
  rw [judgeProving_match h, if_pos (show s.provingMatches s.heat.count = true from beq_iff_eq.2 h)]
  exact ite_self _

theorem provingChanged_judged (h : s.bay.provingWindow = none) : s.provingChanged = s.judgeProving := if_pos (by rw [h]; rfl)

/-! ### PLUG LATCHED -/

theorem latchContact_form (s : State) : s.latchContact = { s with bay := { s.bay with
    latchCheck :=
      if s.bay.latched.level then none
      else if s.bay.latchClosed = true ∧ s.bay.inserted.level = true then some (s.now + 2000) else s.bay.latchCheck } } := by
  unfold State.latchContact
  rw [show s.level .plugLatched = s.bay.latched.level from rfl, show s.level .plugInserted = s.bay.inserted.level from rfl]
  by_cases h : s.bay.latched.level = true
  · rw [if_pos h, if_pos h]; rfl
  · rw [if_neg h, if_neg h]
    by_cases k : s.bay.latchClosed = true ∧ s.bay.inserted.level = true
    · rw [if_pos k, if_pos (by simpa using k)]; rfl
    · rw [if_neg k, if_neg (by simpa using k)]

/-- PLUG LATCHED gone under an open command: nothing is owed (R161). -/
theorem latchContact_open (hv : s.bay.latched.level = false) (hc : s.bay.latchClosed = false) : s.latchContact = s :=
  (if_neg (by rw [show s.level .plugLatched = s.bay.latched.level from rfl, hv]; decide)).trans (if_neg (by simp [hc]))

theorem latchContact_begun (s : State) : s.begun.latchContact = s.latchContact.begun :=
  begun_through State.latchContact (fun l => by rw [latchContact_form, latchContact_form]; rfl)
    (by rw [latchContact_form]) (by rw [latchContact_form]) (by rw [latchContact_form])

/-- PLUG LATCHED gone under HEAT's armed set in a drawing state (R155, R60, R161). -/
theorem latchChanged_drawn (k : s.Drawn) (hv : s.bay.latched.level = false) (hw : s.bay.heatWatch = some Watch.heat)
    (hd : s.bay.departWatch = none) : s.latchChanged = ((s.drawnStopped.writeFault preheat02 .advisory).latchContact).begun := by
  have k' : (s.updBay fun b => { b with heatWatch := some { Watch.heat with armed := false } }).Drawn := by
    obtain ⟨k1, k2, k3, k4, k5, k6, k7⟩ := k
    exact ⟨k1, k2, k3, k4, k5, k6, k7⟩
  have hheat : s.heatWatched .plugLatched = (s.drawnStopped.writeFault preheat02 .advisory).begun :=
    (heatWatched_gone hw (Or.inl rfl) hv).trans ((congrArg (fun x => State.writeFault x preheat02 .advisory none)
      (heatLeave_drawn k')).trans (begun_through (fun x => State.writeFault x preheat02 .advisory none) (fun _ => rfl) rfl rfl rfl))
  unfold State.latchChanged
  rw [hheat, departWatched_none (by rw [begun_form]; exact hd), latchContact_begun]

/-- PLUG LATCHED gone in RELEASING: CLEARED is entered (R144, R145). -/
theorem departDisturbed_releasing (hl : s.plans.list = h :: rest) (hp : h.phase = .releasing) (hc : s.bay.coach.level = true) :
    s.departDisturbed = { s with
      plans := { s.plans with list := { h with phase := .cleared } :: rest },
      depart := { s.depart with
        unlatchWait := none, refusal := none, clearance := some (s.now + s.conf.clearance * 1000) },
      bay := { s.bay with departWatch := some { pairs := [(.coachPresent, true)], armed := true } } } := by
  have hreleasing : s.inPhase .releasing = true := by rw [inPhase_of_list hl, hp]; rfl
  have hm : ∀ t : State, t.level .coachPresent = true →
      t.newWatch [(.coachPresent, true)] = { pairs := [(.coachPresent, true)], armed := true } :=
    fun t ht => by simp [State.newWatch, State.watchMatches, ht]
  rw [State.departDisturbed, if_pos hreleasing, State.enterCleared, setPhase_on hl (by rw [hp]; rfl) (by decide) rfl]
  dsimp only
  rw [hm]
  · rfl
  · exact hc

end Sys2Proof.Machine

open Sys2Proof Sys2Proof.Machine

/-- Settles O54: PLUG LATCHED and HEATER PROVING turn, and a proving window ends. -/
theorem contactsTurn : Obligations.ContactsTurn := by
  intro s hr drawn opened
  have stopped : ∀ {v : State} {i : Input}, s.turn i = v → drawn → v.Drawn := by
    rintro _ i rfl ⟨k1, k2, k3, k4, k5, k6, k7, k8, k9⟩
    cases i <;> exact ⟨k1, k2, ⟨k3, k4⟩, ⟨k5, k6⟩, k7, k8, k9⟩
  refine ⟨fun ht hw => ⟨fun hd => ?_, fun h rest hv hd hl hp hc hcoach => ?_⟩, fun ht hv hw hd k => ?_, ?_⟩
  · refine does_of ((if_pos (changeDue_of_turned ht)).trans ((if_pos hr).trans (congrArg conclude ?_)))
    rw [takeLevel_eq, State.latchChanged, heatWatched_none (by exact hw), departWatched_none (by exact hd), latchContact_form]
    rfl
  · refine does_of ((if_pos (changeDue_of_turned ht)).trans ((if_pos hr).trans (congrArg conclude ?_)))
    rw [takeLevel_eq, State.latchChanged, heatWatched_none (by exact hw),
      departWatched_gone (v := true) (by exact hd) (by rw [show (s.turn .plugLatched).level .plugLatched = false from hv]; decide),
      departDisturbed_releasing (by exact hl) hp (by exact hcoach), latchContact_open (by exact hv) (by exact hc)]
    rfl
  · have hcheck : (if s.bay.latched.raw = true then none
        else if (s.bay.latchClosed && !s.bay.heldOpen) = true ∧ s.bay.inserted.level = true then some (s.now + 2000)
        else if s.bay.heldOpen = true then none else s.bay.latchCheck) =
        (if s.bay.latchClosed = true ∧ s.bay.heldOpen = false ∧ s.bay.inserted.level = true then some (s.now + 2000)
          else if s.bay.heldOpen = true then none else s.bay.latchCheck) := by
      rw [hv]
      simp [and_assoc]
    refine does_stopped (v := ((s.turn .plugLatched).drawnStopped.writeFault preheat02 .advisory).latchContact)
      (by rw [latchContact_form]; exact hr) ((if_pos (changeDue_of_turned ht)).trans ((if_pos hr).trans (congrArg conclude
      (latchChanged_drawn (stopped rfl k) (by exact hv) (by exact hw) (by exact hd))))) ?_ ?_ ?_
    · rw [latchContact_form]; rfl
    · rw [latchContact_form]; rfl
    · rw [latchContact_form]
      exact congrArg (fun c => ({
        ((s.turn .plugLatched).drawnStopped.writeFault preheat02 .advisory).idled s.share.rounds with
        bay := { (s.turn .plugLatched).drawnStopped.bay with latchCheck := c } } : State)) hcheck
  · intro stop failed
    refine ⟨fun ht => ⟨fun h => ?_, fun hw hf => ?_⟩, fun e hw he => ⟨fun h => ?_, fun h hf => ?_, fun hf => ?_⟩⟩
    · refine does_of ((if_pos (changeDue_of_turned ht)).trans ((if_pos hr).trans (congrArg conclude ?_)))
      exact provingChanged_match (s := s.turn .heaterProving) (by exact h)
    · have ho : exec .heaterProvingChange s = conclude (s.turn .heaterProving).judgeProving :=
        (if_pos (changeDue_of_turned ht)).trans ((if_pos hr).trans (congrArg conclude
          (provingChanged_judged (s := s.turn .heaterProving) (by exact hw))))
      obtain ⟨h1, h2⟩ := does_judged (s := s.turn .heaterProving) hr ho hw hf
      exact ⟨h1, fun hl k => h2 hl (stopped rfl k)⟩
    · exact does_guarded ⟨hr, by rw [hw]; exact expired_of_le he⟩ (judgeProving_match (by exact h))
    · exact does_guarded ⟨hr, by rw [hw]; exact expired_of_le he⟩ (judgeProving_again (by exact h) (by exact hf))
    · have ho : exec .provingWindowEnd s = conclude (s.updBay fun b => { b with provingWindow := none }).judgeProving :=
        if_pos ⟨hr, by rw [hw]; exact expired_of_le he⟩
      obtain ⟨h1, h2⟩ := does_judged (s := s.updBay fun b => { b with provingWindow := none }) hr ho rfl hf
      exact ⟨h1, fun hl k => h2 hl (by
        obtain ⟨k1, k2, k3, k4, k5, k6, k7, k8, k9⟩ := k
        exact ⟨k1, k2, ⟨k3, k4⟩, ⟨k5, k6⟩, k7, k8, k9⟩)⟩

end

