-- ==== Sys2Proof/Proofs/StillOps.lean ====
section
namespace Sys2Proof.Machine

-- The many short proofs below are elaborated one at a time: each in a thread of its own, they exhaust the memory limit.
set_option Elab.async false

/-! ## What judging can never bring about

No watched condition takes a reading, sets heater enable held, places a request in DOWN, or, without the coach, begins a run or
arms HEAT's watch set; nor does it take back PREHEAT-02. -/

/-- PREHEAT-02 stands in the table, or the table is full (R60, R120). -/
def Faults.Told (f : Faults) : Prop := (∃ r ∈ f.table, r.key = preheat02 ∧ r.present = true) ∨ 32 ≤ f.table.length

/-- What a chain of operations leaves of the above; `a`: no run begins and HEAT's watch set is not armed; `o`: pre-heat
stays in OFF. -/
structure Still (a : Prop) o (s t : State) : Prop where
  coach : t.bay.coach = s.bay.coach
  station : t.start.station = s.start.station
  reading : t.heat.reading = s.heat.reading
  poll : t.heat.pollDue = s.heat.pollDue
  off : o → s.heat.state = .off → t.heat.state = .off
  enable : s.heat.enableHeld = false → t.heat.enableHeld = false
  run : a → s.heat.run = none → t.heat.run = none
  watch : a → s.bay.heatWatch ≠ some Watch.heat → t.bay.heatWatch ≠ some Watch.heat
  cut : s.link.state = .down → s.link.exchange = none →
    t.link.state = .down ∧ t.link.exchange = none ∧ t.link.number = s.link.number ∧ (s.link.queue = [] → t.link.queue = [])
  told : s.faults.Told → t.faults.Told

variable {s t u : State} {a o : Prop}

/-! ### The table (R118 to R120) -/

theorem dropOldest_length {v : Severity} {xs : List Record} (h : (xs.any (·.severity == v)) = true) :
    (dropOldest v xs).length + 1 = xs.length := by
  obtain ⟨q, hq, hs⟩ := List.any_eq_true.1 h
  have hp : 0 < xs.length := List.length_pos_of_mem hq
  unfold dropOldest
  rw [List.length_eraseP_of_mem hq hs]
  omega

/-- A table of fewer than 32 takes a new record at its end; a full one stays full (R118, R120). -/
theorem placeRecord_room {r : Record} {xs ys : List Record} (h : placeRecord xs r = some ys) :
    ys = xs ++ [r] ∨ 32 ≤ ys.length := by
  have dropped {v : Severity} (hv : (xs.any (·.severity == v)) = true) (hf : ¬xs.length < Config.tableSize) :
      32 ≤ (dropOldest v xs ++ [r]).length := by
    have h1 := dropOldest_length hv
    have h2 : 32 ≤ xs.length := Nat.le_of_not_lt hf
    rw [List.length_append, List.length_singleton]
    omega
  unfold placeRecord at h
  split at h
  · cases h; exact Or.inl rfl
  · split at h
    · cases h; exact Or.inr (dropped ‹_› ‹_›)
    · split at h <;> cases h
      rename_i hb
      exact Or.inr (dropped (Bool.and_eq_true_iff.1 hb).2 ‹_›)

theorem placeRecord_full {r : Record} {xs : List Record} (h : placeRecord xs r = none) : 32 ≤ xs.length := by
  unfold placeRecord at h
  split at h
  · cases h
  · exact Nat.le_of_not_lt ‹_›

/-- A write takes no present mark back while the table has room (R118). -/
theorem write_told {f : Faults} (h : f.Told) (k : Key) (v : Severity) (c : Option CoachState) (n : Option DepotTime) :
    (f.write k v c n).Told := by
  obtain ⟨-, e⟩ | ⟨-, ⟨x, hx, e⟩ | ⟨hx, e⟩⟩ := f.write_cases k v c n <;> rw [e]
  · refine h.imp (fun ⟨r, hr, hk, hp⟩ => ?_) fun hl => by simpa using hl
    refine ⟨_, List.mem_map_of_mem hr, ?_⟩
    split
    · exact ⟨hk, rfl⟩
    · exact ⟨hk, hp⟩
  · obtain rfl | hl := placeRecord_room hx
    · refine h.imp (fun ⟨r, hr, hk⟩ => ⟨r, List.mem_append_left _ hr, hk⟩) fun hl => ?_
      rw [List.length_append]
      omega
    · exact Or.inr hl
  · exact Or.inr (placeRecord_full hx)

theorem write_tells (f : Faults) (v : Severity) (c : Option CoachState) (n : Option DepotTime) : (f.write preheat02 v c n).Told := by
  obtain ⟨⟨r, hr, hk⟩, e⟩ | ⟨-, ⟨x, hx, e⟩ | ⟨hx, e⟩⟩ := f.write_cases preheat02 v c n <;> rw [e]
  · exact Or.inl ⟨_, List.mem_map_of_mem hr, by rw [if_pos hk]; exact ⟨hk, rfl⟩⟩
  · obtain rfl | hl := placeRecord_room hx
    · exact Or.inl ⟨_, List.mem_append_right _ List.mem_cons_self, rfl, rfl⟩
    · exact Or.inr hl
  · exact Or.inr (placeRecord_full hx)

theorem clearPresent_told {f : Faults} (h : f.Told) {p : Record → Bool} (hp : ∀ r : Record, r.key = preheat02 → p r = false) :
    (f.clearPresent p).Told := by
  refine h.imp (fun ⟨r, hr, hk, hm⟩ => ?_) fun hl => by simpa [Faults.clearPresent] using hl
  exact ⟨_, List.mem_map_of_mem hr, by rw [hp r hk]; exact ⟨hk, hm⟩⟩

namespace Still

/-! ### Updates of single blocks -/

theorem refl (s : State) : Still a o s s :=
  ⟨rfl, rfl, rfl, rfl, fun _ h => h, id, fun _ h => h, fun _ h => h, fun h k => ⟨h, k, rfl, id⟩, id⟩

theorem weaken {b p : Prop} (h : Still a o s t) (hb : b → a) (hp : p → o) : Still b p s t :=
  ⟨h.1, h.2, h.3, h.4, fun e => h.5 (hp e), h.6, fun e => h.7 (hb e), fun e => h.8 (hb e), h.9, h.10⟩

theorem trans (h : Still a o s t) (k : Still a o t u) : Still a o s u where
  coach := k.coach.trans h.coach
  station := k.station.trans h.station
  reading := k.reading.trans h.reading
  poll := k.poll.trans h.poll
  off ho e := k.off ho (h.off ho e)
  enable e := k.enable (h.enable e)
  run ha e := k.run ha (h.run ha e)
  watch ha e := k.watch ha (h.watch ha e)
  cut h1 h2 := by
    obtain ⟨h3, h4, h5, h6⟩ := h.cut h1 h2
    obtain ⟨k3, k4, k5, k6⟩ := k.cut h3 h4
    exact ⟨k3, k4, k5.trans h5, fun e => k6 (h6 e)⟩
  told e := k.told (h.told e)

theorem ite {c : Prop} [Decidable c] {x y : State} (hx : Still a o s x) (hy : Still a o s y) : Still a o s (if c then x else y) := by
  split <;> assumption

theorem foldl {α : Type} {f : State → α → State} (hf : ∀ {t} (_ : Still a o s t) x, Still a o s (f t x)) (xs : List α) :
    ∀ {t} (_ : Still a o s t), Still a o s (xs.foldl f t) := by
  induction xs with
  | nil => exact fun h => h
  | cons x xs ih => exact fun h => ih (hf h x)

theorem line (h : Still a o s t) (f : Line → Line) : Still a o s (t.updLine f) := ⟨h.1, h.2, h.3, h.4, h.5, h.6, h.7, h.8, h.9, h.10⟩
theorem plans (h : Still a o s t) (f : Plans → Plans) : Still a o s (t.updPlans f) := ⟨h.1, h.2, h.3, h.4, h.5, h.6, h.7, h.8, h.9, h.10⟩
theorem share (h : Still a o s t) (f : Share → Share) : Still a o s (t.updShare f) := ⟨h.1, h.2, h.3, h.4, h.5, h.6, h.7, h.8, h.9, h.10⟩
theorem lamp (h : Still a o s t) (f : Lamp → Lamp) : Still a o s (t.updLamp f) := ⟨h.1, h.2, h.3, h.4, h.5, h.6, h.7, h.8, h.9, h.10⟩
theorem depart (h : Still a o s t) (f : Depart → Depart) : Still a o s (t.updDepart f) := ⟨h.1, h.2, h.3, h.4, h.5, h.6, h.7, h.8, h.9, h.10⟩
theorem free (h : Still a o s t) (n : Nat) : Still a o s { t with freeCount := n } := ⟨h.1, h.2, h.3, h.4, h.5, h.6, h.7, h.8, h.9, h.10⟩

theorem heat (h : Still a o s t) (f : Heat → Heat) (hr : (f t.heat).reading = t.heat.reading := by rfl)
    (hp : (f t.heat).pollDue = t.heat.pollDue := by rfl) (ho : t.heat.state = .off → (f t.heat).state = .off := by exact id)
    (he : t.heat.enableHeld = false → (f t.heat).enableHeld = false := by exact id)
    (hn : t.heat.run = none → (f t.heat).run = none := by exact id) : Still a o s (t.updHeat f) :=
  h.trans ⟨rfl, rfl, hr, hp, fun _ => ho, he, fun _ => hn, fun _ e => e, fun h1 h2 => ⟨h1, h2, rfl, id⟩, id⟩

theorem bay (h : Still a o s t) (f : Bay → Bay) (hc : (f t.bay).coach = t.bay.coach := by rfl)
    (hw : (f t.bay).heatWatch = t.bay.heatWatch ∨ (f t.bay).heatWatch = none := by exact Or.inl rfl) : Still a o s (t.updBay f) :=
  h.trans ⟨hc, rfl, rfl, rfl, fun _ e => e, id, fun _ e => e,
    fun _ e => by rcases hw with hw | hw <;> rw [updBay_bay, hw]; exacts [e, nofun],
    fun h1 h2 => ⟨h1, h2, rfl, id⟩, id⟩

theorem link (h : Still a o s t) (f : Link → Link)
    (hf : t.link.state = .down → t.link.exchange = none → (f t.link).state = .down ∧ (f t.link).exchange = none ∧
      (f t.link).number = t.link.number ∧ (t.link.queue = [] → (f t.link).queue = []) := by
        exact fun h1 h2 => ⟨h1, h2, rfl, id⟩) : Still a o s (t.updLink f) :=
  h.trans ⟨rfl, rfl, rfl, rfl, fun _ e => e, id, fun _ e => e, fun _ e => e, hf, id⟩

theorem faults (h : Still a o s t) (f : Faults → Faults) (hf : t.faults.Told → (f t.faults).Told := by exact id) :
    Still a o s (t.updFaults f) :=
  h.trans ⟨rfl, rfl, rfl, rfl, fun _ e => e, id, fun _ e => e, fun _ e => e, fun h1 h2 => ⟨h1, h2, rfl, id⟩, hf⟩

/-! ### Slots, table, queue -/

theorem writeLane (h : Still a o s t) (c : LaneContent) : Still a o s (t.writeLane c) := h.line _
theorem emptyLane (h : Still a o s t) : Still a o s t.emptyLane := h.line _
theorem withdrawDemand (h : Still a o s t) : Still a o s t.withdrawDemand := (ite ((h.line _).share _) (h.line _)).share _
theorem writeSummary (h : Still a o s t) : Still a o s t.writeSummary := (h.line _).faults _
theorem holdSummary (h : Still a o s t) : Still a o s t.holdSummary := h.line _
theorem releaseSummary (h : Still a o s t) : Still a o s t.releaseSummary := (h.line _).writeSummary

theorem writeFault (h : Still a o s t) (k : Key) (v : Severity) (c : Option CoachState) : Still a o s (t.writeFault k v c) :=
  h.faults _ fun e => write_told e _ _ _ _

theorem clearPresent (h : Still a o s t) {p : Record → Bool} (hp : ∀ r : Record, r.key = preheat02 → p r = false) :
    Still a o s (t.clearPresent p) := h.faults _ fun e => clearPresent_told e hp

theorem clearKey (h : Still a o s t) {k : Key} (hk : k ≠ preheat02) : Still a o s (t.clearKey k) :=
  h.clearPresent fun r e => by rw [e]; simpa using hk.symm

theorem begun (h : Still a o s t) : Still a o s t.begun := by
  obtain ⟨e, hdue⟩ | ⟨e, -⟩ := begun_cases t <;> rw [e]
  · unfold State.startExchange
    split
    · exact h
    · refine h.link _ fun hd _ => ?_
      simp [State.exchangeDue, hd] at hdue
  · exact h

/-- In DOWN no request is taken (R88). -/
theorem place (h : Still a o s t) (r : Request) : Still a o s (t.place r) := by
  obtain ⟨e, ha, -⟩ | ⟨e, -⟩ := place_cases t r <;> rw [e]
  · refine begun (h.link _ fun hd _ => ?_)
    unfold Link.allows at ha
    rw [hd] at ha
    split at ha <;> cases ha
  · exact h

theorem withdraw (h : Still a o s t) (j : Job) : Still a o s (t.withdraw j) :=
  h.link _ fun hd hx => ⟨hd, by rw [hx]; rfl, rfl, fun e => by rw [e]; rfl⟩

theorem heatAborted (h : Still a o s t) (k : ReqKind) : Still a o s (t.heatAborted k) := ite (h.heat _ (he := fun _ => rfl)) h

theorem heatPlace (h : Still a o s t) (k : ReqKind) : Still a o s (t.heatPlace k) := ite (ite (h.heat _) (h.place _)) (h.heatAborted k)

theorem offerKept (h : Still a o s t) : Still a o s t.offerKept := foldl (fun h _ => h.heatPlace _) _ (h.heat _)

/-! ### LAMP -/

theorem lampFaults (h : Still a o s t) (g : Nat) (r : LampResult) : Still a o s (t.lampFaults g r) := by
  have cleared : Still a o s (t.clearPresent fun x => x.key.source == .lamp g && some x.key.code != r.code) :=
    h.clearPresent fun x e => by rw [e]; rfl
  unfold State.lampFaults; dsimp only
  split
  · exact h
  · split
    · exact cleared.writeFault _ _ _
    · exact cleared

theorem lampResult (h : Still a o s t) (g : Nat) (r : LampResult) (i : Option Int) : Still a o s (t.lampResult g r i) :=
  (h.lamp _).lampFaults _ _

theorem lampAborted (h : Still a o s t) (r : Request) : Still a o s (t.lampAborted r) := ite (h.lamp _) (ite (h.lamp _) h)
theorem lampWithdraw (h : Still a o s t) : Still a o s t.lampWithdraw := foldl lampAborted _ (h.withdraw _)

theorem lampAsk (h : Still a o s t) (k : ReqKind) (g : Nat) : Still a o s (t.lampAsk k g) :=
  ite ((h.lamp _).place _) ((h.lamp _).lampAborted _)

theorem lampSequence (h : Still a o s t) : Still a o s t.lampSequence := (h.lamp _).lampAsk _ _
theorem lampClosing (h : Still a o s t) : Still a o s t.lampClosing := ite ((h.lamp _).place _) (h.lamp _)
theorem lampDone (h : Still a o s t) : Still a o s t.lampDone := (h.lamp _).bay _
theorem lampFinish (h : Still a o s t) : Still a o s t.lampFinish := ite h.lampDone.lampClosing h.lampDone

theorem lampTurn (n : Nat) : ∀ {t : State} (_ : Still a o s t) (g : Nat), Still a o s (t.lampTurn n g) := by
  induction n with
  | zero => exact fun h _ => h.lampFinish
  | succ n ih =>
    exact fun h g => ite h.lampFinish (ite (ih ((h.lamp _).lampResult _ _ _) _)
      (ite (ih ((h.lamp _).lampResult _ _ _) _) (h.lamp _).lampSequence))

theorem lampNext (h : Still a o s t) (r : LampResult) (i : Option Int) : Still a o s (t.lampNext r i) := lampTurn 17 (h.lampResult _ _ _) _
theorem lampRepeat (h : Still a o s t) : Still a o s t.lampRepeat := ite (h.lampNext _ _) h.lampSequence
theorem lampSpoil (h : Still a o s t) : Still a o s t.lampSpoil := ite ((h.lamp _).lamp _) (h.lamp _).lampRepeat
theorem lampDecrease (h : Still a o s t) : Still a o s t.lampDecrease := ite h.lampSpoil h

theorem lampEnd (h : Still a o s t) (x : LampState) (dark : Bool) : Still a o s (t.lampEnd x dark) :=
  ite ((h.lampWithdraw.lamp _).bay _).lampClosing ((h.lampWithdraw.lamp _).bay _)

theorem lampWait (h : Still a o s t) : Still a o s t.lampWait := by unfold State.lampWait; exact h.lamp _
theorem lampMatched (h : Still a o s t) : Still a o s t.lampMatched := ite h.lampWait h
theorem lampOwed (h : Still a o s t) : Still a o s t.lampOwed := ite h.lampWait h
theorem lampHeadChange (h : Still a o s t) : Still a o s t.lampHeadChange := ite h (h.lampEnd _ _)
theorem lampPhaseLost (h : Still a o s t) : Still a o s t.lampPhaseLost := ite h (h.lampEnd _ _)
theorem lampRerun (h : Still a o s t) : Still a o s t.lampRerun := (h.lampEnd _ _).lampWait
theorem lampStart (h : Still a o s t) : Still a o s t.lampStart := lampTurn 17 ((h.lamp _).bay _) _

theorem lampUnplugged (h : Still a o s t) : Still a o s t.lampUnplugged := by
  unfold State.lampUnplugged; dsimp only
  refine Still.lamp ?_ _
  cases t.lamp.state with
  | idle => exact h
  | abandoned => exact h
  | _ => exact h.lampEnd _ _

theorem lampRevised (h : Still a o s t) (x y : PlanData) : Still a o s (t.lampRevised x y) := by
  unfold State.lampRevised; dsimp only
  exact ite (h.lampEnd _ _).lampWait (ite (ite ((h.lampEnd _ _).lamp _) (ite (h.lamp _) h)) (ite h.lampWait h))

/-- A request of LAMP aborted (R92). -/
theorem lampOutcome_aborted (h : Still a o s t) (r : Request) (w : Bool) : Still a o s (t.lampOutcome r w .aborted) := by
  have answered : Still a o s (t.lampAnswered r.kind r.arg .aborted) :=
    h.lamp fun l => { l with outstanding := none, restart := false }
  have closed : Still a o s (t.lampClosed .aborted) := h.lamp fun l => { l with closing := false }
  exact ite (ite (h.lamp _) h) (ite closed (ite answered h))

/-! ### HEAT -/

theorem setCount (h : Still a o s t) (n : Nat) : Still a o s (t.setCount n) := by
  have counted : Still a o s (t.putCount n) := by
    have h1 := h.heat (fun h => { h with count := n, lastChange := some t.now, run := h.run.map fun r => r.upTo h.count t.now })
      (hn := fun e => by rw [e]; rfl)
    unfold State.putCount State.bayCount
    exact h1.bay _
  exact ite h (ite counted.lampDecrease counted)

theorem capCount (h : Still a o s t) (n : Nat) : Still a o s (t.capCount n) := ite (h.setCount n) h

/-- What follows once HEAT has left its state: the demand withdrawn, HEATER DISABLE placed (R80, R50). -/
theorem left (h : Still a o s t) (b c : Bool) (k : Share → Share) :
    Still a o s (if b then (if (if c then t else t.updShare k).share.announced then (if c then t else t.updShare k).withdrawDemand
        else if c then t else t.updShare k).heatPlace .heaterDisable
      else if (if c then t else t.updShare k).share.announced then (if c then t else t.updShare k).withdrawDemand
        else if c then t else t.updShare k) := by
  have h1 := ite (c := c = true) h (h.share k)
  exact ite ((ite h1.withdrawDemand h1).heatPlace _) (ite h1.withdrawDemand h1)

theorem heatLeave (h : Still a o s t) (x : HeatState) (hx : t.heat.state = .off → x = .off) : Still a o s (t.heatLeave x) :=
  left (((h.setCount 0).heat (fun h =>
    { h with state := x, run := none, waiting := none, blindEnd := none, drawingSince := none })
    (ho := fun e => hx (by rwa [setCount_heatState] at e)) (hn := fun _ => rfl)).bay (fun b => { b with heatWatch := none })
      (hw := Or.inr rfl)) _ _ _

theorem heatOff (h : Still a o s t) : Still a o s t.heatOff := ite (h.heatLeave _ fun _ => rfl) h
theorem heatRematch (h : Still a o s t) : Still a o s t.heatRematch := ite (h.heatLeave _ fun _ => rfl) h
theorem heatJudged (h : Still a o s t) : Still a o s t.heatJudged := ite (h.heatLeave _ fun _ => rfl) h

theorem heatHeadChange (h : Still a o s t) : Still a o s t.heatHeadChange := by
  unfold State.heatHeadChange
  exact ((ite h (h.heatLeave _ fun _ => rfl)).heat _).share _

theorem takeFigures (h : Still a o s t) : Still a o s t.takeFigures := by
  unfold State.takeFigures
  split
  · exact h
  · apply Still.capCount
    exact h.heat _

theorem compute (h : Still a o s t) : Still a o s t.compute := by
  have figures (p : Plan) : Still a o s (t.computeFigures p) := ite ((h.heat _).writeFault _ _ _) (h.heat _)
  have moved {u : State} (k : Still a o s u) : Still a o s u.moveBySlack := by
    unfold State.moveBySlack
    split
    · exact ite (k.heat _ (ho := fun e => by rename_i hs; rw [hs] at e; cases e)) k
    · exact ite (k.heatLeave _ fun e => by rename_i hs; rw [hs] at e; cases e) k
    · exact (k.heat _).capCount _
    all_goals exact k
  unfold State.compute
  split
  · exact ite (moved ((figures _).share _)) (h.heat _)
  · exact h.heat _

theorem setGrant (h : Still a o s t) (g : Nat) : Still a o s (t.setGrant g) := ((h.share _).capCount g).heat _

theorem regrant (h : Still a o s t) : Still a o s t.regrant :=
  ite ((h.share _).setGrant _) (ite (((h.share _).free _).setGrant _) ((h.share _).free _))

theorem riseOne (h : Still a o s t) : Still a o s t.riseOne := (h.setCount _).heat _
theorem announceDemand (h : Still a o s t) : Still a o s t.announceDemand := ite h.withdrawDemand ((h.line _).share _)

/-- Pre-heat begun (R46). -/
theorem heatSchedule (h : Still a o s t) (ho : ¬o) : Still a o s t.heatSchedule :=
  h.trans ⟨rfl, rfl, rfl, rfl, fun e => absurd e ho, id, fun _ e => e, fun _ e => e, fun h1 h2 => ⟨h1, h2, rfl, id⟩, id⟩

end Still

/-- The run and the watch set go with the state HEAT leaves, and PREHEAT-02 is told (R60). -/
theorem heatDisturbed_drops (s : State) :
    s.heatDisturbed.heat.run = none ∧ s.heatDisturbed.bay.heatWatch ≠ some Watch.heat ∧ s.heatDisturbed.faults.Told := by
  refine ⟨?_, ?_, write_tells _ _ _ _⟩
  all_goals
    unfold State.heatDisturbed State.heatLeave
    dsimp only
  · refine (Still.writeFault (a := True) (o := True) (Still.left (Still.refl _) _ _ _) _ _ _).run trivial rfl
  · refine (Still.writeFault (a := True) (o := True) (Still.left (Still.refl _) _ _ _) _ _ _).watch trivial nofun

namespace Still

theorem heatDisturbed (h : Still a o s t) (hs : t.heat.state ≠ .off) : Still a o s t.heatDisturbed :=
  (h.heatLeave _ fun e => absurd e hs).writeFault _ _ _

/-- A chain that may begin a run and arm the watch set, where it has not done so in the end. -/
theorem absent (h : Still False o s t) (hn : a → t.heat.run = none ∧ t.bay.heatWatch ≠ some Watch.heat) : Still a o s t :=
  ⟨h.1, h.2, h.3, h.4, h.5, h.6, fun ha _ => (hn ha).1, fun ha _ => (hn ha).2, h.9, h.10⟩

theorem runs (h : Still False o s t) (f : Heat → Heat) (hr : (f t.heat).reading = t.heat.reading := by rfl)
    (hp : (f t.heat).pollDue = t.heat.pollDue := by rfl) (ho : t.heat.state = .off → (f t.heat).state = .off := by exact id)
    (he : t.heat.enableHeld = false → (f t.heat).enableHeld = false := by exact id) : Still False o s (t.updHeat f) :=
  h.trans ⟨rfl, rfl, hr, hp, fun _ => ho, he, nofun, fun _ e => e, fun h1 h2 => ⟨h1, h2, rfl, id⟩, id⟩

theorem watches (h : Still False o s t) (w : Option Watch) : Still False o s (t.updBay fun b => { b with heatWatch := w }) :=
  h.trans ⟨rfl, rfl, rfl, rfl, fun _ e => e, id, fun _ e => e, nofun, fun h1 h2 => ⟨h1, h2, rfl, id⟩, id⟩

/-- A drawing state entered (R49): without the coach HEAT's set does not match, and stops it at once. -/
theorem heatDraw (hd : t.drawDue = true) : Still (t.bay.coach.level = false) o t t.heatDraw := by
  have hs : t.heat.state = .announced := by
    simp only [State.drawDue, Bool.and_eq_true, beq_iff_eq] at hd
    exact hd.1.1.1.1
  have hoff {p : Prop} (e : t.heat.state = .off) : p := by rw [hs] at e; cases e
  unfold State.heatDraw
  dsimp only
  generalize hv : (if t.cabin < t.target then (t.updHeat fun h => { h with state := .heating }).beginRun
    else t.updHeat fun h => { h with state := .holding, holdRequest := t.holdNow }) = v
  have drawing : Still False o t v ∧ v.heat.state ≠ .off := by
    rw [← hv]
    split
    · obtain ⟨r, e⟩ := beginRun_form (t.updHeat fun h => { h with state := .heating })
      rw [e]
      exact ⟨((refl t).heat _ (ho := hoff)).runs _, by simp [State.updHeat]⟩
    · exact ⟨(refl t).heat _ (ho := hoff), by simp [State.updHeat]⟩
  obtain ⟨h1, hne⟩ := drawing
  have h2 := h1.heat fun h => { h with drawingSince := some t.now }
  generalize hu : (if (v.updHeat fun h => { h with drawingSince := some t.now }).lamp.window.isSome = true then
    (v.updHeat fun h => { h with drawingSince := some t.now }).updHeat fun h => { h with waiting := some .first }
    else (v.updHeat fun h => { h with drawingSince := some t.now }).setCount 1) = u
  have h3 : Still False o t u ∧ u.heat.state ≠ .off := by
    rw [← hu]
    split
    · exact ⟨h2.heat _, hne⟩
    · exact ⟨h2.setCount _, by rw [setCount_heatState]; exact hne⟩
  obtain ⟨h4, hnu⟩ := h3
  split
  · rename_i ha
    refine (h4.watches _).absent fun hc => ?_
    have : u.level .coachPresent = false := by show u.bay.coach.level = false; rw [h4.coach]; exact hc
    simp [State.newWatch, State.watchMatches, this] at ha
  · refine absent (heatDisturbed (h4.watches _) hnu) fun _ => ?_
    obtain ⟨d1, d2, -⟩ := heatDisturbed_drops (u.updBay fun b => { b with
      heatWatch := some (u.newWatch [(.plugLatched, true), (.coachPresent, true)]) })
    exact ⟨d1, d2⟩

/-- HEAT's and SHARE's conditions. -/
theorem heatRule (h : s.heatRule = some t) : Still (s.bay.coach.level = false) (s.start.station ≠ .operating) s t := by
  have r := refl (a := s.bay.coach.level = false) (o := s.start.station ≠ .operating) s
  unfold State.heatRule at h
  split at h
  · cases h
    rename_i hs
    exact r.heatSchedule (by simpa [State.operating] using heatAllowed_operating hs.2)
  · split at h
    · cases h; exact r.heatLeave _ fun _ => rfl
    · split at h
      · cases h; exact r.announceDemand
      · split at h
        · cases h; exact r.compute
        · split at h
          · cases h; exact r.regrant
          · split at h
            · cases h; exact r.heatPlace _
            · split at h
              · cases h; exact heatDraw ‹_›
              · split at h
                · cases h; exact r.riseOne
                · split at h
                  · cases h; exact ite r.riseOne (r.heat _)
                  · cases h

end Still

end Sys2Proof.Machine
end

