-- ==== Sys2Proof/Proofs/StillRules.lean ====
section
namespace Sys2Proof.Machine

-- The many short proofs below are elaborated one at a time: each in a thread of its own, they exhaust the memory limit.
set_option Elab.async false

variable {s t u : State} {a o : Prop}

namespace Still

/-! ### BAY, DEPART's lane, LINK's orders -/

theorem openLatch (h : Still a o s t) : Still a o s t.openLatch := ite (h.bay _) (h.bay _)

theorem closeLatch (h : Still a o s t) : Still a o s t.closeLatch := by
  unfold State.closeLatch
  exact ite (h.bay _) ((h.bay _).bay _)

theorem latchOpenOrder (h : Still a o s t) : Still a o s t.latchOpenOrder := (h.bay _).openLatch
theorem latchCloseOrder (h : Still a o s t) : Still a o s t.latchCloseOrder := ite (h.bay _).closeLatch (h.bay _)
theorem latchHeadChange (h : Still a o s t) : Still a o s t.latchHeadChange := ite h.latchCloseOrder h

theorem latchInserted (h : Still a o s t) : Still a o s t.latchInserted := by
  have h1 {c : Prop} [Decidable c] := ite (c := c) (h.bay fun b => { b with closeAt := t.after Config.latchDelay }) h
  have h2 := h.bay fun b => { b with closeAt := none, latchCheck := none }
  exact ite (ite (h1.bay _) h1) (ite h2.openLatch h2)

theorem writeHeld (h : Still a o s t) : Still a o s t.writeHeld := (h.writeLane _).depart _
theorem claimLane (h : Still a o s t) (l : Nat) : Still a o s (t.claimLane l) := (h.writeLane _).depart _

theorem laneRound (ls : List Nat) : ∀ {t : State} (_ : Still a o s t), Still a o s (State.laneRound ls t) := by
  induction ls with
  | nil => exact fun h => h.depart _
  | cons l ls ih => exact fun h => ite (ih h) (ite (ih (h.depart _)) (h.claimLane l))

theorem startRound (h : Still a o s t) : Still a o s t.startRound := laneRound _ (h.depart _)

theorem giveUpLane (h : Still a o s t) : Still a o s t.giveUpLane := by
  unfold State.giveUpLane; dsimp only
  refine Still.depart ?_ _
  split
  · exact ite (h.writeLane _) h.emptyLane
  · exact h.writeLane _
  all_goals exact h

theorem dropSilent (h : Still a o s t) : Still a o s t.dropSilent := by
  unfold State.dropSilent
  exact ((ite h.emptyLane h).line _).depart _

theorem discardWaits (h : Still a o s t) : Still a o s t.discardWaits := (h.depart _).bay _

theorem departHeadChange (h : Still a o s t) : Still a o s t.departHeadChange := by
  unfold State.departHeadChange
  exact ((ite h h.giveUpLane).depart _).bay _

theorem refuse (h : Still a o s t) (r : RefusalReason) : Still a o s (t.refuse r) := h.depart _

theorem selectClass (h : Still a o s t) : Still a o s t.selectClass := by
  unfold State.selectClass; split
  · exact h
  · exact ite (h.link _) ((h.link _).writeFault _ _ _)

theorem linkResume (h : Still a o s t) : Still a o s t.linkResume := ite (h.link _) h

/-! ### PLANS -/

theorem mapHead (h : Still a o s t) (f : Plan → Plan) : Still a o s (t.mapHead f) := h.plans _
theorem reorder (h : Still a o s t) : Still a o s t.reorder := h.plans _

theorem setPhase (h : Still a o s t) (p : Phase) : Still a o s (t.setPhase p) := by
  have k := h.mapHead fun x => { x with phase := p }
  unfold State.setPhase; dsimp only; split
  · exact h
  · split
    · split
      · exact k.lampPhaseLost.heatJudged
      · exact k.lampPhaseLost.heatJudged
      · exact k.lampOwed
      · exact k
    · split
      · exact (k.lampMatched.heatRematch.depart _).selectClass
      · exact k

theorem matchCoach (h : Still a o s t) : Still a o s t.matchCoach := by
  unfold State.matchCoach; split
  · exact h
  · split
    · exact h
    · have cleared {c : Prop} [Decidable c] (k : Phase) : Still a o s (State.setPhase (if c then t.clearKey plan01 else t) k) :=
        setPhase (ite (h.clearKey (by decide)) h) k
      dsimp only
      split
      · exact cleared _
      · exact ite (cleared _) ((h.setPhase _).writeFault _ _ _)

theorem evalOverdue (h : Still a o s t) : Still a o s t.evalOverdue := by
  unfold State.evalOverdue; split
  · exact ite ((h.mapHead _).clearKey (by decide)) (ite ((h.mapHead _).writeFault _ _ _).heatOff h)
  · exact h

theorem headChanged (h : Still a o s t) (f : Option Nat) : Still a o s (t.headChanged f) := by
  have k := ((h.plans fun p => { p with list := p.list.map (demote f) }).clearKey (k := plan01) (by decide)).clearKey
    (k := plan02) (by decide)
  unfold State.headChanged
  exact ite h k.heatHeadChange.takeFigures.lampHeadChange.departHeadChange.latchHeadChange.selectClass.matchCoach.evalOverdue

theorem removePlan (h : Still a o s t) (i : Nat) : Still a o s (t.removePlan i) := (h.plans _).headChanged _

theorem headRevised (h : Still a o s t) (x y : PlanData) : Still a o s (t.headRevised x y) := by
  unfold State.headRevised
  have k := (((ite (c := x.cls ≠ y.cls ∨ x.target ≠ y.target) (h.heat (fun h => { h with run := none }) (hn := fun _ => rfl))
    h).takeFigures.heat fun h => { h with compute := true }).share fun x => { x with fresh := true }).lampRevised x y
  exact ite k.selectClass k

theorem revisePinned (h : Still a o s t) (x y : PlanData) : Still a o s (t.revisePinned x y) := by
  unfold State.revisePinned
  have k := h.mapHead fun h => { h with data := y }
  have l := (k.mapHead fun h => { h with phase := .waitingCoach }).selectClass.heatHeadChange.lampHeadChange.reorder
  exact ite (k.headRevised _ _).evalOverdue (ite l.takeFigures.matchCoach.evalOverdue (l.headChanged _))

theorem reviseHead (h : Still a o s t) (x y : PlanData) : Still a o s (t.reviseHead x y) := by
  unfold State.reviseHead
  have k := (h.mapHead fun h => { h with data := y }).reorder
  exact ite (k.headRevised _ _).matchCoach.evalOverdue (k.headChanged _)

theorem applyHeld (h : Still a o s t) : Still a o s t.applyHeld := by
  have k := h.mapHead fun x => { x with held := none }
  unfold State.applyHeld; split
  · exact h
  · dsimp only
    split
    · exact h
    · exact ite (k.revisePinned _ _) (k.reviseHead _ _)
    · exact k.removePlan _

theorem unpinHead (h : Still a o s t) (r : Bool) : Still a o s (t.unpinHead r) := by
  have k := h.setPhase .waitingCoach
  unfold State.unpinHead; dsimp only; split
  · exact k.applyHeld
  · exact ite (ite k.reorder.matchCoach k.reorder) (k.reorder.headChanged _)

/-! ### DEPART over PLANS, LINK and BAY -/

theorem fallPhase (h : Still a o s t) : Still a o s t.fallPhase := by
  unfold State.fallPhase; dsimp only
  exact setPhase ((ite h.discardWaits.latchCloseOrder.linkResume h.discardWaits).depart _) _

theorem fallBack (h : Still a o s t) (r : Option RefusalReason) : Still a o s (t.fallBack r) := by
  unfold State.fallBack; dsimp only; split
  · exact h.giveUpLane.fallPhase.refuse _
  · exact h.giveUpLane.fallPhase

theorem coachGone (h : Still a o s t) : Still a o s t.coachGone := by
  unfold State.coachGone
  exact (((h.setPhase _).depart _).bay _).writeHeld

theorem enterCleared (h : Still a o s t) : Still a o s t.enterCleared := by
  have k {w : Watch} := (((h.setPhase .cleared).depart fun d =>
    { d with unlatchWait := none, refusal := none, clearance := t.after (t.conf.clearance * Config.second) }).bay
      fun b => { b with departWatch := some w })
  unfold State.enterCleared
  exact ite k k.coachGone

theorem unlatch (h : Still a o s t) : Still a o s t.unlatch := by
  have k {w : Watch} := ((h.latchOpenOrder.depart fun d => { d with unlatchWait := t.after Config.unlatchWait }).bay
    fun b => { b with departWatch := some w })
  unfold State.unlatch
  exact ite k k.enterCleared

theorem departUnplugged (h : Still a o s t) : Still a o s t.departUnplugged := by
  have k := (h.giveUpLane.discardWaits.depart fun d => { d with releaseBegun := false, key := none, lanes := [] }).unpinHead true
  unfold State.departUnplugged
  split
  · exact h.unpinHead _
  · exact h.unpinHead _
  · exact k
  · exact k
  · exact k
  · exact h.enterCleared
  all_goals exact h

/-! ### The reader -/

theorem beginPass (h : Still a o s t) : Still a o s t.beginPass := (h.faults _).place _

theorem beginRead (h : Still a o s t) (k : ReadKind) : Still a o s (t.beginRead k) := by
  unfold State.beginRead
  exact ((ite h h.holdSummary).faults _).beginPass

theorem readerPlace (n : Nat) : ∀ {t : State} (_ : Still a o s t), Still a o s (State.readerPlace n t) := by
  induction n with
  | zero => exact fun h => h
  | succ n ih => exact fun h => ite (ite (h.faults _) (ite (ih ((h.place _).faults _)) h)) h

theorem reportRead (h : Still a o s t) (b : Bool) : Still a o s (t.reportRead b) := ite (h.faults _) h
theorem readerLinkLost (h : Still a o s t) : Still a o s t.readerLinkLost := ite ((h.faults _).releaseSummary.reportRead _) h
theorem readerUnplugged (h : Still a o s t) : Still a o s t.readerUnplugged := h.readerLinkLost.faults _

theorem finalReadOrder (h : Still a o s t) : Still a o s t.finalReadOrder :=
  ite (ite ((h.withdraw _).beginRead _) (h.beginRead _)) (h.faults _)

theorem finalReport (h : Still a o s t) (b : Bool) : Still a o s (t.finalReport b) :=
  ite (ite (h.fallBack _) (ite (h.fallBack _) (ite ((h.setPhase _).depart _).startRound (h.fallBack _)))) h

/-! ### The watched conditions -/

theorem departRule (h : s.departRule = some t) : Still a o s t := by
  have r := refl (a := a) (o := o) s
  revert h; unfold State.departRule
  (repeat' split) <;> intro h <;> cases h
  · exact (r.faults _).finalReport _
  · exact ((r.dropSilent.fallPhase).refuse _)
  · exact r.fallBack _
  · exact r.applyHeld
  · exact (r.setPhase _).finalReadOrder
  · exact r.unlatch

/-- In DOWN no condition of LINK holds; elsewhere a wake leaves the other blocks. -/
theorem linkRule (h : s.linkRule = some t) : Still a o s t := by
  have halted : s.link.state = .halted := by
    revert h; unfold State.linkRule
    split
    · exact fun _ => (‹_ ∧ _›).1
    · split
      · exact fun _ => (‹_ ∧ _›).1
      · exact nofun
  have start (v : State) (hv : Still a o s v) (f : Start → Start) (hf : (f v.start).station = v.start.station) : Still a o s (v.updStart f) :=
    hv.trans ⟨rfl, hf, rfl, rfl, fun _ e => e, id, fun _ e => e, fun _ e => e, fun h1 h2 => ⟨h1, h2, rfl, id⟩, id⟩
  have linked (f : Link → Link) : Still a o s (s.updLink f) := (refl s).link f fun e => by rw [halted] at e; cases e
  have woken : Still a o s s.wake := by
    unfold State.wake
    exact (start _ (linked _) (fun x => { x with wakeAfterHalt := false }) rfl).place _
  revert h; unfold State.linkRule
  split
  · intro h; cases h; exact ite woken (start _ (linked _) (fun x => { x with wakeAfterHalt := false }) rfl)
  · split <;> intro h <;> cases h
    exact woken

theorem readyRule (h : s.readyRule = some t) : Still a o s t := by
  have r := refl (a := a) (o := o) s
  revert h; unfold State.readyRule
  (repeat' split) <;> intro h <;> cases h
  · exact r.setPhase _
  · exact r.setPhase _
  · exact r.lampRerun
  · exact r.lampStart

theorem stepRule (h : stepRule s = some t) : Still (s.bay.coach.level = false) (s.start.station ≠ .operating) s t := by
  unfold Machine.stepRule at h
  split at h
  · cases h; exact departRule ‹_›
  · split at h
    · cases h; exact linkRule ‹_›
    · split at h
      · cases h; exact readyRule ‹_›
      · exact heatRule h

theorem settle (n : Nat) : ∀ s : State, Still (s.bay.coach.level = false) (s.start.station ≠ .operating) s (settle n s) := by
  induction n with
  | zero => exact fun s => refl s
  | succ n ih =>
    intro s
    unfold Machine.settle
    split
    · rename_i t h
      have k := stepRule h
      exact k.trans (k.coach ▸ k.station ▸ ih t)
    · exact refl s

theorem settled (s : State) : Still (s.bay.coach.level = false) (s.start.station ≠ .operating) s (settled s) :=
  ite (((refl s).share _).trans (settle _ s.fresh) |>.share _) (refl s)

/-- What closes a command leaves these registers. -/
theorem finish (s : State) : Still a o s (finish s) := by
  have h1 : Still a o s s.fresh.noteClose := (((refl s).share _).line _).depart _
  have h2 := ite (c := s.fresh.noteClose.faults.shown = s.fresh.noteClose.faults.summary) h1 h1.writeSummary
  have h3 : ∀ {u}, Still a o s u → Still a o s u.statusClose := fun h => ite h (h.line _)
  have h4 : ∀ {u}, Still a o s u → Still a o s u.signalClose := fun h => ite h (h.bay _)
  exact ite (h4 (h3 h2)) (h4 h1)

theorem closed (s : State) : Still (s.bay.coach.level = false) (s.start.station ≠ .operating) s (Machine.finish (Machine.settled s)) := (settled s).trans (finish _)

end Still

end Sys2Proof.Machine
end

