-- ==== Sys2Proof/Proofs/PlugProofs.lean ====
section
namespace Sys2Proof.Machine

/-! ## BAY: PLUG INSERTED turns (R84, R97, R160) -/

variable {s t u : State} {a o : Prop}

/-- The plug in, in AUTOMATIC mode with the latch open: the latch closes a second later (R160). -/
theorem latchInserted_in (hp : s.bay.inserted.level = true) (hm : s.bay.latchMode = .automatic) (hc : s.bay.latchClosed = false) :
    s.latchInserted = { s with bay := { s.bay with closeAt := some (s.now + 1000) } } := by
  rw [State.latchInserted, if_pos (show s.level .plugInserted = true from hp), if_pos hm, if_neg (by simp [hc])]
  rfl

/-- IDENTIFY placed as a DOWN link wakes (R84, R88, R89). -/
theorem plugIn_down (hs : s.link.state = .down) (hc : s.link.count .ident = 0) :
    s.plugIn = ({ s with
      start := { s.start with wakeAfterHalt := false },
      link := { s.link with
        identified := false, state := .waking, profile := s.conf.wakeProfile, wakeDue := none, resume := false,
        queue := s.link.queue ++ [{ job := .ident, kind := .identify, arg := 0, closing := false }] } } : State).begun := by
  have hcount : s.link.count .ident < 1 := by omega
  rw [State.plugIn, if_pos hs, State.wake, State.identify, place_taken (by rfl) (by exact hcount)]
  rfl

theorem lampEnd_link (s : State) (x : LampState) : (s.lampEnd x false).link.number = s.link.number ∧
    (s.lampEnd x false).link.exchange.isSome = s.link.exchange.isSome := by
  obtain ⟨_, _, _, e⟩ := lampWithdraw_cases s
  unfold State.lampEnd
  rw [e]
  exact ⟨rfl, Option.isSome_map⟩

theorem lampUnplugged_link (s : State) : s.lampUnplugged.link.number = s.link.number ∧
    s.lampUnplugged.link.exchange.isSome = s.link.exchange.isSome := by
  unfold State.lampUnplugged
  cases s.lamp.state with
  | idle => exact ⟨rfl, rfl⟩
  | abandoned => exact ⟨rfl, rfl⟩
  | waiting => exact lampEnd_link s .idle
  | done => exact lampEnd_link s .idle
  | _ => exact lampEnd_link s .abandoned

/-- LAMP's watch set judged cuts no exchange (R113). -/
theorem lampWatched_link (s : State) (i : Input) : (s.lampWatched i).link.number = s.link.number ∧
    (s.lampWatched i).link.exchange.isSome = s.link.exchange.isSome := by
  unfold State.lampWatched
  dsimp only
  split
  · exact lampUnplugged_link _
  · exact ⟨rfl, rfl⟩

theorem stable_lampWatched (s : State) (i : Input) : (s.lampWatched i).stable = s.stable := by
  unfold State.lampWatched
  dsimp only
  split <;> simp

/-! ### Plug removal in its steps (R97) -/

/-- The exchange cut, the link DOWN. -/
def State.cut (s : State) : State :=
  s.updLink fun l =>
    { l with exchange := none, state := .down, lastEnd := if l.exchange.isSome then some s.now else l.lastEnd }

/-- The outcome of the exchange cut. -/
def State.cutTold (s : State) : State :=
  match s.link.exchange with
  | some x => s.cut.deliver x.req x.withdrawn .aborted
  | none => s.cut

/-- The queue emptied, the coach forgotten. -/
def State.forgotten (s : State) : State :=
  (s.purge.linkDown.updLink fun l => { l with coach := none, wakeDue := none, resume := false, failures := 0 }).updStart
    fun x => { x with wakeAfterHalt := false }

/-- What the neighbours do about it. -/
def State.unplugTold (s : State) : State :=
  let t := s.heatUnplugged.lampUnplugged.readerUnplugged
  (if t.inPhase .wrongCoach then t.matchCoach else t).departUnplugged

theorem plugOut_eq (s : State) : s.plugOut = s.cutTold.forgotten.unplugTold := rfl

theorem stable_cutTold (s : State) : s.cutTold.stable =
    { s.stable with lastEnd := if s.link.exchange.isSome then some s.now else s.link.lastEnd } := by
  unfold State.cutTold
  split
  · exact (stable_deliver _ _ _ _).trans rfl
  · rfl

theorem stable_forgotten (s : State) : s.forgotten.stable = { s.stable with coach := none } :=
  congrArg (fun x : Stable => { x with coach := none }) ((stable_linkDown s.purge).trans (stable_purge s))

theorem stable_unplugTold (s : State) : s.unplugTold.stable = s.stable := by
  unfold State.unplugTold
  dsimp only
  rw [stable_departUnplugged]
  split <;> simp

theorem stable_plugOut (s : State) : s.plugOut.stable =
    { s.stable with coach := none, lastEnd := if s.link.exchange.isSome then some s.now else s.link.lastEnd } := by
  rw [plugOut_eq, stable_unplugTold, stable_forgotten, stable_cutTold]

/-- The reader places again on an ABORTED while it reads, or takes no action (R124, R127). -/
theorem readerOutcome_aborted (s : State) (r : Request) (w : Bool) :
    s.readerOutcome r w .aborted = s ∨ s.readerOutcome r w .aborted = State.readerPlace 4 s := by
  unfold State.readerOutcome
  split
  · split
    · exact Or.inr rfl
    · exact Or.inl rfl
  · cases s.faults.reader <;> cases r.kind <;> simp

namespace Still

/-- ABORTED delivered (R92). -/
theorem deliver_aborted (h : Still a o s t) (r : Request) (w : Bool) : Still a o s (t.deliver r w .aborted) := by
  have answered (k : ReqKind) : Still a o s (t.heatAnswered k .aborted) := by
    cases k with
    | heaterDisable => exact h.heat (fun h => { h with enableHeld := false }) (he := fun _ => rfl)
    | _ => exact h
  unfold State.deliver
  split
  · exact h
  · exact (answered _).offerKept
  · exact h.lampOutcome_aborted _ _
  · obtain e | e := readerOutcome_aborted t r w <;> rw [e]
    · exact h
    · exact readerPlace 4 h

/-- The plug out: the link DOWN with nothing to do, the reading absent, and what the neighbours do about it (R97, R44). -/
theorem plugOut (s : State) : ∃ x, x.link.state = .down ∧ x.link.exchange = none ∧ x.link.number = s.link.number ∧
    x.link.queue = [] ∧ x.heat.reading = none ∧ x.heat.pollDue = none ∧ Still a o x s.plugOut := by
  have told : Still a o s.cut s.cutTold := by
    unfold State.cutTold
    split
    · exact (refl _).deliver_aborted _ _
    · exact refl _
  obtain ⟨hs, hx, hn, -⟩ := told.cut rfl rfl
  have purged : Still a o (s.cutTold.updLink fun l => { l with queue := [] }) s.cutTold.purge :=
    foldl (fun h r => h.deliver_aborted r false) _ (refl _)
  obtain ⟨ps, px, pn, pq⟩ := purged.cut hs hx
  refine ⟨s.cutTold.forgotten.heatUnplugged, rfl, px, pn.trans hn, pq rfl, rfl, rfl, ?_⟩
  have gone : Still a o s.cutTold.forgotten.heatUnplugged s.cutTold.forgotten.heatUnplugged.lampUnplugged.readerUnplugged :=
    (refl _).lampUnplugged.readerUnplugged
  exact departUnplugged (ite gone.matchCoach gone)

end Still

end Sys2Proof.Machine

open Sys2Proof Sys2Proof.Machine

/-- Settles O53: the plug inserted and removed. -/
theorem plugInsertedTurns : Obligations.PlugInsertedTurns := by
  intro s hr ht
  have run : exec .plugInsertedChange s = conclude (s.turn .plugInserted).plugChanged :=
    (if_pos (changeDue_of_turned ht)).trans (if_pos hr)
  refine ⟨fun hp hs hm hc hw hq => does_of (run.trans (congrArg conclude ?_)), fun hp => ?_⟩
  · have hlevel : (s.turn .plugInserted).level .plugInserted = true := hp
    rw [State.plugChanged, lampWatched_none (by exact hw)]
    dsimp only
    rw [if_pos hlevel, plugIn_down (by exact hs) (by exact hq), latchInserted_in]
    · exact begun_through (fun x => { x with bay := { x.bay with closeAt := some (x.now + 1000) } }) (fun _ => rfl) rfl rfl rfl
    all_goals rw [begun_form]
    · exact hp
    · exact hm
    · exact hc
  · refine ⟨_, run, ?_⟩
    have hstable := stable_lampWatched (s.turn .plugInserted) .plugInserted
    obtain ⟨hn, hx⟩ := lampWatched_link (s.turn .plugInserted) .plugInserted
    have hlevel : ((s.turn .plugInserted).lampWatched .plugInserted).level .plugInserted = false :=
      (congrArg (fun x : Stable => x.pins.2.1.level) hstable).trans hp
    have form : (s.turn .plugInserted).plugChanged = ((s.turn .plugInserted).lampWatched .plugInserted).plugOut.latchInserted := by
      unfold State.plugChanged
      dsimp only
      rw [if_neg (by rw [hlevel]; decide)]
    rw [form]
    obtain ⟨x, x1, x2, x3, x4, x5, x6, hstill⟩ := Still.plugOut (a := False) (o := False) ((s.turn .plugInserted).lampWatched .plugInserted)
    have k := hstill.latchInserted.trans ((Still.closed _).weaken False.elim False.elim)
    obtain ⟨k1, k2, k3, k4⟩ := k.cut x1 x2
    refine ⟨?_, k1, k4 x4, k2, k3.trans (x3.trans hn), k.reading.trans x5, k.poll.trans x6⟩
    rw [finish_stable, settled_stable, stable_latchInserted, stable_plugOut, hstable, hx]
    have hlast : ((s.turn .plugInserted).lampWatched .plugInserted).link.lastEnd = s.link.lastEnd :=
      congrArg Stable.lastEnd hstable
    have hclock : ((s.turn .plugInserted).lampWatched .plugInserted).clock = s.clock := congrArg Stable.clock hstable
    have hnow : ((s.turn .plugInserted).lampWatched .plugInserted).now = s.now := by unfold State.now; rw [hclock]
    rw [hlast, hnow]
    rfl

end

