-- ==== Sys2Proof/Proofs/MatchSteps.lean ====
section
namespace Sys2Proof.Machine

/-! ## Matching and the ends of a lamp check, where the link has nothing to do (R12, R86, R101, R113) -/

variable {s t u : State} {h : Plan} {rest : List Plan} {c : Coach}

/-! ### LAMP -/

/-- Nothing is withdrawn from an empty queue (R93). -/
theorem lampWithdraw_nil (hq : s.link.queue = []) (hx : s.link.exchange = none) : s.lampWithdraw = s := by
  have e : s.withdraw .lamp = s := by
    have h1 : ({ s.link with
        queue := s.link.queue.filter fun r => r.job != .lamp,
        exchange := s.link.exchange.map fun x => if x.req.job = .lamp then { x with withdrawn := true } else x } : Link) = s.link := by
      rw [hq, hx]
      exact (congrArg (fun q => ({ s.link with queue := q, exchange := none } : Link)) hq.symm).trans
        (congrArg (fun x => ({ s.link with exchange := x } : Link)) hx.symm)
    exact congrArg (fun l => ({ s with link := l } : State)) h1
  rw [State.lampWithdraw, hq]
  exact e

/-- A check ended with no lamp on and no request to take back (R113). -/
def State.lampQuit (s : State) (x : LampState) : State :=
  { s with
    lamp := { s.lamp with
      state := x, current := none, baseline := none, window := none, outstanding := none, restart := false,
      closing := false, recheck := false, doneBySkip := false, results := [] },
    bay := { s.bay with lampWatch := none } }

theorem lampEnd_quit (x : LampState) (hq : s.link.queue = []) (hx : s.link.exchange = none) (hl : s.lamp.lit = false) :
    s.lampEnd x true = s.lampQuit x := by
  unfold State.lampEnd
  rw [lampWithdraw_nil hq hx, hl]
  rfl

theorem lampHeadChange_ended (hq : s.link.queue = []) (hx : s.link.exchange = none) (hl : s.lamp.lit = false) :
    s.lampHeadChange = s.checkEnded := by
  unfold State.lampHeadChange State.checkEnded
  split
  · rfl
  · exact lampEnd_quit _ hq hx hl

theorem lampHeadChange_idle (h : s.lamp.state = .idle) : s.lampHeadChange = s := if_pos h

theorem lampMatched_waits (hl : s.plans.list = h :: rest) (hs : s.lamp.state = .idle ∨ s.lamp.state = .abandoned) (hc : s.link.coach = some c) :
    s.lampMatched = { s with lamp := { s.lamp with
      state := if h.data.skipLamps then .done else .waiting, checked := some c.id, current := none, results := [],
      doneBySkip := h.data.skipLamps } } := by
  have hid : s.coachId = some c.id := by rw [State.coachId, hc]; rfl
  rw [State.lampMatched, if_pos hs, State.lampWait, head_of_list hl, hid]
  rfl

/-! ### The class in force (R86) -/

theorem selectClass_none (hc : s.link.coach = none) : s.selectClass = s := by unfold State.selectClass; rw [hc]

theorem waking_iff (x : LinkState) : x.waking' = decide (x = .down ∨ x = .waking) := by cases x <;> rfl

/-- The coach's own class, or a plan class that is the same: BAY-05 is not written. -/
theorem selectClass_selected (hc : s.link.coach = some c)
    (hp : ∀ p, s.head = some p → p.data.coach = c.id → p.data.cls = c.cls) : s.selectClass = s.selected c.cls := by
  have profile : (if s.link.state.waking' = true then s.link.profile else (s.classCfg c.cls).profile) =
      if s.link.state = .down ∨ s.link.state = .waking then s.link.profile else (s.classCfg c.cls).profile := by
    rw [waking_iff]
    simp only [decide_eq_true_eq]
  have same : ({ s with link := { s.link with
      cls := some c.cls,
      profile := if s.link.state.waking' = true then s.link.profile else (s.classCfg c.cls).profile } } : State) =
      s.selected c.cls :=
    congrArg (fun p => ({ s with link := { s.link with cls := some c.cls, profile := p } } : State)) profile
  unfold State.selectClass
  rw [hc]
  dsimp only
  split
  · rename_i p hh
    by_cases hid : p.data.coach = c.id
    · rw [if_pos hid, Option.getD_some, hp p hh hid, if_pos rfl]
      exact same
    · rw [if_neg hid, Option.getD_none, if_pos rfl]
      exact same
  · rw [Option.getD_none, if_pos rfl]
    exact same

/-! ### Matching (R12) -/

theorem heatRematch_idle (hs : s.heat.state ≠ .stopped) : s.heatRematch = s := if_neg hs

/-- The plan list with its head in another phase. -/
def State.headIn (s : State) (h : Plan) (rest : List Plan) (p : Phase) : State :=
  { s with plans := { s.plans with list := { h with phase := p } :: rest } }

/-- An unpinned head enters PREPARING (R12, R101, R135, R86). -/
theorem setPhase_preparing (hl : s.plans.list = h :: rest) (hp : h.phase.pinned = false) : s.setPhase .preparing =
    (((s.headIn h rest .preparing).lampMatched.heatRematch).updDepart fun d => { d with inCharge := true }).selectClass := by
  unfold State.setPhase
  dsimp only
  rw [phase_of_list hl]
  dsimp only
  rw [hp, mapHead_eq hl, if_neg (by decide)]
  rfl

/-- A head that waits is matched with its own coach: PREPARING, a lamp check owed, coach in charge, the class selected. -/
theorem matchCoach_own (hl : s.plans.list = h :: rest) (hp : h.phase = .waitingCoach) (hc : s.link.coach = some c)
    (hid : c.id = h.data.coach) (hcls : h.data.cls = c.cls) (ho : s.heat.state ≠ .stopped)
    (hlamp : s.lamp.state = .idle ∨ s.lamp.state = .abandoned) :
    s.matchCoach = ((s.headIn h rest .preparing).prepared c.id h.data.skipLamps).selected c.cls := by
  have hcoach : s.coachId = some c.id := by rw [State.coachId, hc]; rfl
  have hpin : h.phase.pinned = false := by rw [hp]; rfl
  unfold State.matchCoach
  rw [head_of_list hl]
  dsimp only
  rw [hpin, if_neg (by decide), hcoach]
  dsimp only
  rw [if_pos hid, if_neg (by rw [hp]; decide)]
  rw [setPhase_preparing hl hpin, lampMatched_waits (s := s.headIn h rest .preparing) (h := { h with phase := .preparing })
    (by rfl) hlamp (by exact hc), heatRematch_idle (by exact ho), selectClass_selected (c := c) (by exact hc)]
  · rfl
  · intro p hh _
    cases hh
    exact hcls

end Sys2Proof.Machine
end

