-- ==== Sys2Proof/Proofs/CoachProofs.lean ====
section
namespace Sys2Proof.Machine

/-! ## BAY: COACH PRESENT turns (R150) -/

variable {s t u : State} {h : Plan} {rest : List Plan} {c : Coach} {a o : Prop}

/-! ### The head unpinned and matched anew (R150, R113, R12) -/

theorem heatJudged_off (hs : s.heat.state = .off) : s.heatJudged = s := if_neg (by rw [State.heatBarred, hs]; simp)

theorem setPhase_lost (hl : s.plans.list = h :: rest) (hp : h.phase.pinned = true) (hs : s.heat.state = .off)
    (hlamp : s.lamp.state = .done) (hlit : s.lamp.lit = false) (hq : s.link.queue = []) (hx : s.link.exchange = none) :
    s.setPhase .waitingCoach = (s.headIn h rest .waitingCoach).lampQuit .idle := by
  have hlost : (s.headIn h rest .waitingCoach).lampPhaseLost = (s.headIn h rest .waitingCoach).lampQuit .idle := by
    have hstate : (s.headIn h rest .waitingCoach).lamp.state = .done := hlamp
    rw [State.lampPhaseLost, hstate, if_neg (by decide)]
    exact lampEnd_quit _ hq hx hlit
  unfold State.setPhase
  dsimp only
  rw [phase_of_list hl]
  dsimp only
  rw [if_pos hp, mapHead_eq hl]
  exact (congrArg State.heatJudged hlost).trans (heatJudged_off (by exact hs))

theorem reorder_single (hl : s.plans.list = [h]) (hp : h.phase.pinned = false) : s.reorder = s := by
  have e : orderPlans s.plans.list = s.plans.list := by
    rw [hl]
    simp only [orderPlans, hp, Bool.false_eq_true, if_false]
    rfl
  exact congrArg (fun l => ({ s with plans := { s.plans with list := l } } : State)) e

/-- The only head unpinned over its own coach: PREPARING again with a new lamp check. -/
theorem unpinHead_single (hl : s.plans.list = [h]) (hp : h.phase.pinned = true) (hh : h.held = none) (hs : s.heat.state = .off)
    (hlamp : s.lamp.state = .done) (hlit : s.lamp.lit = false) (hq : s.link.queue = []) (hx : s.link.exchange = none)
    (hc : s.link.coach = some c) (hid : c.id = h.data.coach) (hcls : c.cls = h.data.cls) :
    s.unpinHead true =
      ((((s.headIn h [] .waitingCoach).lampQuit .idle).headIn h [] .preparing).prepared c.id h.data.skipLamps).selected c.cls := by
  have hlist : ((s.headIn h [] .waitingCoach).lampQuit .idle).plans.list = [{ h with phase := .waitingCoach }] := rfl
  unfold State.unpinHead
  dsimp only
  rw [setPhase_lost hl hp hs hlamp hlit hq hx, head_of_list hlist, Option.bind_some, hh]
  dsimp only
  rw [reorder_single hlist rfl, if_pos rfl, if_pos rfl]
  exact matchCoach_own (h := { h with phase := .waitingCoach }) hlist rfl hc hid hcls.symm (by simp [State.headIn, State.lampQuit, hs]) (Or.inl rfl)

/-! ### What the watch sets do not hear -/

theorem departWatched_other {i : Input} {w : Watch} (hw : s.bay.departWatch = some w) (hi : w.pairs.any (·.1 == i) = false) :
    s.departWatched i = s := by
  have e : ({ s.bay with departWatch := some w } : Bay) = s.bay := congrArg (fun w => { s.bay with departWatch := w }) hw.symm
  unfold State.departWatched State.judgeWatch
  rw [hw]
  dsimp only
  rw [hi]
  exact congrArg (fun b => ({ s with bay := b } : State)) e

/-- The summary is read by nothing under watch. -/
theorem settled_writeSummary (hs : s.Settled) : s.writeSummary.Settled := by
  obtain ⟨h1, h2, h3, h4⟩ := (stepRule_eq_none _).1 hs
  exact (stepRule_eq_none _).2 ⟨(departRule_eq_none _).2 ((departRule_eq_none _).1 h1 :),
    (linkRule_eq_none _).2 ((linkRule_eq_none _).1 h2 :), (readyRule_eq_none _).2 ((readyRule_eq_none _).1 h3 :),
    (heatRule_eq_none _).2 ((heatRule_eq_none _).1 h4 :)⟩

theorem coachChanged_in (h1 : s.bay.heatWatch = none) (h2 : s.bay.departWatch = none) (hc : s.bay.coach.level = true) :
    s.coachChanged = s.writeSummary := by
  unfold State.coachChanged
  dsimp only
  rw [heatWatched_none h1, departWatched_none h2, State.summaryPresence, if_pos (show s.level .coachPresent = true from hc)]
  exact if_pos hc

/-- The coach gone for FAULTS: no refresh of the summary (R131). -/
def State.unrefreshed (s : State) : State := { s with faults := { s.faults with refresh := none } }

theorem coachChanged_out (h1 : s.bay.heatWatch = none) (hc : (s.departWatched .coachPresent).bay.coach.level = false) :
    s.coachChanged = (s.departWatched .coachPresent).unrefreshed.coachLeft := by
  have hlevel : (s.departWatched .coachPresent).level .coachPresent = false := hc
  have told : (s.departWatched .coachPresent).summaryPresence = (s.departWatched .coachPresent).unrefreshed :=
    if_neg (by rw [hlevel]; decide)
  unfold State.coachChanged
  rw [heatWatched_none h1, told]
  exact if_neg (by rw [show (s.departWatched .coachPresent).unrefreshed.level .coachPresent = false from hc]; decide)

/-! ### CLEARED: the coach has gone (R145) -/

theorem departDisturbed_cleared {l : Nat} (hl : s.plans.list = h :: rest) (hp : h.phase = .cleared) (hc : s.depart.current = some l) :
    s.departDisturbed = { s with
      plans := { s.plans with list := { h with phase := .gone } :: rest },
      line := { s.line with
        lane := s.line.lane.write
          { action := .held, lane := l, key := s.depart.key.getD 0, inTransit := true, singleTry := false } },
      depart := { s.depart with
        inCharge := false, clearance := none, heldRefresh := some (s.now + 10000),
        transit := some (s.now + s.conf.transit.getD (l - 1) 20 * 1000) },
      bay := { s.bay with departWatch := none } } := by
  have hreleasing : s.inPhase .releasing = false := by rw [inPhase_of_list hl, hp]; rfl
  have hcleared : s.inPhase .cleared = true := by rw [inPhase_of_list hl, hp]; rfl
  rw [State.departDisturbed, if_neg (by rw [hreleasing]; decide), if_pos hcleared, State.coachGone,
    setPhase_on hl (by rw [hp]; rfl) (by decide) rfl, hc]
  rw [writeHeld_eq (by exact hc), inPhase_of_list (h := { h with phase := .gone }) (rest := rest) (by rfl)]
  rfl

/-! ### COACH PRESENT gone, phase by phase (R150) -/

theorem coachLeft_headless (hl : s.plans.list = []) : s.coachLeft = { s with depart := { s.depart with inCharge := false } } := by
  have hp : s.phase = none := by rw [State.phase, State.head, hl]; rfl
  unfold State.coachLeft
  rw [hp]
  rfl

theorem coachLeft_waiting (hp : s.phase = some .waitingCoach) (hc : s.depart.inCharge = true) :
    s.coachLeft = { s with
      depart := { s.depart with inCharge := false }, faults := s.faults.write bay04 .advisory none s.depotTime } := by
  unfold State.coachLeft
  rw [hp]
  exact if_pos hc

theorem coachLeft_gone (hp : s.phase = some .gone) : s.coachLeft = { s with depart := { s.depart with inCharge := false } } := by
  unfold State.coachLeft
  rw [hp]
  rfl

/-- A head in PREPARING or READY is unpinned with BAY-04. -/
theorem coachLeft_matched (hp : s.phase = some .preparing ∨ s.phase = some .ready) : s.coachLeft =
    ({ s with depart := { s.depart with inCharge := false }, faults := s.faults.write bay04 .advisory none s.depotTime } :
      State).unpinHead true := by
  unfold State.coachLeft
  rcases hp with hp | hp <;> rw [hp] <;> rfl

/-- A request under way is given up with BAY-04 and its head unpinned (R148, log entry 51). -/
theorem coachLeft_departing (hp : s.phase = some .requested ∨ s.phase = some .finalRead ∨ s.phase = some .claiming ∨
      s.phase = some .releasing) : s.coachLeft =
    (((({ s with depart := { s.depart with inCharge := false }, faults := s.faults.write bay04 .advisory none s.depotTime } :
      State).giveUpLane).discardWaits).updDepart fun d =>
        { d with releaseBegun := false, key := none, lanes := [] }).unpinHead true := by
  unfold State.coachLeft
  rcases hp with hp | hp | hp | hp <;> rw [hp] <;> rfl

/-- The LANE slot as the lane is given up (R148, log entry 66). -/
theorem giveUpLane_form (s : State) : s.giveUpLane = { s with
    line := { s.line with
      lane :=
        if s.depart.own = .held ∨ s.depart.own = .claiming ∧ s.depart.claimSent = true then
          s.line.lane.write
            { action := .release, lane := s.depart.current.getD 0, key := s.depart.key.getD 0, inTransit := false,
              singleTry := false }
        else if s.depart.own = .claiming then { state := .empty, content := none, written := true }
        else s.line.lane },
    depart := s.depart.freed } := by
  unfold State.giveUpLane State.laneContent
  dsimp only
  cases ho : s.depart.own with
  | claiming =>
    cases hc : s.depart.claimSent with
    | true => rw [if_pos (Or.inr ⟨rfl, rfl⟩)]; rfl
    | false => rw [if_neg (by simp), if_pos rfl]; rfl
  | held => rw [if_pos (Or.inl rfl)]; rfl
  | _ =>
    simp only [reduceCtorEq, false_and, or_false, if_false]
    rfl

/-- A matched head's coach gone: BAY-04 (R150). -/
def State.matchGone (s : State) : State :=
  { s with
    faults := s.faults.write bay04 .advisory none s.depotTime, depart := { s.depart with inCharge := false },
    bay := { s.bay with departWatch := none } }

theorem coachLeft_matchGone (hp : s.phase = some .preparing ∨ s.phase = some .ready) (hw : s.bay.departWatch = none) :
    s.coachLeft = s.matchGone.unpinHead true := by
  have e : ({ s with depart := { s.depart with inCharge := false }, faults := s.faults.write bay04 .advisory none s.depotTime } :
      State) = s.matchGone :=
    congrArg (fun w => ({ s with
      faults := s.faults.write bay04 .advisory none s.depotTime, depart := { s.depart with inCharge := false },
      bay := { s.bay with departWatch := w } } : State)) hw
  rw [coachLeft_matched hp, e]

/-- A request given up as the coach has gone: BAY-04, the lane given up, key and lanes gone (R150, R148, log entry 51). -/
def State.requestGone (s : State) : State :=
  { s with
    line := { s.line with
      lane :=
        if s.depart.own = .held ∨ s.depart.own = .claiming ∧ s.depart.claimSent = true then
          s.line.lane.write
            { action := .release, lane := s.depart.current.getD 0, key := s.depart.key.getD 0, inTransit := false,
              singleTry := false }
        else if s.depart.own = .claiming then { state := .empty, content := none, written := true }
        else s.line.lane },
    faults := s.faults.write bay04 .advisory none s.depotTime,
    depart := { s.depart with
      inCharge := false, own := .free, current := none, yielded := [], claimSent := false, holdOff := none, claimRetry := none,
      heldRefresh := none, transit := none, unlatchWait := none, clearance := none, releaseBegun := false, key := none,
      lanes := [] },
    bay := { s.bay with departWatch := none } }

theorem coachLeft_requestGone (hp : s.phase = some .requested ∨ s.phase = some .finalRead ∨ s.phase = some .claiming ∨
      s.phase = some .releasing) : s.coachLeft = s.requestGone.unpinHead true :=
  (coachLeft_departing hp).trans (congrArg (fun x : State => ((x.discardWaits).updDepart fun d =>
    { d with releaseBegun := false, key := none, lanes := [] }).unpinHead true)
      (giveUpLane_form { s with depart := { s.depart with inCharge := false }, faults := s.faults.write bay04 .advisory none s.depotTime }))

/-- The only head matched anew with a lamp check owed (R12, R101, R113, R135, R86). -/
def State.rematched (s : State) (h : Plan) (c : Coach) : State :=
  { s with
    plans := { s.plans with list := [{ h with phase := .preparing }] },
    link := { s.link with
      cls := some c.cls,
      profile := if s.link.state = .down ∨ s.link.state = .waking then s.link.profile else (s.classCfg c.cls).profile },
    lamp := { s.lamp with
      state := .waiting, checked := some c.id, current := none, baseline := none, window := none,
      outstanding := none, restart := false, closing := false, recheck := false, doneBySkip := false,
      results := [] },
    bay := { s.bay with lampWatch := none },
    depart := { s.depart with inCharge := true } }

theorem unpinHead_rematched (hl : s.plans.list = [h]) (hp : h.phase.pinned = true) (hh : h.held = none) (hs : s.heat.state = .off)
    (hlamp : s.lamp.state = .done) (hlit : s.lamp.lit = false) (hq : s.link.queue = []) (hx : s.link.exchange = none)
    (hc : s.link.coach = some c) (hid : c.id = h.data.coach) (hcls : c.cls = h.data.cls) (hskip : h.data.skipLamps = false) :
    s.unpinHead true = s.rematched h c := by
  rw [unpinHead_single hl hp hh hs hlamp hlit hq hx hc hid hcls, hskip]
  rfl

/-! ### HEAT's watch set gone: nothing is closed again without the coach (R60, R155) -/

theorem setCount_contactors {n : Nat} (hn : n ≠ s.heat.count) : (s.setCount n).bay.contactors = n := by
  obtain ⟨e, -⟩ | ⟨-, k⟩ := setCount_scope s n
  · exact absurd e hn
  · obtain ⟨w, hw⟩ := k.bay
    rw [hw]
    rfl

theorem heatDisturbed_guarded (hc : 0 < s.heat.count) : Guarded s.heatDisturbed := by
  have opened : ((((s.setCount 0).updHeat fun h =>
      { h with state := .stopped, run := none, waiting := none, blindEnd := none, drawingSince := none }).updBay
        fun b => { b with heatWatch := none }).updShare fun x => { x with ranking := none }).HeaterBounds := by
    have none : (s.setCount 0).heat.count = 0 := setCount_count s 0
    exact ⟨none.trans_le (Nat.zero_le _), (setCount_contactors (by omega)).trans none.symm,
      fun e => absurd e (Nat.not_lt.2 none.le), nofun⟩
  have left : Moves False _ s.heatDisturbed := (Moves.heatLeft (.refl (s := ((((s.setCount 0).updHeat fun h =>
      { h with state := .stopped, run := none, waiting := none, blindEnd := none, drawingSince := none }).updBay
        fun b => { b with heatWatch := none }).updShare fun x => { x with ranking := none }))) _).writeFault
  exact ⟨left.heaterBounds opened, watchKept_of_idle (heatDisturbed_state s)⟩

namespace Still

theorem departDisturbed (h : Still a o s t) : Still a o s t.departDisturbed := ite h.enterCleared (ite h.coachGone h)

theorem coachLeft (h : Still a o s t) : Still a o s t.coachLeft := by
  have k := (h.depart fun d => { d with inCharge := false }).writeFault bay04 .advisory none
  have l := (k.giveUpLane.discardWaits.depart fun d => { d with releaseBegun := false, key := none, lanes := [] }).unpinHead true
  unfold State.coachLeft; dsimp only
  split
  · exact h.coachGone
  · exact k.unpinHead _
  · exact k.unpinHead _
  · exact l
  · exact l
  · exact l
  · exact l
  · exact ite k (h.depart _)
  all_goals exact h.depart _

theorem departWatched (h : Still a o s t) (i : Input) : Still a o s (t.departWatched i) := by
  have k := h.bay fun b => { b with departWatch := (t.judgeWatch t.bay.departWatch i).1 }
  exact ite k.departDisturbed k

theorem coachTaken (h : Still a o s t) :
    Still a o s (if (t.departWatched .coachPresent).summaryPresence.level .coachPresent then
      (t.departWatched .coachPresent).summaryPresence else (t.departWatched .coachPresent).summaryPresence.coachLeft) := by
  have k : Still a o s (t.departWatched .coachPresent).summaryPresence :=
    ite (h.departWatched _).writeSummary ((h.departWatched _).faults _)
  exact ite k k.coachLeft

end Still

theorem stable_departWatched (s : State) (i : Input) : (s.departWatched i).stable = s.stable := by
  unfold State.departWatched
  dsimp only
  split <;> simp

theorem stable_heatWatched (s : State) (i : Input) : (s.heatWatched i).stable = s.stable := by
  unfold State.heatWatched
  dsimp only
  split <;> simp

theorem stable_coachChanged (s : State) : s.coachChanged.stable = s.stable := by
  have told (t : State) : t.summaryPresence.stable = t.stable := by
    unfold State.summaryPresence
    split <;> simp
  have h : (((s.heatWatched .coachPresent).departWatched .coachPresent).summaryPresence).stable = s.stable := by
    rw [told, stable_departWatched, stable_heatWatched]
  unfold State.coachChanged
  dsimp only
  split
  · exact h
  · rw [stable_coachLeft, h]

end Sys2Proof.Machine

open Sys2Proof Sys2Proof.Machine

/-- Settles O52: COACH PRESENT turns, phase by phase. -/
theorem coachPresentTurns : Obligations.CoachPresentTurns := by
  intro s hr ht v
  have run : exec .coachPresentChange s = conclude v.coachChanged := (if_pos (changeDue_of_turned ht)).trans (if_pos hr)
  refine ⟨⟨_, run, by rw [finish_stable, settled_stable, stable_coachChanged]⟩, fun hc h1 h2 hs => ?_, fun hc hw hd hn => ?_,
    fun hc hw => ⟨fun h2 hl => ?_, fun h2 hp hin hcoach => ?_, fun h rest l hdw hl hp hcur => ?_, fun h c hdw hl hheld hskip hcoach
      hid hcls hq hx hoff hlamp hlit => ?_⟩⟩
  · have hv : v.coachChanged = v.writeSummary := coachChanged_in (by exact h1) (by exact h2) hc
    have hu : v.writeSummary.Settled := settled_writeSummary hs
    obtain ⟨k1, k2⟩ := finish_summary (u := v.writeSummary) rfl
    refine ⟨_, run.trans (by rw [hv, conclude_settled hu]), finish_closed v.writeSummary, k1, k2.trans ?_⟩
    exact if_pos hc
  · have hX : v.heatWatched .coachPresent =
        (v.updBay fun b => { b with heatWatch := some { Watch.heat with armed := false } }).heatDisturbed :=
      heatWatched_gone (by exact hw) (Or.inr rfl) hc
    obtain ⟨d1, d2, d3⟩ := heatDisturbed_drops (v.updBay fun b => { b with heatWatch := some { Watch.heat with armed := false } })
    have guarded := heatDisturbed_guarded (s := v.updBay fun b => { b with heatWatch := some { Watch.heat with armed := false } })
      (by exact hn)
    rw [← hX] at d1 d2 d3 guarded
    have away : (v.heatWatched .coachPresent).bay.coach.level = false :=
      (congrArg (fun x : Stable => x.pins.1.level) (stable_heatWatched v .coachPresent)).trans hc
    have still : Still True False (v.heatWatched .coachPresent) v.coachChanged := Still.coachTaken (Still.refl _)
    have closed : Still True False v.coachChanged (finish (settled v.coachChanged)) := (Still.closed _).weaken (fun _ => by
      rw [still.coach, away]) False.elim
    have k := still.trans closed
    have moves : Moves False (v.heatWatched .coachPresent) v.coachChanged := Moves.coachTaken .refl
    obtain ⟨bounds, kept⟩ := (Moves.refl.finish).guarded (settled_guarded (moves.guarded guarded))
    have idle : (finish (settled v.coachChanged)).heat.state.drawing = false := by
      cases hdraw : (finish (settled v.coachChanged)).heat.state.drawing with
      | false => rfl
      | true =>
        obtain ⟨-, -, hlevel⟩ := kept hdraw
        rw [k.coach, away] at hlevel
        cases hlevel
    obtain ⟨-, b2, b3, -⟩ := bounds
    have none : (finish (settled v.coachChanged)).heat.count = 0 := Nat.eq_zero_of_not_pos fun e => by
      rw [b3 e] at idle; cases idle
    exact ⟨_, run, none, b2.trans none, idle, k.run trivial d1, k.watch trivial d2, k.told d3⟩
  · have e := coachChanged_out (s := v) (by exact hw) (by rw [departWatched_none (by exact h2)]; exact hc)
    rw [departWatched_none (by exact h2)] at e
    exact does_of (run.trans (congrArg conclude (e.trans (coachLeft_headless (by exact hl)))))
  · have e := coachChanged_out (s := v) (by exact hw) (by rw [departWatched_none (by exact h2)]; exact hc)
    rw [departWatched_none (by exact h2)] at e
    exact does_of (run.trans (congrArg conclude (e.trans (coachLeft_waiting (by exact hp) (by exact hin)))))
  · have hgone : v.departWatched .coachPresent = _ :=
      (departWatched_gone (by exact hdw) (by rw [show v.level .coachPresent = false from hc]; decide)).trans
        (departDisturbed_cleared (by exact hl) hp (by exact hcur))
    have e := coachChanged_out (s := v) (by exact hw) (by rw [hgone]; exact hc)
    rw [hgone] at e
    refine does_of (run.trans (congrArg conclude (e.trans ((coachLeft_gone ?_).trans rfl))))
    rfl
  · intro back
    have hwatch : v.departWatched .coachPresent = v := by
      rcases hdw with hdw | ⟨-, hdw⟩
      · exact departWatched_none (by exact hdw)
      · exact departWatched_other (w := { pairs := [(.plugLatched, true)], armed := true }) (by exact hdw) rfl
    have e := coachChanged_out (s := v) (by exact hw) (by rw [hwatch]; exact hc)
    rw [hwatch] at e
    have hphase : v.unrefreshed.phase = some h.phase := phase_of_list (s := v.unrefreshed) hl
    refine ⟨fun hp => does_of (run.trans (congrArg conclude ?_)), fun hp => does_of (run.trans (congrArg conclude ?_))⟩
    · have hnone : v.bay.departWatch = none := by
        rcases hdw with hdw | ⟨hr', -⟩
        · exact hdw
        · rw [hr'] at hp; simp at hp
      have hpin : h.phase.pinned = true := by rcases hp with hp | hp <;> rw [hp] <;> rfl
      have hgiven := coachLeft_matchGone (s := v.unrefreshed) (by simpa only [hphase, Option.some.injEq] using hp) hnone
      have hback := unpinHead_rematched (s := v.unrefreshed.matchGone) (h := h) (c := c)
        hl hpin hheld hoff hlamp hlit hq hx hcoach hid hcls hskip
      exact e.trans (hgiven.trans (hback.trans rfl))
    · have hpin : h.phase.pinned = true := by rcases hp with hp | hp | hp | hp <;> rw [hp] <;> rfl
      have hgiven := coachLeft_requestGone (s := v.unrefreshed) (by simpa only [hphase, Option.some.injEq] using hp)
      have hback := unpinHead_rematched (s := v.unrefreshed.requestGone) (h := h) (c := c)
        hl hpin hheld hoff hlamp hlit hq hx hcoach hid hcls hskip
      exact e.trans (hgiven.trans (hback.trans rfl))

end

