-- ==== Sys2Proof/Proofs/RestartSteps.lean ====
section
namespace Sys2Proof.Machine

/-! ## RESTART in its steps (R180) -/

variable {s t u : State} {h : Plan} {rest : List Plan} {a o : Prop}

/-! ### The item presented (R169, R180, log entry 9) -/

/-- Whether an item outlives the queue entry or slot it was taken from. -/
def TxItem.orphaned (i : TxItem) (o : Bool) : Bool :=
  match i with
  | .answer _ | .hello => true
  | .lane _ | .demand _ | .status | .summary => o

/-- What is left of an item presented that is withdrawn unless it has won; `k` counts the free values used. -/
def wonItem (k : Nat) (x : TxItem × List Byte × List (List Byte) × Bool × Bool) :
    Option (TxItem × List Byte × List (List Byte) × Bool × Bool) :=
  if x.2.2.2.2 = true ∨ Config.wonArbitration k = true then some (x.1, x.2.1, x.2.2.1, x.2.2.2.1, true) else none

theorem stable_withdrawItem (s : State) : s.withdrawItem.stable =
    { s.stable with statusSeries := none, tx := s.stable.tx.bind (wonItem s.freeCount) } := by
  unfold State.withdrawItem
  dsimp only
  cases htx : s.line.tx with
  | none => simp [State.stable, State.updLine, Line.withdrawSeries, htx]
  | some x =>
    dsimp only
    cases hw : x.won with
    | true => simp [State.stable, State.updLine, Line.withdrawSeries, htx, hw, wonItem]
    | false =>
      cases hf : Config.wonArbitration s.freeCount <;>
        simp [State.stable, State.updLine, Line.withdrawSeries, htx, hw, hf, wonItem]

theorem stable_lineRestart (s : State) : s.lineRestart.stable =
    { s.stable with
      answers := [], hello := { state := .empty, content := none, written := true },
      tx := s.stable.tx.map fun x => (x.1, x.2.1, x.2.2.1, x.1.orphaned x.2.2.2.1, x.2.2.2.2) } := by
  unfold State.lineRestart
  cases htx : s.line.tx with
  | none => simp [State.stable, State.updLine, Slot.clear, htx]
  | some x => cases hi : x.item <;> simp [State.stable, State.updLine, Slot.clear, htx, hi, TxItem.orphaned]

theorem stable_restart (s : State) : s.restart.stable =
    { s.stable with
      station := .listenIn, listenIn := some (s.now + 5000), stagger := none, answers := [], statusSeries := none,
      hello := { state := .empty, content := none, written := true },
      tx := (s.stable.tx.bind (wonItem s.freeCount)).map fun x => (x.1, x.2.1, x.2.2.1, x.1.orphaned x.2.2.2.1, x.2.2.2.2) } := by
  have started (v : State) : (v.updStart fun x => { x with listenIn := none, stagger := none }).stable =
      { v.stable with listenIn := none, stagger := none } := rfl
  have listening (v : State) (l : Option Nat) :
      (v.updStart fun x => { x with station := .listenIn, listenIn := l, wakeAfterHalt := true }).stable =
      { v.stable with station := .listenIn, listenIn := l } := rfl
  have planned (v : State) : v.plansRestart.stable = v.stable := by
    unfold State.plansRestart
    split <;> simp
  have dark (v : State) : v.lampRestart.stable = v.stable := stable_lampEnd v .idle false
  unfold State.restart
  dsimp only
  rw [stable_writeStatus, listening, stable_linkHalt, stable_lineRestart, planned, dark, stable_departRestart,
    stable_heatRestart, started, stable_withdrawItem]
  rfl

/-! ### HEAT in OFF (R66) -/

theorem heatRestart_off' (s : State) : s.heatRestart.heat.state = .off ∧ s.heatRestart.heat.enableHeld = false := by
  refine ⟨?_, rfl⟩
  show (if s.heat.state = .off then s else s.heatLeave .off).heat.state = .off
  split
  · assumption
  · exact Moves.heatLeave_state s .off

namespace Still

theorem departRestart (h : Still a o s t) : Still a o s t.departRestart := by
  unfold State.departRestart
  exact ite h ((ite h.giveUpLane.discardWaits.latchCloseOrder h.giveUpLane.discardWaits).depart _)

theorem lineRestart (h : Still a o s t) : Still a o s t.lineRestart := h.line _

theorem plansRestart (h : Still a o s t) : Still a o s t.plansRestart := ite (h.unpinHead _) h

end Still

/-- HEAT stays in OFF with no heater enable held while the link halts (R95). -/
theorem linkHalt_off (hs : s.heat.state = .off) (he : s.heat.enableHeld = false) :
    s.linkHalt.heat.state = .off ∧ s.linkHalt.heat.enableHeld = false := by
  have kept {v w : State} (k : Still False True v w) (h1 : v.heat.state = .off ∧ v.heat.enableHeld = false) :
      w.heat.state = .off ∧ w.heat.enableHeld = false := ⟨k.off trivial h1.1, k.enable h1.2⟩
  have halted {v : State} (h1 : v.heat.state = .off ∧ v.heat.enableHeld = false) :
      v.linkHalted.heat.state = .off ∧ v.linkHalted.heat.enableHeld = false :=
    kept (Still.refl (v.updLink fun l => { l with state := .halted, failures := 0 })).readerLinkLost h1
  have purged {v : State} (h1 : v.heat.state = .off ∧ v.heat.enableHeld = false) :
      v.purge.heat.state = .off ∧ v.purge.heat.enableHeld = false :=
    kept (Still.foldl (fun h r => h.deliver_aborted r false) _ (Still.refl (v.updLink fun l => { l with queue := [] }))) h1
  have suspended {v : State} (h1 : v.heat.state = .off ∧ v.heat.enableHeld = false) :
      v.lampSuspend.heat.state = .off ∧ v.lampSuspend.heat.enableHeld = false :=
    kept (Still.ite ((Still.refl v).lampWithdraw.lamp _) (Still.refl v)) h1
  have either {c : Prop} [Decidable c] {v w : State} (h1 : v.heat.state = .off ∧ v.heat.enableHeld = false)
      (h2 : w.heat.state = .off ∧ w.heat.enableHeld = false) :
      (if c then v else w).heat.state = .off ∧ (if c then v else w).heat.enableHeld = false := by split <;> assumption
  unfold State.linkHalt
  split
  · have h1 := purged (suspended (v := (s.updLink fun l => { l with state := .halting }).heatLinkLost false)
      ⟨hs, by simp [State.heatLinkLost, State.updHeat, State.updLink, he]⟩)
    exact either h1 (halted h1)
  · exact either ⟨hs, he⟩ (halted ⟨hs, he⟩)
  · exact halted ⟨hs, he⟩
  · exact ⟨hs, he⟩
  · exact ⟨hs, he⟩

theorem restart_off (s : State) : s.restart.heat.state = .off ∧ s.restart.heat.enableHeld = false := by
  obtain ⟨h1, h2⟩ := heatRestart_off' (s.withdrawItem.updStart fun x => { x with listenIn := none, stagger := none })
  have k : Still False True _ _ := (((Still.refl
    (s.withdrawItem.updStart fun x => { x with listenIn := none, stagger := none }).heatRestart).departRestart.lampEnd .idle
      false).plansRestart).lineRestart
  exact linkHalt_off (k.off trivial h1) (k.enable h2)

/-! ### The link halting (R95) -/

/-- What a halt leaves alone while no lamp check runs. -/
structure Aloof (s t : State) : Prop where
  plans : t.plans = s.plans
  depart : t.depart = s.depart
  share : t.share = s.share
  bay : t.bay = s.bay
  start : t.start = s.start
  lane : t.line.lane = s.line.lane
  demand : t.line.demand = s.line.demand
  heatState : t.heat.state = s.heat.state
  count : t.heat.count = s.heat.count
  run : t.heat.run = s.heat.run
  lamp : s.lamp.state = .idle ∧ s.lamp.outstanding = none → ∃ c, t.lamp = { s.lamp with closing := c }

/-- An operation that leaves LINK alone besides. -/
structure Hush (s t : State) : Prop extends Aloof s t where
  link : t.link = s.link

theorem Aloof.refl (s : State) : Aloof s s := ⟨rfl, rfl, rfl, rfl, rfl, rfl, rfl, rfl, rfl, rfl, fun _ => ⟨_, rfl⟩⟩

theorem Aloof.trans (h : Aloof s t) (k : Aloof t u) : Aloof s u where
  plans := k.plans.trans h.plans
  depart := k.depart.trans h.depart
  share := k.share.trans h.share
  bay := k.bay.trans h.bay
  start := k.start.trans h.start
  lane := k.lane.trans h.lane
  demand := k.demand.trans h.demand
  heatState := k.heatState.trans h.heatState
  count := k.count.trans h.count
  run := k.run.trans h.run
  lamp e := by
    obtain ⟨c, hc⟩ := h.lamp e
    obtain ⟨d, hd⟩ := k.lamp (by rw [hc]; exact e)
    exact ⟨d, by rw [hd, hc]⟩

theorem Aloof.updLink (h : Aloof s t) (f : Link → Link) : Aloof s (t.updLink f) :=
  ⟨h.1, h.2, h.3, h.4, h.5, h.6, h.7, h.8, h.9, h.10, h.11⟩

namespace Hush

theorem refl (s : State) : Hush s s := ⟨.refl s, rfl⟩
theorem trans (h : Hush s t) (k : Hush t u) : Hush s u := ⟨h.toAloof.trans k.toAloof, k.link.trans h.link⟩

theorem ite {c : Prop} [Decidable c] {x y : State} (hx : Hush s x) (hy : Hush s y) : Hush s (if c then x else y) := by
  split <;> assumption

theorem heat (h : Hush s t) (f : Heat → Heat) (hs : (f t.heat).state = t.heat.state := by rfl)
    (hc : (f t.heat).count = t.heat.count := by rfl) (hr : (f t.heat).run = t.heat.run := by rfl) : Hush s (t.updHeat f) :=
  h.trans ⟨⟨rfl, rfl, rfl, rfl, rfl, rfl, rfl, hs, hc, hr, fun _ => ⟨_, rfl⟩⟩, rfl⟩

theorem faults (h : Hush s t) (f : Faults → Faults) : Hush s (t.updFaults f) :=
  h.trans ⟨⟨rfl, rfl, rfl, rfl, rfl, rfl, rfl, rfl, rfl, rfl, fun _ => ⟨_, rfl⟩⟩, rfl⟩

theorem line (h : Hush s t) (f : Line → Line) (hl : (f t.line).lane = t.line.lane := by rfl)
    (hd : (f t.line).demand = t.line.demand := by rfl) : Hush s (t.updLine f) :=
  h.trans ⟨⟨rfl, rfl, rfl, rfl, rfl, hl, hd, rfl, rfl, rfl, fun _ => ⟨_, rfl⟩⟩, rfl⟩

theorem releaseSummary (h : Hush s t) : Hush s t.releaseSummary :=
  h.trans ⟨⟨rfl, rfl, rfl, rfl, rfl, rfl, rfl, rfl, rfl, rfl, fun _ => ⟨_, rfl⟩⟩, rfl⟩

theorem readerLinkLost (h : Hush s t) : Hush s t.readerLinkLost :=
  ite (ite ((h.faults _).releaseSummary.faults _) (h.faults _).releaseSummary) h

section
variable (hs : s.link.state = .halting ∨ s.link.state = .halted)
include hs

/-- No request is taken in HALTING and HALTED (R88). -/
theorem not_allows (h : Hush s t) (k : ReqKind) : t.link.allows k = false := by
  unfold Link.allows
  rw [h.link]
  rcases hs with hs | hs <;> rw [hs] <;> cases k <;> rfl

theorem heatPlace (h : Hush s t) (k : ReqKind) : Hush s (t.heatPlace k) := by
  unfold State.heatPlace
  rw [h.not_allows hs, if_neg (by decide)]
  exact ite (h.heat _) h

theorem offerKept (h : Hush s t) : Hush s t.offerKept := by
  unfold State.offerKept
  have k := h.heat fun h => { h with kept := [] }
  generalize t.heat.kept = ks
  revert k
  generalize t.updHeat _ = v
  intro k
  induction ks generalizing v with
  | nil => exact k
  | cons x xs ih => exact ih _ (k.heatPlace hs x)

theorem readerPlace (n : Nat) (h : Hush s t) : Hush s (State.readerPlace n t) := by
  cases n with
  | zero => exact h
  | succ n =>
    unfold State.readerPlace
    rw [h.not_allows hs, if_pos (by decide : (!false) = true)]
    exact ite (h.faults _) h

/-- An ABORTED delivered while no lamp check runs. -/
theorem deliver_aborted (h : Hush s t) (hl : t.lamp.state = .idle ∧ t.lamp.outstanding = none) (r : Request) :
    Hush s (t.deliver r false .aborted) ∧ (t.deliver r false .aborted).lamp.state = .idle ∧
      (t.deliver r false .aborted).lamp.outstanding = none := by
  have keep {v : State} (k : Hush t v) : Hush s v ∧ v.lamp.state = .idle ∧ v.lamp.outstanding = none := by
    obtain ⟨c, hc⟩ := k.lamp hl
    exact ⟨h.trans k, by rw [hc]; exact hl.1, by rw [hc]; exact hl.2⟩
  have here : t.link.state = .halting ∨ t.link.state = .halted := by rw [h.link]; exact hs
  have answered (k : ReqKind) : Hush t (t.heatAnswered k .aborted) := by
    cases k with
    | heaterDisable => exact (refl t).heat fun h => { h with enableHeld := false }
    | _ => exact refl t
  unfold State.deliver
  split
  · exact keep (refl t)
  · exact keep ((answered _).offerKept here)
  · refine keep ?_
    unfold State.lampOutcome
    rw [if_neg (by decide), hl.2, if_neg (nofun : ¬none = some (r.kind, r.arg))]
    exact ite ⟨⟨rfl, rfl, rfl, rfl, rfl, rfl, rfl, rfl, rfl, rfl, fun _ => ⟨_, rfl⟩⟩, rfl⟩ (refl t)
  · obtain e | e := readerOutcome_aborted t r false <;> rw [e]
    · exact keep (refl t)
    · exact keep ((refl t).readerPlace here 4)

end

end Hush

end Sys2Proof.Machine
end

