-- ==== Sys2Proof/Proofs/RestartProofs.lean ====
section
namespace Sys2Proof.Machine

/-! ## A RESTART taken, block by block (R66, R95, R113, R153, R180) -/

variable {s t u : State} {h : Plan} {rest : List Plan}

/-! ### HEAT leaves its state -/

/-- The link keeps its state, an exchange in flight stays in flight; PLUG INSERTED is as it was. -/
structure Steady (s t : State) : Prop where
  link : t.link.state = s.link.state
  exchange : s.link.exchange ≠ none → t.link.exchange ≠ none
  inserted : t.bay.inserted = s.bay.inserted

namespace Steady

theorem refl (s : State) : Steady s s := ⟨rfl, fun h => h, rfl⟩

theorem trans (h : Steady s t) (k : Steady t u) : Steady s u :=
  ⟨k.link.trans h.link, fun e => k.exchange (h.exchange e), k.inserted.trans h.inserted⟩

theorem lamp (h : Steady s t) (k : LampScope t u) : Steady s u := by
  obtain ⟨w, hw⟩ := k.bay
  exact h.trans ⟨k.linkState, k.exchange, by rw [hw]⟩

end Steady

theorem LampScope.enqueue (h : LampScope s t) (r : Request) : LampScope s (t.enqueue r) :=
  LampScope.begun (h.trans ⟨_, _, _, _, _, _, _, rfl, fun h => h⟩)

/-- What a change of the stage count leaves alone (R43). -/
theorem setCount_leaves (s : State) (n : Nat) : Steady s (s.setCount n) ∧ (s.setCount n).share = s.share ∧
    (s.setCount n).line = s.line ∧ (s.setCount n).cfg = s.cfg ∧ (s.setCount n).heat.stageSize = s.heat.stageSize := by
  obtain ⟨-, e⟩ | ⟨-, k⟩ := setCount_scope s n
  · rw [e]
    exact ⟨Steady.refl s, rfl, rfl, rfl, rfl⟩
  · refine ⟨(show Steady s (s.putCount n) from ⟨rfl, fun h => h, rfl⟩).lamp k, k.share, k.line, ?_, ?_⟩
    · obtain ⟨_, _, _, _, _, _, _, e, -⟩ := k
      rw [e]; rfl
    · rw [k.heat]; rfl

/-- What placing HEATER DISABLE leaves alone. -/
theorem heatPlace_leaves (s : State) (k : ReqKind) : Steady s (s.heatPlace k) ∧ (s.heatPlace k).share = s.share ∧
    (s.heatPlace k).line = s.line ∧ (s.heatPlace k).heat.run = s.heat.run ∧
    (s.heatPlace k).bay.heatWatch = s.bay.heatWatch := by
  obtain ⟨-, ⟨-, e⟩ | ⟨-, e⟩⟩ | ⟨-, ⟨-, e⟩ | ⟨-, e⟩⟩ := heatPlace_cases s k <;> rw [e]
  · exact ⟨⟨rfl, fun h => h, rfl⟩, rfl, rfl, rfl, rfl⟩
  · have k : LampScope s (s.enqueue { job := .heat, kind := k, arg := 0, closing := false }) := (LampScope.refl s).enqueue _
    obtain ⟨w, hw⟩ := k.bay
    exact ⟨(Steady.refl s).lamp k, k.share, k.line, by rw [k.heat], by rw [hw]⟩
  · exact ⟨⟨rfl, fun h => h, rfl⟩, rfl, rfl, rfl, rfl⟩
  · exact ⟨Steady.refl s, rfl, rfl, rfl, rfl⟩

/-- HEAT gone to OFF: no run, no watch set, no rank; what was announced is withdrawn with slack 0 (R66, R80, log entry 19). -/
structure HeatGone (s t : State) : Prop where
  run : t.heat.run = none
  watch : t.bay.heatWatch = none
  rank : t.share.ranking = none
  silent : t.share.announced = false
  demand : s.share.announced = true → s.share.demandSent = true → t.line.demand = s.line.demand.write
    { group := s.conf.group, requested := 0, stageSize := s.heat.stageSize, slack := 0, drawing := false, stagesOn := 0 }

/-- HEAT in OFF with every stage open, its demand not withdrawn yet. -/
def State.heatShut (s : State) : State :=
  (((s.setCount 0).updHeat fun h =>
    { h with state := .off, run := none, waiting := none, blindEnd := none, drawingSince := none }).updBay
      fun b => { b with heatWatch := none }).updShare fun x => { x with ranking := none }

theorem heatShut_withdrawn (s : State) : Steady s s.heatShut.withdrawDemand ∧ HeatGone s s.heatShut.withdrawDemand := by
  obtain ⟨k, hshare, hline, hcfg, hsize⟩ := setCount_leaves s 0
  unfold State.withdrawDemand
  split
  · rename_i hn
    refine ⟨k.trans ⟨rfl, fun e => e, rfl⟩, rfl, rfl, rfl, rfl, fun _ b => ?_⟩
    have hs : (s.setCount 0).share.demandSent = false := Bool.not_eq_true' _ ▸ (Bool.and_eq_true_iff.1 hn).1
    rw [hshare, b] at hs
    cases hs
  · refine ⟨k.trans ⟨rfl, fun e => e, rfl⟩, rfl, rfl, rfl, rfl, fun _ _ => ?_⟩
    show (s.setCount 0).line.demand.write
      { group := (s.setCount 0).conf.group, requested := 0, stageSize := (s.setCount 0).heat.stageSize, slack := 0,
        drawing := false, stagesOn := 0 } = _
    rw [hline, hsize, State.conf, hcfg]
    rfl

theorem heatShut_unannounced (ha : s.share.announced = false) : Steady s s.heatShut ∧ HeatGone s s.heatShut := by
  obtain ⟨k, hshare, -⟩ := setCount_leaves s 0
  refine ⟨k.trans ⟨rfl, fun e => e, rfl⟩, rfl, rfl, rfl, ?_, fun e => ?_⟩
  · show (s.setCount 0).share.announced = false
    rw [hshare]; exact ha
  · rw [ha] at e; cases e

theorem heatLeave_gone (s : State) : Steady s (s.heatLeave .off) ∧ HeatGone s (s.heatLeave .off) := by
  have placed {v : State} {c : Bool} (h : Steady s v ∧ HeatGone s v) :
      Steady s (if c then v.heatPlace .heaterDisable else v) ∧ HeatGone s (if c then v.heatPlace .heaterDisable else v) := by
    obtain ⟨hk, hv⟩ := h
    split
    · obtain ⟨p1, p2, p3, p4, p5⟩ := heatPlace_leaves v .heaterDisable
      exact ⟨hk.trans p1, p4.trans hv.run, p5.trans hv.watch, by rw [p2]; exact hv.rank, by rw [p2]; exact hv.silent,
        fun a b => by rw [p3]; exact hv.demand a b⟩
    · exact ⟨hk, hv⟩
  have shut : Steady s (if s.heatShut.share.announced then s.heatShut.withdrawDemand else s.heatShut) ∧
      HeatGone s (if s.heatShut.share.announced then s.heatShut.withdrawDemand else s.heatShut) := by
    split
    · exact heatShut_withdrawn s
    · rename_i hn
      refine heatShut_unannounced (Bool.eq_false_iff.2 fun e => hn ?_)
      show (s.setCount 0).share.announced = true
      rw [(setCount_leaves s 0).2.1]; exact e
  exact placed shut

/-! ### DEPART, LAMP, PLANS and LINE (R113, R153, R180) -/

/-- The latch order leaves the inputs and HEAT's watch set alone (R160). -/
theorem latchCloseOrder_inputs (s : State) : ∃ b, s.latchCloseOrder = { s with bay := b } ∧
    b.departWatch = s.bay.departWatch ∧ b.inserted = s.bay.inserted ∧ b.heatWatch = s.bay.heatWatch := by
  unfold State.latchCloseOrder
  dsimp only
  split
  · unfold State.closeLatch
    dsimp only
    split <;> exact ⟨_, rfl, rfl, rfl, rfl⟩
  · exact ⟨_, rfl, rfl, rfl, rfl⟩

/-- The slot LANE as a lane given up leaves it (R148, log entry 66). -/
def State.laneGiven (s : State) : Slot LaneContent :=
  if s.depart.own = .held ∨ s.depart.own = .claiming ∧ s.depart.claimSent = true then
    s.line.lane.write
      { action := .release, lane := s.depart.current.getD 0, key := s.depart.key.getD 0, inTransit := false,
        singleTry := false }
  else if s.depart.own = .claiming then { state := .empty, content := none, written := true }
  else s.line.lane

/-- DEPART after the order of RESTART (R153). -/
def Depart.restarted (d : Depart) : Depart :=
  { d.freed with unlatchWait := none, clearance := none, releaseBegun := false, key := none, lanes := [], refusal := none }

theorem departRestart_form (hg : s.inPhase .gone = false) : ∃ b, s.departRestart =
    { s with line := { s.line with lane := s.laneGiven }, depart := s.depart.restarted, bay := b } ∧
    b.departWatch = none ∧ b.inserted = s.bay.inserted ∧ b.heatWatch = s.bay.heatWatch := by
  have given : s.giveUpLane.discardWaits = { s with
      line := { s.line with lane := s.laneGiven },
      depart := { s.depart.freed with unlatchWait := none, clearance := none },
      bay := { s.bay with departWatch := none } } := congrArg State.discardWaits (giveUpLane_form s)
  unfold State.departRestart
  rw [if_neg (by simp [hg]), given]
  dsimp only
  split
  · obtain ⟨b, e, h1, h2, h3⟩ := latchCloseOrder_inputs { s with
      line := { s.line with lane := s.laneGiven },
      depart := { s.depart.freed with unlatchWait := none, clearance := none },
      bay := { s.bay with departWatch := none } }
    rw [e]
    exact ⟨b, rfl, h1, h2, h3⟩
  · exact ⟨_, rfl, rfl, rfl, rfl⟩

/-- The only head returns to WAITING COACH, or stays in GONE (R16). -/
theorem plansRestart_single (hl : s.plans.list = [h]) (hh : h.held = none) (hs : s.heat.state = .off)
    (hlamp : s.lamp.state = .idle) :
    s.plansRestart = if h.phase = .gone then s else s.headIn h [] .waitingCoach := by
  have hhead := head_of_list hl
  unfold State.plansRestart
  rw [inPhase_of_list hl, hhead]
  by_cases hg : h.phase = .gone
  · rw [if_pos hg, hg]; rfl
  · rw [if_neg hg, if_pos (by simpa using hg)]
    have hset : s.setPhase .waitingCoach = s.headIn h [] .waitingCoach := by
      unfold State.setPhase
      rw [phase_of_list hl, mapHead_eq hl]
      dsimp only
      split
      · rw [State.lampPhaseLost, if_pos (Or.inl hlamp), State.heatJudged,
          if_neg (by simp [State.heatBarred, hs])]
        rfl
      · rfl
    have hin : (s.headIn h [] .waitingCoach).plans.list = [{ h with phase := .waitingCoach }] := rfl
    unfold State.unpinHead
    rw [hset]
    dsimp only
    rw [head_of_list hin, Option.bind_some, hh]
    dsimp only
    rw [reorder_single hin rfl, if_pos rfl, if_neg (by decide)]

/-- The orders of RESTART between HEAT's and the halt. -/
def State.ordered (s : State) : State := ((s.departRestart.lampRestart).plansRestart).lineRestart

/-- What those orders leave of HEAT, SHARE, LINK and LAMP. -/
structure Ordered (s t : State) : Prop extends Steady s t where
  heat : t.heat = s.heat
  share : t.share = s.share
  demand : t.line.demand = s.line.demand
  watch : t.bay.heatWatch = s.bay.heatWatch
  dark : t.lamp.state = .idle ∧ t.lamp.results = [] ∧ t.lamp.window = none ∧ t.lamp.outstanding = none
  lampWatch : t.bay.lampWatch = none

theorem ordered_single (hl : s.plans.list = [h]) (hh : h.held = none) (hs : s.heat.state = .off) :
    Ordered s s.ordered ∧
      (h.phase ≠ .gone → s.ordered.plans.list = [{ h with phase := .waitingCoach }] ∧
        s.ordered.depart = s.depart.restarted ∧ s.ordered.line.lane = s.laneGiven ∧ s.ordered.bay.departWatch = none) ∧
      (h.phase = .gone → s.ordered.plans.list = [h] ∧ s.ordered.depart = s.depart ∧
        s.ordered.line.lane = s.line.lane) := by
  have lamped (v : State) : LampScope v v.lampRestart := (LampScope.refl v).lampEnd _ _
  unfold State.ordered
  by_cases hg : h.phase = .gone
  · have e : s.departRestart = s := if_pos (by rw [inPhase_of_list hl, hg]; rfl)
    have k := lamped s
    obtain ⟨w, hw⟩ := k.bay
    rw [e, plansRestart_single (h := h) (by rw [k.plans]; exact hl) hh (by rw [k.heat]; exact hs) rfl, if_pos hg]
    refine ⟨⟨((Steady.refl s).lamp k).trans ⟨rfl, fun x => x, rfl⟩, k.heat, k.share, ?_, ?_, ⟨rfl, rfl, rfl, rfl⟩, rfl⟩, fun hn => absurd hg hn,
      fun _ => ⟨?_, k.depart, ?_⟩⟩
    · exact congrArg (·.demand) k.line
    · show s.lampRestart.bay.heatWatch = _
      rw [hw]
    · exact (congrArg (·.list) k.plans).trans hl
    · exact congrArg (·.lane) k.line
  · obtain ⟨b, e, h1, h2, h3⟩ := departRestart_form (s := s) (by rw [inPhase_of_list hl]; simpa using hg)
    have k := lamped s.departRestart
    obtain ⟨w, hw⟩ := k.bay
    have hplans : s.departRestart.lampRestart.plans = s.plans := by rw [k.plans, e]
    have hheat : s.departRestart.lampRestart.heat = s.heat := by rw [k.heat, e]
    have st : Steady s s.departRestart := by rw [e]; exact ⟨rfl, fun x => x, h2⟩
    rw [plansRestart_single (h := h) (by rw [hplans]; exact hl) hh (by rw [hheat]; exact hs) rfl, if_neg hg]
    refine ⟨⟨(st.lamp k).trans ⟨rfl, fun x => x, rfl⟩, hheat, by exact k.share.trans (by rw [e]), ?_, ?_, ⟨rfl, rfl, rfl, rfl⟩, rfl⟩,
      fun _ => ⟨rfl, by exact k.depart.trans (by rw [e]), ?_, ?_⟩, fun x => absurd x hg⟩
    · exact (congrArg (·.demand) k.line).trans (by rw [e])
    · show s.departRestart.lampRestart.bay.heatWatch = _
      rw [hw, e]; exact h3
    · exact (congrArg (·.lane) k.line).trans (by rw [e])
    · show s.departRestart.lampRestart.bay.departWatch = _
      rw [hw, e]; exact h1

/-! ### The halt (R95) -/

theorem linkHalted_aloof (s : State) :
    Aloof s s.linkHalted ∧ s.linkHalted.link.state = .halted := by
  have k := (Hush.refl (s.updLink fun l => { l with state := .halted, failures := 0 })).readerLinkLost
  exact ⟨((Aloof.refl s).updLink _).trans k.toAloof, by rw [State.linkHalted, k.link]; rfl⟩

/-- Every queued request is aborted (R95). -/
theorem purge_hush (hs : s.link.state = .halting ∨ s.link.state = .halted) (hl : s.lamp.state = .idle ∧ s.lamp.outstanding = none) :
    Hush (s.updLink fun l => { l with queue := [] }) s.purge := by
  have all (rs : List Request) : ∀ {v : State}, Hush (s.updLink fun l => { l with queue := [] }) v →
      v.lamp.state = .idle ∧ v.lamp.outstanding = none →
      Hush (s.updLink fun l => { l with queue := [] }) (rs.foldl (fun t r => t.deliver r false .aborted) v) := by
    induction rs with
    | nil => exact fun h _ => h
    | cons r rs ih =>
      intro v h k
      obtain ⟨h1, k1⟩ := h.deliver_aborted (by exact hs) k r
      exact ih h1 k1
  exact all _ (Hush.refl _) hl

/-- LINK halting behind its exchange, its queue given back (R95). -/
def State.haltOrdered (s : State) : State := ((s.updLink fun l => { l with state := .halting }).linkLeft false).purge

theorem haltOrdered_aloof (hl : s.lamp.state = .idle ∧ s.lamp.outstanding = none) : Aloof s s.haltOrdered ∧
    s.haltOrdered.link = { s.link with state := .halting, queue := [] } := by
  have dark : (s.updLink fun l => { l with state := .halting }).linkLeft false =
      (s.updLink fun l => { l with state := .halting }).heatLinkLost false := by
    have hn : ¬(s.lamp.state = .baseline ∨ s.lamp.state = .measuring) := by simp [hl.1]
    exact if_neg hn
  have k : Hush (s.updLink fun l => { l with state := .halting })
      ((s.updLink fun l => { l with state := .halting }).heatLinkLost false) := (Hush.refl _).heat _
  have p : Hush _ ((s.updLink fun l => { l with state := .halting }).heatLinkLost false).purge := purge_hush (Or.inl rfl) hl
  unfold State.haltOrdered
  rw [dark]
  exact ⟨((((Aloof.refl s).updLink _).trans k.toAloof).updLink _).trans p.toAloof, p.link⟩

/-- What a halt does while no lamp check runs. -/
theorem linkHalt_aloof (hl : s.lamp.state = .idle ∧ s.lamp.outstanding = none) : Aloof s s.linkHalt ∧
    ((s.link.state = .up ∨ s.link.state = .waking) → s.link.exchange ≠ none →
      s.linkHalt.link.state = .halting ∧ s.linkHalt.link.queue = [] ∧ s.linkHalt.link.exchange ≠ none) ∧
    (s.link.state = .down ∨ s.link.state = .halted → s.linkHalt.link.state = .halted) := by
  have halting {v : State} (k : Aloof s v) (hst : v.link.state = .halting) (hq : v.link.queue = [])
      (hx : s.link.exchange ≠ none → v.link.exchange ≠ none) :
      Aloof s (if v.link.exchange.isSome then v else v.linkHalted) ∧ (s.link.exchange ≠ none →
        (if v.link.exchange.isSome then v else v.linkHalted).link.state = .halting ∧
        (if v.link.exchange.isSome then v else v.linkHalted).link.queue = [] ∧
        (if v.link.exchange.isSome then v else v.linkHalted).link.exchange ≠ none) := by
    by_cases h : v.link.exchange.isSome
    · rw [if_pos h]
      exact ⟨k, fun e => ⟨hst, hq, hx e⟩⟩
    · rw [if_neg h]
      exact ⟨k.trans (linkHalted_aloof v).1, fun e => absurd (Option.isSome_iff_ne_none.2 (hx e)) h⟩
  unfold State.linkHalt
  cases hs : s.link.state with
  | up =>
    obtain ⟨k, e⟩ := haltOrdered_aloof hl
    obtain ⟨h1, h2⟩ := halting k (by rw [e]) (by rw [e]) (fun x => by rw [e]; exact x)
    exact ⟨h1, fun _ => h2, nofun⟩
  | waking =>
    have k : Aloof s (s.updLink fun l => { l with
        wakeDue := none, queue := [], state := .halting,
        exchange := l.exchange.map fun x => { x with withdrawn := true } }) := (Aloof.refl s).updLink _
    obtain ⟨h1, h2⟩ := halting k rfl rfl (fun x => by simpa using x)
    exact ⟨h1, fun _ => h2, nofun⟩
  | down =>
    obtain ⟨k, e⟩ := linkHalted_aloof (s.updLink fun l => { l with wakeDue := none })
    exact ⟨((Aloof.refl s).updLink _).trans k, nofun, fun _ => e⟩
  | halting => exact ⟨Aloof.refl s, nofun, nofun⟩
  | halted => exact ⟨Aloof.refl s, nofun, fun _ => hs⟩

/-! ### The conditions judged after a RESTART -/

/-- A head that waits or has gone, with no change held; pre-heat in OFF with nothing announced; the station listening in. -/
structure State.Resting (s : State) : Prop where
  list : ∃ h, s.plans.list = [h] ∧ h.held = none ∧ (h.phase = .waitingCoach ∨ h.phase = .gone)
  off : s.heat.state = .off
  count : s.heat.count = 0
  silent : s.share.announced = false

/-- What those conditions leave alone. -/
structure Calmly (s t : State) : Prop where
  plans : t.plans = s.plans
  depart : t.depart = s.depart
  lane : t.line.lane = s.line.lane
  demand : t.line.demand = s.line.demand
  lamp : t.lamp = s.lamp
  bay : t.bay = s.bay
  state : t.heat.state = s.heat.state
  count : t.heat.count = s.heat.count
  run : t.heat.run = s.heat.run
  announced : t.share.announced = s.share.announced
  ranking : t.share.ranking = s.share.ranking

theorem Calmly.refl (s : State) : Calmly s s := ⟨rfl, rfl, rfl, rfl, rfl, rfl, rfl, rfl, rfl, rfl, rfl⟩

theorem Calmly.trans (h : Calmly s t) (k : Calmly t u) : Calmly s u :=
  ⟨k.1.trans h.1, k.2.trans h.2, k.3.trans h.3, k.4.trans h.4, k.5.trans h.5, k.6.trans h.6, k.7.trans h.7,
    k.8.trans h.8, k.9.trans h.9, k.10.trans h.10, k.11.trans h.11⟩

theorem State.Resting.calmly (h : s.Resting) (k : Calmly s t) : t.Resting := by
  obtain ⟨x, hx, hh, hp⟩ := h.list
  exact ⟨⟨x, by rw [k.plans]; exact hx, hh, hp⟩, k.state.trans h.off, k.count.trans h.count, k.announced.trans h.silent⟩

theorem State.Resting.phase (h : s.Resting) {f : Phase → Bool} (h1 : f .waitingCoach = false) (h2 : f .gone = false) :
    s.phaseIs f = false := by
  obtain ⟨x, hx, -, hp⟩ := h.list
  rw [phaseIs_of_list hx]
  obtain hp | hp := hp <;> rw [hp] <;> assumption

theorem State.Resting.apart (h : s.Resting) {p : Phase} (h1 : p ≠ .waitingCoach) (h2 : p ≠ .gone) : s.inPhase p = false := by
  obtain ⟨x, hx, -, hp⟩ := h.list
  rw [inPhase_of_list hx]
  obtain hp | hp := hp <;> rw [hp]
  · exact beq_false_of_ne h1.symm
  · exact beq_false_of_ne h2.symm

/-- DEPART and PLANS only take a report that nothing waits for. -/
theorem State.Resting.departRule (h : s.Resting) :
    s.departRule = s.faults.report.map fun _ => s.updFaults fun f => { f with report := none } := by
  have hold : s.holdFails = none := by
    unfold State.holdFails
    dsimp only
    rw [h.apart (p := .requested) (by decide) (by decide), h.apart (p := .claiming) (by decide) (by decide),
      h.apart (p := .finalRead) (by decide) (by decide)]
    rfl
  have held : s.heldDue = false := by
    obtain ⟨x, hx, hh, -⟩ := h.list
    rw [State.heldDue, head_of_list hx, Option.bind_some, hh, Option.isSome_none, Bool.and_false]
  unfold State.departRule
  cases s.faults.report with
  | some b =>
    dsimp only
    rw [State.finalReport, if_neg (by exact Bool.eq_false_iff.1 (h.apart (p := .finalRead) (by decide) (by decide)))]
    rfl
  | none =>
    dsimp only
    rw [h.phase rfl rfl, hold, held, h.apart (p := .requested) (by decide) (by decide),
      h.apart (p := .releasing) (by decide) (by decide)]
    rfl

theorem State.Resting.readyRule (h : s.Resting) : s.readyRule = none := by
  have hm := h.phase (f := Phase.matched) rfl rfl
  refine (readyRule_eq_none s).2 ⟨?_, ?_, ?_, ?_⟩
  · rw [h.apart (by decide) (by decide)]; rfl
  · rw [h.apart (by decide) (by decide)]; rfl
  · rw [hm, Bool.and_false]
  · rw [State.lampDue, hm, Bool.and_false]; rfl

/-- HEAT and SHARE strike off a computation, take the grant down and drop a rise that waits. -/
theorem State.Resting.heatRule (h : s.Resting) (ht : s.heatRule = some t) : Calmly s t ∧ t.link = s.link := by
  have hc : s.heat.state.computing = false := by rw [h.off]; rfl
  have hm := h.phase (f := Phase.matched) rfl rfl
  have granted {v : State} (g : Nat) (hv : v = { s with share := v.share, freeCount := v.freeCount })
      (ha : v.share.announced = s.share.announced := by rfl) (hr : v.share.ranking = s.share.ranking := by rfl) :
      Calmly s (v.setGrant g) ∧ (v.setGrant g).link = s.link := by
    have hcount : v.heat.count = 0 := by rw [hv]; exact h.count
    have e : v.setGrant g = (v.updShare fun x => { x with grant := g }).updHeat fun x => { x with compute := true } := by
      unfold State.setGrant State.capCount
      rw [if_neg (by rw [updShare_heat, hcount]; omega)]
    rw [e, hv]
    exact ⟨⟨rfl, rfl, rfl, rfl, rfl, rfl, rfl, rfl, rfl, ha, hr⟩, rfl⟩
  unfold State.heatRule at ht
  rw [if_neg (by rw [State.heatAllowed, hm]; simp), if_neg (by simp [State.heatBarred, h.off]),
    if_neg (by simp [State.demandDue, idle_ownRequest hc, h.silent])] at ht
  split at ht
  · cases ht
    rw [compute_idle hc]
    exact ⟨⟨rfl, rfl, rfl, rfl, rfl, rfl, rfl, rfl, rfl, rfl, rfl⟩, rfl⟩
  · split at ht
    · cases ht
      unfold State.regrant
      dsimp only
      split
      · exact granted _ rfl
      · split
        · exact granted _ rfl
        · exact ⟨⟨rfl, rfl, rfl, rfl, rfl, rfl, rfl, rfl, rfl, rfl, rfl⟩, rfl⟩
    · rw [if_neg (by simp [State.enableDue, h.off, HeatState.wants, HeatState.drawing]), if_neg (by simp [State.drawDue, h.off]),
        if_neg (by simp [State.riseDue, h.off])] at ht
      split at ht
      · cases ht
        rw [if_neg]
        · exact ⟨⟨rfl, rfl, rfl, rfl, rfl, rfl, rfl, rfl, rfl, rfl, rfl⟩, rfl⟩
        · unfold State.waitedRise State.riseOpen State.stageTarget
          rw [h.off]
          split <;> simp [HeatState.drawing]
      · cases ht

/-- The wake or the end of a halt after RESTART (R96). -/
def State.roused (s : State) : State :=
  if s.level .plugInserted then s.wake else s.linkDown.updStart fun x => { x with wakeAfterHalt := false }

theorem roused_calmly (s : State) : Calmly s s.roused ∧
    s.roused.link.state = if s.bay.inserted.level then .waking else .down := by
  have begun (v : State) : v.begun.link.state = v.link.state := (LampScope.refl v).begun.linkState
  have placed (v : State) (r : Request) : Calmly v (v.place r) ∧ (v.place r).link.state = v.link.state := by
    obtain ⟨e, -⟩ | ⟨e, -⟩ := place_cases v r
    · rw [e]
      refine ⟨?_, begun _⟩
      rw [begun_form]
      exact ⟨rfl, rfl, rfl, rfl, rfl, rfl, rfl, rfl, rfl, rfl, rfl⟩
    · rw [e]
      exact ⟨Calmly.refl v, rfl⟩
  unfold State.roused
  by_cases hp : s.bay.inserted.level = true
  · rw [if_pos (by exact hp), if_pos hp]
    obtain ⟨k, e⟩ := placed ((s.updLink fun l =>
      { l with state := .waking, profile := s.conf.wakeProfile, wakeDue := none, resume := false }).updStart
        fun x => { x with wakeAfterHalt := false }) { job := .ident, kind := .identify, arg := 0, closing := false }
    exact ⟨Calmly.trans (by exact ⟨rfl, rfl, rfl, rfl, rfl, rfl, rfl, rfl, rfl, rfl, rfl⟩) k, e⟩
  · rw [if_neg (by exact hp), if_neg hp]
    exact ⟨⟨rfl, rfl, rfl, rfl, rfl, rfl, rfl, rfl, rfl, rfl, rfl⟩, rfl⟩

/-- A halted link is woken, or taken down, as soon as no report is left (R96). -/
theorem State.Resting.rouses (h : s.Resting) (hr : s.faults.report = none) (hs : s.link.state = .halted)
    (hw : s.start.wakeAfterHalt = true) : stepRule s = some s.roused := by
  unfold stepRule
  rw [h.departRule, hr, State.linkRule, if_pos ⟨hs, hw⟩]
  rfl

/-- Where the link is not halted no condition touches it. -/
theorem State.Resting.step (h : s.Resting) (hs : s.link.state ≠ .halted) (ht : stepRule s = some t) :
    Calmly s t ∧ t.link = s.link := by
  have hlink : s.linkRule = none := (linkRule_eq_none s).2 ⟨fun e => hs e.1, fun e => hs e.1⟩
  unfold stepRule at ht
  rw [h.departRule, hlink, h.readyRule] at ht
  cases hr : s.faults.report with
  | some b =>
    rw [hr] at ht
    cases ht
    exact ⟨⟨rfl, rfl, rfl, rfl, rfl, rfl, rfl, rfl, rfl, rfl, rfl⟩, rfl⟩
  | none =>
    rw [hr] at ht
    exact h.heatRule ht

theorem State.Resting.settle (h : s.Resting) (hs : s.link.state ≠ .halted) (n : Nat) :
    Calmly s (Machine.settle n s) ∧ (Machine.settle n s).link = s.link := by
  refine settle_keeps (P := fun x => Calmly s x ∧ x.link = s.link) (fun a b ⟨k, e⟩ hab => ?_) n ⟨Calmly.refl s, rfl⟩
  obtain ⟨k', e'⟩ := (h.calmly k).step (by rw [e]; exact hs) hab
  exact ⟨k.trans k', e'.trans e⟩

theorem State.Resting.settle_halted (h : s.Resting) (hs : s.link.state = .halted) (hw : s.start.wakeAfterHalt = true) (n : Nat) :
    Calmly s (Machine.settle (n + 2) s) ∧
      (Machine.settle (n + 2) s).link.state = if s.bay.inserted.level then .waking else .down := by
  have roused {v : State} (hv : v.Resting) (m : Nat) (e : v.faults.report = none) (e1 : v.link.state = .halted)
      (e2 : v.start.wakeAfterHalt = true) : Calmly v (Machine.settle (m + 1) v) ∧
        (Machine.settle (m + 1) v).link.state = if v.bay.inserted.level then .waking else .down := by
    obtain ⟨k, hk⟩ := roused_calmly v
    rw [settle_step m (hv.rouses e e1 e2)]
    have hn : v.roused.link.state ≠ .halted := by rw [hk]; split <;> decide
    obtain ⟨k', e'⟩ := (hv.calmly k).settle hn m
    exact ⟨k.trans k', by rw [e']; exact hk⟩
  cases hr : s.faults.report with
  | none => exact roused h (n + 1) hr hs hw
  | some b =>
    have hk : Calmly s (s.updFaults fun f => { f with report := none }) := ⟨rfl, rfl, rfl, rfl, rfl, rfl, rfl, rfl, rfl, rfl, rfl⟩
    have he : stepRule s = some (s.updFaults fun f => { f with report := none }) := by
      unfold stepRule
      rw [h.departRule, hr]
      rfl
    rw [settle_step (n + 1) he]
    obtain ⟨k', e'⟩ := roused (h.calmly hk) n rfl hs hw
    exact ⟨hk.trans k', e'⟩

/-- What judging leaves after a RESTART: a link that is not halted stays, a halted one wakes or is down (R96). -/
theorem State.Resting.settled (h : s.Resting) (hr : s.running = true) (hw : s.start.wakeAfterHalt = true) : Calmly s (Machine.settled s) ∧
    (s.link.state ≠ .halted → (Machine.settled s).link = s.link) ∧
    (s.link.state = .halted → (Machine.settled s).link.state = if s.bay.inserted.level then .waking else .down) := by
  have fresh (v : State) : Calmly v v.fresh := ⟨rfl, rfl, rfl, rfl, rfl, rfl, rfl, rfl, rfl, rfl, rfl⟩
  have hf := h.calmly (fresh s)
  unfold Machine.settled
  rw [if_pos hr]
  by_cases hs : s.link.state = .halted
  · obtain ⟨k, e⟩ := hf.settle_halted hs hw 126
    exact ⟨((fresh s).trans k).trans (fresh _), fun hn => absurd hs hn, fun _ => e⟩
  · obtain ⟨k, e⟩ := hf.settle hs Config.settleFuel
    exact ⟨((fresh s).trans k).trans (fresh _), fun _ => e, fun e1 => absurd e1 hs⟩

/-! ### The whole of RESTART -/

theorem withdrawItem_form (s : State) : ∃ x n, s.withdrawItem =
    { s with line := { s.line with statusSeries := none, answerSeries := none, tx := x }, freeCount := n } := by
  unfold State.withdrawItem
  dsimp only
  split
  · exact ⟨_, _, rfl⟩
  · split <;> exact ⟨_, _, rfl⟩

/-- HEAT's part of RESTART (R66). -/
theorem heatRestart_leaves (s : State) : Apart s s.heatRestart ∧ Steady s s.heatRestart ∧
    (s.heat.state ≠ .off → HeatGone s s.heatRestart) ∧
    (s.heat.state = .off → s.heatRestart.share.announced = s.share.announced) := by
  unfold State.heatRestart
  by_cases hs : s.heat.state = .off
  · rw [if_pos hs]
    exact ⟨(Apart.refl s).updHeat _, ⟨rfl, fun e => e, rfl⟩, fun hn => absurd hs hn, fun _ => rfl⟩
  · rw [if_neg hs]
    obtain ⟨k, g1, g2, g3, g4, g5⟩ := heatLeave_gone s
    exact ⟨((Apart.refl s).heatLeave _).updHeat _, k.trans ⟨rfl, fun e => e, rfl⟩, fun _ => ⟨g1, g2, g3, g4, g5⟩,
      fun e => absurd e hs⟩

/-- What a RESTART leaves of a single head that nothing is held for, before anything is judged. -/
structure Restarted (s u : State) (h : Plan) : Prop where
  waits : h.phase ≠ .gone → u.plans.list = [{ h with phase := .waitingCoach }] ∧ u.depart = s.depart.restarted ∧
    u.line.lane = s.laneGiven ∧ u.bay.departWatch = none
  gone : h.phase = .gone → u.plans.list = [h] ∧ u.depart = s.depart ∧ u.line.lane = s.line.lane
  dark : u.lamp.state = .idle ∧ u.lamp.results = [] ∧ u.lamp.window = none ∧ u.lamp.outstanding = none
  lampWatch : u.bay.lampWatch = none
  heat : s.heat.state ≠ .off → HeatGone s u
  silent : s.heat.state = .off → u.share.announced = s.share.announced
  inserted : u.bay.inserted = s.bay.inserted
  halting : (s.link.state = .up ∨ s.link.state = .waking) → s.link.exchange ≠ none →
    u.link.state = .halting ∧ u.link.queue = [] ∧ u.link.exchange ≠ none
  halted : s.link.state = .down ∨ s.link.state = .halted → u.link.state = .halted
  wakes : u.start.wakeAfterHalt = true

theorem restart_single (hl : s.plans.list = [h]) (hh : h.held = none) : Restarted s s.restart h := by
  obtain ⟨x, n, hw⟩ := withdrawItem_form s
  have hoff := (heatRestart_off' (s.withdrawItem.updStart fun x => { x with listenIn := none, stagger := none })).1
  obtain ⟨ha, hs, hg, hq⟩ := heatRestart_leaves (s.withdrawItem.updStart fun x => { x with listenIn := none, stagger := none })
  unfold State.restart
  dsimp only
  generalize hv : State.heatRestart _ = v at ha hs hg hq hoff
  rw [hw] at ha hs hg hq
  obtain ⟨k, k1, k2⟩ := ordered_single (s := v) (h := h) (by rw [ha.plans]; exact hl) hh hoff
  obtain ⟨p, p1, p2⟩ := linkHalt_aloof (s := v.ordered) ⟨k.dark.1, k.dark.2.2.2⟩
  obtain ⟨c, hlamp⟩ := p.lamp ⟨k.dark.1, k.dark.2.2.2⟩
  have hst : v.ordered.link.state = s.link.state := k.link.trans hs.link
  have hlane : v.laneGiven = s.laneGiven := by unfold State.laneGiven; rw [ha.depart, ha.lane]; rfl
  refine ⟨fun hn => ?_, fun hn => ?_, ?_, ?_, fun hn => ?_, fun hn => ?_, ?_, fun hn hx => ?_, fun hn => ?_, rfl⟩
  · obtain ⟨q1, q2, q3, q4⟩ := k1 hn
    refine ⟨?_, ?_, ?_, ?_⟩
    · exact (congrArg (·.list) p.plans).trans q1
    · exact p.depart.trans (q2.trans (congrArg Depart.restarted ha.depart))
    · exact p.lane.trans (q3.trans hlane)
    · exact (congrArg (·.departWatch) p.bay).trans q4
  · obtain ⟨q1, q2, q3⟩ := k2 hn
    exact ⟨(congrArg (·.list) p.plans).trans q1, p.depart.trans (q2.trans ha.depart), p.lane.trans (q3.trans ha.lane)⟩
  · show v.ordered.linkHalt.lamp.state = .idle ∧ v.ordered.linkHalt.lamp.results = [] ∧
      v.ordered.linkHalt.lamp.window = none ∧ v.ordered.linkHalt.lamp.outstanding = none
    rw [hlamp]
    exact k.dark
  · exact (congrArg (·.lampWatch) p.bay).trans k.lampWatch
  · obtain ⟨g1, g2, g3, g4, g5⟩ := hg hn
    refine ⟨?_, ?_, ?_, ?_, fun a b => ?_⟩
    · exact p.run.trans ((congrArg (·.run) k.heat).trans g1)
    · exact (congrArg (·.heatWatch) p.bay).trans (k.watch.trans g2)
    · exact (congrArg (·.ranking) (p.share.trans k.share)).trans g3
    · exact (congrArg (·.announced) (p.share.trans k.share)).trans g4
    · exact p.demand.trans (k.demand.trans (g5 a b))
  · exact (congrArg (·.announced) (p.share.trans k.share)).trans (hq hn)
  · exact (congrArg (·.inserted) p.bay).trans (k.inserted.trans hs.inserted)
  · exact p1 (by rw [hst]; exact hn) (k.exchange (hs.exchange hx))
  · exact p2 (by rw [hst]; exact hn)

/-- The registers of the table's tuple that an item presented leaves after RESTART (R180, log entry 9). -/
theorem restart_tx (x : Option Tx) (k : Nat) :
    ((x.map fun x => (x.item, x.frame, x.rest, x.orphan, x.won)).bind (wonItem k)).map
        (fun x => (x.1, x.2.1, x.2.2.1, x.1.orphaned x.2.2.2.1, x.2.2.2.2)) =
      (x.bind fun x =>
        if x.won = true ∨ Config.wonArbitration k = true then
          some { x with
            won := true,
            orphan := match x.item with
              | .answer _ | .hello => true
              | .lane _ | .demand _ | .status | .summary => x.orphan }
        else none).map fun x => (x.item, x.frame, x.rest, x.orphan, x.won) := by
  cases x with
  | none => rfl
  | some x =>
    simp only [Option.map_some, Option.bind_some, wonItem]
    split
    · cases x.item <;> rfl
    · rfl

/-- A station that listens in keeps HEAT in OFF with no heater enable held, whatever is judged (R66). -/
theorem conclude_restart (s : State) : (finish (settled s.restart)).heat.state = .off ∧
    (finish (settled s.restart)).heat.enableHeld = false := by
  obtain ⟨h1, h2⟩ := restart_off s
  have k := Still.closed s.restart
  exact ⟨k.off (by show s.restart.start.station ≠ _; exact nofun) h1, k.enable h2⟩

/-- What a RESTART leaves, once all is judged, of a single head that nothing is held for. -/
theorem restarted_single (hl : s.plans.list = [h]) (hh : h.held = none) (hb : s.restart.heat.count = 0)
    (ha : s.heat.state = .off → s.share.announced = false) :
    ∃ u, Restarted s u h ∧ Calmly u (settled s.restart) ∧ (u.link.state ≠ .halted → (settled s.restart).link = u.link) ∧
      (u.link.state = .halted → (settled s.restart).link.state = if s.bay.inserted.level then .waking else .down) := by
  have k := restart_single hl hh
  have hr : s.restart.Resting := by
    refine ⟨?_, (restart_off s).1, hb, ?_⟩
    · by_cases hg : h.phase = .gone
      · exact ⟨h, (k.gone hg).1, hh, Or.inr hg⟩
      · exact ⟨_, (k.waits hg).1, hh, Or.inl rfl⟩
    · by_cases hs : s.heat.state = .off
      · exact (k.silent hs).trans (ha hs)
      · exact (k.heat hs).silent
  obtain ⟨h1, h2, h3⟩ := hr.settled rfl k.wakes
  exact ⟨_, k, h1, h2, fun e => by rw [h3 e, k.inserted]⟩

/-- The close of a command leaves the blocks of RESTART alone, but for the verdict noted. -/
theorem finish_leaves (s : State) : (finish s).plans = s.plans ∧ (finish s).lamp = s.lamp ∧ (finish s).link = s.link ∧
    (finish s).heat = s.heat ∧ (finish s).line.demand = s.line.demand ∧ (finish s).bay.heatWatch = s.bay.heatWatch ∧
    (finish s).bay.lampWatch = s.bay.lampWatch ∧ (finish s).share.announced = s.share.announced ∧
    (finish s).share.ranking = s.share.ranking := by
  have h := finish_closed s
  unfold ClosedFrom at h
  rw [h]
  exact ⟨rfl, rfl, rfl, rfl, rfl, rfl, rfl, rfl, rfl⟩

end Sys2Proof.Machine

open Sys2Proof Sys2Proof.Machine

/-- Settles O19: the orders of RESTART block by block; then nothing is judged but the link, which wakes where it is halted. -/
theorem restartTaken : Obligations.RestartTaken := by
  intro target s hs hb
  have hexec : exec (.restartNotice 0 target []) s = .next (finish (settled (settled s.counted).restart)) :=
    conclude_of_hears State.restart hs rfl
  have hbounds : (settled s.counted).restart.HeaterBounds :=
    ((Moves.refl (d := True)).settled trivial).restart.heaterBounds (show s.counted.HeaterBounds from hb)
  have hcount : (settled s.counted).restart.heat.count = 0 := by
    refine Nat.eq_zero_of_not_pos fun hc => ?_
    have := hbounds.2.2.1 hc
    rw [(restart_off _).1] at this
    cases this
  obtain ⟨hoff, henable⟩ := conclude_restart (settled s.counted)
  have hclosed : (finish (settled (settled s.counted).restart)).HeaterBounds :=
    ((Moves.refl (d := True)).settled trivial).finish.heaterBounds hbounds
  have hopen : (finish (settled (settled s.counted).restart)).heat.count = 0 := by
    refine Nat.eq_zero_of_not_pos fun hc => ?_
    have := hclosed.2.2.1 hc
    rw [hoff] at this
    cases this
  refine ⟨_, (settled s.counted).freeCount, hexec, ?_, hoff, hopen, hclosed.2.1.trans hopen, henable, ?_⟩
  · have hw := settled_stable s.counted
    have hclock : (settled s.counted).clock = s.clock := congrArg Stable.clock hw
    have hnow : (settled s.counted).now = s.now := by unfold State.now; rw [hclock]
    rw [finish_stable, settled_stable, stable_restart, hw, hnow]
    exact congrArg (fun x => ({ s.counted.stable with
      station := .listenIn, listenIn := some (s.now + 5000), stagger := none, answers := [], statusSeries := none,
      hello := { state := .empty, content := none, written := true }, tx := x } : Stable)) (restart_tx s.line.tx _)
  · intro h hset hl hh
    rw [settled_counted hset] at hcount ⊢
    have hsilent : s.heat.state = .off → s.share.announced = false := fun he => by
      have hc : s.counted.fresh.heat.state.computing = false := by
        show s.heat.state.computing = false
        rw [he]; rfl
      obtain ⟨-, -, hd, -⟩ := (heatRule_eq_none _).1 ((settled_iff _).1 hset).2
      rw [State.demandDue, if_pos (idle_ownRequest hc)] at hd
      exact hd
    obtain ⟨u, k, kc, k1, k2⟩ := restarted_single (s := s.counted) hl hh hcount hsilent
    obtain ⟨f1, f2, f3, f4, f5⟩ := finish_apart (settled s.counted.restart)
    obtain ⟨g1, g2, g3, g4, g5, g6, g7, g8, g9⟩ := finish_leaves (settled s.counted.restart)
    refine ⟨fun hn => ?_, fun hn => ?_, ?_, ?_, ?_, ?_, ?_, fun hn => ?_, fun hn hx => ?_, fun hn => ?_⟩
    · obtain ⟨q1, q2, q3, q4⟩ := k.waits hn
      rw [f1, f2, f3, f5, kc.plans, kc.lane, kc.depart, q1, q2, q3, kc.bay, q4]
      exact ⟨rfl, rfl, rfl, rfl, rfl, rfl, rfl, rfl, rfl, rfl, rfl⟩
    · obtain ⟨q1, q2, q3⟩ := k.gone hn
      rw [f1, f2, f5, kc.plans, kc.lane, kc.depart, q1, q2, q3]
      exact ⟨rfl, rfl, rfl, rfl, rfl, rfl⟩
    · rw [g2, kc.lamp]; exact k.dark.1
    · rw [g2, kc.lamp]; exact k.dark.2.1
    · rw [g2, kc.lamp]; exact k.dark.2.2.1
    · rw [g2, kc.lamp]; exact k.dark.2.2.2
    · rw [g7, kc.bay]; exact k.lampWatch
    · obtain ⟨r1, r2, r3, r4, r5⟩ := k.heat hn
      rw [g4, g5, g6, g8, g9, kc.run, kc.bay, kc.announced, kc.ranking, kc.demand]
      exact ⟨r1, r2, r4, r3, r5⟩
    · obtain ⟨q1, q2, q3⟩ := k.halting hn hx
      rw [g3, k1 (by rw [q1]; decide)]
      exact ⟨q1, q2, q3⟩
    · rw [g3]
      exact k2 (k.halted hn)

end

