-- ==== Sys2Proof/Proofs/PlanOrder.lean ====
section
namespace Sys2Proof.Machine

/-! ## The order of departure, and what keeps it (R2, R3) -/

variable {s t u : State} {h : Plan} {rest : List Plan}

/-! ### Order -/

/-- No departure stands behind a later one. -/
def InOrder (ds : List PlanData) : Prop := ds.Pairwise fun a b => b.before a = false

theorem before_iff (a b : PlanData) :
    a.before b = true ↔ a.absMinute < b.absMinute ∨ a.absMinute = b.absMinute ∧ a.id < b.id := by
  simp [PlanData.before]

theorem not_before_of_before {a b : PlanData} (h : a.before b = true) : b.before a = false := by
  rw [before_iff] at h
  rw [Bool.eq_false_iff, Ne, before_iff]
  omega

theorem not_before_trans {a b c : PlanData} (h : c.before b = false) (k : b.before a = false) : c.before a = false := by
  rw [Bool.eq_false_iff, Ne, before_iff] at *
  omega

theorem insertPlan_inOrder (p : Plan) {ps : List Plan} (h : InOrder (ps.map Plan.data)) :
    InOrder ((insertPlan p ps).map Plan.data) := by
  induction ps with
  | nil => exact List.pairwise_singleton _ _
  | cons q qs ih =>
    obtain ⟨h1, h2⟩ := List.pairwise_cons.1 h
    unfold insertPlan
    split
    · rename_i hb
      have hq := not_before_of_before hb
      refine List.pairwise_cons.2 ⟨fun x hx => ?_, h⟩
      rcases List.mem_cons.1 hx with rfl | hx
      · exact hq
      · exact not_before_trans (h1 x hx) hq
    · rename_i hb
      refine List.pairwise_cons.2 ⟨fun x hx => ?_, ih h2⟩
      rcases List.mem_cons.1 (((insertPlan_perm p qs).map Plan.data).subset hx) with rfl | hx
      · exact Bool.eq_false_iff.2 hb
      · exact h1 x hx

theorem sortPlans_inOrder (ps : List Plan) : InOrder ((sortPlans ps).map Plan.data) := by
  induction ps with
  | nil => exact List.Pairwise.nil
  | cons p ps ih => exact insertPlan_inOrder p ih

theorem orderPlans_pinned (hp : h.phase.pinned = true) : orderPlans (h :: rest) = h :: sortPlans rest := if_pos hp

/-- Behind its head the ordered list is in order. -/
theorem orderPlans_tail (ps : List Plan) : InOrder ((orderPlans ps).map Plan.data).tail := by
  unfold orderPlans
  split
  · exact List.Pairwise.nil
  · split
    · exact sortPlans_inOrder _
    · exact (sortPlans_inOrder _).tail

/-- With no head pinned the whole list is in order. -/
theorem orderPlans_inOrder {ps : List Plan} (hp : ∀ x ∈ ps.head?, x.phase.pinned = false) :
    InOrder ((orderPlans ps).map Plan.data) := by
  unfold orderPlans
  split
  · exact List.Pairwise.nil
  · rw [if_neg (by rw [hp _ rfl]; decide)]
    exact sortPlans_inOrder _

/-! ### The departures listed -/

/-- The departures stand in the same order, and no record takes a change to hold. -/
structure Listing (s t : State) : Prop where
  data : t.plans.list.map Plan.data = s.plans.list.map Plan.data
  full : t.plans.full = s.plans.full
  unheld : (∀ x ∈ s.plans.list, x.held = none) → ∀ x ∈ t.plans.list, x.held = none

theorem Aside.listing (h : Aside s t) : Listing s t := ⟨h.data, h.full, h.unheld⟩

namespace Listing

theorem of_plans (h : t.plans = s.plans) : Listing s t := ⟨by rw [h], by rw [h], fun x => by rw [h]; exact x⟩
theorem refl (s : State) : Listing s s := of_plans rfl
theorem trans (h : Listing s t) (k : Listing t u) : Listing s u :=
  ⟨k.data.trans h.data, k.full.trans h.full, k.unheld ∘ h.unheld⟩
theorem standing (h : Listing s t) (k : Standing t u) : Listing s u := h.trans (of_plans k.plans)

theorem ite {c : Prop} [Decidable c] {a b : State} (ha : Listing s a) (hb : Listing s b) :
    Listing s (if c then a else b) := by split <;> assumption

theorem clearKey (h : Listing s t) (k : Key) : Listing s (t.clearKey k) := h.trans (of_plans rfl)

theorem writeFault (h : Listing s t) (k : Key) (v : Severity) (c : Option CoachState) : Listing s (t.writeFault k v c) :=
  h.trans (of_plans rfl)

theorem heatLeave (h : Listing s t) (x : HeatState) : Listing s (t.heatLeave x) := h.standing ((Apart.refl t).heatLeave x).standing

theorem heatOff (h : Listing s t) : Listing s t.heatOff := ite (h.heatLeave _) h

theorem mapHead (h : Listing s t) (f : Plan → Plan) (hd : ∀ x, (f x).data = x.data := by intro; rfl)
    (hh : ∀ x, x.held = none → (f x).held = none := by intro _ h; exact h) : Listing s (t.mapHead f) := by
  refine h.trans ?_
  cases hl : t.plans.list with
  | nil =>
    have e : (t.mapHead f).plans.list = t.plans.list := by
      unfold State.mapHead
      rw [updPlans_plans, hl]
    exact ⟨by rw [e], rfl, fun k => by rw [e]; exact k⟩
  | cons x xs =>
    rw [mapHead_eq hl]
    refine ⟨by rw [hl]; exact congrArg (· :: xs.map Plan.data) (hd x), rfl, fun k y hy => ?_⟩
    rw [hl] at k
    rcases List.mem_cons.1 hy with rfl | hy
    · exact hh x (k x List.mem_cons_self)
    · exact k y (List.mem_cons_of_mem _ hy)

theorem setPhase (h : Listing s t) (p : Phase) : Listing s (t.setPhase p) := by
  have k := h.mapHead fun x => { x with phase := p }
  have lost := k.standing ((Standing.refl _).apart ((Apart.refl _).lamp (LampScope.refl _).lampPhaseLost))
  have judged {v : State} (e : Listing s v) : Listing s v.heatJudged :=
    ite (e.heatLeave _) e
  have owed := k.standing ((Standing.refl _).lamp (LampScope.refl _).lampOwed)
  have matched := k.standing ((Standing.refl _).lamp (LampScope.refl _).lampMatched)
  have again {v : State} (e : Listing s v) : Listing s v.heatRematch :=
    ite (e.heatLeave _) e
  have taken {v : State} (e : Listing s v) (f : Depart → Depart) : Listing s (v.updDepart f).selectClass :=
    (e.trans (of_plans (t := v.updDepart f) rfl)).standing ((Standing.refl _).selectClass)
  unfold State.setPhase
  dsimp only
  split
  · exact h
  · split
    · cases p with
      | waitingCoach => exact judged lost
      | wrongCoach => exact judged lost
      | preparing => exact owed
      | _ => exact k
    · cases p with
      | preparing => exact taken (again matched) _
      | _ => exact k

theorem matchCoach (h : Listing s t) : Listing s t.matchCoach := by
  have cleared {c : Prop} [Decidable c] : Listing s (if c then t.clearKey plan01 else t) :=
    ite (h.clearKey _) h
  unfold State.matchCoach
  split
  · exact h
  · refine ite h ?_
    dsimp only
    split
    · exact cleared.setPhase _
    · exact ite (cleared.setPhase _) ((h.setPhase _).writeFault _ _ _)

theorem evalOverdue (h : Listing s t) : Listing s t.evalOverdue := by
  unfold State.evalOverdue
  split
  · dsimp only
    refine ite (Listing.clearKey (h.mapHead fun x => { x with overdue := false }) _) (ite ?_ h)
    exact (Listing.writeFault (h.mapHead fun x => { x with overdue := true }) _ _ _).heatOff
  · exact h

theorem demoted (h : Listing s t) (id : Option Nat) :
    Listing s (t.updPlans fun p => { p with list := p.list.map (demote id) }) := by
  refine h.trans ⟨?_, rfl, fun k x hx => ?_⟩
  · rw [updPlans_plans, List.map_map]
    refine List.map_congr_left fun x _ => ?_
    simp only [Function.comp, demote]
    split <;> rfl
  · obtain ⟨y, hy, rfl⟩ := List.mem_map.1 hx
    unfold demote
    split
    · rfl
    · exact k y hy

/-- A change of head leaves the departures in their order. -/
theorem headChanged (h : Listing s t) (former : Option Nat) : Listing s (t.headChanged former) := by
  have k := h.demoted former
  generalize hv : t.updPlans (fun p => { p with list := p.list.map (demote former) }) = v at k
  have left : Standing v ((((v.clearKey plan01).clearKey plan02).heatHeadChange).takeFigures).lampHeadChange :=
    ((((Standing.refl v).updFaults _).updFaults _).heatHeadChange.takeFigures).lampHeadChange
  generalize hx : State.lampHeadChange _ = x at left
  have gone : x.departHeadChange.plans = x.plans := by
    unfold State.departHeadChange State.giveUpLane State.emptyLane State.writeLane
    dsimp only
    (repeat' split) <;> rfl
  have kx : Listing s x.departHeadChange := (k.standing left).trans (of_plans gone)
  have ky := kx.standing ((Standing.refl x.departHeadChange).latchHeadChange.selectClass)
  unfold State.headChanged
  refine ite h ?_
  dsimp only
  rw [hv, hx]
  exact ky.matchCoach.evalOverdue

theorem stepRule (hn : ∀ x ∈ s.plans.list, x.held = none) (h : stepRule s = some t) : Listing s t := by
  unfold Machine.stepRule at h
  split at h
  · cases h; exact (departRule_aside hn ‹_›).listing
  · split at h
    · cases h; exact (linkRule_beside ‹_›).aside.listing
    · split at h
      · cases h; exact (readyRule_aside ‹_›).listing
      · exact of_plans (heatRule_apart h).plans

/-- Judging and closing leave the departures in their order, while no record holds a change. -/
theorem closed (hn : ∀ x ∈ s.plans.list, x.held = none) : Listing s (finish (settled s)) := by
  have k : Listing s (settled s) ∧ ∀ x ∈ (settled s).plans.list, x.held = none :=
    settled_keeps (P := fun a => Listing s a ∧ ∀ x ∈ a.plans.list, x.held = none)
      (fun a b ⟨h1, h2⟩ hab => ⟨h1.trans (stepRule h2 hab), (stepRule h2 hab).unheld h2⟩)
      (fun a ⟨h1, h2⟩ => ⟨h1.trans (of_plans rfl), h2⟩) ⟨refl s, hn⟩
  exact k.1.trans (of_plans (finish_apart _).1)

end Listing

theorem headId_eq (s : State) : s.headId = (s.plans.list.map Plan.data).head?.map PlanData.id := by
  unfold State.headId State.head
  cases s.plans.list <;> rfl

end Sys2Proof.Machine
end

