-- ==== Sys2Proof/Proofs/HeadSteps.lean ====
section
namespace Sys2Proof.Machine

/-! ## A change of head with pre-heat in OFF, register by register (R11, R12, R61, R86) -/

variable {s t u : State} {h : Plan} {rest : List Plan} {c : Coach}

theorem clearKey_eq (s : State) (k : Key) : s.clearKey k = { s with faults := s.faults.unmark k } := by
  have e (r : Record) : (if (r.key == k) = true then { r with present := false } else r) =
      if r.key = k then { r with present := false } else r := by
    simp only [beq_iff_eq]
  exact congrArg (fun xs => ({ s with faults := { s.faults with table := xs } } : State))
    (List.map_congr_left fun r _ => e r)

theorem heatHeadChange_off (hs : s.heat.state = .off) : s.heatHeadChange =
    { s with heat := { s.heat with unreachableRecorded := false }, share := { s.share with fresh := true } } := by
  rw [State.heatHeadChange, if_pos hs]
  rfl

/-- The class's figures with a computation as called for, and SHARE as it was (R43, log entries 23 and 48). -/
def State.figuresTaken (s : State) (d : PlanData) (b : Bool) : State :=
  { s with heat := { (s.classed d).heat with compute := b } }

theorem takeFigures_eq (hl : s.plans.list = h :: rest) (hc : s.heat.count = 0) :
    ∃ b, s.takeFigures = s.figuresTaken h.data b := by
  have figure (m n : Nat) : stageFigure m n = max 1 (min n (max m 1)) := by
    unfold stageFigure clampNat
    split
    · omega
    · split <;> omega
  unfold State.takeFigures
  rw [head_of_list hl]
  dsimp only
  unfold State.capCount
  rw [if_neg (by rw [updHeat_heat]; exact Nat.not_lt.2 (hc ▸ Nat.zero_le _))]
  unfold State.figuresTaken State.classed State.updHeat
  dsimp only
  rw [figure, figure]
  exact ⟨_, rfl⟩

theorem departHeadChange_free (ho : s.depart.own = .free) : s.departHeadChange =
    { s with
      depart := { s.depart with
        key := none, lanes := [], yielded := [], releaseBegun := false, inCharge := false, holdOff := none,
        claimRetry := none, heldRefresh := none, transit := none, unlatchWait := none, clearance := none },
      bay := { s.bay with departWatch := none } } := by
  rw [State.departHeadChange, if_pos ho]
  rfl

theorem latchHeadChange_automatic (hm : s.bay.latchMode = .automatic) : s.latchHeadChange = s :=
  if_neg (by rw [hm]; decide)

/-- The overdue rule where the overdue limit has not passed, in whatever state depot time is (R14). -/
theorem evalOverdue_inTime (hl : s.plans.list = h :: rest) (ho : h.overdue = false)
    (hm : ∀ m, s.absMinute = some m → m ≤ h.data.absMinute + s.conf.overdueLimit) : s.evalOverdue = s := by
  cases ha : s.absMinute with
  | none => unfold State.evalOverdue; rw [head_of_list hl, ha]
  | some m => exact evalOverdue_early (head_of_list hl) ho ha (hm m ha)

theorem evalOverdue_headless (hl : s.plans.list = []) : s.evalOverdue = s := by
  unfold State.evalOverdue State.head
  rw [hl]
  rfl

theorem matchCoach_headless (hl : s.plans.list = []) : s.matchCoach = s := by
  unfold State.matchCoach State.head
  rw [hl]
  rfl

theorem selected_twice (s : State) (c : Nat) : (s.selected c).selected c = s.selected c := by
  unfold State.selected
  dsimp only
  split
  · rfl
  · rfl

/-! ### Matching an unpinned head (R12) -/

/-- What matching clears first of a head in WRONG COACH: PLAN-01 (R13). -/
def State.righted (s : State) (h : Plan) : State :=
  { s with faults := if h.phase = .wrongCoach then s.faults.unmark plan01 else s.faults }

theorem righted_eq (s : State) (h : Plan) : (if h.phase = .wrongCoach then s.clearKey plan01 else s) = s.righted h := by
  unfold State.righted
  split
  · exact clearKey_eq s plan01
  · rfl

theorem unpinned_of (hp : h.phase = .waitingCoach ∨ h.phase = .wrongCoach) : h.phase.pinned = false := by
  obtain hp | hp := hp <;> rw [hp] <;> rfl

/-- An unpinned head moves between WAITING COACH and WRONG COACH. -/
theorem setPhase_unpinned {p : Phase} (hl : s.plans.list = h :: rest) (hu : h.phase.pinned = false) (hp : p ≠ .preparing) :
    s.setPhase p = s.headIn h rest p := by
  unfold State.setPhase
  dsimp only
  rw [phase_of_list hl, mapHead_eq hl]
  dsimp only
  rw [hu, if_neg (by decide)]
  cases p with
  | preparing => exact absurd rfl hp
  | _ => rfl

theorem matchCoach_absent (hl : s.plans.list = h :: rest) (hu : h.phase.pinned = false) (hc : s.link.coach = none) :
    s.matchCoach = (s.righted h).headIn h rest .waitingCoach := by
  have hid : s.coachId = none := by rw [State.coachId, hc]; rfl
  unfold State.matchCoach
  rw [head_of_list hl]
  dsimp only
  rw [hu, if_neg (by decide), hid]
  dsimp only
  rw [righted_eq]
  exact setPhase_unpinned (by exact hl) hu (by decide)

theorem matchCoach_other (hl : s.plans.list = h :: rest) (hu : h.phase.pinned = false) (hc : s.link.coach = some c)
    (hid : c.id ≠ h.data.coach) :
    s.matchCoach = (s.headIn h rest .wrongCoach).writeFault plan01 .blocking := by
  have hcoach : s.coachId = some c.id := by rw [State.coachId, hc]; rfl
  unfold State.matchCoach
  rw [head_of_list hl]
  dsimp only
  rw [hu, if_neg (by decide), hcoach]
  dsimp only
  rw [if_neg hid, setPhase_unpinned hl hu (by decide)]

theorem matchCoach_same (hl : s.plans.list = h :: rest) (hu : h.phase.pinned = false) (hc : s.link.coach = some c)
    (hid : c.id = h.data.coach) (hcls : h.data.cls = c.cls) (ho : s.heat.state ≠ .stopped)
    (hlamp : s.lamp.state = .idle ∨ s.lamp.state = .abandoned) :
    s.matchCoach = ((((s.righted h).headIn h rest .preparing).prepared c.id h.data.skipLamps)).selected c.cls := by
  have hcoach : s.coachId = some c.id := by rw [State.coachId, hc]; rfl
  unfold State.matchCoach
  rw [head_of_list hl]
  dsimp only
  rw [hu, if_neg (by decide), hcoach]
  dsimp only
  rw [if_pos hid, righted_eq, setPhase_preparing (s := s.righted h) hl hu,
    lampMatched_waits (s := (s.righted h).headIn h rest .preparing) (h := { h with phase := .preparing }) (by rfl) hlamp (by exact hc),
    heatRematch_idle (by exact ho), selectClass_selected (c := c) (by exact hc)]
  · rfl
  · intro p hh _
    cases hh
    exact hcls

section
variable (hl : s.plans.list = h :: rest) (hu : h.phase.pinned = false) (ho : h.overdue = false)
  (hm : ∀ m, s.absMinute = some m → m ≤ h.data.absMinute + s.conf.overdueLimit)
include hl hu ho hm

theorem matched_absent (hc : s.link.coach = none) :
    s.matchCoach.evalOverdue = (s.righted h).headIn h rest .waitingCoach := by
  rw [matchCoach_absent hl hu hc]
  exact evalOverdue_inTime (s := (s.righted h).headIn h rest .waitingCoach) rfl ho hm

theorem matched_other (hc : s.link.coach = some c) (hid : c.id ≠ h.data.coach) :
    s.matchCoach.evalOverdue = (s.headIn h rest .wrongCoach).writeFault plan01 .blocking := by
  rw [matchCoach_other hl hu hc hid]
  exact evalOverdue_inTime (s := (s.headIn h rest .wrongCoach).writeFault plan01 .blocking)
    (h := { h with phase := .wrongCoach }) rfl ho hm

theorem matched_same (hc : s.link.coach = some c) (hid : c.id = h.data.coach) (hcls : h.data.cls = c.cls)
    (hs : s.heat.state ≠ .stopped) (hlamp : s.lamp.state = .idle ∨ s.lamp.state = .abandoned) :
    s.matchCoach.evalOverdue =
      (((s.righted h).headIn h rest .preparing).prepared c.id h.data.skipLamps).selected c.cls := by
  rw [matchCoach_same hl hu hc hid hcls hs hlamp]
  exact evalOverdue_inTime (h := { h with phase := .preparing })
    (s := (((s.righted h).headIn h rest .preparing).prepared c.id h.data.skipLamps).selected c.cls) rfl ho hm

end

/-! ### A head entered (R11) -/

/-- A new head before its coach is looked at. -/
def State.entered (s : State) (d : PlanData) (b : Bool) : State := s.headLeft.figuresTaken d b

theorem headChanged_entered {id : Option Nat} (hl : s.plans.list = [h]) (hid : some h.data.id ≠ id) (hs : s.heat.state = .off)
    (hc : s.heat.count = 0) (hlamp : s.lamp.state = .idle) (ho : s.depart.own = .free) (hm : s.bay.latchMode = .automatic) :
    ∃ b, s.headChanged id = ((s.entered h.data b).selectClass.matchCoach).evalOverdue := by
  have hdemote : (s.updPlans fun p => { p with list := p.list.map (demote id) }) = s := by
    have e : s.plans.list.map (demote id) = s.plans.list := by
      rw [hl]
      exact congrArg (fun x => [x]) (if_neg hid)
    exact congrArg (fun l => ({ s with plans := { s.plans with list := l } } : State)) e
  have hn : s.headId ≠ id := by rw [State.headId, head_of_list hl]; exact hid
  obtain ⟨b, hb⟩ := takeFigures_eq (s := { s with
    faults := (s.faults.unmark plan01).unmark plan02,
    heat := { s.heat with unreachableRecorded := false }, share := { s.share with fresh := true } }) hl hc
  refine ⟨b, ?_⟩
  rw [State.headChanged, if_neg hn]
  dsimp only
  rw [hdemote, clearKey_eq, clearKey_eq, heatHeadChange_off (by exact hs), hb, lampHeadChange_idle (by exact hlamp),
    departHeadChange_free (by exact ho), latchHeadChange_automatic (by exact hm)]
  rfl

/-- A computation called for is struck off, as it is in OFF (R51). -/
def State.struck (s : State) : State := { s with heat := { s.heat with compute := false } }

/-- A command in OFF whose effect calls for a computation. -/
theorem does_struck {o : Host.Outcome State Fault Refusal} (ho : o = conclude s) (e : s.struck = u) (hr : u.running = true)
    (hs : u.heat.state = .off) : Does o u := by
  have h1 : s.struck.running = true := by rw [e]; exact hr
  have h2 : s.struck.heat.state = .off := by rw [e]; exact hs
  exact does_computed (v := s) h1 ho (congrArg HeatState.computing h2) e

/-- The blocks work and pre-heat is in OFF. -/
def State.Off (s : State) : Prop := s.running = true ∧ s.heat.state = .off

namespace State.Off

theorem selected (h : s.Off) (c : Nat) : (s.selected c).Off := h
theorem prepared (h : s.Off) (c : Nat) (k : Bool) : (s.prepared c k).Off := h
theorem righted (h : s.Off) (x : Plan) : (s.righted x).Off := h
theorem headIn (h : s.Off) (x : Plan) (xs : List Plan) (p : Phase) : (s.headIn x xs p).Off := h
theorem writeFault (h : s.Off) (k : Key) (v : Severity) (c : Option CoachState) : (s.writeFault k v c).Off := h

theorem does_struck {o : Host.Outcome State Fault Refusal} (h : s.Off) (ho : o = conclude s) : Does o s.struck :=
  Machine.does_struck ho rfl h.1 h.2

end State.Off

section
variable (hl : s.plans.list = [h]) (hw : h.phase = .waitingCoach) (ho : h.overdue = false)
  (hm : ∀ m, s.absMinute = some m → m ≤ h.data.absMinute + s.conf.overdueLimit)
include hl hw ho hm

/-- A waiting head without an identified coach stays. -/
theorem lookedAt_absent (hc : s.link.coach = none) :
    (s.selectClass.matchCoach).evalOverdue = s.headIn h [] .waitingCoach := by
  have e : s.righted h = s :=
    congrArg (fun f => ({ s with faults := f } : State)) (if_neg (by rw [hw]; decide))
  rw [selectClass_none hc, matched_absent hl (unpinned_of (Or.inl hw)) ho hm hc, e]

theorem lookedAt_other (hc : s.link.coach = some c) (hid : c.id ≠ h.data.coach) :
    (s.selectClass.matchCoach).evalOverdue =
      ((s.selected c.cls).headIn h [] .wrongCoach).writeFault plan01 .blocking := by
  have hsel : s.selectClass = s.selected c.cls := selectClass_selected hc fun p hp e => by
    rw [head_of_list hl] at hp
    cases hp
    exact absurd e.symm hid
  rw [hsel]
  exact matched_other (s := s.selected c.cls) hl (unpinned_of (Or.inl hw)) ho hm hc hid

theorem lookedAt_own (hc : s.link.coach = some c) (hid : c.id = h.data.coach) (hcls : c.cls = h.data.cls)
    (hs : s.heat.state = .off) (hlamp : s.lamp.state = .idle) :
    (s.selectClass.matchCoach).evalOverdue =
      ((s.headIn h [] .preparing).prepared c.id h.data.skipLamps).selected c.cls := by
  have hsel : s.selectClass = s.selected c.cls := selectClass_selected hc fun p hp _ => by
    rw [head_of_list hl] at hp
    cases hp
    exact hcls.symm
  have e : (s.selected c.cls).righted h = s.selected c.cls :=
    congrArg (fun f => ({ s.selected c.cls with faults := f } : State)) (if_neg (by rw [hw]; decide))
  have twice := congrArg (fun x : State => (x.headIn h [] .preparing).prepared c.id h.data.skipLamps) (selected_twice s c.cls)
  rw [hsel, matched_same (s := s.selected c.cls) hl (unpinned_of (Or.inl hw)) ho hm hc hid hcls.symm
    (by show s.heat.state ≠ .stopped; rw [hs]; decide) (Or.inl hlamp), e]
  exact twice

end

end Sys2Proof.Machine
end

