-- ==== Sys2Proof/Proofs/PlanProofs.lean ====
section
namespace Sys2Proof.Machine

/-! ## New plans (R5, R6) -/

variable {s t u : State} {h : Plan} {rest : List Plan} {d : PlanData}

theorem planStale_iff (s : State) (d : PlanData) :
    s.planStale d = true ↔ ∃ m, s.absMinute = some m ∧ d.absMinute + 60 < m := by
  unfold State.planStale
  cases s.absMinute with
  | none => exact ⟨nofun, nofun⟩
  | some m => simp [Config.staleMinutes]

theorem takePlan_new {p : PlanPayload} (hd : normalisePlan s.conf.lanes p = some d) (hc : p.cancel = false)
    (hn : ∀ x ∈ s.plans.list, x.data.id ≠ d.id) : s.takePlan p = s.newPlan d := by
  have ha : (s.plans.list.any fun x => x.data.id == d.id) = false := by
    rw [List.any_eq_false]
    exact fun x hx => by simpa using hn x hx
  unfold State.takePlan
  rw [hd]
  dsimp only
  rw [ha, hc]

theorem newPlan_stale (hs : s.planStale d = true) :
    s.newPlan d = s.updPlans fun p => { p with stale := true, dropped := 0 } := if_pos hs

theorem newPlan_placed (hs : s.planStale d = false) (hl : s.plans.list.length < 4) : s.newPlan d =
    (s.updPlans fun p => { p with list := placePlan p.list d, stale := false, dropped := 0 }).headChanged s.headId := by
  unfold State.newPlan
  dsimp only
  rw [hs, if_neg (by decide), if_pos (by exact hl)]

theorem newPlan_full {l : Plan} (hs : s.planStale d = false) (hl : s.plans.list.length = 4)
    (hx : s.plans.list.getLast? = some l) : s.newPlan d =
    if d.before l.data then
      (s.updPlans fun p =>
        { p with list := placePlan p.list.dropLast d, stale := false, full := false,
                 dropped := l.data.id }).headChanged s.headId
    else s.updPlans fun p => { p with full := true, dropped := 0 } := by
  unfold State.newPlan
  dsimp only
  rw [hs, if_neg (by decide), if_neg (by rw [hl]; decide), hx]

theorem placePlan_unheld {ps : List Plan} (hn : ∀ x ∈ ps, x.held = none) : ∀ x ∈ placePlan ps d, x.held = none := by
  intro x hx
  rcases List.mem_append.1 ((orderPlans_perm _).subset hx) with hx | hx
  · exact hn x hx
  · rw [List.mem_singleton.1 hx]; rfl

theorem placePlan_perm (ps : List Plan) (d : PlanData) :
    ((placePlan ps d).map Plan.data).Perm (d :: ps.map Plan.data) := by
  refine ((orderPlans_perm _).map _).trans ?_
  rw [List.map_append]
  exact List.perm_append_singleton _ _

/-- A command that has changed the plan list and then its head: the departures stand as placed. -/
theorem conclude_listed (f : Plans → Plans) (id : Option Nat) (hn : ∀ x ∈ (f s.plans).list, x.held = none) :
    Listing (s.updPlans f) (finish (settled ((s.updPlans f).headChanged id))) := by
  have k := (Listing.refl (s.updPlans f)).headChanged id
  exact k.trans (Listing.closed (k.unheld hn))

theorem conclude_headChanged_stable (s : State) (id : Option Nat) :
    (finish (settled (s.headChanged id))).stable = s.stable := by
  rw [finish_stable, settled_stable, stable_headChanged]

/-! ### A plan placed (R6) -/

/-- The list as a new plan is placed in it: the departures, their order, and the head that is pinned. -/
theorem placed_list {t : State} (e : t.plans.list.map Plan.data = (placePlan s.plans.list d).map Plan.data) :
    (t.plans.list.map Plan.data).Perm (d :: s.plans.list.map Plan.data) ∧
      (s.phaseIs Phase.pinned = true → t.headId = s.headId) ∧
      InOrder (t.plans.list.map Plan.data).tail ∧
      (s.phaseIs Phase.pinned = false → InOrder (t.plans.list.map Plan.data)) := by
  rw [headId_eq t, e]
  refine ⟨placePlan_perm _ d, fun hp => ?_, orderPlans_tail _, fun hp => orderPlans_inOrder fun x hx => ?_⟩
  · cases hl : s.plans.list with
    | nil => rw [State.phaseIs, State.phase, State.head, hl] at hp; cases hp
    | cons h rest =>
      rw [phaseIs_of_list hl] at hp
      rw [headId_eq, hl, placePlan, List.cons_append, orderPlans_pinned hp]
      rfl
  · cases hl : s.plans.list with
    | nil => rw [hl] at hx; cases hx; rfl
    | cons h rest =>
      rw [phaseIs_of_list hl] at hp
      rw [hl] at hx
      cases hx
      exact hp

/-! ### The first plan becomes the head (R11, R12) -/

/-- An empty list with one plan placed in it. -/
def State.planned (s : State) (d : PlanData) : State :=
  { s with plans := { s.plans with list := [Plan.fresh d], stale := false, dropped := 0 } }

theorem newPlan_first (hst : s.planStale d = false) (hl : s.plans.list = []) :
    s.newPlan d = (s.planned d).headChanged none := by
  have hid : s.headId = none := by rw [State.headId, State.head, hl]; rfl
  rw [newPlan_placed hst (by rw [hl]; decide), hid]
  unfold State.updPlans
  dsimp only
  rw [hl]
  rfl

/-- The head entered, in a phase. -/
def State.headFirst (s : State) (d : PlanData) (p : Phase) : State :=
  ({ s.headLeft with
    plans := { s.plans with
      list := [{ data := d, phase := p, held := none, overdue := false }], stale := false, dropped := 0 } } :
    State).classed d

section
variable {o : Host.Outcome State Fault Refusal} (ho : o = conclude ((s.planned d).headChanged none)) (hr : s.running = true)
  (hs : s.heat.state = .off) (hn : s.heat.count = 0) (hlamp : s.lamp.state = .idle) (hown : s.depart.own = .free)
  (hmode : s.bay.latchMode = .automatic) (hm : ∀ m, s.absMinute = some m → m ≤ d.absMinute + s.conf.overdueLimit)
include ho hr hs hn hlamp hown hmode hm

theorem does_first_absent (hc : s.link.coach = none) : Does o (s.headFirst d .waitingCoach) := by
  obtain ⟨b, e⟩ := headChanged_entered (s := s.planned d) (h := Plan.fresh d) (id := none) rfl nofun hs hn hlamp hown hmode
  rw [e, lookedAt_absent (s := (s.planned d).entered (Plan.fresh d).data b) (h := Plan.fresh d) rfl rfl rfl hm hc] at ho
  exact does_struck ho rfl hr hs

theorem does_first_other {k : Coach} (hc : s.link.coach = some k) (hid : k.id ≠ d.coach) : Does o
    { (s.headFirst d .wrongCoach).selected k.cls with
      faults := s.headLeft.faults.write plan01 .blocking none s.depotTime } := by
  obtain ⟨b, e⟩ := headChanged_entered (s := s.planned d) (h := Plan.fresh d) (id := none) rfl nofun hs hn hlamp hown hmode
  rw [e, lookedAt_other (s := (s.planned d).entered (Plan.fresh d).data b) (h := Plan.fresh d) rfl rfl rfl hm hc hid] at ho
  exact does_struck ho rfl hr hs

theorem does_first_own {k : Coach} (hc : s.link.coach = some k) (hid : k.id = d.coach) (hcls : k.cls = d.cls) :
    Does o (((s.headFirst d .preparing).selected k.cls).prepared k.id d.skipLamps) := by
  obtain ⟨b, e⟩ := headChanged_entered (s := s.planned d) (h := Plan.fresh d) (id := none) rfl nofun hs hn hlamp hown hmode
  rw [e, lookedAt_own (s := (s.planned d).entered (Plan.fresh d).data b) (h := Plan.fresh d) rfl rfl rfl hm hc hid hcls hs hlamp] at ho
  exact does_struck ho rfl hr hs

end

end Sys2Proof.Machine

open Sys2Proof Sys2Proof.Machine

/-- Settles O30: a new plan is placed by the order, which judging and closing keep; the first one becomes the head, which is
looked at with the coach. -/
theorem planPlaced : Obligations.PlanPlaced := by
  intro target payload s d hs hset hd hc hid hheld
  have hexec : exec (.planNotice 0 target payload) s = conclude (s.counted.newPlan d) := by
    refine (conclude_of_hears (fun t => t.takePlan (planPayload payload)) hs rfl).trans ?_
    rw [settled_counted hset, takePlan_new (s := s.counted) hd hc hid]
  have hstale : s.counted.planStale d = true ↔ ∃ m, s.absMinute = some m ∧ d.absMinute + 60 < m := planStale_iff _ d
  have fresh (hn : ¬∃ m, s.absMinute = some m ∧ d.absMinute + 60 < m) : s.counted.planStale d = false :=
    Bool.eq_false_iff.2 fun e => hn (hstale.1 e)
  have last (hl : (s.plans.list.map Plan.data).length = 4) : ∃ l, s.plans.list.getLast? = some l := by
    cases e : s.plans.list.getLast? with
    | some l => exact ⟨l, rfl⟩
    | none => rw [List.getLast?_eq_none_iff.1 e] at hl; cases hl
  have full (hn : ¬∃ m, s.absMinute = some m ∧ d.absMinute + 60 < m) (hl : (s.plans.list.map Plan.data).length = 4) {l : Plan}
      (hx : s.plans.list.getLast? = some l) := newPlan_full (s := s.counted) (fresh hn) (List.length_map Plan.data ▸ hl) hx
  refine ⟨fun hst => ?_, fun hn hl => ?_, fun hn hl hb => ?_, fun hn hl x hx hb => ?_, fun hn hl => ?_⟩
  · exact does_of (hexec.trans (congrArg conclude (newPlan_stale (hstale.2 hst))))
  · rw [newPlan_placed (s := s.counted) (fresh hn) (List.length_map Plan.data ▸ hl)] at hexec
    have k := conclude_listed (s := s.counted) (fun p => { p with list := placePlan p.list d, stale := false, dropped := 0 })
      s.counted.headId (placePlan_unheld hheld)
    exact ⟨_, hexec, conclude_headChanged_stable _ _, placed_list k.data⟩
  · obtain ⟨l, hx⟩ := last hl
    rw [full hn hl hx, if_neg (by rw [hb l.data (by rw [List.getLast?_map, hx]; rfl)]; decide)] at hexec
    exact does_of hexec
  · obtain ⟨l, hx'⟩ := last hl
    obtain rfl : l.data = x := by rw [List.getLast?_map, hx'] at hx; exact Option.some.inj hx
    rw [full hn hl hx', if_pos hb] at hexec
    have k := conclude_listed (s := s.counted) (fun p =>
      { p with list := placePlan p.list.dropLast d, stale := false, full := false, dropped := l.data.id }) s.counted.headId
      (placePlan_unheld fun y hy => hheld y (List.dropLast_subset _ hy))
    refine ⟨_, hexec, conclude_headChanged_stable _ _, k.full, ?_⟩
    rw [k.data, ← List.map_dropLast]
    exact placePlan_perm _ d
  · intro hoff hcount hlamp hown hmode hm
    rw [newPlan_first (s := s.counted) (fresh hn) hl] at hexec
    exact ⟨does_first_absent hexec hs.1 hoff hcount hlamp hown hmode hm, fun k hk =>
      ⟨does_first_other hexec hs.1 hoff hcount hlamp hown hmode hm hk,
        does_first_own hexec hs.1 hoff hcount hlamp hown hmode hm hk⟩⟩

end

