-- ==== Sys2Proof/Proofs/ChangeProofs.lean ====
section
namespace Sys2Proof.Machine

/-! ## Revisions and cancels (R7 to R10) -/

variable {s t u : State} {h : Plan} {rest : List Plan} {d : PlanData} {c : Coach}

/-! ### What a notice of a listed plan calls for -/

theorem any_listed (hx : ∃ x ∈ s.plans.list, x.data.id = d.id) : (s.plans.list.any fun x => x.data.id == d.id) = true := by
  obtain ⟨x, hx, e⟩ := hx
  exact List.any_eq_true.2 ⟨x, hx, by simpa using e⟩

theorem takePlan_revise {p : PlanPayload} (hd : normalisePlan s.conf.lanes p = some d) (hc : p.cancel = false)
    (hx : ∃ x ∈ s.plans.list, x.data.id = d.id) : s.takePlan p = s.revisePlan d := by
  unfold State.takePlan
  rw [hd]
  dsimp only
  rw [any_listed hx, hc]

theorem takePlan_cancel {p : PlanPayload} (hd : normalisePlan s.conf.lanes p = some d) (hc : p.cancel = true)
    (hx : ∃ x ∈ s.plans.list, x.data.id = d.id) : s.takePlan p = s.cancelPlan d.id := by
  unfold State.takePlan
  rw [hd]
  dsimp only
  rw [any_listed hx, hc]

/-- The state with the stale and dropped indications of a revision. -/
def State.noted (s : State) : State := s.updPlans fun p => { p with stale := false, dropped := 0 }

theorem revisePlan_head (hl : s.plans.list = h :: rest) (hid : h.data.id = d.id) : s.revisePlan d =
    if h.phase.underWay then s.noted.mapHead fun x => { x with held := some (.revision d) }
    else if h.phase.pinned then s.noted.revisePinned h.data d else s.noted.reviseHead h.data d := by
  unfold State.revisePlan
  rw [head_of_list hl]
  exact if_pos hid

theorem revisePlan_other (hl : s.plans.list = h :: rest) (hid : h.data.id ≠ d.id) :
    s.revisePlan d = s.noted.reviseOther d := by
  unfold State.revisePlan
  rw [head_of_list hl]
  exact if_neg hid

theorem headId_of_list (hl : s.plans.list = h :: rest) : s.headId = some h.data.id := by
  rw [State.headId, head_of_list hl]; rfl

theorem cancelPlan_held (hl : s.plans.list = h :: rest) (hu : h.phase.underWay = true) : s.cancelPlan h.data.id =
    (s.updPlans fun p => { p with dropped := 0 }).mapHead fun x => { x with held := some .cancel } := by
  unfold State.cancelPlan
  dsimp only
  rw [if_pos ⟨headId_of_list hl, by rw [phaseIs_of_list hl]; exact hu⟩]

theorem cancelPlan_now {id : Nat} (hl : s.plans.list = h :: rest) (hn : h.data.id ≠ id ∨ h.phase.underWay = false) :
    s.cancelPlan id = (s.updPlans fun p => { p with dropped := 0 }).removePlan id := by
  unfold State.cancelPlan
  dsimp only
  rw [if_neg]
  rw [headId_of_list hl, phaseIs_of_list hl]
  rintro ⟨h1, h2⟩
  obtain hn | hn := hn
  · exact hn (Option.some.inj h1)
  · rw [hn] at h2; cases h2

/-! ### A revision of the head applied at once (R7, R8) -/

/-- HEAT's run after a revision: discarded where the class or the target changes (R61). -/
def State.runKept (s : State) (old new : PlanData) : State :=
  { s with heat := { s.heat with run := if old.cls ≠ new.cls ∨ old.target ≠ new.target then none else s.heat.run } }

theorem runKept_eq (s : State) (old new : PlanData) :
    (if old.cls ≠ new.cls ∨ old.target ≠ new.target then s.updHeat fun h => { h with run := none } else s) =
      s.runKept old new := by
  unfold State.runKept
  split <;> rfl

/-- LAMP takes no revision of an ended or unbegun check (R102). -/
theorem lampRevised_idle {old new : PlanData} (hs : s.lamp.state = .idle ∨ s.lamp.state = .abandoned) :
    s.lampRevised old new = s := by
  unfold State.lampRevised
  obtain hs | hs := hs <;> simp [hs, LampState.running]

theorem lampRevised_same {old new : PlanData} (hc : old.cls = new.cls) (hk : old.skipLamps = new.skipLamps) :
    s.lampRevised old new = s := by
  unfold State.lampRevised
  rw [hc, hk]
  cases new.skipLamps <;> simp

/-- A revision as HEAT, SHARE and LINK take it, once LAMP has nothing to do. -/
def State.revised (s : State) (old new : PlanData) : State :=
  { (s.runKept old new).classed new with
    heat := { ((s.runKept old new).classed new).heat with compute := true } }

theorem headRevised_eq {old : PlanData} (hl : s.plans.list = h :: rest) (hc : s.heat.count = 0)
    (hlamp : ∀ v : State, v.lamp = s.lamp → v.lampRevised old h.data = v) :
    s.headRevised old h.data =
      if h.phase.pinned then (s.revised old h.data).selectClass else s.revised old h.data := by
  obtain ⟨b, e⟩ := takeFigures_eq (s := s.runKept old h.data) hl hc
  have hu : (((s.runKept old h.data).takeFigures.updHeat fun h => { h with compute := true }).updShare
      fun x => { x with fresh := true }) = s.revised old h.data := by rw [e]; rfl
  unfold State.headRevised
  rw [runKept_eq]
  dsimp only
  rw [hu, hlamp (s.revised old h.data) rfl, phaseIs_of_list (s := s.revised old h.data) hl]

/-- The plan list with its head's fields replaced. -/
def State.replaced (s : State) (h : Plan) (rest : List Plan) (d : PlanData) : State :=
  { s with plans := { s.plans with list := { h with data := d } :: rest } }

theorem State.Off.revised (k : s.Off) (h : Plan) (rest : List Plan) (d : PlanData) :
    ((s.replaced h rest d).revised h.data d).Off := k

/-- The only head, not pinned, revised (R7, R12). -/
theorem reviseHead_single (hl : s.plans.list = [h]) (hid : h.data.id = d.id) (hu : h.phase.pinned = false) (hc : s.heat.count = 0)
    (hlamp : s.lamp.state = .idle ∨ s.lamp.state = .abandoned) :
    s.reviseHead h.data d = (((s.replaced h [] d).revised h.data d).matchCoach).evalOverdue := by
  have hrep : s.replaceHead d = s.replaced h [] d := mapHead_eq hl _
  have hl' : (s.replaced h [] d).plans.list = [{ h with data := d }] := rfl
  have hsame : (s.replaced h [] d).headId = s.headId := by
    rw [headId_of_list hl, headId_of_list hl', hid]
  have hrev := headRevised_eq (old := h.data) (h := { h with data := d }) hl' hc fun v hv => lampRevised_idle (by rw [hv]; exact hlamp)
  rw [if_neg (by exact Bool.eq_false_iff.1 hu)] at hrev
  unfold State.reviseHead
  dsimp only
  rw [hrep, reorder_single hl' hu, if_pos hsame, hrev]

/-- A head revised, in a phase, with the table as it is then; nothing to compute, as in OFF. -/
def State.reheaded (s : State) (h : Plan) (rest : List Plan) (d : PlanData) (p : Phase) (f : Faults) : State :=
  let x := ({ s with
    plans := { s.plans with list := { h with data := d, phase := p } :: rest, stale := false, dropped := 0 },
    faults := f } : State).classed d
  { x with heat := { x.heat with
      run := if h.data.cls ≠ d.cls ∨ h.data.target ≠ d.target then none else s.heat.run } }

/-- The table once a head is no longer in WRONG COACH (R13). -/
def State.rightTable (s : State) (h : Plan) : Faults :=
  if h.phase = .wrongCoach then s.faults.unmark plan01 else s.faults

theorem revised_righted (s : State) (h : Plan) (d : PlanData) (p : Phase) :
    ((((s.noted.replaced h [] d).revised h.data d).righted { h with data := d }).headIn { h with data := d } [] p).struck =
      s.reheaded h [] d p (s.rightTable h) := by
  unfold State.struck State.reheaded State.headIn State.righted State.revised State.runKept State.classed State.replaced
    State.noted State.rightTable
  rfl

theorem revised_wrong (s : State) (h : Plan) (d : PlanData) :
    ((((s.noted.replaced h [] d).revised h.data d).headIn { h with data := d } [] .wrongCoach).writeFault plan01
      .blocking).struck = s.reheaded h [] d .wrongCoach (s.faults.write plan01 .blocking none s.depotTime) := by
  unfold State.struck State.reheaded State.headIn State.writeFault State.revised State.runKept State.classed State.replaced
    State.noted
  rfl

theorem prepared_selected_struck (s : State) (id c : Nat) (b : Bool) :
    ((s.prepared id b).selected c).struck = (s.struck.selected c).prepared id b := rfl

section
variable {o : Host.Outcome State Fault Refusal} (ho : o = conclude (s.noted.reviseHead h.data d)) (k : s.noted.Off)
  (hl : s.plans.list = [h]) (hid : h.data.id = d.id) (hu : h.phase = .waitingCoach ∨ h.phase = .wrongCoach)
  (hlate : h.overdue = false) (hn : s.heat.count = 0)
  (hlamp : s.lamp.state = .idle ∨ s.lamp.state = .abandoned)
  (hm : ∀ m, s.absMinute = some m → m ≤ d.absMinute + s.conf.overdueLimit)
include ho k hl hid hu hlate hn hlamp hm

/-- The revised head without an identified coach. -/
theorem does_revised_absent (hc : s.link.coach = none) :
    Does o (s.reheaded h [] d .waitingCoach (s.rightTable h)) := by
  rw [reviseHead_single (s := s.noted) hl hid (unpinned_of hu) hn hlamp,
    matched_absent (s := (s.noted.replaced h [] d).revised h.data d) (h := { h with data := d }) (rest := []) rfl
      (unpinned_of hu) hlate hm hc] at ho
  have kd := (((k.revised h [] d).righted _).headIn _ _ _).does_struck ho
  rw [revised_righted] at kd
  exact kd

theorem does_revised_other (hc : s.link.coach = some c) (hk : c.id ≠ d.coach) :
    Does o (s.reheaded h [] d .wrongCoach (s.faults.write plan01 .blocking none s.depotTime)) := by
  rw [reviseHead_single (s := s.noted) hl hid (unpinned_of hu) hn hlamp,
    matched_other (s := (s.noted.replaced h [] d).revised h.data d) (h := { h with data := d }) (rest := []) rfl
      (unpinned_of hu) hlate hm hc hk] at ho
  have kd := (((k.revised h [] d).headIn _ _ _).writeFault _ _ _).does_struck ho
  rw [revised_wrong] at kd
  exact kd

theorem does_revised_own (hc : s.link.coach = some c) (hk : c.id = d.coach) (hcls : c.cls = d.cls) :
    Does o (((s.reheaded h [] d .preparing (s.rightTable h)).selected c.cls).prepared c.id d.skipLamps) := by
  rw [reviseHead_single (s := s.noted) hl hid (unpinned_of hu) hn hlamp,
    matched_same (s := (s.noted.replaced h [] d).revised h.data d) (h := { h with data := d }) (rest := []) rfl
      (unpinned_of hu) hlate hm hc hk hcls.symm (by show s.noted.heat.state ≠ .stopped; rw [k.2]; decide) hlamp] at ho
  have kd := (((((k.revised h [] d).righted _).headIn _ _ _).prepared _ _).selected _).does_struck ho
  rw [prepared_selected_struck, revised_righted] at kd
  exact kd

end

/-- A head in PREPARING or READY revised for the same coach and class: it keeps its phase (R8). -/
theorem revisePinned_same (hl : s.plans.list = h :: rest) (hp : h.phase.pinned = true) (hc : s.heat.count = 0)
    (hk : s.link.coach = some c) (hcls : c.cls = d.cls) (hcoach : h.data.coach = d.coach)
    (hsame : h.data.cls = d.cls) (hskip : h.data.skipLamps = d.skipLamps) (hlate : h.overdue = false)
    (hm : ∀ m, s.absMinute = some m → m ≤ d.absMinute + s.conf.overdueLimit) :
    s.revisePinned h.data d = ((s.replaced h rest d).revised h.data d).selected c.cls := by
  have hrep : s.replaceHead d = s.replaced h rest d := mapHead_eq hl _
  have hl' : (s.replaced h rest d).plans.list = { h with data := d } :: rest := rfl
  have hrev := headRevised_eq (old := h.data) (h := { h with data := d }) hl' hc fun v _ => lampRevised_same hsame hskip
  have hsel : ((s.replaced h rest d).revised h.data d).selectClass = ((s.replaced h rest d).revised h.data d).selected c.cls :=
    selectClass_selected hk fun p hp' _ => by
      rw [head_of_list (s := (s.replaced h rest d).revised h.data d) hl'] at hp'
      cases hp'
      exact hcls.symm
  rw [if_pos (by exact hp), hsel] at hrev
  unfold State.revisePinned
  dsimp only
  rw [hrep, if_pos hcoach, hrev]
  exact evalOverdue_inTime (s := ((s.replaced h rest d).revised h.data d).selected c.cls) hl' hlate hm

/-- The only head unpinned by a revision to another coach: the class selected, its check ended (R8, R86, R113). -/
def State.unpinned (s : State) (h : Plan) (d : PlanData) (c : Coach) : State :=
  let x := (s.replaced { h with phase := .waitingCoach } [] d).selected c.cls
  ({ x with heat := { x.heat with unreachableRecorded := false }, share := { x.share with fresh := true } } : State).checkEnded

theorem checkEnded_plans (s : State) : s.checkEnded.plans = s.plans ∧ s.checkEnded.link = s.link ∧ s.checkEnded.heat = s.heat ∧
    s.checkEnded.cfg = s.cfg ∧ s.checkEnded.clock = s.clock ∧ s.checkEnded.start = s.start := by
  unfold State.checkEnded
  split <;> exact ⟨rfl, rfl, rfl, rfl, rfl, rfl⟩

/-- A head in PREPARING or READY revised for another coach: unpinned, its check ended, matched anew (R8). -/
theorem revisePinned_other (hl : s.plans.list = [h]) (hid : h.data.id = d.id) (k : s.Off) (hc : s.heat.count = 0)
    (hk : s.link.coach = some c) (hne : c.id ≠ d.coach) (hcoach : h.data.coach ≠ d.coach) (hq : s.link.queue = [])
    (hx : s.link.exchange = none) (hlit : s.lamp.lit = false) (hlate : h.overdue = false)
    (hm : ∀ m, s.absMinute = some m → m ≤ d.absMinute + s.conf.overdueLimit) :
    ∃ b, s.revisePinned h.data d = (((s.unpinned h d c).figuresTaken d b).headIn
      { h with data := d, phase := .waitingCoach } [] .wrongCoach).writeFault plan01 .blocking := by
  have hrep : s.replaceHead d = s.replaced h [] d := mapHead_eq hl _
  have hfree : ((s.replaced h [] d).mapHead fun x => { x with phase := .waitingCoach }) =
      s.replaced { h with phase := .waitingCoach } [] d := mapHead_eq (s := s.replaced h [] d) rfl _
  have hl' : (s.replaced { h with phase := .waitingCoach } [] d).plans.list = [{ h with data := d, phase := .waitingCoach }] := rfl
  have hsel : (s.replaced { h with phase := .waitingCoach } [] d).selectClass =
      (s.replaced { h with phase := .waitingCoach } [] d).selected c.cls := selectClass_selected hk fun p hp e => by
    rw [head_of_list hl'] at hp
    cases hp
    exact absurd e.symm hne
  have hoff := heatHeadChange_off (s := (s.replaced { h with phase := .waitingCoach } [] d).selected c.cls) k.2
  have hend : ((s.replaced { h with phase := .waitingCoach } [] d).selected c.cls).heatHeadChange.lampHeadChange =
      s.unpinned h d c := by
    rw [hoff]
    exact lampHeadChange_ended hq hx hlit
  obtain ⟨p1, p2, p3, p4, p5, -⟩ := checkEnded_plans ({ (s.replaced { h with phase := .waitingCoach } [] d).selected c.cls with
    heat := { s.heat with unreachableRecorded := false }, share := { s.share with fresh := true } } : State)
  have hlist : (s.unpinned h d c).plans.list = [{ h with data := d, phase := .waitingCoach }] := congrArg Plans.list p1
  obtain ⟨b, hb⟩ := takeFigures_eq (s := s.unpinned h d c) hlist ((congrArg Heat.count p3).trans hc)
  have hsame : (s.unpinned h d c).headId = s.headId := by rw [headId_of_list hl, headId_of_list hlist, hid]
  refine ⟨b, ?_⟩
  unfold State.revisePinned
  dsimp only
  rw [hrep, if_neg hcoach, hfree, hsel, hend, reorder_single hlist rfl, if_pos hsame, hb]
  have habs : (s.unpinned h d c).absMinute = s.absMinute := by unfold State.absMinute; rw [show (s.unpinned h d c).clock = s.clock from p5]
  have hconf : (s.unpinned h d c).conf = s.conf := by unfold State.conf; rw [show (s.unpinned h d c).cfg = s.cfg from p4]
  exact matched_other (s := (s.unpinned h d c).figuresTaken d b) hlist rfl hlate
    (fun m e => by rw [show ((s.unpinned h d c).figuresTaken d b).conf = s.conf from hconf]; exact hm m (habs.symm.trans e))
    ((congrArg Link.coach p2).trans hk) hne

theorem State.Off.unpinned (k : s.Off) (h : Plan) (d : PlanData) (c : Coach) : (s.unpinned h d c).Off := by
  obtain ⟨-, -, p3, -, -, p6⟩ := checkEnded_plans ({ (s.replaced { h with phase := .waitingCoach } [] d).selected c.cls with
    heat := { s.heat with unreachableRecorded := false }, share := { s.share with fresh := true } } : State)
  refine ⟨?_, (congrArg Heat.state p3).trans k.2⟩
  have hstart : (s.unpinned h d c).start = s.start := p6
  unfold State.running
  rw [hstart]
  exact k.1

theorem State.Off.figuresTaken (k : s.Off) (d : PlanData) (b : Bool) : (s.figuresTaken d b).Off := k

/-- The unpinned head as the statement has it: its check ended last. -/
theorem unpinned_struck (s : State) (h : Plan) (d : PlanData) (c : Coach) (b : Bool) :
    ((((s.unpinned h d c).figuresTaken d b).headIn { h with data := d, phase := .waitingCoach } [] .wrongCoach).writeFault
        plan01 .blocking).struck =
      (let x := ((({ s with
          plans := { s.plans with list := [{ h with data := d, phase := .wrongCoach }] },
          faults := s.faults.write plan01 .blocking none s.depotTime } : State).classed d).selected c.cls).checkEnded
       { x with heat := { x.heat with unreachableRecorded := false } }) := by
  unfold State.unpinned State.checkEnded
  dsimp only
  by_cases hi : s.lamp.state = .idle
  · rw [if_pos (by exact hi), if_pos (by exact hi)]
    rfl
  · rw [if_neg (by exact hi), if_neg (by exact hi)]
    rfl

/-! ### Cancels (R10, R11) -/

/-- The list left empty, pre-heat in OFF: what the head leaves, its check ended, the class selected (R11). -/
theorem headChanged_left {id : Nat} (hl : s.plans.list = []) (hs : s.heat.state = .off) (ho : s.depart.own = .free)
    (hm : s.bay.latchMode = .automatic) (hq : s.link.queue = []) (hx : s.link.exchange = none) (hlit : s.lamp.lit = false) :
    s.headChanged (some id) = s.headLeft.checkEnded.selectClass := by
  have hdemote : (s.updPlans fun p => { p with list := p.list.map (demote (some id)) }) = s := by
    have e : s.plans.list.map (demote (some id)) = s.plans.list := by rw [hl]; rfl
    exact congrArg (fun l => ({ s with plans := { s.plans with list := l } } : State)) e
  have hhead : s.head = none := by rw [State.head, hl]; rfl
  have hn : s.headId ≠ some id := by rw [State.headId, hhead]; nofun
  have hleft : ((({ s with
      faults := (s.faults.unmark plan01).unmark plan02, heat := { s.heat with unreachableRecorded := false },
      share := { s.share with fresh := true } } : State).checkEnded).departHeadChange).latchHeadChange =
        s.headLeft.checkEnded := by
    unfold State.checkEnded
    dsimp only
    by_cases hi : s.lamp.state = .idle
    · rw [if_pos hi, if_pos (by exact hi), departHeadChange_free (by exact ho), latchHeadChange_automatic (by exact hm)]
      rfl
    · rw [if_neg hi, if_neg (by exact hi), departHeadChange_free (by exact ho), latchHeadChange_automatic (by exact hm)]
      rfl
  have hend : s.headLeft.checkEnded.plans.list = [] := (congrArg Plans.list (checkEnded_plans s.headLeft).1).trans hl
  have hsel : s.headLeft.checkEnded.selectClass.plans.list = [] :=
    (congrArg Plans.list (Standing.refl s.headLeft.checkEnded).selectClass.plans).trans hend
  rw [State.headChanged, if_neg hn]
  dsimp only
  rw [hdemote, clearKey_eq, clearKey_eq, heatHeadChange_off (by exact hs), takeFigures_headless (by exact hhead),
    lampHeadChange_ended (by exact hq) (by exact hx) (by exact hlit), hleft, matchCoach_headless hsel,
    evalOverdue_headless hsel]

/-- The list with its only record cancelled. -/
def State.emptied (s : State) : State := { s with plans := { s.plans with list := [], full := false, dropped := 0 } }

/-- The class selected, where a coach is identified, after the list has been left empty. -/
theorem emptied_selected (s : State) : s.emptied.headLeft.checkEnded.selectClass =
    match s.link.coach with
    | none => s.emptied.headLeft.checkEnded
    | some k => s.emptied.headLeft.checkEnded.selected k.cls := by
  obtain ⟨h1, h2, -⟩ := checkEnded_plans s.emptied.headLeft
  have hc : s.emptied.headLeft.checkEnded.link.coach = s.link.coach := congrArg Link.coach h2
  cases hk : s.link.coach with
  | none => exact selectClass_none (hc.trans hk)
  | some k =>
    refine selectClass_selected (hc.trans hk) fun p hp => ?_
    rw [State.head, h1] at hp
    cases hp

theorem removePlan_last {id : Nat} (hl : s.plans.list = [h]) (hid : h.data.id = id) :
    (s.updPlans fun p => { p with dropped := 0 }).removePlan id = s.emptied.headChanged (some id) := by
  have e : s.plans.list.filter (·.data.id != id) = [] := by rw [hl]; simp [hid]
  unfold State.removePlan
  dsimp only
  rw [headId_of_list (h := h) (rest := []) (by exact hl), hid]
  exact congrArg (fun l =>
    ({ s with plans := { s.plans with list := l, full := false, dropped := 0 } } : State).headChanged (some id)) e

theorem removePlan_other {id : Nat} (hl : s.plans.list = h :: rest) (hid : h.data.id ≠ id) : s.removePlan id =
    { s with plans := { s.plans with list := h :: rest.filter (·.data.id != id), full := false } } := by
  have e : s.plans.list.filter (·.data.id != id) = h :: rest.filter (·.data.id != id) := by
    rw [hl, List.filter_cons, if_pos (by simpa using hid)]
  have hrec : (s.updPlans fun p => { p with list := p.list.filter (·.data.id != id), full := false }) =
      { s with plans := { s.plans with list := h :: rest.filter (·.data.id != id), full := false } } :=
    congrArg (fun l => ({ s with plans := { s.plans with list := l, full := false } } : State)) e
  unfold State.removePlan
  dsimp only
  rw [hrec, State.headChanged, if_pos]
  rw [headId_of_list hl]
  rfl

/-! ### A revision of another record (R7) -/

/-- The fields of one departure in place of its old ones. -/
def redated (d : PlanData) (x : Plan) : Plan := if x.data.id = d.id then { x with data := d } else x

theorem redated_data (d : PlanData) (xs : List Plan) :
    (xs.map (redated d)).map Plan.data = (xs.map Plan.data).map fun x => if x.id = d.id then d else x := by
  rw [List.map_map, List.map_map]
  refine List.map_congr_left fun x _ => ?_
  simp only [Function.comp, redated]
  split <;> rfl

/-- Behind a pinned head the revised record takes its place. -/
theorem reordered_pinned (hl : s.plans.list = h :: rest) (hid : h.data.id ≠ d.id) (hp : h.phase.pinned = true) :
    orderPlans (s.plans.list.map (redated d)) = h :: sortPlans (rest.map (redated d)) := by
  rw [hl, List.map_cons, show redated d h = h from if_neg hid, orderPlans_pinned hp]

theorem redated_unheld (hn : ∀ x ∈ s.plans.list, x.held = none) :
    ∀ x ∈ orderPlans (s.plans.list.map (redated d)), x.held = none := by
  intro x hx
  obtain ⟨y, hy, rfl⟩ := List.mem_map.1 ((orderPlans_perm _).subset hx)
  unfold redated
  split <;> exact hn y hy

/-! ### The notice -/

section
variable {target : Byte} {payload : List Byte} (hs : s.Hears 5 0 target payload) (hset : s.counted.Settled)
  (hd : normalisePlan s.conf.lanes (planPayload payload) = some d) (hx : ∃ x ∈ s.plans.list, x.data.id = d.id)
include hs hset hd hx

theorem exec_revise (hc : (planPayload payload).cancel = false) :
    exec (.planNotice 0 target payload) s = conclude (s.counted.revisePlan d) := by
  refine (conclude_of_hears (fun t => t.takePlan (planPayload payload)) hs rfl).trans ?_
  rw [settled_counted hset, takePlan_revise (s := s.counted) hd hc hx]

theorem exec_cancel (hc : (planPayload payload).cancel = true) :
    exec (.planNotice 0 target payload) s = conclude (s.counted.cancelPlan d.id) := by
  refine (conclude_of_hears (fun t => t.takePlan (planPayload payload)) hs rfl).trans ?_
  rw [settled_counted hset, takePlan_cancel (s := s.counted) hd hc hx]

end

/-- The list after a revision of a record behind a pinned head (R7). -/
theorem revisedOther_list {t : State} (hl : s.plans.list = h :: rest) (hid : h.data.id ≠ d.id) (hp : h.phase.pinned = true)
    (e : t.plans.list.map Plan.data = (orderPlans (s.plans.list.map (redated d))).map Plan.data) :
    t.headId = s.headId ∧
      (t.plans.list.map Plan.data).Perm (h.data :: (rest.map Plan.data).map fun x => if x.id = d.id then d else x) ∧
      InOrder (t.plans.list.map Plan.data).tail := by
  rw [headId_eq t, headId_of_list hl, e]
  refine ⟨?_, ?_, orderPlans_tail _⟩
  · rw [reordered_pinned hl hid hp]
    rfl
  · rw [reordered_pinned hl hid hp, ← redated_data]
    exact ((sortPlans_perm _).map _).cons _

end Sys2Proof.Machine

open Sys2Proof Sys2Proof.Machine

/-- Settles O31: what a notice of a listed plan calls for, held in the head or applied at once, case by case. -/
theorem changeHeld : Obligations.ChangeHeld := by
  refine ⟨fun target payload s d h rest hs hset hd hl hid hu => ?_, fun target payload s d h rest hs hset hd hl => ?_⟩
  · have hmem : ∃ x ∈ s.plans.list, x.data.id = d.id := ⟨h, by rw [hl]; exact List.mem_cons_self, hid⟩
    refine ⟨fun hc => ?_, fun hc => ?_⟩
    · have hexec := exec_revise hs hset hd hmem hc
      rw [revisePlan_head (s := s.counted) hl hid, if_pos hu, mapHead_eq (s := s.counted.noted) hl] at hexec
      exact does_of hexec
    · have hexec := exec_cancel hs hset hd hmem hc
      rw [← hid, cancelPlan_held (s := s.counted) hl hu, mapHead_eq (h := h) (rest := rest) (by exact hl)] at hexec
      exact does_of hexec
  · have first (hid : h.data.id = d.id) : ∃ x ∈ s.plans.list, x.data.id = d.id :=
      ⟨h, by rw [hl]; exact List.mem_cons_self, hid⟩
    have later (hx : ∃ x ∈ rest, x.data.id = d.id) : ∃ x ∈ s.plans.list, x.data.id = d.id := by
      obtain ⟨x, hx, e⟩ := hx
      exact ⟨x, by rw [hl]; exact List.mem_cons_of_mem _ hx, e⟩
    refine ⟨fun hc hid hheld hlate hoff hcount hm => ?_, fun hc hid hx hp hn => ?_, fun hc hid hx => ?_,
      fun hc hid hr hu hoff hown hmode hq hxn hlit => ?_⟩
    · have ko : s.counted.noted.Off := ⟨hs.1, hoff⟩
      have hexec := exec_revise hs hset hd (first hid) hc
      rw [revisePlan_head (s := s.counted) hl hid] at hexec
      refine ⟨fun hr hp hlamp => ?_, fun hp k hk => ?_⟩
      · subst hr
        have hu : h.phase.underWay = false := by obtain hp | hp := hp <;> rw [hp] <;> rfl
        rw [if_neg (Bool.eq_false_iff.1 hu), if_neg (Bool.eq_false_iff.1 (unpinned_of hp))] at hexec
        refine ⟨fun hk => ?_, fun c hk => ⟨fun hne => ?_, fun he hcls => ?_⟩⟩
        · exact does_revised_absent hexec ko hl hid hp hlate hcount hlamp hm hk
        · exact does_revised_other hexec ko hl hid hp hlate hcount hlamp hm hk hne
        · exact does_revised_own hexec ko hl hid hp hlate hcount hlamp hm hk he hcls
      · have hu : h.phase.underWay = false := by obtain hp | hp := hp <;> rw [hp] <;> rfl
        have hpin : h.phase.pinned = true := by obtain hp | hp := hp <;> rw [hp] <;> rfl
        rw [if_neg (Bool.eq_false_iff.1 hu), if_pos hpin] at hexec
        refine ⟨fun he hcls hcoach hsame hskip => ?_, fun hr hne hcoach hq hxn hlit => ?_⟩
        · rw [revisePinned_same (s := s.counted.noted) hl hpin hcount hk hcls hcoach hsame hskip hlate hm] at hexec
          exact ((ko.revised h rest d).selected k.cls).does_struck hexec
        · subst hr
          obtain ⟨b, e⟩ := revisePinned_other (s := s.counted.noted) hl hid ko hcount hk hne hcoach hq hxn hlit hlate hm
          rw [e] at hexec
          have kd := ((((ko.unpinned h d k).figuresTaken d b).headIn _ _ _).writeFault _ _ _).does_struck hexec
          rw [unpinned_struck] at kd
          exact kd
    · have hexec := exec_revise hs hset hd (later hx) hc
      rw [revisePlan_other (s := s.counted) hl hid] at hexec
      have k := conclude_listed (s := s.counted.noted) (fun p => { p with list := orderPlans (p.list.map (redated d)) })
        s.counted.noted.headId (redated_unheld hn)
      exact ⟨_, hexec, conclude_headChanged_stable _ _,
        revisedOther_list (s := s.counted.noted) hl hid hp k.data⟩
    · have hexec := exec_cancel hs hset hd (later hx) hc
      rw [cancelPlan_now (s := s.counted) hl (Or.inl hid), removePlan_other (h := h) (rest := rest) (by exact hl) hid] at hexec
      exact does_of hexec
    · subst hr
      have hexec := exec_cancel hs hset hd (first hid) hc
      rw [cancelPlan_now (s := s.counted) hl (Or.inr hu), removePlan_last (s := s.counted) (h := h) hl hid,
        headChanged_left (s := s.counted.emptied) rfl hoff hown hmode hq hxn hlit] at hexec
      rw [hexec]
      exact does_of (congrArg conclude (emptied_selected s.counted))

end
